-- ==== Sys2Proof/Word.lean ====
section
/-! DEFINITION. The words of the Atmir A4 (00_scope R8, R9): bytes, 32- and 64-bit words, masks, the 4096 bits of a
vector register and the 128 bits of an instruction, with the plain bit fields `[hi:lo]` of R8. -/

namespace Sys2Proof

/-- One byte of memory (R9). -/
abbrev Byte := BitVec 8
/-- One lane of a vector register (R98). -/
abbrev W32 := BitVec 32
/-- A scalar register, an address, a control register (R4). -/
abbrev W64 := BitVec 64
/-- A mask register (R4), and an instruction word (R290). -/
abbrev W128 := BitVec 128
/-- The contents of a vector register: 128 lanes of 32 bits (R4), lane 0 lowest. -/
abbrev LaneWord := BitVec 4096
/-- The image of a map slot: 4096 bytes, byte 0 lowest (R132). -/
abbrev ImageWord := BitVec 32768

/-- Bits `[lo + w - 1 : lo]` of a word (R8: bit 0 is the least significant). -/
def bits {n : Nat} (x : BitVec n) (lo w : Nat) : BitVec w := BitVec.extractLsb' lo w x

/-- Bit `i` of a word. -/
def bit {n : Nat} (x : BitVec n) (i : Nat) : Bool := x.getLsbD i

/-- The word with bits `[lo + w - 1 : lo]` replaced by `v`. -/
def putBits {n w : Nat} (x : BitVec n) (lo : Nat) (v : BitVec w) : BitVec n :=
  let m : BitVec n := (BitVec.allOnes w).setWidth n <<< lo
  (x &&& ~~~m) ||| (v.setWidth n <<< lo)

/-- A bit as a one-bit number. -/
def b2n (b : Bool) : Nat := if b then 1 else 0

end Sys2Proof
end

