-- ==== Sys2Proof/Syntax.lean ====
section
/-! DEFINITION. The steps of the Atmir A4: one constructor of `Instr` for each row of spec/opcode_table.json. The 153 opcodes of R307
carry the whole 128-bit frame of R290, because R247 and R312 fix the order in which its fields are checked and name the field that
fails. The other rows are steps of the hub, the owners, the engines, the links and the host (spec/95); their arguments name the object
they act on, or carry what comes from outside the device. -/

namespace Sys2Proof

/-- Element type codes (R293); the constructor's position is its code. -/
inductive ElemType
  | f32 | f16 | bf16 | e4m3 | e5m2 | e2m1 | i32 | n32 | i16 | n16 | i8 | n8 | i4 | f64 | i64 | b32
  deriving DecidableEq, Repr, Inhabited

/-- Operand codes (R294): 0 to 319, 320 to 383, 384 to 399, 400 to 404, 405 to 509 (none), 510, 511. -/
inductive Operand
  | v (n : Fin 320) | s (n : Fin 64) | k (n : Fin 16)
  | lane | strand | role | group | zero
  | unassigned (n : Fin 105)
  | imm | none
  deriving DecidableEq, Repr, Inhabited

/-- The instruction frame (R290) less its opcode. `fs1` is bits [81:64], `fs2` bits [41:32]; the marks, hints and nowait bits hold
A in bit 2, B in bit 1 and C in bit 0. -/
structure Frame where
  d   : Operand
  a   : Operand
  b   : Operand
  c   : Operand
  fs1 : BitVec 18
  k   : BitVec 4
  kn  : Bool
  rm  : BitVec 3
  sat : Bool
  et  : ElemType
  lr  : BitVec 3
  ru  : BitVec 3
  nw  : BitVec 3
  fs2 : BitVec 10
  imm : BitVec 32
  deriving DecidableEq, Repr, Inhabited

/-- The memories of R5 and R223. -/
inductive Place
  | near (die : Nat) | far (die : Nat) | store (die : Nat) | host | peer (dev : Nat) | core (core : Nat)
  deriving DecidableEq, Repr, Inhabited

/-- One erratum of the expansion table (R88). -/
structure Erratum where
  number   : Nat
  fixLevel : Nat
  carried  : Bool
  deriving DecidableEq, Repr, Inhabited

/-- A firmware image (R88, R446): a name for its bytes, which the specification does not give, and its errata list. -/
structure Firmware where
  image  : Nat
  errata : List Erratum
  deriving DecidableEq, Repr, Inhabited

/-- Hub controller registers that only store what is written (R441); the range registers stand for what R223 says the host exports
through its hub controller, at an offset the specification does not give (log 20). -/
inductive HubReg
  | devnum | rank | peerrt (n : Nat) | keywin | commwin (word : Nat) | attestNonce (word : Nat) | reportAddr
  | exportBase | exportLen | peerExportBase (dev : Nat) | peerExportLen (dev : Nat)
  deriving DecidableEq, Repr, Inhabited

/-- What a flit carries besides its communicator's CID and GEN (R256, R262, R266): the bytes of an LSEND, a heartbeat, or anything else that
only passes through this device (R261). -/
inductive Payload
  | data (ctxOp : Nat) (dst : W64) (bytes : List Byte) (last : Option (W64 × W64))
  | heartbeat | other
  deriving DecidableEq, Repr, Inhabited

/-- A flit that reaches this device's hub (R257, R262), for device `dev` (R261). -/
structure Flit where
  dev     : Nat
  cid     : BitVec 32
  gen     : BitVec 32
  rank    : Nat
  payload : Payload
  deriving DecidableEq, Repr, Inhabited

/-- One element position of a tree node or contribution (R37): absent, a float node's bits (FP32 or FP64), or an exact integer. -/
inductive NodeVal
  | absent | fp (w : W64) | int (n : Int)
  deriving DecidableEq, Repr, Inhabited

/-- A contribution or tree node of collective `coll` sent by the member of rank `rank` (R267, R436). -/
structure Contribution where
  cid  : BitVec 32
  gen  : BitVec 32
  coll : Nat
  rank : Nat
  vals : List NodeVal
  deriving DecidableEq, Repr, Inhabited

/-- A receiver's acknowledgement of LSEND bytes (R266): performed, or ended by a translation or protection failure at an address. -/
inductive AckResult
  | ok | fault (va : W64)
  deriving DecidableEq, Repr, Inhabited

/-- The atomic operations of POLOP (R302, R382). -/
inductive AtomOp
  | add | min | max | minu | maxu | and | or | xor | xchg | fadd | fmin | fmax
  deriving DecidableEq, Repr, Inhabited

/-- A flit on a device link, by its number there (R257), and whether it is a heartbeat or an abort, which the link status word does not
count (R259). -/
structure LinkFlit where
  link  : Nat
  flit  : Nat
  quiet : Bool
  deriving DecidableEq, Repr, Inhabited

/-- A root's values with the rank of the member that sent them on (R262, R267). -/
structure RootFlit where
  rank : Nat
  vals : List NodeVal
  deriving DecidableEq, Repr, Inhabited

/-- A peer window access from another device (R223) at a physical address of this device. -/
inductive PeerRequest
  | read (place : Place) (pa n : Nat)
  | write (place : Place) (pa : Nat) (bytes : List Byte)
  | atomic (place : Place) (pa : Nat) (op : AtomOp) (et : ElemType) (rm : BitVec 3) (x : W64)
  | swap (place : Place) (pa n : Nat) (cmp x : W64)
  deriving DecidableEq, Repr, Inhabited

/-- A host access over CXL.mem (R155, R235). -/
inductive CxlAccess
  | read (place : Place) (pa n : Nat)
  | write (place : Place) (pa : Nat) (bytes : List Byte)
  deriving DecidableEq, Repr, Inhabited

/-- A corrected error (R449, R450): the die, or the hub; the kind of R449's table; the physical unit and address; the hub timer's
reading in seconds. -/
structure ErrorReport where
  die   : Option Nat
  kind  : Nat
  part  : Nat
  addr  : Nat
  stamp : Nat
  deriving DecidableEq, Repr, Inhabited

/-- The steps of the machine, one for each row of the opcode table. -/
inductive Instr
  /-- A reset verifies the signed firmware image, expansion table and identity certificate, loads the verified table, and fixes the facts until the next reset. (R446) -/
  | deviceReset (staged : Option Firmware) (signed : Bool)
  /-- A control queue command reserves a context number and checks the context record, or completes with WRONG_STATE or BAD_RECORD. (R41) -/
  | ctxCreate
  /-- A control queue command re-reads and checks the context record, installs the roots at each owner and latches handler, seed, quotas, mode and save area. (R46) -/
  | ctxLoad
  /-- A control queue command replaces DET and QEXP of a loaded context from the named record and restarts the launch sequence count. (R46) -/
  | ctxMode
  /-- A control queue command freezes every strand of the context at an instruction boundary and waits for producers, engines, slot loads, handler and epoch end before the save. (R252) -/
  | ctxPreempt
  /-- Once pre-emption has drained, the hub sizes the save, either restores the strands and completes with SAVE_OVERFLOW or writes directory, group and strand records and completes. (R253) -/
  | ctxSave (ctx : Nat)
  /-- A control queue command restores each saved group on cores of the partition, re-enters bud waiters and places held launches after the restored groups. (R255) -/
  | ctxResume
  /-- A control queue command removes strands, abandons engine and link work, releases claims and table entries, resets OPENING cells to BUD, invalidates lines and uninstalls roots. (R50) -/
  | ctxDestroy
  /-- A control queue command reads a work queue descriptor and binds the queue to a created context, possibly making it the context's primary queue. (R73) -/
  | queueCreate
  /-- A control queue command stops a work queue from taking entries while taken entries run on. (R73) -/
  | queueStop
  /-- A control queue command restarts a stopped work queue whose context is not destroyed. (R73) -/
  | queueStart
  /-- A control queue command completes untaken entries with ABANDONED, waits for taken entries and removes the queue. (R73) -/
  | queueDestroy
  /-- A control queue command, taken after all earlier control entries complete, writes the 8 KiB summary record of contexts, queues, links, partitions and error counters. (R74) -/
  | resync
  /-- A coherence notice on a held tail line makes the hub re-read the tail and take every entry below the new count, or put the queue in error on a bad count. (R61) -/
  | tailNotice (q : Nat)
  /-- The hub takes a launch record, runs the launch checks in order, invalidates instruction cache lines and offers the groups to the die distributors. (R82) -/
  | launch (q : Nat)
  /-- The hub takes a WAIT entry and blocks its queue until the counter comparison holds. (R71) -/
  | waitEntry (q : Nat)
  /-- On a coherence notice or an owner atomic to the counter, the hub re-evaluates a pending WAIT and completes it when the comparison first holds. (R71) -/
  | waitRecheck (q : Nat)
  /-- The hub takes a SIGNAL entry as if BAR were set and performs its atomic add or store at system scope. (R71) -/
  | signalEntry (q : Nat)
  /-- The hub's copy engine executes a COPY entry, making its bytes visible at system scope by completion. (R71) -/
  | copyEntry (q : Nat)
  /-- An entry completes: SIGADDR is checked, STATUS and DONE are written, the completion atomic is performed and the head advances in order. (R64) -/
  | entryComplete (q n : Nat)
  /-- When every strand of a launch and its descendants has exited and its stores are visible at system scope, the launch completes. (R69) -/
  | launchComplete (l : Nat)
  /-- A die distributor places a waiting group on a permitted core with room, by round robin in normal mode or on its fixed core at an epoch end in deterministic mode. (R117) -/
  | groupPlace (ctx : Nat)
  /-- A distributor places a ready pool entry (spawned strand, released node or evaluator) on a core with room, refilling the pool from overflow storage. (R76) -/
  | poolPlace (die : Nat)
  /-- The core serves the oldest waiting CLAIM whole once the group's pool holds its blocks, mapping them as empty registers. (R110) -/
  | claimServe (g : Nat)
  /-- When every strand of a deterministic domain has ended its quantum or exited, the epoch ends, Commit runs and every strand begins a new quantum. (R52) -/
  | epochEnd (ctx : Nat)
  /-- The core starts its handler strand afresh at HANDLER for the oldest frozen strand in its queue. (R243) -/
  | handlerStart (core : Nat)
  /-- A host write to HOSTINT requests HOST_INTERRUPT for the named strand, with no effect on an empty slot or another context's strand. (R441) -/
  | hostintWrite (v : W64)
  /-- A pending host interrupt is taken at the strand's next instruction boundary once completing instructions have retired, freezing it with EPC at the oldest unretired instruction. (R249) -/
  | hostInterrupt (sid : Nat)
  /-- A core load lane arrives at a cell's owner and returns bytes, opens a bud, joins a wait, is refused, or traps by the cell state table. (R161) -/
  | ownerCellLoad (req : Nat)
  /-- A core reissues a refused load lane, which meets the translation checks and the cell state machine afresh. (R160) -/
  | loadReissue (req : Nat)
  /-- The lanes of an asynchronous load land into their destination, which becomes full when its last lane lands unless rewritten. (R380) -/
  | vldaLand (op : Nat)
  /-- The bytes of an outstanding MLOAD or MSIDE land in program order, and the slot leaves loading for dirty when all have landed. (R134) -/
  | slotLoadLand (op : Nat)
  /-- The owner pulls an absent line of a migrating page from SRC to NEW at its own rate, setting DONE when the map is full. (R218) -/
  | migrationPull (ctx : Nat) (va : W64)
  /-- A registered engine operation starts once every earlier overlapping operation has landed its last byte. (R181) -/
  | engineStart (op : Nat)
  /-- Settled engine elements subtract their bytes from PENDBYTES, recording faults, cell skips and collisions, and Settle runs. (R174) -/
  | engineCountDown (op n : Nat)
  /-- Once every affected strand is parked, the patch engine writes the text, invalidates instruction caches, reopens the range, resumes strands and increments DONEADDR. (R96) -/
  | patchApply (p : Nat)
  /-- Every WDOG milliseconds the hub scans each wait table and reports cells stalled OPENING at two consecutive scans. (R57) -/
  | budWatchdogScan (ctx : Nat)
  /-- A CTLQ write with bit 0 set establishes the control queue from a descriptor that passes the checks, or sets HCSTATUS bit 3. (R441) -/
  | ctlqEstablish (v : W64)
  /-- A CTLQ write with bit 0 clear removes the control queue, completing taken entries and clearing its error. (R441) -/
  | ctlqRemove (v : W64)
  /-- A write to PARTLAYOUT sets the partition layout only while no context exists other than destroyed ones. (R42) -/
  | partlayoutWrite (v : W64)
  /-- A write to SAVEBASE sets the save region base only while no context exists other than destroyed ones. (R441) -/
  | savebaseWrite (v : W64)
  /-- A write to SAVELEN sets the save region length only while no context exists other than destroyed ones. (R441) -/
  | savelenWrite (v : W64)
  /-- A write to CAPHOST sets each partition's host cap, which combines with the other limits into the effective cap. (R445) -/
  | caphostWrite (v : W64)
  /-- A host write to a hub controller register without behaviour of its own, such as DEVNUM, RANK, PEERRT or KEYWIN, stores its value. (R441) -/
  | registerWrite (r : HubReg) (v : W64)
  /-- LINKCTL code 1 enables a link, which enters training. (R258) -/
  | linkEnable (l : Nat)
  /-- LINKCTL code 0 disables a link, which goes off with the consequences of failure if it was up. (R258) -/
  | linkDisable (l : Nat)
  /-- LINKCTL code 2 retrains a failed link, keeping its counts. (R258) -/
  | linkRetrain (l : Nat)
  /-- All eight lanes lock and numbers are exchanged, so the link goes up and records its peer. (R258) -/
  | linkTrained (l pdev plink : Nat)
  /-- A link not up within 100 ms of training fails and its failure count increments. (R258) -/
  | linkTrainTimeout (l : Nat)
  /-- A link leaves up on eight failed sends, lane loss or peer reset; flits are lost, communicators and routes invalidated, and bytes counted down as lost. (R259) -/
  | linkFail (l : Nat)
  /-- A received flit fails its check and is resent from the sender's replay buffer as a corrected error. (R257) -/
  | flitCheckFail (l : LinkFlit)
  /-- A receiving hub accepts a flit into a valid slot of matching CID and GEN and performs its writes, or refuses it. (R262) -/
  | flitReceive (f : Flit)
  /-- A source receiving a refusal for a flow marks that communicator invalid. (R259) -/
  | refusalReceive (slot : Nat)
  /-- A member receiving an abort flit for a collective marks the communicator invalid and counts its bytes down as lost. (R259) -/
  | abortReceive (cid gen : BitVec 32)
  /-- Every 1 ms each member's hub sends a heartbeat flit to every other member of a valid communicator. (R259) -/
  | heartbeatTick (slot : Nat)
  /-- A member in an LRED that has heard nothing for 10 ms from a member it waits on marks the communicator invalid and sends aborts. (R259) -/
  | heartbeatTimeout (slot : Nat)
  /-- A source with no acknowledgement for a flit within 10 ms treats it as lost and marks the communicator invalid. (R259) -/
  | ackTimeout (op : Nat)
  /-- A receiver's acknowledgement counts LSEND bytes down on the sender's barrier object, after the SIGADDR add for the last bytes. (R266) -/
  | lsendAck (op n : Nat) (r : AckResult)
  /-- A contribution or tree node reaches a member's hub and is combined into the node or ARRIVAL accumulator. (R436) -/
  | lredContribution (c : Contribution)
  /-- The root of a collective reaches a member, which writes the same bits into its destination and counts them down. (R267) -/
  | lredRoot (cid gen : BitVec 32) (coll : Nat) (vals : RootFlit)
  /-- A peer window access arrives over the links and is performed in the exported range at the peer memory's owner. (R223) -/
  | peerWindowRequest (dev : Nat) (r : PeerRequest)
  /-- A write of a slot number to COMMWIN offset 0x480 checks and installs a communicator record, reporting in COMMSTAT and abandoning earlier operations. (R262) -/
  | commInstall (v : W64)
  /-- A cap frame from the management port is discarded with a count or accepted, setting or lifting each partition's frame cap by rank. (R444) -/
  | capFrame (payload : List Byte)
  /-- A change of a thermal or current limit recomputes each partition's effective cap and CAPCAUSE. (R443) -/
  | limitChange (part : Nat) (thermal current : Option Nat) (draw : Nat)
  /-- Writing START to the attestation control word makes the hub build and sign a report, unless REPORTADDR is misaligned. (R448) -/
  | attestStart (v : W64)
  /-- The hub writes the signed report at REPORTADDR, makes it visible at system scope and clears START. (R448) -/
  | attestReport
  /-- A host CXL.mem read or write touches device memory bytes at the owner without reading tags or opening buds, discarding writes to BUD or OPENING cells. (R155) -/
  | cxlMemAccess (a : CxlAccess)
  /-- A corrected error increments its counter and may be judged a lasting fault. (R449) -/
  | correctedError (e : ErrorReport)
  /-- An uncorrectable error is counted and, in a context's state, faults that context. (R47) -/
  | uncorrectableError (die : Nat) (ctx : Option Nat)
  /-- No operation. (R322) -/
  | nop (f : Frame)
  /-- Branches relatively, unconditionally or on a mask test. (R317) -/
  | bra (f : Frame)
  /-- Branches relatively on a test of a signed scalar. (R317) -/
  | brs (f : Frame)
  /-- Tests a mask, removes its lanes from a loop mask and branches on the test. (R317) -/
  | brk (f : Frame)
  /-- Writes the return address to a scalar and branches relatively. (R319) -/
  | call (f : Frame)
  /-- Jumps to a return address held in a scalar. (R319) -/
  | ret (f : Frame)
  /-- Jumps to an absolute target held in a scalar. (R319) -/
  | jmpi (f : Frame)
  /-- Yields issue to other strands, or ends the quantum in deterministic mode. (R320) -/
  | yield (f : Frame)
  /-- Ends the strand, releasing its resources, or traps BUD_UNFILLED in an unfilled evaluator; in the handler it ends service. (R321) -/
  | exit (f : Frame)
  /-- Retires and traps SOFTWARE with its argument. (R322) -/
  | trap (f : Frame)
  /-- Retires and traps BREAKPOINT. (R322) -/
  | bkpt (f : Frame)
  /-- Mask AND. (R324) -/
  | kand (f : Frame)
  /-- Mask OR. (R324) -/
  | kor (f : Frame)
  /-- Mask XOR. (R324) -/
  | kxor (f : Frame)
  /-- Mask AND NOT. (R324) -/
  | kandn (f : Frame)
  /-- Mask NOT. (R324) -/
  | knot (f : Frame)
  /-- Mask copy. (R324) -/
  | kmov (f : Frame)
  /-- Builds a mask of a lane range. (R324) -/
  | krange (f : Frame)
  /-- Counts the set bits of a mask into a scalar. (R324) -/
  | kpop (f : Frame)
  /-- Finds the lowest set bit of a mask. (R324) -/
  | kffs (f : Frame)
  /-- Reads one 64-bit half of a mask into a scalar. (R324) -/
  | kget (f : Frame)
  /-- Writes one 64-bit half of a mask from a scalar. (R324) -/
  | kput (f : Frame)
  /-- Scalar add, wrapping or saturating. (R327) -/
  | sadd (f : Frame)
  /-- Scalar subtract, wrapping or saturating. (R327) -/
  | ssub (f : Frame)
  /-- Scalar multiply, wrapping or saturating. (R327) -/
  | smul (f : Frame)
  /-- High half of a scalar product. (R327) -/
  | smulh (f : Frame)
  /-- Scalar AND. (R327) -/
  | sand (f : Frame)
  /-- Scalar OR. (R327) -/
  | sor (f : Frame)
  /-- Scalar XOR. (R327) -/
  | sxor (f : Frame)
  /-- Scalar shift left. (R327) -/
  | sshl (f : Frame)
  /-- Scalar logical shift right. (R327) -/
  | sshr (f : Frame)
  /-- Scalar arithmetic shift right. (R327) -/
  | ssra (f : Frame)
  /-- Scalar minimum by type. (R327) -/
  | smin (f : Frame)
  /-- Scalar maximum by type. (R327) -/
  | smax (f : Frame)
  /-- Scalar unsigned minimum. (R327) -/
  | sminu (f : Frame)
  /-- Scalar unsigned maximum. (R327) -/
  | smaxu (f : Frame)
  /-- Scalar move. (R327) -/
  | smov (f : Frame)
  /-- Writes an extended immediate into a scalar. (R329) -/
  | simm (f : Frame)
  /-- Writes an immediate into the high 32 bits of a scalar. (R329) -/
  | simmh (f : Frame)
  /-- Compares two scalars into a bit set. (R328) -/
  | scmp (f : Frame)
  /-- Selects one of two scalars by a third. (R327) -/
  | ssel (f : Frame)
  /-- Scalar load, a one-lane access that may open or wait on a bud. (R331) -/
  | sld (f : Frame)
  /-- Scalar store, a one-lane access. (R331) -/
  | sst (f : Frame)
  /-- Reads a control register into a scalar in program order. (R332) -/
  | srdc (f : Frame)
  /-- Writes a writable control register at retirement after checking selector and value. (R332) -/
  | swrc (f : Frame)
  /-- Vector integer add. (R342) -/
  | viadd (f : Frame)
  /-- Vector integer subtract. (R342) -/
  | visub (f : Frame)
  /-- Vector integer multiply. (R342) -/
  | vimul (f : Frame)
  /-- High half of a vector integer product. (R342) -/
  | vimulh (f : Frame)
  /-- Vector integer multiply-add with one reduction. (R342) -/
  | vimad (f : Frame)
  /-- Vector integer minimum. (R342) -/
  | vimin (f : Frame)
  /-- Vector integer maximum. (R342) -/
  | vimax (f : Frame)
  /-- Vector bitwise AND. (R343) -/
  | vand (f : Frame)
  /-- Vector bitwise OR. (R343) -/
  | vor (f : Frame)
  /-- Vector bitwise XOR. (R343) -/
  | vxor (f : Frame)
  /-- Vector bitwise NOT. (R343) -/
  | vnot (f : Frame)
  /-- Vector shift left. (R342) -/
  | vshl (f : Frame)
  /-- Vector logical shift right. (R342) -/
  | vshr (f : Frame)
  /-- Vector arithmetic shift right. (R342) -/
  | vsra (f : Frame)
  /-- Vector rotate left. (R343) -/
  | vrot (f : Frame)
  /-- Vector bit-field extract. (R343) -/
  | vbfe (f : Frame)
  /-- Vector bit-field insert. (R343) -/
  | vbfi (f : Frame)
  /-- Vector population count. (R343) -/
  | vpopc (f : Frame)
  /-- Vector count of leading zeros. (R343) -/
  | vclz (f : Frame)
  /-- Vector integer compare into a mask. (R344) -/
  | vicmp (f : Frame)
  /-- Vector lane select by a mask. (R345) -/
  | vsel (f : Frame)
  /-- Vector copy or retag of a register. (R346) -/
  | vmov (f : Frame)
  /-- Writes each lane's coordinate at a level. (R347) -/
  | vidx (f : Frame)
  /-- Vector float add rounded once. (R348) -/
  | vfadd (f : Frame)
  /-- Vector float subtract rounded once. (R348) -/
  | vfsub (f : Frame)
  /-- Vector float multiply rounded once. (R348) -/
  | vfmul (f : Frame)
  /-- Vector fused multiply-add rounded once. (R348) -/
  | vfma (f : Frame)
  /-- Vector float minimum. (R350) -/
  | vfmin (f : Frame)
  /-- Vector float maximum. (R350) -/
  | vfmax (f : Frame)
  /-- Vector float compare into a mask. (R351) -/
  | vfcmp (f : Frame)
  /-- Classifies each float value. (R352) -/
  | vfclass (f : Frame)
  /-- Vector reciprocal, correctly rounded. (R353) -/
  | vfrcp (f : Frame)
  /-- Vector reciprocal square root, correctly rounded. (R353) -/
  | vfrsq (f : Frame)
  /-- Vector square root. (R348) -/
  | vfsqrt (f : Frame)
  /-- Vector float divide. (R348) -/
  | vfdiv (f : Frame)
  /-- Vector base-2 exponential. (R353) -/
  | vfexp2 (f : Frame)
  /-- Vector base-2 logarithm. (R353) -/
  | vflog2 (f : Frame)
  /-- Vector sine. (R353) -/
  | vfsin (f : Frame)
  /-- Vector cosine. (R353) -/
  | vfcos (f : Frame)
  /-- Converts, scales, quantises or dequantises to a float format by part. (R357) -/
  | vfcvt (f : Frame)
  /-- Converts float values to an integer format by part. (R359) -/
  | vftoi (f : Frame)
  /-- Rounds to an integral value in the same format. (R354) -/
  | vffri (f : Frame)
  /-- Multiplies by a power of two. (R355) -/
  | vfscale (f : Frame)
  /-- FP64 add on register pairs. (R348) -/
  | vdadd (f : Frame)
  /-- FP64 multiply on register pairs. (R348) -/
  | vdmul (f : Frame)
  /-- FP64 fused multiply-add on register pairs. (R348) -/
  | vdfma (f : Frame)
  /-- Draws random bits from each active lane's stream counter 0. (R360) -/
  | vrand (f : Frame)
  /-- Moves lanes within span segments by index, distance, XOR or broadcast. (R361) -/
  | vshfl (f : Frame)
  /-- Reads one lane into a scalar. (R362) -/
  | vlane (f : Frame)
  /-- Writes one lane from a scalar. (R363) -/
  | vputl (f : Frame)
  /-- Binds a logical map slot to a reserved physical slot with its word at reset. (R367) -/
  | mclaim (f : Frame)
  /-- Unbinds a logical map slot, discarding outstanding loads. (R367) -/
  | mfree (f : Frame)
  /-- Writes a checked descriptor into a slot word. (R368) -/
  | mbind (f : Frame)
  /-- Starts loading image rows from memory into a slot. (R369) -/
  | mload (f : Frame)
  /-- Starts loading side memory into a slot. (R369) -/
  | mside (f : Frame)
  /-- Writes slot rows from a vector register. (R370) -/
  | mfill (f : Frame)
  /-- Writes a generated pattern into a dense slot. (R371) -/
  | mgen (f : Frame)
  /-- Stores a slot's image, side memory and word to memory. (R372) -/
  | mdrain (f : Frame)
  /-- Returns a slot word into a scalar. (R368) -/
  | mquery (f : Frame)
  /-- Vector load per lane. (R378) -/
  | vld (f : Frame)
  /-- Vector store per lane, highest lane winning each byte. (R378) -/
  | vst (f : Frame)
  /-- Loads a contiguous block of registers. (R379) -/
  | vldb (f : Frame)
  /-- Stores a contiguous block of registers. (R379) -/
  | vstb (f : Frame)
  /-- Asynchronous load that retires before its data lands. (R380) -/
  | vlda (f : Frame)
  /-- Per-lane atomic at the owner without a result. (R383) -/
  | vatom (f : Frame)
  /-- Per-lane atomic at the owner returning the old value. (R383) -/
  | vatomr (f : Frame)
  /-- Per-lane compare and swap. (R384) -/
  | vcas (f : Frame)
  /-- Writes or adds active lanes to a list of destinations, each checked whole. (R385) -/
  | vmcast (f : Frame)
  /-- Prefetch hint with no architectural effect. (R381) -/
  | vpref (f : Frame)
  /-- Plants a bud in each active lane's cell. (R386) -/
  | budst (f : Frame)
  /-- Fills the evaluator's opening cell, turning it VALUE and waking its waiters. (R387) -/
  | bloom (f : Frame)
  /-- Returns each cell's tag without opening it. (R388) -/
  | budq (f : Frame)
  /-- Orders the strand's accesses by scope and ORD. (R394) -/
  | fence (f : Frame)
  /-- Adds or counts up a binding-table entry for a binder and region. (R396) -/
  | bind (f : Frame)
  /-- Counts down and frees a binding-table entry. (R396) -/
  | unbind (f : Frame)
  /-- Reads a binder's version and invalidates bound regions whose version moved. (R233) -/
  | acq (f : Frame)
  /-- Writes back bound regions and increments a binder's version. (R232) -/
  | rel (f : Frame)
  /-- Arrives at the group barrier and waits for the group. (R186) -/
  | gbar (f : Frame)
  /-- Initialises a barrier object. (R175) -/
  | boinit (f : Frame)
  /-- Adds expected bytes to a barrier object and settles. (R175) -/
  | boexp (f : Frame)
  /-- Arrives at a barrier object, returning the old phase, and settles. (R175) -/
  | boarr (f : Frame)
  /-- Waits for a barrier object's phase to change, then acquires. (R175) -/
  | bowait (f : Frame)
  /-- Tests a barrier object's phase without waiting. (R175) -/
  | botest (f : Frame)
  /-- Ends the quantum in deterministic mode. (R397) -/
  | qend (f : Frame)
  /-- Registers a layout copy on the engine with range locks and a barrier charge. (R402) -/
  | tcopy (f : Frame)
  /-- Registers a reducing layout copy on the engine. (R200) -/
  | tred (f : Frame)
  /-- Registers a send of bytes to a communicator member. (R266) -/
  | lsend (f : Frame)
  /-- Registers this member's part of a collective reduction. (R267) -/
  | lred (f : Frame)
  /-- Creates a child strand from a spawn record after a device-scope release. (R406) -/
  | spawn (f : Frame)
  /-- Creates a graph node with a predecessor count and returns its handle. (R406) -/
  | spawnd (f : Frame)
  /-- Decrements a node's count, releasing its strand at zero. (R408) -/
  | signal (f : Frame)
  /-- Gives register blocks to the group's pool. (R110) -/
  | give (f : Frame)
  /-- Requests register blocks from the group's pool, waiting until served. (R110) -/
  | claim (f : Frame)
  /-- Reads a fact by number into a scalar. (R411) -/
  | caprd (f : Frame)
  /-- Handler read of a subject's control register. (R413) -/
  | prdc (f : Frame)
  /-- Handler write of a subject's control register. (R413) -/
  | pwrc (f : Frame)
  /-- Resumes the subject, replaying its recorded lanes, and ends the handler's service. (R246) -/
  | tret (f : Frame)
  /-- Copies a subject vector register into a handler register. (R415) -/
  | hsavev (f : Frame)
  /-- Writes a subject vector register's lanes from a handler register. (R415) -/
  | hloadv (f : Frame)
  /-- Copies a subject scalar register. (R415) -/
  | hsaves (f : Frame)
  /-- Writes a subject scalar register. (R415) -/
  | hloads (f : Frame)
  /-- Copies a subject mask register. (R415) -/
  | hsavek (f : Frame)
  /-- Writes a subject mask register other than k0. (R415) -/
  | hloadk (f : Frame)
  /-- Loads a subject's frozen map slot from memory. (R416) -/
  | hloadm (f : Frame)
  /-- Reads, or abandons and reads, the producer of a subject register. (R417) -/
  | hrob (f : Frame)
  /-- Checks a patch record and starts the patch engine on the subject's context. (R418) -/
  | patch (f : Frame)
  /-- Invalidates instruction cache lines of a range on the partition's cores. (R419) -/
  | iinv (f : Frame)
  /-- Writes back and invalidates lines and discards translations over a range at an owner. (R213) -/
  | tinv (f : Frame)
  /-- A strand decodes an instruction word whose opcode is unassigned for its revision and traps ILLEGAL_OPCODE, FIELD 1, whatever the mask. (R308) -/
  | illegalOpcode (op : BitVec 10) (f : Frame)
  /-- An instruction fetch fails Owner, the walk or X and traps at the fetch address with FAULTMASK zero before any opcode is known. (R220) -/
  | instructionFetchFault
  /-- A core writes back the dirty bytes of an L1 line to the owner of its own accord, at any time. (R225) -/
  | dirtyLineWriteBack (core ctx : Nat) (va : W64) (evict : Bool)
  /-- An ordinary load, store or atomic lane arrives at its owner, is translated, pulled if migrating, performed in arrival order and answered to the core. (R226) -/
  | ownerAccess (n : Nat)
  deriving DecidableEq, Repr, Inhabited

end Sys2Proof
end

