-- ==== Sys2Proof/Machine/Number.lean ====
section
/-! DEFINITION. Numbers, formats and rounding (01_numbers R13 to R32): decoding a floating-point value, exact arithmetic, and the one
rounding function of R20. -/

namespace Sys2Proof.Machine

/-- Exception bits as FLAGS numbers them (R23): invalid 0, divide by zero 1, overflow 2, underflow 3, inexact 4, clamped by SAT 5. -/
abbrev Exc := BitVec 6

def excInvalid : Exc := 0b000001
def excDivZero : Exc := 0b000010
def excOverflow : Exc := 0b000100
def excUnderflow : Exc := 0b001000
def excInexact : Exc := 0b010000
def excSat : Exc := 0b100000

/-- The special encodings of a format (R13). -/
inductive FSpecial
  | ieee | e4m3 | e2m1
  deriving DecidableEq, Repr

/-- A floating-point format (R13): exponent and fraction bits, bias, special encodings, and whether FTZ and DAZ apply (R27). -/
structure FFmt where
  ebits : Nat
  fbits : Nat
  bias  : Nat
  spec  : FSpecial
  flush : Bool
  deriving DecidableEq, Repr

def FFmt.f64 : FFmt := ⟨11, 52, 1023, .ieee, true⟩
def FFmt.f32 : FFmt := ⟨8, 23, 127, .ieee, true⟩
def FFmt.f16 : FFmt := ⟨5, 10, 15, .ieee, true⟩
def FFmt.bf16 : FFmt := ⟨8, 7, 127, .ieee, true⟩
def FFmt.e4m3 : FFmt := ⟨4, 3, 7, .e4m3, false⟩
def FFmt.e5m2 : FFmt := ⟨5, 2, 15, .ieee, false⟩
def FFmt.e2m1 : FFmt := ⟨2, 1, 1, .e2m1, false⟩

end Sys2Proof.Machine

namespace Sys2Proof

/-- The floating-point format of an element type. -/
def ElemType.ffmt : ElemType → Option Machine.FFmt
  | .f32 => some .f32 | .f16 => some .f16 | .bf16 => some .bf16 | .e4m3 => some .e4m3 | .e5m2 => some .e5m2
  | .e2m1 => some .e2m1 | .f64 => some .f64
  | .i32 | .n32 | .i16 | .n16 | .i8 | .n8 | .i4 | .i64 | .b32 => none

/-- The width in bits of an element (R15, R16). -/
def ElemType.width : ElemType → Nat
  | .f32 | .i32 | .n32 | .b32 => 32
  | .f16 | .bf16 | .i16 | .n16 => 16
  | .e4m3 | .e5m2 | .i8 | .n8 => 8
  | .e2m1 | .i4 => 4
  | .f64 | .i64 => 64

/-- Elements of a lane (R16); a pair format has one. -/
def ElemType.packing (t : ElemType) : Nat := if t.width = 64 then 1 else 32 / t.width

/-- A signed integer format (R15). -/
def ElemType.signedInt : ElemType → Bool
  | .i32 | .i16 | .i8 | .i4 | .i64 => true
  | _ => false

/-- An integer format (R15). -/
def ElemType.isInt : ElemType → Bool
  | .i32 | .n32 | .i16 | .n16 | .i8 | .n8 | .i4 | .i64 => true
  | _ => false

end Sys2Proof

namespace Sys2Proof.Machine

/-- The width of a format in bits. -/
def FFmt.width (F : FFmt) : Nat := 1 + F.ebits + F.fbits

/-- The exponent of the smallest normal. -/
def FFmt.emin (F : FFmt) : Int := 1 - (F.bias : Int)

/-- The largest exponent field that holds finite values. -/
def FFmt.topField (F : FFmt) : Nat :=
  match F.spec with
  | .ieee => 2 ^ F.ebits - 2
  | _ => 2 ^ F.ebits - 1

/-- The exponent of the last significand bit of the largest finite value. -/
def FFmt.maxQ (F : FFmt) : Int := (F.topField : Int) - F.bias - F.fbits

/-- The significand of the largest finite value (R13). -/
def FFmt.maxN (F : FFmt) : Nat :=
  match F.spec with
  | .e4m3 => 2 ^ (F.fbits + 1) - 2
  | _ => 2 ^ (F.fbits + 1) - 1

/-- The sign bit at its place. -/
def FFmt.signBit (F : FFmt) (neg : Bool) : Nat := if neg then 2 ^ (F.ebits + F.fbits) else 0

/-- The largest finite value's encoding. -/
def FFmt.maxBits (F : FFmt) (neg : Bool) : Nat := F.signBit neg + (F.topField * 2 ^ F.fbits + (F.maxN - 2 ^ F.fbits))

/-- Infinity's encoding, in a format that has one. -/
def FFmt.infBits (F : FFmt) (neg : Bool) : Nat := F.signBit neg + (2 ^ F.ebits - 1) * 2 ^ F.fbits

/-- The canonical NaN (R13, R14); E2M1 has none, and a NaN converted to it gives +0 (R20). -/
def FFmt.nanBits (F : FFmt) : Nat :=
  match F.spec with
  | .ieee => (2 ^ F.ebits - 1) * 2 ^ F.fbits + 2 ^ (F.fbits - 1)
  | .e4m3 => 0x7F
  | .e2m1 => 0

/-- A floating-point datum: NaN (signalling or quiet), infinity, or `± m × 2^e` (`m = 0` is a zero of that sign). -/
inductive FVal
  | nan (signalling : Bool)
  | inf (neg : Bool)
  | fin (neg : Bool) (m : Nat) (e : Int)
  deriving DecidableEq, Repr

/-- The datum of an encoding (R13, R14). -/
def FFmt.decode (F : FFmt) (x : Nat) : FVal :=
  let neg := x.testBit (F.ebits + F.fbits)
  let field := x / 2 ^ F.fbits % 2 ^ F.ebits
  let frac := x % 2 ^ F.fbits
  let value : FVal :=
    if field = 0 then .fin neg frac (F.emin - F.fbits)
    else .fin neg (2 ^ F.fbits + frac) ((field : Int) - F.bias - F.fbits)
  match F.spec with
  | .ieee =>
    if field = 2 ^ F.ebits - 1 then
      (if frac = 0 then .inf neg else .nan (!frac.testBit (F.fbits - 1)))
    else value
  | .e4m3 => if field = 15 ∧ frac = 7 then .nan false else value
  | .e2m1 => value

/-- A datum read with DAZ (R27): a subnormal reads as a zero of its sign. -/
def FFmt.read (F : FFmt) (daz : Bool) (x : Nat) : FVal :=
  if daz && F.flush && x / 2 ^ F.fbits % 2 ^ F.ebits == 0 then .fin (x.testBit (F.ebits + F.fbits)) 0 0
  else F.decode x

/-- Invalid, for an operation on a signalling NaN (R14). -/
def FVal.sig : FVal → Exc
  | .nan true => excInvalid
  | _ => 0

/-- Whether the datum is NaN. -/
def FVal.isNan : FVal → Bool
  | .nan _ => true
  | _ => false

/-- The negative of a datum. -/
def FVal.neg : FVal → FVal
  | .nan s => .nan s
  | .inf n => .inf (!n)
  | .fin n m e => .fin (!n) m e

/-- An exact result before rounding: NaN, infinity, or a magnitude in `[m, m + 1) × 2^e` that is `m × 2^e` itself unless `sticky`. -/
inductive Exact
  | nan
  | inf (neg : Bool)
  | num (neg : Bool) (m : Nat) (e : Int) (sticky : Bool)
  deriving DecidableEq, Repr

/-- A datum as an exact value. -/
def FVal.exact : FVal → Exact
  | .nan _ => .nan
  | .inf n => .inf n
  | .fin n m e => .num n m e false

/-- Rounding modes by code (R19): 1 nearest even, 2 toward zero, 3 up, 4 down, 5 nearest away, 6 stochastic. -/
def rmRne : Nat := 1
def rmRtz : Nat := 2
def rmRup : Nat := 3
def rmRdn : Nat := 4
def rmRna : Nat := 5
def rmSr : Nat := 6

/-- Whether `n + r / 2^s` (and something less than one unit of `r` more, if `sticky`) rounds to `n + 1` (R20); `z` is 16 bits of the
lane's stream. -/
def roundsUp (rm : Nat) (neg : Bool) (z n r s : Nat) (sticky : Bool) : Bool :=
  let half := 2 ^ s
  if rm = rmRne then decide (2 * r > half) || (2 * r == half && (sticky || n % 2 == 1))
  else if rm = rmRna then decide (2 * r ≥ half)
  else if rm = rmRup then !neg && (r != 0 || sticky)
  else if rm = rmRdn then neg && (r != 0 || sticky)
  else if rm = rmSr then decide (r * 65536 / half + z ≥ 65536)
  else false

/-- Overflow of R20 as an encoding. -/
def FFmt.overflow (F : FFmt) (rm : Nat) (neg sat : Bool) : Nat :=
  if sat || rm == rmRtz || (rm == rmRdn && !neg) || (rm == rmRup && neg) then F.maxBits neg
  else match F.spec with
    | .ieee => F.infBits neg
    | .e4m3 => F.signBit neg + 0x7F
    | .e2m1 => F.maxBits neg

/-- SATD where SAT changed the value (R24). -/
def FFmt.satFlag (F : FFmt) (rm : Nat) (neg sat : Bool) : Exc :=
  if sat && F.overflow rm neg true != F.overflow rm neg false then excSat else 0

/-- What the rounding of a non-zero magnitude takes and gives: the exponent of the kept last bit, the integer kept, and whether it is
inexact. -/
structure Kept where
  q       : Int
  n       : Nat
  inexact : Bool
  deriving DecidableEq, Repr

/-- The kept bits of `m × 2^e` (R20). -/
def FFmt.keep (F : FFmt) (rm : Nat) (neg : Bool) (z m : Nat) (e : Int) (sticky : Bool) : Kept :=
  let ev := max (e + Nat.log2 m) F.emin
  let q := ev - F.fbits
  if q ≤ e then
    let n := m * 2 ^ (e - q).toNat
    { q := q, n := n + (if roundsUp rm neg z n 0 0 sticky then 1 else 0), inexact := sticky }
  else
    let s := (q - e).toNat
    let n := m / 2 ^ s
    let r := m % 2 ^ s
    { q := q, n := n + (if roundsUp rm neg z n r s sticky then 1 else 0), inexact := r != 0 || sticky }

/-- Round of R20 with FTZ of R27, as an encoding and the exceptions of R24. -/
def FFmt.round (F : FFmt) (rm : Nat) (sat ftz : Bool) (z : Nat) : Exact → Nat × Exc
  | .nan => (F.nanBits, if F.spec == .e2m1 then excInvalid else 0)
  | .inf neg =>
    match F.spec with
    | .ieee => (F.infBits neg, 0)
    | _ => (F.overflow rm neg sat, excInvalid ||| F.satFlag rm neg sat)
  | .num neg m e sticky =>
    if m = 0 && !sticky then (F.signBit neg, 0)
    else
      let tiny := decide (m = 0) || decide (e + Nat.log2 m < F.emin)
      if tiny && ftz && F.flush then (F.signBit neg, excUnderflow ||| excInexact)
      else
        let k := F.keep rm neg z m e sticky
        if k.q > F.maxQ ∨ (k.q = F.maxQ ∧ k.n > F.maxN) then
          (F.overflow rm neg sat, excOverflow ||| excInexact ||| F.satFlag rm neg sat)
        else
          (F.signBit neg + ((k.q + F.fbits + F.bias - 1).toNat * 2 ^ F.fbits + k.n),
            if k.inexact then (if tiny then excInexact ||| excUnderflow else excInexact) else 0)

/-- The exact product of two data (R24: 0 × ∞ is invalid). The sign of a zero product is that of its factors (DESIGN CHOICE, log 100). -/
def FVal.mul (a b : FVal) : FVal × Exc :=
  match a, b with
  | .nan s, .nan t => (.nan false, (FVal.nan s).sig ||| (FVal.nan t).sig)
  | .nan s, _ => (.nan false, (FVal.nan s).sig)
  | _, .nan t => (.nan false, (FVal.nan t).sig)
  | .inf s, .inf t => (.inf (s != t), 0)
  | .inf s, .fin t m _ => if m = 0 then (.nan false, excInvalid) else (.inf (s != t), 0)
  | .fin s m _, .inf t => if m = 0 then (.nan false, excInvalid) else (.inf (s != t), 0)
  | .fin s m e, .fin t n f => (.fin (s != t) (m * n) (e + f), 0)

/-- A running exact sum of data (R24, R26, R29): whether a NaN or either infinity is among the terms, whether any term is there, is
positive or is negative, and the sum of the finite terms as `n × 2^e`. -/
structure Acc where
  nan  : Bool
  pinf : Bool
  ninf : Bool
  pos  : Bool
  neg  : Bool
  n    : Int
  e    : Int
  exc  : Exc
  deriving DecidableEq, Repr

/-- The sum of no terms. -/
def Acc.zero : Acc := { nan := false, pinf := false, ninf := false, pos := false, neg := false, n := 0, e := 0, exc := 0 }

/-- Add two dyadic numbers. -/
def addDyadic (n : Int) (e : Int) (m : Int) (f : Int) : Int × Int :=
  if n = 0 then (m, f)
  else if m = 0 then (n, e)
  else if e ≤ f then (n + m * 2 ^ (f - e).toNat, e)
  else (n * 2 ^ (e - f).toNat + m, f)

/-- Add a term. -/
def Acc.add (a : Acc) (x : FVal) : Acc :=
  match x with
  | .nan s => { a with nan := true, exc := a.exc ||| (FVal.nan s).sig }
  | .inf true => { a with ninf := true, neg := true }
  | .inf false => { a with pinf := true, pos := true }
  | .fin s m e =>
    let t := addDyadic a.n a.e (if s then -(m : Int) else m) e
    { a with pos := a.pos || !s, neg := a.neg || s, n := t.1, e := t.2 }

/-- The exact sum (R24, R26): NaN, an infinity, or a number; an exact zero is −0 if every term is −0, or if terms of both signs were
added and the mode is RDN. Terms of both infinities give NaN and invalid, also beside a NaN term (R136). -/
def Acc.sum (a : Acc) (rm : Nat) : Exact × Exc :=
  if a.pinf && a.ninf then (.nan, a.exc ||| excInvalid)
  else if a.nan then (.nan, a.exc)
  else if a.pinf then (.inf false, a.exc)
  else if a.ninf then (.inf true, a.exc)
  else if a.n = 0 then (.num (a.neg && (!a.pos || rm == rmRdn)) 0 0 false, a.exc)
  else (.num (decide (a.n < 0)) a.n.natAbs a.e false, a.exc)

/-- The exact sum of two data. -/
def FVal.add (rm : Nat) (a b : FVal) : Exact × Exc := ((Acc.zero.add a).add b).sum rm

/-- The exact a × b + c. -/
def FVal.fma (rm : Nat) (a b c : FVal) : Exact × Exc :=
  let p := a.mul b
  let r := ((Acc.zero.add p.1).add c).sum rm
  (r.1, r.2 ||| p.2)

/-- The exact quotient of two positive numbers, to `prec` bits and a sticky bit. -/
def quotient (neg : Bool) (m : Nat) (e : Int) (n : Nat) (f : Int) (prec : Nat) : Exact :=
  let k := Nat.log2 n + prec - Nat.log2 m
  let x := m * 2 ^ k
  .num neg (x / n) (e - f - k) (x % n != 0)

/-- The exact quotient (R348): 0/0 and ∞/∞ are invalid, x/0 divides by zero. -/
def FVal.div (a b : FVal) (prec : Nat) : Exact × Exc :=
  match a, b with
  | .nan s, .nan t => (.nan, (FVal.nan s).sig ||| (FVal.nan t).sig)
  | .nan s, _ => (.nan, (FVal.nan s).sig)
  | _, .nan t => (.nan, (FVal.nan t).sig)
  | .inf _, .inf _ => (.nan, excInvalid)
  | .inf s, .fin t _ _ => (.inf (s != t), 0)
  | .fin s _ _, .inf t => (.num (s != t) 0 0 false, 0)
  | .fin s m e, .fin t n f =>
    if n = 0 then (if m = 0 then (.nan, excInvalid) else (.inf (s != t), excDivZero))
    else if m = 0 then (.num (s != t) 0 0 false, 0)
    else (quotient (s != t) m e n f prec, 0)

/-- The integer square root by bits: the greatest `r` with `r * r ≤ x`, built from bit `i - 1` down. -/
def isqrtBits (x : Nat) : Nat → Nat → Nat
  | 0, r => r
  | i + 1, r => if (r + 2 ^ i) * (r + 2 ^ i) ≤ x then isqrtBits x i (r + 2 ^ i) else isqrtBits x i r

/-- The integer square root. -/
def isqrt (x : Nat) : Nat := isqrtBits x (Nat.log2 x / 2 + 1) 0

/-- An exponent made even by moving a bit into the significand. -/
def evenExp (m : Nat) (e : Int) : Nat × Int := if e % 2 = 0 then (m, e) else (2 * m, e - 1)

/-- The exact square root (R348): a negative number's is invalid, −0's is −0. -/
def FVal.sqrt (a : FVal) (prec : Nat) : Exact × Exc :=
  match a with
  | .nan s => (.nan, (FVal.nan s).sig)
  | .inf true => (.nan, excInvalid)
  | .inf false => (.inf false, 0)
  | .fin s m e =>
    if m = 0 then (.num s 0 0 false, 0)
    else if s then (.nan, excInvalid)
    else
      let p := evenExp m e
      let x := p.1 * 2 ^ (2 * prec)
      let r := isqrt x
      (.num false r (p.2 / 2 - prec) (r * r != x), 0)

/-- Order of two data that are not NaN: −1, 0 or 1; zeros of either sign are equal. -/
def FVal.cmp (a b : FVal) : Int :=
  match a, b with
  | .inf s, .inf t => if s = t then 0 else if s then -1 else 1
  | .inf s, _ => if s then -1 else 1
  | _, .inf t => if t then 1 else -1
  | .fin s m e, .fin t n f =>
    let d := (addDyadic (if s then -(m : Int) else m) e (if t then (n : Int) else -(n : Int)) f).1
    if d < 0 then -1 else if d = 0 then 0 else 1
  | _, _ => 0

/-- The signed value of the low `w` bits. -/
def signedOf (w x : Nat) : Int :=
  let y := x % 2 ^ w
  if y ≥ 2 ^ (w - 1) then (y : Int) - 2 ^ w else y

end Sys2Proof.Machine

namespace Sys2Proof

/-- The value of an element of an integer type (R15). -/
def ElemType.intVal (t : ElemType) (x : Nat) : Int :=
  if t.signedInt then Machine.signedOf t.width x else ((x % 2 ^ t.width : Nat) : Int)

end Sys2Proof

namespace Sys2Proof.Machine

/-- An integer reduced to `w` bits. -/
def wrapInt (w : Nat) (n : Int) : Nat := (n % (2 ^ w : Int)).toNat

/-- The least and greatest values of an integer type of width `w` (R32). -/
def minInt (signed : Bool) (w : Nat) : Int := if signed then -(2 ^ (w - 1)) else 0
def maxInt (signed : Bool) (w : Nat) : Int := if signed then 2 ^ (w - 1) - 1 else 2 ^ w - 1

/-- Clamp an integer to a range. -/
def clampInt (lo hi n : Int) : Int := if n < lo then lo else if n > hi then hi else n

/-- Integer reduction of R32: wrap, or clamp with SATD where the clamp changed it. -/
def reduceInt (signed : Bool) (w : Nat) (sat : Bool) (n : Int) : Nat × Exc :=
  if sat then
    let c := clampInt (minInt signed w) (maxInt signed w) n
    (wrapInt w c, if c = n then 0 else excSat)
  else (wrapInt w n, 0)

/-- An integer as an exact value. -/
def Exact.ofInt (n : Int) : Exact := .num (decide (n < 0)) n.natAbs 0 false

/-- An exact value multiplied by a power of two. -/
def Exact.scale2 (x : Exact) (k : Int) : Exact :=
  match x with
  | .num s m e st => .num s m (e + k) st
  | y => y

end Sys2Proof.Machine
end

