-- ==== Sys2Proof/Config.lean ====
section
/-! DEFINITION. What the specification fixes once for the whole part (R1 to R5, R76, R159, R178, R231, R407) and the free values it
leaves open. A free value is an opaque constant: nothing can evaluate it. -/

namespace Sys2Proof.Config

/-- Compute dies (R1). -/
def dies : Nat := 4
/-- Cores of a compute die (R2). -/
def coresPerDie : Nat := 48
/-- Cores of the device (R5). -/
def cores : Nat := 192
/-- Lanes of a strand (R98). -/
def lanes : Nat := 128
/-- Strand slots of a quarter (R115). -/
def slotsPerQuarter : Nat := 16
/-- Fast blocks of a quarter (R115). -/
def fastBlocks : Nat := 48
/-- Cold blocks of a quarter (R115). -/
def coldBlocks : Nat := 16
/-- Map slots of a quarter (R115). -/
def mapSlots : Nat := 32
/-- Local store granules of a core (R4). -/
def granules : Nat := 128
/-- Bytes of a local store granule (R4). -/
def granuleBytes : Nat := 2048
/-- The handler strand's slot number (R2). -/
def handlerSlot : Nat := 64
/-- Entries of a core's range-lock table (R178). -/
def lockEntries : Nat := 64
/-- Entries of a core's binding table (R231). -/
def bindEntries : Nat := 32
/-- Entries of a die's wait table (R159). -/
def waitEntries : Nat := 4096
/-- Entries of a die's ready pool (R76). -/
def poolEntries : Nat := 1024
/-- Entries of a die's pool overflow storage (R76). -/
def overflowEntries : Nat := 65536
/-- Nodes of the hub's node store (R407). -/
def nodeEntries : Nat := 262144
/-- Entries of a strand's commit buffer (R52). -/
def commitEntries : Nat := 256
/-- Contexts of the device (R5). -/
def contexts : Nat := 64
/-- Queues of the device (R59). -/
def queues : Nat := 256
/-- Communicator slots (R262). -/
def comms : Nat := 256
/-- Device links (R5). -/
def links : Nat := 16

/-- Bytes of one die's near memory: 2 stacks, 96 GiB (R5). -/
def nearBytes : Nat := 96 * 2 ^ 30
/-- Bytes of one die's far memory: R5 gives 512 GiB to 2 TiB by the modules fitted; the model takes the most (DESIGN CHOICE, log 3). -/
def farBytes : Nat := 2 * 2 ^ 40
/-- Bytes of one die's die store (R5). -/
def storeBytes : Nat := 96 * 2 ^ 20
/-- Bytes that a 52-bit physical address reaches: host memory and a peer's memory (R208). -/
def physBytes : Nat := 2 ^ 52

/-- Free value (log 5): a word that the specification does not state, numbered by a plain counter of the state: what CYCLES reads in
a normal context (R334), bytes of an overlapping COPY (R71). -/
opaque freeWord : Nat → BitVec 64

/-- Free value (log 14): the bytes of part `n` (0 hub firmware, 1 expansion table, 2 identity certificate) of firmware image number `img`
(R446). The images are not given. -/
opaque imagePart : Nat → Nat → List (BitVec 8)

/-- Free value (log 14): the device identity key's SLH-DSA-SHAKE-256s signature (29,792 bytes, R448) over the report bytes; the
private key never leaves the hub (R447). -/
opaque signature : List Byte → BitVec 238336

/-- Free value (log 101): the 16 bits with which a stochastic rounding of an active lane rounds where the lane's stream has ended (R36), which
R33 and R140 do not state; by the lane's stream base, the strand's RETIRED, the device-wide lane number and the draw. -/
opaque endedDraw : BitVec 64 → BitVec 64 → Nat → Nat → BitVec 16

end Sys2Proof.Config
end

