-- ==== Sys2Proof/Decode.lean ====
section
/-! DEFINITION. Instruction words (15_encoding): the frame of R290, the opcode map of R307, the decoder, and after it the encoder.
Decoding is total: an opcode that R308 leaves unassigned decodes to the ILLEGAL_OPCODE step, and what a strand then checks of the
fields (R312) is the machine's part (Machine/Operands.lean). -/

namespace Sys2Proof

/-- The element type of a 4-bit code (R293). -/
def ElemType.ofCode (n : BitVec 4) : ElemType :=
  match n.toNat with
  | 0 => .f32 | 1 => .f16 | 2 => .bf16 | 3 => .e4m3 | 4 => .e5m2 | 5 => .e2m1 | 6 => .i32 | 7 => .n32
  | 8 => .i16 | 9 => .n16 | 10 => .i8 | 11 => .n8 | 12 => .i4 | 13 => .f64 | 14 => .i64 | _ => .b32

/-- The code of an element type (R293). -/
def ElemType.code : ElemType → BitVec 4
  | .f32 => 0 | .f16 => 1 | .bf16 => 2 | .e4m3 => 3 | .e5m2 => 4 | .e2m1 => 5 | .i32 => 6 | .n32 => 7
  | .i16 => 8 | .n16 => 9 | .i8 => 10 | .n8 => 11 | .i4 => 12 | .f64 => 13 | .i64 => 14 | .b32 => 15

/-- The operand of a 9-bit code (R294). -/
def Operand.ofCode (x : BitVec 9) : Operand :=
  let n := x.toNat
  if h : n < 320 then .v ⟨n, h⟩
  else if h : n - 320 < 64 then .s ⟨n - 320, h⟩
  else if h : n - 384 < 16 then .k ⟨n - 384, h⟩
  else if n = 400 then .lane
  else if n = 401 then .strand
  else if n = 402 then .role
  else if n = 403 then .group
  else if n = 404 then .zero
  else if h : n - 405 < 105 then .unassigned ⟨n - 405, h⟩
  else if n = 510 then .imm
  else .none

/-- The 9-bit code of an operand (R294). -/
def Operand.code : Operand → BitVec 9
  | .v n => BitVec.ofNat 9 n.val
  | .s n => BitVec.ofNat 9 (320 + n.val)
  | .k n => BitVec.ofNat 9 (384 + n.val)
  | .lane => 400
  | .strand => 401
  | .role => 402
  | .group => 403
  | .zero => 404
  | .unassigned n => BitVec.ofNat 9 (405 + n.val)
  | .imm => 510
  | .none => 511

/-- The opcode of an instruction word: bits [127:118] (R290). -/
def wordOp (w : W128) : BitVec 10 := bits w 118 10

/-- The fields of an instruction word (R290). -/
def Frame.ofWord (w : W128) : Frame where
  d   := Operand.ofCode (bits w 109 9)
  a   := Operand.ofCode (bits w 100 9)
  b   := Operand.ofCode (bits w 91 9)
  c   := Operand.ofCode (bits w 82 9)
  fs1 := bits w 64 18
  k   := bits w 60 4
  kn  := bit w 59
  rm  := bits w 56 3
  sat := bit w 55
  et  := ElemType.ofCode (bits w 51 4)
  lr  := bits w 48 3
  ru  := bits w 45 3
  nw  := bits w 42 3
  fs2 := bits w 32 10
  imm := bits w 0 32

/-- The instruction word of an opcode and its fields (R290), highest bits first. -/
def Frame.toWord (op : BitVec 10) (f : Frame) : W128 :=
  op ++ f.d.code ++ f.a.code ++ f.b.code ++ f.c.code ++ f.fs1 ++ f.k ++ BitVec.ofBool f.kn ++ f.rm ++ BitVec.ofBool f.sat
    ++ f.et.code ++ f.lr ++ f.ru ++ f.nw ++ f.fs2 ++ f.imm

/-- The instruction that opcode and fields name, by the opcode map (R307); every other opcode is unassigned (R308). -/
def Instr.ofOpcode (op : BitVec 10) (f : Frame) : Instr :=
  match op.toNat with
  | 0x000 => .nop f
  | 0x001 => .bra f
  | 0x002 => .brs f
  | 0x003 => .brk f
  | 0x004 => .call f
  | 0x005 => .ret f
  | 0x006 => .jmpi f
  | 0x007 => .yield f
  | 0x008 => .exit f
  | 0x009 => .trap f
  | 0x00A => .bkpt f
  | 0x040 => .kand f
  | 0x041 => .kor f
  | 0x042 => .kxor f
  | 0x043 => .kandn f
  | 0x044 => .knot f
  | 0x045 => .kmov f
  | 0x046 => .krange f
  | 0x047 => .kpop f
  | 0x048 => .kffs f
  | 0x049 => .kget f
  | 0x04A => .kput f
  | 0x060 => .sadd f
  | 0x061 => .ssub f
  | 0x062 => .smul f
  | 0x063 => .smulh f
  | 0x064 => .sand f
  | 0x065 => .sor f
  | 0x066 => .sxor f
  | 0x067 => .sshl f
  | 0x068 => .sshr f
  | 0x069 => .ssra f
  | 0x06A => .smin f
  | 0x06B => .smax f
  | 0x06C => .sminu f
  | 0x06D => .smaxu f
  | 0x06E => .smov f
  | 0x06F => .simm f
  | 0x070 => .simmh f
  | 0x071 => .scmp f
  | 0x072 => .ssel f
  | 0x073 => .sld f
  | 0x074 => .sst f
  | 0x075 => .srdc f
  | 0x076 => .swrc f
  | 0x0C0 => .viadd f
  | 0x0C1 => .visub f
  | 0x0C2 => .vimul f
  | 0x0C3 => .vimulh f
  | 0x0C4 => .vimad f
  | 0x0C5 => .vimin f
  | 0x0C6 => .vimax f
  | 0x0C7 => .vand f
  | 0x0C8 => .vor f
  | 0x0C9 => .vxor f
  | 0x0CA => .vnot f
  | 0x0CB => .vshl f
  | 0x0CC => .vshr f
  | 0x0CD => .vsra f
  | 0x0CE => .vrot f
  | 0x0CF => .vbfe f
  | 0x0D0 => .vbfi f
  | 0x0D1 => .vpopc f
  | 0x0D2 => .vclz f
  | 0x0D3 => .vicmp f
  | 0x0D4 => .vsel f
  | 0x0D5 => .vmov f
  | 0x0D6 => .vidx f
  | 0x140 => .vfadd f
  | 0x141 => .vfsub f
  | 0x142 => .vfmul f
  | 0x143 => .vfma f
  | 0x144 => .vfmin f
  | 0x145 => .vfmax f
  | 0x146 => .vfcmp f
  | 0x147 => .vfclass f
  | 0x148 => .vfrcp f
  | 0x149 => .vfrsq f
  | 0x14A => .vfsqrt f
  | 0x14B => .vfdiv f
  | 0x14C => .vfexp2 f
  | 0x14D => .vflog2 f
  | 0x14E => .vfsin f
  | 0x14F => .vfcos f
  | 0x150 => .vfcvt f
  | 0x151 => .vftoi f
  | 0x152 => .vffri f
  | 0x153 => .vfscale f
  | 0x154 => .vdadd f
  | 0x155 => .vdmul f
  | 0x156 => .vdfma f
  | 0x157 => .vrand f
  | 0x1C0 => .vshfl f
  | 0x1C1 => .vlane f
  | 0x1C2 => .vputl f
  | 0x1E0 => .mclaim f
  | 0x1E1 => .mfree f
  | 0x1E2 => .mbind f
  | 0x1E3 => .mload f
  | 0x1E4 => .mside f
  | 0x1E5 => .mfill f
  | 0x1E6 => .mgen f
  | 0x1E7 => .mdrain f
  | 0x1E8 => .mquery f
  | 0x200 => .vld f
  | 0x201 => .vst f
  | 0x202 => .vldb f
  | 0x203 => .vstb f
  | 0x204 => .vlda f
  | 0x205 => .vatom f
  | 0x206 => .vatomr f
  | 0x207 => .vcas f
  | 0x208 => .vmcast f
  | 0x209 => .vpref f
  | 0x260 => .budst f
  | 0x261 => .bloom f
  | 0x262 => .budq f
  | 0x280 => .fence f
  | 0x281 => .bind f
  | 0x282 => .unbind f
  | 0x283 => .acq f
  | 0x284 => .rel f
  | 0x285 => .gbar f
  | 0x286 => .boinit f
  | 0x287 => .boexp f
  | 0x288 => .boarr f
  | 0x289 => .bowait f
  | 0x28A => .botest f
  | 0x28B => .qend f
  | 0x2C0 => .tcopy f
  | 0x2C1 => .tred f
  | 0x2C2 => .lsend f
  | 0x2C3 => .lred f
  | 0x2E0 => .spawn f
  | 0x2E1 => .spawnd f
  | 0x2E2 => .signal f
  | 0x2E3 => .give f
  | 0x2E4 => .claim f
  | 0x2E5 => .caprd f
  | 0x300 => .prdc f
  | 0x301 => .pwrc f
  | 0x302 => .tret f
  | 0x303 => .hsavev f
  | 0x304 => .hloadv f
  | 0x305 => .hsaves f
  | 0x306 => .hloads f
  | 0x307 => .hsavek f
  | 0x308 => .hloadk f
  | 0x309 => .hloadm f
  | 0x30A => .hrob f
  | 0x30B => .patch f
  | 0x30C => .iinv f
  | 0x30D => .tinv f
  | _ => .illegalOpcode op f

/-- The opcode and fields of an instruction that has a word (R307), and none for a step of the device. -/
def Instr.toOpcode : Instr → Option (BitVec 10 × Frame)
  | .nop f => some (0x000, f)
  | .bra f => some (0x001, f)
  | .brs f => some (0x002, f)
  | .brk f => some (0x003, f)
  | .call f => some (0x004, f)
  | .ret f => some (0x005, f)
  | .jmpi f => some (0x006, f)
  | .yield f => some (0x007, f)
  | .exit f => some (0x008, f)
  | .trap f => some (0x009, f)
  | .bkpt f => some (0x00A, f)
  | .kand f => some (0x040, f)
  | .kor f => some (0x041, f)
  | .kxor f => some (0x042, f)
  | .kandn f => some (0x043, f)
  | .knot f => some (0x044, f)
  | .kmov f => some (0x045, f)
  | .krange f => some (0x046, f)
  | .kpop f => some (0x047, f)
  | .kffs f => some (0x048, f)
  | .kget f => some (0x049, f)
  | .kput f => some (0x04A, f)
  | .sadd f => some (0x060, f)
  | .ssub f => some (0x061, f)
  | .smul f => some (0x062, f)
  | .smulh f => some (0x063, f)
  | .sand f => some (0x064, f)
  | .sor f => some (0x065, f)
  | .sxor f => some (0x066, f)
  | .sshl f => some (0x067, f)
  | .sshr f => some (0x068, f)
  | .ssra f => some (0x069, f)
  | .smin f => some (0x06A, f)
  | .smax f => some (0x06B, f)
  | .sminu f => some (0x06C, f)
  | .smaxu f => some (0x06D, f)
  | .smov f => some (0x06E, f)
  | .simm f => some (0x06F, f)
  | .simmh f => some (0x070, f)
  | .scmp f => some (0x071, f)
  | .ssel f => some (0x072, f)
  | .sld f => some (0x073, f)
  | .sst f => some (0x074, f)
  | .srdc f => some (0x075, f)
  | .swrc f => some (0x076, f)
  | .viadd f => some (0x0C0, f)
  | .visub f => some (0x0C1, f)
  | .vimul f => some (0x0C2, f)
  | .vimulh f => some (0x0C3, f)
  | .vimad f => some (0x0C4, f)
  | .vimin f => some (0x0C5, f)
  | .vimax f => some (0x0C6, f)
  | .vand f => some (0x0C7, f)
  | .vor f => some (0x0C8, f)
  | .vxor f => some (0x0C9, f)
  | .vnot f => some (0x0CA, f)
  | .vshl f => some (0x0CB, f)
  | .vshr f => some (0x0CC, f)
  | .vsra f => some (0x0CD, f)
  | .vrot f => some (0x0CE, f)
  | .vbfe f => some (0x0CF, f)
  | .vbfi f => some (0x0D0, f)
  | .vpopc f => some (0x0D1, f)
  | .vclz f => some (0x0D2, f)
  | .vicmp f => some (0x0D3, f)
  | .vsel f => some (0x0D4, f)
  | .vmov f => some (0x0D5, f)
  | .vidx f => some (0x0D6, f)
  | .vfadd f => some (0x140, f)
  | .vfsub f => some (0x141, f)
  | .vfmul f => some (0x142, f)
  | .vfma f => some (0x143, f)
  | .vfmin f => some (0x144, f)
  | .vfmax f => some (0x145, f)
  | .vfcmp f => some (0x146, f)
  | .vfclass f => some (0x147, f)
  | .vfrcp f => some (0x148, f)
  | .vfrsq f => some (0x149, f)
  | .vfsqrt f => some (0x14A, f)
  | .vfdiv f => some (0x14B, f)
  | .vfexp2 f => some (0x14C, f)
  | .vflog2 f => some (0x14D, f)
  | .vfsin f => some (0x14E, f)
  | .vfcos f => some (0x14F, f)
  | .vfcvt f => some (0x150, f)
  | .vftoi f => some (0x151, f)
  | .vffri f => some (0x152, f)
  | .vfscale f => some (0x153, f)
  | .vdadd f => some (0x154, f)
  | .vdmul f => some (0x155, f)
  | .vdfma f => some (0x156, f)
  | .vrand f => some (0x157, f)
  | .vshfl f => some (0x1C0, f)
  | .vlane f => some (0x1C1, f)
  | .vputl f => some (0x1C2, f)
  | .mclaim f => some (0x1E0, f)
  | .mfree f => some (0x1E1, f)
  | .mbind f => some (0x1E2, f)
  | .mload f => some (0x1E3, f)
  | .mside f => some (0x1E4, f)
  | .mfill f => some (0x1E5, f)
  | .mgen f => some (0x1E6, f)
  | .mdrain f => some (0x1E7, f)
  | .mquery f => some (0x1E8, f)
  | .vld f => some (0x200, f)
  | .vst f => some (0x201, f)
  | .vldb f => some (0x202, f)
  | .vstb f => some (0x203, f)
  | .vlda f => some (0x204, f)
  | .vatom f => some (0x205, f)
  | .vatomr f => some (0x206, f)
  | .vcas f => some (0x207, f)
  | .vmcast f => some (0x208, f)
  | .vpref f => some (0x209, f)
  | .budst f => some (0x260, f)
  | .bloom f => some (0x261, f)
  | .budq f => some (0x262, f)
  | .fence f => some (0x280, f)
  | .bind f => some (0x281, f)
  | .unbind f => some (0x282, f)
  | .acq f => some (0x283, f)
  | .rel f => some (0x284, f)
  | .gbar f => some (0x285, f)
  | .boinit f => some (0x286, f)
  | .boexp f => some (0x287, f)
  | .boarr f => some (0x288, f)
  | .bowait f => some (0x289, f)
  | .botest f => some (0x28A, f)
  | .qend f => some (0x28B, f)
  | .tcopy f => some (0x2C0, f)
  | .tred f => some (0x2C1, f)
  | .lsend f => some (0x2C2, f)
  | .lred f => some (0x2C3, f)
  | .spawn f => some (0x2E0, f)
  | .spawnd f => some (0x2E1, f)
  | .signal f => some (0x2E2, f)
  | .give f => some (0x2E3, f)
  | .claim f => some (0x2E4, f)
  | .caprd f => some (0x2E5, f)
  | .prdc f => some (0x300, f)
  | .pwrc f => some (0x301, f)
  | .tret f => some (0x302, f)
  | .hsavev f => some (0x303, f)
  | .hloadv f => some (0x304, f)
  | .hsaves f => some (0x305, f)
  | .hloads f => some (0x306, f)
  | .hsavek f => some (0x307, f)
  | .hloadk f => some (0x308, f)
  | .hloadm f => some (0x309, f)
  | .hrob f => some (0x30A, f)
  | .patch f => some (0x30B, f)
  | .iinv f => some (0x30C, f)
  | .tinv f => some (0x30D, f)
  | .illegalOpcode op f => some (op, f)
  | _ => none

/-- The instruction of a 128-bit word. -/
def decodeWord (w : W128) : Instr := Instr.ofOpcode (wordOp w) (Frame.ofWord w)

/-- Why a list of bytes is no instruction: an instruction occupies 16 bytes (R9). -/
inductive DecodeError
  | tooShort
  deriving DecidableEq, Repr

/-- The little-endian number of a list of bytes (R9): the first byte is lowest. -/
def leNat : List Byte → Nat
  | [] => 0
  | b :: bs => b.toNat + 256 * leNat bs

/-- The `n` bytes of a number, lowest first (R9). -/
def leBytes : Nat → Nat → List Byte
  | 0, _ => []
  | n + 1, x => BitVec.ofNat 8 x :: leBytes n (x / 256)

/-- Decode the first instruction of a list of bytes, and give the bytes after it. -/
def decode (bs : List Byte) : Except DecodeError (Instr × List Byte) :=
  if bs.length < 16 then .error .tooShort
  else .ok (decodeWord (BitVec.ofNat 128 (leNat (bs.take 16))), bs.drop 16)

/-- The word of an instruction; a device step has none. -/
def encode (i : Instr) : Option W128 := i.toOpcode.map fun (op, f) => f.toWord op

/-- The sixteen bytes of an instruction, lowest address first. -/
def encodeBytes (i : Instr) : Option (List Byte) := (encode i).map fun w => leBytes 16 w.toNat

/-- The instruction the decoder reads from the table word `w` (bit 0 the least significant bit of the lowest byte). Bits at and above
`nbits` are taken as given by `w`; the instruction is always 128 bits long. -/
def decodeTableWord (nbits w : Nat) : Option Instr :=
  if nbits ≤ 128 then
    match decode (leBytes 16 w) with
    | .ok (i, _) => some i
    | .error _ => none
  else none

/-- The formats of 15_encoding (R297 to R306). -/
inductive Format
  | V | S | M | X | T
  deriving DecidableEq, Repr

/-- The format of an assigned opcode (R307): the range of its class, with the exceptions that the map names. -/
def formatOf (op : BitVec 10) : Format :=
  let n := op.toNat
  if n ≤ 0x00A then .X
  else if n ≤ 0x04A then .S
  else if n = 0x073 ∨ n = 0x074 then .M
  else if n ≤ 0x076 then .S
  else if n ≤ 0x1C2 then .V
  else if n ≤ 0x1E8 then .T
  else if n = 0x285 ∨ n = 0x28B then .X
  else if n ≤ 0x28B then .M
  else .T

/-- Whether K and KN are read (R307): vector, cross-lane, memory and cell instructions, and HSAVEV and HLOADV. -/
def maskedOp (op : BitVec 10) : Bool :=
  let n := op.toNat
  (0x0C0 ≤ n && n ≤ 0x1C2) || (0x200 ≤ n && n ≤ 0x262) || n == 0x303 || n == 0x304

/-- Whether the opcode map assigns the opcode (R307, R308). -/
def assignedOp (op : BitVec 10) : Bool :=
  match Instr.ofOpcode op default with
  | .illegalOpcode _ _ => false
  | _ => true

end Sys2Proof
end

