-- ==== Sys2Proof/WellFormed.lean ====
section
/-! DEFINITION. Well-formed steps. For an instruction word: the conditions of R291, R294 and R310 that its format alone decides (what
an instruction's own entry adds, and what the strand's state decides, is checked where it executes, Machine/Operands.lean). For a
device step: its arguments name an object that the part has (R5, R59, R76, R262). -/

namespace Sys2Proof

/-- Whether the operand is a vector register, the only kind that takes marks, hints and nowait bits (R291). -/
def Operand.isV : Operand → Bool
  | .v _ => true
  | _ => false

/-- A code that R294 assigns. -/
def Operand.assigned : Operand → Bool
  | .unassigned _ => false
  | _ => true

/-- The marks, hints and nowait bits stand only on fields that hold v codes (R291). -/
def Frame.marksWf (f : Frame) : Bool :=
  let used := f.lr ||| f.ru ||| f.nw
  (f.a.isV || !bit used 2) && (f.b.isV || !bit used 1) && (f.c.isV || !bit used 0)

/-- Operand codes that R294 assigns stand in D, A, B and, outside format X, in C. -/
def Frame.codesWf (fmt : Format) (f : Frame) : Bool :=
  f.d.assigned && f.a.assigned && f.b.assigned && (fmt == .X || f.c.assigned)

/-- The reserved fields of a format are zero (R310). -/
def Frame.reservedWf (fmt : Format) (f : Frame) : Bool :=
  match fmt with
  | .V => bits f.fs2 0 4 == 0
  | .S => f.fs1 == 0 && f.fs2 == 0 && f.lr == 0 && f.ru == 0 && f.nw == 0
  | .M => bits f.fs1 0 2 == 0 && bits f.fs2 0 4 == 0
  | .X => bits f.c.code 0 5 == 0 && f.fs1 == 0 && f.fs2 == 0 && f.rm == 0 && !f.sat && f.et == .f32 && f.lr == 0 && f.ru == 0
            && f.nw == 0
  | .T => f.fs2 == 0

/-- K and KN are zero in an unmasked instruction (R292). -/
def Frame.maskWf (op : BitVec 10) (f : Frame) : Bool := maskedOp op || (f.k == 0 && !f.kn)

/-- RM holds no reserved code (R19). -/
def Frame.roundWf (f : Frame) : Bool := f.rm != 7

/-- The conditions on a word that its format decides. -/
def Frame.wf (op : BitVec 10) (f : Frame) : Bool :=
  f.marksWf && f.codesWf (formatOf op) && f.reservedWf (formatOf op) && f.maskWf op && f.roundWf

/-- A memory that the device has (R1, R2, R223). -/
def Place.wf : Place → Bool
  | .near d | .far d | .store d => d < 4
  | .host => true
  | .peer n => n < 16
  | .core c => c < 192

/-- A memory of the device that the host reaches over CXL.mem (R441). -/
def Place.deviceOwned : Place → Bool
  | .near d | .far d | .store d => d < 4
  | _ => false

/-- Well-formed steps. -/
def Instr.wf (i : Instr) : Bool :=
  match i.toOpcode with
  | some (op, f) =>
    match i with
    | .illegalOpcode _ _ => !assignedOp op
    | _ => f.wf op
  | none =>
    match i with
    | .ctxSave c | .groupPlace c | .epochEnd c | .migrationPull c _ | .budWatchdogScan c => c < 64
    | .tailNotice q | .launch q | .waitEntry q | .signalEntry q | .copyEntry q => q < 256
    | .poolPlace d => d < 4
    | .handlerStart c => c < 192
    | .dirtyLineWriteBack c x _ _ => c < 192 && x < 64
    | .registerWrite r _ =>
      match r with
      | .peerrt n | .peerExportBase n | .peerExportLen n => n < 16
      | .commwin n => n < 16
      | .attestNonce n => n < 8
      | _ => true
    | .linkEnable l | .linkDisable l | .linkRetrain l | .linkTrainTimeout l | .linkFail l | .flitCheckFail ⟨l, _, _⟩ => l < 16
    | .linkTrained l p q => l < 16 && p < 16 && q < 16
    | .refusalReceive s | .heartbeatTick s | .heartbeatTimeout s => s < 256
    | .peerWindowRequest d _ => d < 16
    | .capFrame p => p.length == 56
    | .limitChange p _ _ _ => p < 4
    | .cxlMemAccess (.read p _ _) | .cxlMemAccess (.write p _ _) => p.deviceOwned
    | .correctedError e => e.kind < 8 && e.die.all (· < 4)
    | .uncorrectableError d c => d < 4 && c.all (· < 64)
    | _ => true

end Sys2Proof
end

