-- ==== Sys2Proof/Machine/State.lean ====
section
/-! DEFINITION. The state of the Atmir A4 as plain data: everything INVENTORY.md lists. `Chip` holds the memories, cores, strands,
contexts, queues, owners, engines and links; `HubCtl` holds the hub controller's registers (R441) and the power limits; the agenda says
which agent moves next. `State.reset` is the device right after reset. -/

namespace Sys2Proof.Machine

/-- A finite map with natural keys, in rising order of key; an absent key has the value its reader names. -/
abbrev Sparse (α : Type) := List (Nat × α)

/-- Memory: bytes by key (`physKey`), keys strictly rising, no byte equal to what an unlisted key reads as. -/
abbrev Memory := List Host.Cell

/-- What a byte of memory that nothing has written reads as (DESIGN CHOICE, log 2). -/
def Memory.unlisted : Byte := 0

/-- The canonical form of memory. -/
def Memory.wf : Memory → Bool
  | [] => true
  | [(_, b)] => b != Memory.unlisted
  | (a, b) :: (a', b') :: rest => b != Memory.unlisted && decide (a < a') && Memory.wf ((a', b') :: rest)

/-- The trap causes (R238). -/
inductive Cause
  | illegalOpcode | reservedField | badOperand | privilege | formatMismatch | emptyRead | mapNotReady | mapUnclaimed
  | rangeLocked | pageFault | protection | misaligned | cellStore | selfDependence | budUnfilled | streamEnd
  | fpInvalid | fpDivzero | fpOverflow | fpUnderflow | fpInexact
  | claimDeadlock | spawnDepth | linkDown | preempt | hostInterrupt | software | breakpoint
  deriving DecidableEq, Repr, Inhabited

/-- Producers in flight of a register (R121, R417). -/
inductive ProdKind
  | vlda | bud | engine | commit
  deriving DecidableEq, Repr, Inhabited

/-- Full, empty, or empty with a producer in flight (R121). -/
inductive RegFill
  | full | empty | inflight (kind : ProdKind) (op : Nat)
  deriving DecidableEq, Repr, Inhabited

/-- A vector register: contents, format tag (R17), the four scales of its sidecar, segment 0 lowest (R18), and its fill (R121). -/
structure VReg where
  lanes : LaneWord
  tag   : ElemType
  side  : BitVec 128
  fill  : RegFill
  deriving DecidableEq, Repr, Inhabited

/-- 1.0 in FP32 (R18). -/
def one32 : W32 := 0x3F800000

/-- The sidecar with 1.0 in every segment (R18). -/
def side1 : BitVec 128 := one32 ++ one32 ++ one32 ++ one32

/-- A register as a strand starts with it: full, zero, tag b32, sidecar 1.0 (R104). -/
def VReg.start : VReg := { lanes := 0, tag := .b32, side := side1, fill := .full }

/-- A claimed map slot: image (R132), side memory (R142), descriptor bits [63:32] and [17:0] of the slot word (R130), V, D and FZ, and
the loads into it that have not landed (F is 1 while there is one). -/
structure MapSlot where
  image : ImageWord
  side  : LaneWord
  desc  : W64
  v     : Bool
  d     : Bool
  fz    : Bool
  loads : List Nat
  deriving DecidableEq, Repr, Inhabited

/-- The slot word's descriptor at MCLAIM: SW = 1.0 and zero (R130). -/
def MapSlot.resetDesc : W64 := one32 ++ (0 : W32)

/-- What a strand waits for (R107). -/
inductive WaitCause
  | barrier | claim | bud | emptyReg | mapSlot | quantum
  deriving DecidableEq, Repr, Inhabited

/-- Strand states (R107); a strand not yet placed is a pool entry, a node or a group of a launch, and an exited one is gone. -/
inductive Status
  | ready | waiting (c : WaitCause) | frozen | parked
  deriving DecidableEq, Repr, Inhabited

/-- The launch strand at the root of a strand's tree (R57, R75): sequence number, group and strand index. -/
structure Root where
  seq    : Nat
  group  : Nat
  strand : Nat
  deriving DecidableEq, Repr, Inhabited

/-- What a strand is (R107, R113, R158, R243). -/
inductive StrandKind
  | launch | spawned
  | evaluator (cell : W64)
  | handler (subject : Nat)
  deriving DecidableEq, Repr, Inhabited

/-- A level entry of a launch record (R67). -/
structure Level where
  extent : Nat
  scope  : Nat
  domain : Nat
  deriving DecidableEq, Repr, Inhabited

/-- Where a strand stands in its launch's problem (R101): the linear index of its lane 0, how many lanes one strand of it has (128, or
64 under COMPAT64), the levels, and the pod coordinate. A spawned strand keeps its parent's (R332, R347). -/
structure Coords where
  base   : Nat
  levels : List Level
  pod    : Nat
  deriving DecidableEq, Repr, Inhabited

/-- A block of eight physical registers: cold or fast, and the quarter it lies in (R109). -/
structure Block where
  cold    : Bool
  quarter : Nat
  deriving DecidableEq, Repr, Inhabited

/-- One lane's write: lane, canonical address and bytes (R376). -/
structure LaneWrite where
  lane  : Nat
  va    : W64
  bytes : List Byte
  deriving DecidableEq, Repr, Inhabited

/-- The operation of an atomic lane: an operation of R382 on one type with a rounding mode and the random bits of a stochastic rounding,
or VCAS with its comparand (R384). -/
inductive AtomKind
  | op (o : AtomOp) (et : ElemType) (rm z : Nat)
  | cas (cmp : W64)
  deriving DecidableEq, Repr, Inhabited

/-- One lane's atomic: lane, canonical address, width in bytes, operation, operand. -/
structure LaneAtom where
  lane : Nat
  va   : W64
  n    : Nat
  kind : AtomKind
  x    : W64
  deriving DecidableEq, Repr, Inhabited

/-- Where bytes of a load go: lane `lane` of register `reg` (or scalar `reg`), how many bytes, and how they extend (R330, R374). -/
inductive LoadDest
  | vec (reg lane : Nat) (n : Nat) (signed : Bool)
  | scalar (reg : Nat) (n : Nat) (signed : Bool)
  deriving DecidableEq, Repr, Inhabited

/-- A read of part of a cell by one lane of a load: the cell's canonical address, the byte offset in it, where its bytes go, whether its
address was an owner 6 one (R206), and whether its page is ORDERED (R215). -/
structure CellRead where
  lane  : Nat
  cell  : W64
  off   : Nat
  dest  : LoadDest
  short : Bool := false
  ord   : Bool := false
  deriving DecidableEq, Repr, Inhabited

/-- What a faulted lane leaves: lane, cause and faulting address (R220, R248), and whether it is a bud record's own address that failed, or
what stands there (R161). -/
structure LaneFault where
  lane  : Nat
  cause : Cause
  va    : W64
  atRec : Bool := false
  deriving DecidableEq, Repr, Inhabited

/-- A vector or scalar load that waits for answers of cell owners (R124, R160): its instruction and address, its active set, how many
requests are unanswered, its deferred producer if any, the faults found, the registers it writes, and the bytes it has. -/
structure LoadProg where
  instr  : Instr
  pc     : W64
  active : W128
  pend   : Nat
  prod   : Option Nat
  faults : List LaneFault
  dests  : List Nat
  got    : List (LoadDest × List Byte)
  deriving DecidableEq, Repr, Inhabited

/-- The lane record the core keeps for TRET's replay (R220, R221, R385): the trapping instruction, its address, the lanes (or
destinations) that trapped, the original active set, the ranges that completed lanes wrote (index, canonical address, length), the
bud producer of its deferred lanes, whether the instruction ends its quantum once it retires (R52), and the list of destination bases that a
VMCAST read at its issue, each with its base for each half (R385). -/
structure LaneRecord where
  instr   : Instr
  pc      : W64
  trapped : W128
  orig    : W128
  wrote   : List (Nat × W64 × Nat)
  prod    : Option Nat
  ends    : Bool := false
  list    : List (List (Option W64)) := []
  deriving DecidableEq, Repr, Inhabited

/-- Memory ordering of an access (R227). -/
inductive Order
  | plain | acquire | release | acqrel
  deriving DecidableEq, Repr, Inhabited

/-- A rectangular walk's dimension in one layout (R188). -/
structure Dim where
  extent : Nat
  stride : Int
  deriving DecidableEq, Repr, Inhabited

/-- A layout descriptor (R188). -/
structure Layout where
  base : W64
  fmt  : ElemType
  swu  : Nat
  swr  : Nat
  dims : List Dim
  deriving DecidableEq, Repr, Inhabited

/-- The reductions of a copy request and of LRED (R191, R264). -/
inductive Red
  | none | add | min | max | and | or | xor
  deriving DecidableEq, Repr, Inhabited

/-- A copy request with its layouts and block list as read at issue (R191, R192). -/
structure CopyReq where
  src    : Layout
  dst    : Layout
  box    : List Nat
  origin : List Int
  blk    : List Nat
  padLo  : List Nat
  padHi  : List Nat
  perm   : List Nat
  padVal : W32
  scale  : W32
  sat    : Bool
  rm     : Nat
  red    : Red
  gs     : Nat
  list   : List (List Int)
  reg    : Option (Nat × Nat)
  deriving DecidableEq, Repr, Inhabited

/-- A link request as read at issue (R264). -/
structure LinkReq where
  slot    : Nat
  src     : W64
  dst     : W64
  count   : Nat
  fmt     : ElemType
  rm      : Nat
  sat     : Bool
  arrival : Bool
  red     : Red
  peer    : Nat
  sigaddr : W64
  sigval  : W64
  resid   : Option Nat
  deriving DecidableEq, Repr, Inhabited

/-- What an engine operation does and how far it is: a copy with the next element's index, whether a fault has ended it (R182) and the
destination elements met so far (address, data or pad); an LSEND with bytes sent; an LRED with its collective, the nodes received and
the elements that could not be read. -/
inductive EngineKind
  | copy (req : CopyReq) (next : Nat) (ended : Bool) (met : List (Nat × Bool))
  | lsend (req : LinkReq) (cid gen : BitVec 32) (sent : Nat) (ended : Bool)
  | lred (req : LinkReq) (cid gen : BitVec 32) (coll : Nat) (size rank : Nat) (own : List NodeVal)
      (got : List (Nat × List NodeVal)) (order : List Nat) (result : Option (List NodeVal)) (next : Nat) (ended : Bool)
  deriving DecidableEq, Repr, Inhabited

/-- An engine operation (R173, R179, R181): who issued it, its barrier object (the group and its owner 5 address), its byte count and
the bytes counted down so far, the bytes that have landed and the STATUS bits with their address that a deterministic context's epoch end
has still to take to the object (R269), with where in its iteration order the address failed (R182), whether it has started, and of a link
operation the number of its communicator's installation (R262). -/
structure EngineOp where
  id      : Nat
  sid     : Nat
  gid     : Nat
  core    : Nat
  ctx     : Nat
  obj     : W64
  kind    : EngineKind
  bytes   : Nat
  counted : Nat
  landed  : Nat
  flags   : W64
  fva     : W64
  fpos    : Nat := 0
  started : Bool
  prod    : Option Nat
  inst    : Nat := 0
  deriving DecidableEq, Repr, Inhabited

/-- A strand that has been created but is in no core yet: a spawned strand, a node's strand or an evaluator (R113, R156, R158). `tried` is its
die's count of `freed` at its last placement pass. -/
structure NewStrand where
  ctx       : Nat
  kind      : StrandKind
  pc        : W64
  args      : List W64
  regs      : Nat
  lookahead : Nat
  granules  : Nat
  maps      : Nat
  cls       : Nat
  salt      : W32
  stream    : W64
  isarev    : Nat
  blevel    : Nat
  compat    : Bool
  token     : Nat
  parent    : Nat
  chain     : List Nat
  depth     : Nat
  maxDepth  : Nat
  ident     : List Nat
  root      : Root
  launch    : Option Nat
  group     : Nat
  coords    : Coords
  die       : Nat
  anyDie    : Bool
  wantCore  : Option Nat
  retry     : Nat
  tried     : Option Nat
  deriving DecidableEq, Repr, Inhabited

/-- Buffered work of a deterministic quantum, applied by Commit (R236). -/
inductive CommitOp
  | store (ws : List LaneWrite)
  | atoms (xs : List LaneAtom) (dest : Option (Nat × Nat))
  | budst (ws : List LaneWrite)
  | bloom (w : LaneWrite)
  | budRead (rs : List CellRead) (prod : Nat)
  | bind (binder : W64) (lo hi : Nat)
  | unbind (binder : W64) (lo hi : Nat)
  | acq (binder : W64) (dest : Option Nat)
  | rel (binder : W64)
  | boinit (obj : W64) (c : Nat)
  | boexp (obj : W64) (n : Int)
  | boarr (obj : W64) (a : Nat) (dest : Option Nat)
  | engine (op : EngineOp)
  | spawn (n : NewStrand) (hint : Nat)
  | spawnd (n : NewStrand) (count : Nat) (dest : Nat)
  | signal (handle : W64)
  deriving DecidableEq, Repr, Inhabited

/-- A commit buffer entry: the instruction, its address and active set (for the records R169 and R185 take later), its work, what the
completed lanes of a replayed instruction wrote before (R221), the last-read marks that wait until Commit has applied it (R125), whether one
of its lanes addresses a CELL page (R52), and the lanes of a bud read that have faulted while others still wait for an answer (R160); bytes of
lanes of a bud read that land only once every lane has answered (R375); the destination list of a VMCAST (R385); whether the instruction had
not retired when Commit took the entry (`open_`), and whether a refused load has been set back to unretired (`back`, R160). -/
structure CommitEntry where
  pc     : W64
  instr  : Instr
  active : W128
  op     : CommitOp
  wrote  : List (Nat × W64 × Nat) := []
  marks  : List Nat := []
  cell   : Bool := false
  faults : List LaneFault := []
  got    : List (LoadDest × List Byte) := []
  list   : List (List (Option W64)) := []
  open_  : Bool := false
  back   : Bool := false
  deriving DecidableEq, Repr, Inhabited

/-- A trap to be recorded: cause, FIELD (R451), FAULTVA, and for a lane record the lanes. -/
structure Trap where
  cause : Cause
  field : Nat
  va    : W64
  lanes : W128
  lane  : Bool
  pair  : Bool
  arg   : W32
  deriving DecidableEq, Repr, Inhabited

/-- One strand: everything R253 saves, and what the core keeps for it. `waitRegs` are the registers that its waiting instruction found in
flight (R121); `acq` is the scope and the producer of an acquire load whose deferred lanes have not landed (R227); `issued` is the engine operation whose
instruction has issued and waits for room among the range locks (R192, R402); `solid` is the number of entries of `buffer`, oldest first, whose
instructions have retired (R53, R56), and `writers` the number of memory-writing instructions retired in the quantum (R52); `draining` is the
stack of the physical slots that MFREE has returned, last freed last, each with the loads that have still to land in it (R367); `saveAt` is the offset of its last save record (R254). -/
structure Strand where
  ctx       : Nat
  gid       : Nat
  kind      : StrandKind
  core      : Nat
  quarter   : Nat
  slot      : Nat
  index     : Nat
  role      : Nat
  group     : Nat
  cls       : Nat
  status    : Status
  pc        : W64
  vregs     : Sparse VReg
  sregs     : Sparse W64
  kregs     : Sparse W128
  mode      : W64
  flags     : W64
  regLimit  : Nat
  mapLimit  : Nat
  lookahead : Nat
  token     : Nat
  parent    : Nat
  chain     : List Nat
  depth     : Nat
  maxDepth  : Nat
  epoch     : W32
  retired   : W64
  trapCause : W64
  faultVa   : W64
  faultMask : W128
  epc       : W64
  salt      : W32
  stream    : W64
  ctr0      : Sparse Nat
  ctr1      : Sparse Nat
  laneBase  : Nat
  isarev    : Nat
  blevel    : Nat
  compat    : Bool
  paired    : Bool
  coords    : Coords
  ident     : List Nat
  ordinal   : Nat
  root      : Root
  launch    : Option Nat
  blocks    : List Block
  dirty     : BitVec 40
  slots     : Sparse MapSlot
  draining  : List (List Nat)
  load      : Option LoadProg
  record    : Option LaneRecord
  replay    : Option W128
  gbar      : Bool
  bloomed   : Bool
  hostInt   : Bool
  spared    : Bool
  held      : Bool
  quantum   : Nat
  ended     : Bool
  exited    : Bool
  buffer    : List CommitEntry
  solid     : Nat
  writers   : Nat
  pendTrap  : Option (CommitEntry × Trap)
  waitRegs  : List Nat
  acq       : Option (Nat × Nat)
  issued    : Option EngineOp
  saveAt    : Option Nat
  deriving DecidableEq, Repr, Inhabited

/-- A group on a core (R98, R109, R110): its launch, its local run (first granule, granules), its register pool in order, the waiting
CLAIMs in order of service (strand, blocks, and whether an epoch has ended since it began to wait), and the hardware strands it was
placed with. -/
structure Group where
  ctx    : Nat
  launch : Option Nat
  index  : Nat
  core   : Nat
  first  : Nat
  grans  : Nat
  pool   : List Block
  ret    : List Block
  claims : List (Nat × Nat × Bool)
  hw     : Nat
  deriving DecidableEq, Repr, Inhabited

/-- The migrating leaf that an access goes through (R217, R218): the die of the owner and the record's physical address there, the byte
offset of the access in the page, and the page's size in bytes. -/
structure Mig where
  die  : Nat
  rcd  : Nat
  off  : Nat
  size : Nat
  deriving DecidableEq, Repr, Inhabited

/-- An L1 data line of 64 bytes (R212, R225): context, canonical address, data, dirty bytes, the R, W and X bits it came with, the
translation it was fetched with (R213), and whether its page's POL evicts it first (R208). -/
structure L1Line where
  ctx   : Nat
  va    : Nat
  data  : BitVec 512
  dirty : BitVec 64
  r     : Bool
  w     : Bool
  x     : Bool
  place : Place
  pa    : Nat
  mig   : Option Mig
  evictFirst : Bool := false
  deriving DecidableEq, Repr, Inhabited

/-- An instruction cache line of 64 bytes with the R, W and X bits it came with (R212), the memory that served it, and whether its leaf
was migrating (R206). -/
structure ILine where
  ctx   : Nat
  va    : Nat
  data  : BitVec 512
  r     : Bool
  w     : Bool
  x     : Bool
  place : Place
  moves : Bool
  deriving DecidableEq, Repr, Inhabited

/-- A range lock (R178): context, the group for an owner 5 range, the half-open interval, source or destination, its operation. -/
structure Lock where
  ctx    : Nat
  gid    : Option Nat
  lo     : Nat
  hi     : Nat
  source : Bool
  op     : Nat
  deriving DecidableEq, Repr, Inhabited

/-- A binding table entry (R231); `none` is last-seen version unknown. -/
structure Binding where
  ctx    : Nat
  gid    : Nat
  binder : W64
  lo     : Nat
  hi     : Nat
  seen   : Option W64
  uses   : Nat
  deriving DecidableEq, Repr, Inhabited

/-- What a core holds (R4, R116, R244). -/
structure Core where
  rot     : Nat
  l1      : List L1Line
  icache  : List ILine
  locks   : List Lock
  binds   : List Binding
  frozenQ : List Nat
  serving : Option Nat
  deriving DecidableEq, Repr, Inhabited

/-- A core at reset (R116: the rotation pointer is 0). -/
def Core.reset : Core :=
  { rot := 0, l1 := [], icache := [], locks := [], binds := [], frozenQ := [], serving := none }

/-- Whose address an object's FVA holds (R171, R182): the group and the object, the engine operation, and where in its iteration order it
failed. -/
structure FvaMark where
  gid : Nat
  obj : W64
  op  : Nat
  pos : Nat
  deriving DecidableEq, Repr, Inhabited

/-- Context states (R45); a number never created is absent from the map. -/
inductive CtxState
  | created | loaded | running | preempted | faulted | destroyed
  deriving DecidableEq, Repr, Inhabited

/-- An event queue in service (R60, R75): slot 0, log2 of the slots, head and tail lines, tail count. -/
structure EventQueue where
  base : Nat
  logn : Nat
  head : Nat
  tail : Nat
  cnt  : Nat
  deriving DecidableEq, Repr, Inhabited

/-- A context with what its record latched (R39, R46). `dies` are its partition's dies; `doomed` says that it enters faulted once the
pre-emption under way has been saved (R48). `seq` counts the launch records taken since CTX_LOAD (R75), and `modeSeq` those of them that the
launch sequence numbers of a deterministic context leave out (R51). `closing` says that Commit has applied an epoch's buffers while
engine operations that belong to the epoch still run (R185), with how many that earlier epochs deferred still wait (R403). -/
structure Context where
  state     : CtxState
  part      : Nat
  dies      : List Nat
  det       : Bool
  qexp      : Nat
  seed      : W64
  strandQ   : Nat
  spawnQ    : Nat
  waitQ     : Nat
  wdog      : Nat
  handler   : W64
  roots     : List W64
  evqAddr   : W64
  evq       : Option EventQueue
  saveOff   : Nat
  saveSize  : Nat
  record    : W64
  seq       : Nat
  modeSeq   : Nat := 0
  primary   : Option Nat
  preempt   : Option (Nat × Nat)
  saving    : Bool
  scanned   : List W64
  overflow  : Bool
  doomed    : Bool
  closing   : Option Nat := none
  deriving DecidableEq, Repr, Inhabited

/-- Queue states (R62); an absent queue is absent from the map. -/
inductive QState
  | idle | active | blocked | stopped | error
  deriving DecidableEq, Repr, Inhabited

/-- An entry taken and not yet passed by the head (R64): its count, its 2048 bits as read when taken, the status it will complete with
once it has one, and whether it has completed. -/
structure EntryState where
  n      : Nat
  word   : Nat
  status : Option Nat
  done   : Bool
  deriving DecidableEq, Repr, Inhabited

/-- A work or control queue (R60, R61): a work queue's context, or none once that context was destroyed; and for one that is being removed,
the entry that its removal completes, as the number of a control queue and the entry's count there. `birth` is the entry of its QUEUE_CREATE
while that has still to complete (R51). -/
structure Queue where
  state : QState
  kind  : Nat
  ctx   : Option Nat
  base  : Nat
  logn  : Nat
  headA : Nat
  tailA : Nat
  tail  : Nat
  taken : Nat
  head  : Nat
  ents  : List EntryState
  dying : Option (Nat × Nat)
  bound : Nat
  birth : Option (Nat × Nat) := none
  deriving DecidableEq, Repr, Inhabited

/-- A launch in progress (R66, R69, R117). -/
structure Launch where
  ctx     : Nat
  seq     : Nat
  queue   : Nat
  entry   : Nat
  pc      : W64
  header  : W64
  args    : List W64
  levels  : List Level
  cores   : List Nat
  lanes   : Nat
  groups  : Nat
  stream  : W64
  roleMap : W64
  clsMap  : W32
  next    : Nat
  lastC   : Option Nat
  holding : Bool
  deriving DecidableEq, Repr, Inhabited

/-- A graph node (R407): the strand it holds back, its remaining count, its generation. -/
structure Node where
  strand : NewStrand
  hint   : Nat
  count  : Nat
  gen    : Nat
  deriving DecidableEq, Repr, Inhabited

/-- An opening entry of a die's wait table (R159); `told` says that the watchdog has reported its cell (R57). -/
structure Opening where
  die    : Nat
  ctx    : Nat
  cell   : W64
  key    : Nat
  opener : Nat
  retry  : Nat
  root   : Root
  told   : Bool
  deriving DecidableEq, Repr, Inhabited

/-- A waiter entry (R159): one load instruction's lanes that wait on a cell. -/
structure Waiter where
  die   : Nat
  ctx   : Nat
  cell  : W64
  sid   : Nat
  prod  : Nat
  reads : List CellRead
  deriving DecidableEq, Repr, Inhabited

/-- A load lane on its way to a cell's owner, or refused there and awaiting reissue (R160). -/
structure CellReq where
  id      : Nat
  sid     : Nat
  read    : CellRead
  refused : Bool
  deriving DecidableEq, Repr, Inhabited

/-- The delivery of a VLDA (R380): the bytes read, and where they go. -/
structure VldaOp where
  id    : Nat
  sid   : Nat
  items : List (LoadDest × List Byte)
  deriving DecidableEq, Repr, Inhabited

/-- A physical map slot of a strand that has exited, held until the loads into it have landed (R134, R147): its context, core and quarter, and
which of the strand's slots it is. -/
structure HeldSlot where
  ctx     : Nat
  core    : Nat
  quarter : Nat
  slot    : Nat
  deriving DecidableEq, Repr, Inhabited

/-- An outstanding MLOAD or MSIDE (R369): strand, logical slot, image or side memory, first byte, the bytes read, and the slot that it holds once
its strand has exited. -/
structure SlotLoad where
  id    : Nat
  sid   : Nat
  slot  : Nat
  side  : Bool
  first : Nat
  bytes : List Byte
  held  : Option HeldSlot := none
  deriving DecidableEq, Repr, Inhabited

/-- A write or atomic that has left its strand for its owner (R226): the place and physical address its checks gave, the migrating leaf
it goes through, if any, and where the old value of an atomic with a result goes (R228). -/
structure Posted where
  id     : Nat
  sid    : Nat
  core   : Nat
  ctx    : Nat
  va     : W64
  place  : Place
  pa     : Nat
  mig    : Option Mig
  work   : List Byte ⊕ LaneAtom
  dest   : Option LoadDest
  deriving DecidableEq, Repr

/-- A patch in progress (R96): context, target, source and counter addresses as its record has them, instructions, and the core and group of
the handler's subject, whose owner 5 and 6 addresses they may be. -/
structure Patch where
  id     : Nat
  ctx    : Nat
  target : W64
  source : W64
  count  : Nat
  done   : W64
  core   : Nat
  gid    : Nat
  deriving DecidableEq, Repr, Inhabited

/-- Device link states (R258). -/
inductive LinkState
  | off | training | up | failed
  deriving DecidableEq, Repr, Inhabited

/-- A device link (R260); `sends` counts, for each flit, its failed sends in a row (R257). -/
structure Link where
  state   : LinkState
  fails   : Nat
  replays : Nat
  plink   : Nat
  pdev    : Nat
  sends   : Sparse Nat
  deriving DecidableEq, Repr, Inhabited

/-- A link at reset: off, with counts 0 (R260). -/
def Link.reset : Link := { state := .off, fails := 0, replays := 0, plink := 0, pdev := 0, sends := [] }

/-- A member of a communicator (R262). -/
structure Member where
  dev  : Nat
  link : Nat
  deriving DecidableEq, Repr, Inhabited

/-- An installed communicator (R262): valid until R259 marks it invalid; the next collective's number (R265); contributions that
arrived for collectives this member has not begun; the LSENDs that failed here, by sender's rank and operation, with the address (R266);
the roots of collectives whose LRED has not started here, which only members that disagree send (R265); and the number of the installation among
its slot's, by which operations of an earlier one are told from its own (R262). -/
structure Comm where
  valid   : Bool
  cid     : BitVec 32
  gen     : BitVec 32
  ctx     : Nat
  rank    : Nat
  members : List Member
  coll    : Nat
  early   : List Contribution
  failed  : List (Nat × Nat × W64)
  roots   : List (Nat × RootFlit) := []
  inst    : Nat := 0
  deriving DecidableEq, Repr, Inhabited

/-- What leaves the device (R256, R259, R266, R267, R155, R223): observable outputs, oldest first. -/
inductive OutMsg
  | data (link : Nat) (f : Flit)
  | ack (cid gen : BitVec 32) (rank op n : Nat) (r : AckResult)
  | refusal (cid gen : BitVec 32) (rank : Nat)
  | abort (link : Nat) (cid gen : BitVec 32) (rank : Nat)
  | heartbeat (link : Nat) (cid gen : BitVec 32) (rank : Nat)
  | contribution (link : Nat) (c : Contribution)
  | root (link : Nat) (cid gen : BitVec 32) (coll rank : Nat) (vals : List NodeVal)
  | peerReply (dev : Nat) (bytes : List Byte) (ok : Bool)
  | cxlData (bytes : List Byte)
  | resend (link flit : Nat)
  deriving DecidableEq, Repr

/-- A saved group with what is private to the hub in its record (R253): bindings and locks. -/
structure SavedGroup where
  gid   : Nat
  group : Group
  binds : List Binding
  locks : List Lock
  deriving DecidableEq, Repr, Inhabited

/-- A pre-empted context's save (R253): its groups and strands in directory order, its waiters (R167), its ready-pool entries by die and
its graph nodes (R76, R407). What the record of R253 holds of a strand is read from it again at CTX_RESUME. -/
structure Saved where
  groups  : List SavedGroup
  strands : List (Nat × Strand)
  waiters : List Waiter
  pools   : Sparse (List NewStrand)
  nodes   : Sparse Node
  deriving DecidableEq, Repr, Inhabited

/-- Why the machine stops. Raised by the physical memory operations of Machine/Ops.lean only, never by ordinary data. -/
inductive Fault
  /-- An access reached a physical frame outside the memory that R5 gives the device, or in a die-store bank that is retired (R450). The specification gives such an access no
  effect. Safe: the model stops where the hardware does something it does not state. -/
  | absentMemory (place : Place) (addr : Nat)
  deriving DecidableEq, Repr

/-- Why a step has no meaning. -/
inductive Refusal
  /-- An instruction whose meaning has not been written; raised by Machine/Dispatch.lean alone. Safe. -/
  | notModelled (mnemonic : String)
  deriving DecidableEq, Repr

/-- Everything of the device but the hub controller's registers. `coros` holds, for each quarter of a deterministic context, the identifier
of the strand that issued last and whether the quarter has switched from it (R120); `lastQueue` is the queue that the hub served last (R64);
`fvaOps` says whose addresses the FVAs of objects hold (R182), and `sentOps` which LREDs have left the engines with flits that may not have
been acknowledged, each with its communicator's slot, CID and GEN (R259); `freed` counts, for each die, the times that resources came free on it (R157); `declared` holds the lasting faults
declared since reset, each with whether it is a whole unit's (R450), and `banks` the die-store banks, each a die and a number, that the last reset
retired; `gone` keeps the last state of the strands that have exited, which R430
and R439 speak of and nothing reads. -/
structure Chip where
  mem        : Memory
  tags       : Sparse (BitVec 2)
  strands    : Sparse Strand
  groups     : Sparse Group
  cores      : Sparse Core
  ctxs       : Sparse Context
  queues     : Sparse Queue
  launches   : Sparse Launch
  pools      : Sparse (List NewStrand)
  overflows  : Sparse (List NewStrand)
  nodes      : Sparse Node
  nodeUses   : Sparse Nat
  openings   : List Opening
  waiters    : List Waiter
  cellReqs   : List CellReq
  vldas      : List VldaOp
  slotLoads  : List SlotLoad
  engines    : List EngineOp
  fvaOps     : List FvaMark
  sentOps    : List (Nat × Nat × BitVec 32 × BitVec 32)
  deferred   : List EngineOp
  posted     : List Posted
  patches    : List Patch
  coros      : Sparse (List Nat × Bool)
  lastQueue  : Nat
  freed      : Sparse Nat
  gone       : Sparse Strand
  saved      : Sparse Saved
  links      : Sparse Link
  peerRoutes : Sparse (BitVec 8)
  exports    : Sparse (Nat × Nat)
  comms      : Sparse Comm
  outbox     : List OutMsg
  errCounts  : Sparse Nat
  errHist    : List ErrorReport
  faultLog   : List ErrorReport
  declared   : List (Bool × ErrorReport)
  firmware   : Firmware
  facts      : Sparse (Nat × Nat)
  banks      : List (Nat × Nat)
  cur        : Nat
  freeCtr    : Nat
  nextId     : Nat
  halt       : Option Fault
  deriving DecidableEq, Repr

/-- The hub controller's registers (R441) and the power limits (R443, R444). Lists of caps and limits run over partitions 0 to 3. -/
structure HubCtl where
  status     : W64
  ctlq       : W64
  saveBase   : W64
  saveLen    : W64
  partLayout : W64
  devNum     : W64
  rank       : W64
  capHost    : W64
  key        : BitVec 512
  keyIdx     : Nat
  linkCtl    : W64
  commWin    : BitVec 1024
  commStat   : W64
  nonce      : BitVec 512
  reportAddr : W64
  start      : Bool
  frameCap   : Sparse Nat
  lastSeq    : Option Nat
  thermal    : Sparse Nat
  current    : Sparse Nat
  draw       : Sparse Nat
  deriving DecidableEq, Repr, Inhabited

/-- What happens to the memories and caches without an instruction: an instruction cache line leaves the cache, the driver allocates a
frame (R153), a power-gated die-store bank returns (R216). -/
inductive Ambient
  | evictText (core ctx va : Nat)
  | allocate (p : Place) (pa n : Nat)
  | bankReturn (die bank : Nat)
  deriving DecidableEq, Repr

/-- Who moves next: a strand executes one instruction, or the outside world first writes memory that is not the device's (host memory,
a peer's memory) and then a step of the device takes place, or something happens to a memory or a cache. -/
inductive Turn
  | strand (sid : Nat)
  | event (writes : List Host.Cell) (i : Instr)
  | ambient (a : Ambient)
  deriving DecidableEq, Repr

/-- The whole state. -/
structure State where
  chip   : Chip
  hc     : HubCtl
  agenda : List Turn
  deriving DecidableEq, Repr

/-- The expansion table of the model's reset: no errata (DESIGN CHOICE, log 14). -/
def Firmware.reset : Firmware := { image := 0, errata := [] }

/-- Everything but the hub controller at reset: nothing created, links off, memory unlisted, tags VALUE (R153, R258). -/
def Chip.reset : Chip :=
  { mem := [], tags := [], strands := [], groups := [], cores := [], ctxs := [], queues := [], launches := [], pools := [],
    overflows := [], nodes := [], nodeUses := [], openings := [], waiters := [], cellReqs := [], vldas := [], slotLoads := [],
    engines := [], fvaOps := [], sentOps := [], deferred := [], posted := [], patches := [], coros := [], lastQueue := 0, freed := [], gone := [],
    saved := [], links := [], peerRoutes := [], exports := [], comms := [], outbox := [], errCounts := [], errHist := [], faultLog := [], declared := [], firmware := Firmware.reset, facts := [], banks := [],
    cur := 0, freeCtr := 0, nextId := 1, halt := none }

/-- The hub controller at reset: every register 0 (R441), no cap (R442). HCSTATUS bit 0 is set once boot code has verified the image
(R446), which is the DEVICE_RESET step. -/
def HubCtl.reset : HubCtl :=
  { status := 0, ctlq := 0, saveBase := 0, saveLen := 0, partLayout := 0, devNum := 0, rank := 0, capHost := 0, key := 0, keyIdx := 0,
    linkCtl := 0, commWin := 0, commStat := 0, nonce := 0, reportAddr := 0, start := false, frameCap := [], lastSeq := none,
    thermal := [], current := [], draw := [] }

/-- The machine right after reset. -/
def State.reset : State := { chip := Chip.reset, hc := HubCtl.reset, agenda := [] }

end Sys2Proof.Machine
end

