-- ==== Sys2Proof/Machine/Sparse.lean ====
section
/-! DEFINITION. Operations on the finite maps and lists of the state (a map is a list in rising order of key). -/

namespace Sys2Proof.Machine

/-- The value at a key. -/
def Sparse.get? {α : Type} : Sparse α → Nat → Option α
  | [], _ => none
  | (k, v) :: rest, i => if k = i then some v else if i < k then none else Sparse.get? rest i

/-- The value at a key, or a default. -/
def Sparse.getD {α : Type} (m : Sparse α) (i : Nat) (d : α) : α := (Sparse.get? m i).getD d

/-- Put a value at a key. -/
def Sparse.set {α : Type} : Sparse α → Nat → α → Sparse α
  | [], i, v => [(i, v)]
  | (k, w) :: rest, i, v =>
    if k = i then (k, v) :: rest
    else if i < k then (i, v) :: (k, w) :: rest
    else (k, w) :: Sparse.set rest i v

/-- Take a key out. -/
def Sparse.erase {α : Type} : Sparse α → Nat → Sparse α
  | [], _ => []
  | (k, w) :: rest, i => if k = i then rest else (k, w) :: Sparse.erase rest i

/-- Change the value at a key, if there is one. -/
def Sparse.update {α : Type} (m : Sparse α) (i : Nat) (f : α → α) : Sparse α :=
  match Sparse.get? m i with
  | none => m
  | some v => Sparse.set m i (f v)

/-- The least natural number from `lo`, within `fuel` tries, that a list does not hold. -/
def leastFree (used : List Nat) : Nat → Nat → Nat
  | lo, 0 => lo
  | lo, fuel + 1 => if used.contains lo then leastFree used (lo + 1) fuel else lo

/-- Insert by a natural key, after entries of the same key. -/
def insertBy {α : Type} (key : α → Nat) (x : α) : List α → List α
  | [] => [x]
  | y :: ys => if key x < key y then x :: y :: ys else y :: insertBy key x ys

/-- Sort by a natural key, keeping the order of equals. -/
def sortBy {α : Type} (key : α → Nat) (xs : List α) : List α := xs.foldl (fun r x => insertBy key x r) []

/-- Lexicographic order of strand identifiers, a prefix first (R51). -/
def identLt : List Nat → List Nat → Bool
  | [], [] => false
  | [], _ :: _ => true
  | _ :: _, [] => false
  | a :: as, b :: bs => if a < b then true else if b < a then false else identLt as bs

/-- Insert in identifier order. -/
def insertIdent {α : Type} (key : α → List Nat) (x : α) : List α → List α
  | [] => [x]
  | y :: ys => if identLt (key y) (key x) then y :: insertIdent key x ys else x :: y :: ys

/-- Sort in identifier order, keeping the order of equals. -/
def sortIdent {α : Type} (key : α → List Nat) : List α → List α
  | [] => []
  | x :: xs => insertIdent key x (sortIdent key xs)

/-- Replace the element at a position of a list. -/
def setAt {α : Type} : List α → Nat → α → List α
  | [], _, _ => []
  | _ :: xs, 0, y => y :: xs
  | x :: xs, n + 1, y => x :: setAt xs n y

/-- Fold a function over 0 to n - 1. -/
def foldUpTo {β : Type} (f : Nat → β → β) : Nat → β → β
  | 0, b => b
  | n + 1, b => f n (foldUpTo f n b)

end Sys2Proof.Machine
end

