-- ==== Sys2Proof/Machine/Memory.lean ====
section
/-! DEFINITION. Physical memory, cell tags, the owner of an address, and the walk (10_page R204 to R218, 07_cell R153, 13_link R261). -/

namespace Sys2Proof.Machine

/-- The number of a memory among the regions of `physKey`. -/
def Place.index : Place → Nat
  | .near d => d
  | .far d => 4 + d
  | .store d => 8 + d
  | .host => 12
  | .peer n => 16 + n
  | .core c => 64 + c

/-- Bytes of a memory (R4, R5, R223). Host memory is as large as a 64-bit physical address reaches. -/
def Place.size : Place → Nat
  | .near d => if d < Config.dies then Config.nearBytes else 0
  | .far d => if d < Config.dies then Config.farBytes else 0
  | .store d => if d < Config.dies then Config.storeBytes else 0
  | .host => 2 ^ 64
  | .peer _ => Config.physBytes
  | .core c => if c < Config.cores then Config.granules * Config.granuleBytes else 0

/-- The key of a byte of a memory. -/
def physKey (p : Place) (pa : Nat) : Nat := Place.index p * 2 ^ 64 + pa

/-- The entries of memory below a key. -/
def Memory.below (a : Nat) : Memory → Memory
  | [] => []
  | (k, b) :: rest => if k < a then (k, b) :: Memory.below a rest else []

/-- The entries of memory from a key up. -/
def Memory.from (a : Nat) : Memory → Memory
  | [] => []
  | (k, b) :: rest => if k < a then Memory.from a rest else (k, b) :: rest

/-- The entries that hold a list of bytes from a key up. -/
def Memory.cells : Nat → List Byte → Memory
  | _, [] => []
  | a, b :: bs => if b = Memory.unlisted then Memory.cells (a + 1) bs else (a, b) :: Memory.cells (a + 1) bs

/-- The bytes from a key up, given the entries from that key up. -/
def Memory.take : Nat → Nat → Memory → List Byte
  | 0, _, _ => []
  | n + 1, a, [] => Memory.unlisted :: Memory.take n (a + 1) []
  | n + 1, a, (k, b) :: rest =>
    if k = a then b :: Memory.take n (a + 1) rest else Memory.unlisted :: Memory.take n (a + 1) ((k, b) :: rest)

/-- Read `n` bytes. -/
def Memory.read (m : Memory) (a n : Nat) : List Byte := Memory.take n a (Memory.from a m)

/-- Write a list of bytes, keeping the canonical form. -/
def Memory.write (m : Memory) (a : Nat) (bs : List Byte) : Memory :=
  Memory.below a m ++ (Memory.cells a bs ++ Memory.from (a + bs.length) m)

/-- Read one byte. -/
def Memory.byte (m : Memory) (a : Nat) : Byte :=
  match m with
  | [] => Memory.unlisted
  | (k, b) :: rest => if k = a then b else Memory.byte rest a

/-- Bytes of a memory of the device. -/
def Chip.readPhys (c : Chip) (p : Place) (pa n : Nat) : List Byte := c.mem.read (physKey p pa) n

/-- Stop the machine: the frame is outside the memory that the device has. -/
def Chip.absent (c : Chip) (p : Place) (pa : Nat) : Chip :=
  { c with halt := match c.halt with
                   | some r => some r
                   | none => some (.absentMemory p pa) }

/-- Whether bytes lie in a memory. -/
def Place.has (p : Place) (pa n : Nat) : Bool := decide (pa + n ≤ Place.size p)

/-- Write bytes of a memory; none outside it. -/
def Chip.writePhys (c : Chip) (p : Place) (pa : Nat) (bs : List Byte) : Chip :=
  if Place.has p pa bs.length then { c with mem := c.mem.write (physKey p pa) bs } else c.absent p pa

/-- A little-endian word of a memory. -/
def Chip.readWord (c : Chip) (p : Place) (pa : Nat) : W64 := BitVec.ofNat 64 (leNat (c.readPhys p pa 8))

/-- Write a little-endian word. -/
def Chip.writeWord (c : Chip) (p : Place) (pa : Nat) (w : W64) : Chip := c.writePhys p pa (leBytes 8 w.toNat)

/-- Cell tags (R153). -/
def tagValue : BitVec 2 := 0
def tagBud : BitVec 2 := 1
def tagOpening : BitVec 2 := 2

/-- The tag of the cell at a physical address; reset and absence are VALUE (R153). -/
def Chip.tagAt (c : Chip) (p : Place) (pa : Nat) : BitVec 2 := Sparse.getD c.tags (physKey p pa / 16) tagValue

/-- Set a cell's tag. -/
def Chip.setTag (c : Chip) (p : Place) (pa : Nat) (t : BitVec 2) : Chip :=
  { c with tags := if t = tagValue then Sparse.erase c.tags (physKey p pa / 16) else Sparse.set c.tags (physKey p pa / 16) t }

/-- A die's memory by a physical address of a table, a root or a migration record: near memory first, far memory after it (log 6). -/
def dieMemory (d pa : Nat) : Place × Nat :=
  if pa < Config.nearBytes then (.near d, pa) else (.far d, pa - Config.nearBytes)

/-- The memory of a page state at an owner (R210); `none` for a state that holds no frame. -/
def stateMemory (owner state : Nat) : Option Place :=
  match state with
  | 1 => some (.near owner)
  | 2 => some (.far owner)
  | 3 => some .host
  | 4 => some (.store owner)
  | _ => none

/-- Fields of an address (R204). -/
def vaOwn (va : W64) : Nat := (bits va 54 3).toNat
def vaOff (va : W64) : Nat := (bits va 0 48).toNat

/-- The reserved bits of an address are zero (R204). -/
def vaClean (va : W64) : Bool := bits va 57 7 == 0 && bits va 48 6 == 0

/-- An address with another owner. -/
def vaWithOwn (va : W64) (o : Nat) : W64 := putBits va 54 (BitVec.ofNat 3 o)

/-- Owner (R205) for an access of a core of die `die` in a context whose partition has the dies `dies`; `none` is PROTECTION. -/
def owner (dies : List Nat) (die : Nat) (va : W64) : Option Nat :=
  if vaClean va then
    let o := if vaOwn va = 6 then die else vaOwn va
    if o = 7 then none
    else if o ≤ 3 && !dies.contains o then none
    else some o
  else none

/-- The canonical form (R205). -/
def canonical (die : Nat) (va : W64) : W64 := if vaOwn va = 6 then vaWithOwn va die else va

/-- Who makes an access: the context, the die whose short form owner 6 is, and the group's local store run as a core, first byte and
length (R205). -/
structure Who where
  ctx   : Nat
  dies  : List Nat
  die   : Nat
  local? : Option (Nat × Nat × Nat)
  deriving DecidableEq, Repr, Inhabited

/-- Kinds of access (R211). `plant` is BUDST and BLOOM, `look` is BUDQ. -/
inductive Access
  | load | store | atomic | plant | look | fetch | engineRead | engineWrite
  deriving DecidableEq, Repr

/-- A translation: the canonical address, its owner, the memory and address served, the leaf's attributes, and the migrating leaf it
went through. -/
structure Xl where
  va    : W64
  owner : Nat
  place : Place
  pa    : Nat
  pol   : Nat
  ord   : Bool
  cell  : Bool
  r     : Bool
  w     : Bool
  x     : Bool
  mig   : Option Mig
  down  : Bool
  deriving DecidableEq, Repr

/-- What a walk gives: a translation, a trap cause, or a physical address that the device does not have. -/
inductive XRes
  | ok (x : Xl)
  | trap (c : Cause)
  | absent (p : Place) (pa : Nat)
  deriving DecidableEq, Repr

/-- Fields of a tree entry (R208). -/
def entryState (e : W64) : Nat := (bits e 0 3).toNat
def entryLeaf (e : W64) : Bool := bit e 3
def entrySize (e : W64) : Nat := (bits e 10 2).toNat
def entryAddr (e : W64) : Nat := (bits e 12 40).toNat * 4096
def entryPol (e : W64) : Nat := (bits e 58 2).toNat

/-- Bytes of a page by its SIZE (R208). -/
def pageBytes : Nat → Nat
  | 0 => 4096
  | 1 => 65536
  | 2 => 2 ^ 21
  | _ => 2 ^ 30

/-- A pointer that leads on (R208): present, every bit but ADDR zero. -/
def pointerOk (e : W64) : Bool := entryState e == 1 && !entryLeaf e && bits e 4 8 == 0 && bits e 52 12 == 0

/-- A leaf that is neither malformed nor invalid (R209). -/
def leafOk (hub : Bool) (level : Nat) (e : W64) : Bool :=
  bits e 60 4 == 0 && bits e 4 6 == 0 && entryPol e != 3 && entryLeaf e
    && (match level with
        | 2 => entrySize e == 3
        | 1 => entrySize e == 2
        | 0 => entrySize e ≤ 1
        | _ => false)
    && (if hub then entryState e == 3 && !bit e 56
        else 1 ≤ entryState e && entryState e ≤ 5 && !bit e 52 && !(entryState e == 3 && bit e 56))
    && (entryState e == 5 || entryAddr e % pageBytes (entrySize e) == 0)

/-- A table's memory: host memory for the hub tree, the die's otherwise (R207). -/
def tableMemory (o pa : Nat) : Place × Nat := if o = 4 then (.host, pa) else dieMemory o pa

/-- The result of a walk: the leaf, a fault, or a table that is not there. -/
inductive WRes
  | leaf (e : W64)
  | fault
  | absent (p : Place) (pa : Nat)
  deriving DecidableEq, Repr

/-- The walk from the table at `pa` for a level (R207, R209). -/
def Chip.walk (c : Chip) (o off : Nat) : Nat → Nat → WRes
  | 0, pa =>
    let t := tableMemory o pa
    if Place.has t.1 t.2 4096 then
      let i := off / 4096 % 512
      let first := c.readWord t.1 (t.2 + 8 * (i / 16 * 16))
      if entryLeaf first && entrySize first == 1 then
        (if leafOk (o == 4) 0 first then .leaf first else .fault)
      else
        let e := c.readWord t.1 (t.2 + 8 * i)
        if leafOk (o == 4) 0 e && entrySize e == 0 then .leaf e else .fault
    else .absent t.1 t.2
  | level + 1, pa =>
    let t := tableMemory o pa
    if Place.has t.1 t.2 4096 then
      let e := c.readWord t.1 (t.2 + 8 * (off / 2 ^ (12 + 9 * (level + 1)) % 512))
      if leafOk (o == 4) (level + 1) e then .leaf e
      else if pointerOk e then c.walk o off level (entryAddr e)
      else .fault
    else .absent t.1 t.2

/-- The header of a migration record (R217): source and new memory and frame, if it is well formed for the leaf. -/
def Chip.migHeader (c : Chip) (die rec size : Nat) (cell : Bool) : Option (Place × Nat × Place × Nat) :=
  let h := leNat (c.readPhys (.near die) rec 64)
  let w0 := BitVec.ofNat 64 h
  let src := h / 2 ^ 192 % 2 ^ 64
  let new := h / 2 ^ 128 % 2 ^ 64
  let ns := (bits w0 4 3).toNat
  if h / 2 ^ 256 = 0 && h / 2 ^ 8 % 2 ^ 120 = 0 && !bit w0 3 && !(ns == 3 && cell) && src % size == 0 && new % size == 0 then
    match stateMemory die (bits w0 0 3).toNat, stateMemory die ns with
    | some p, some q => some (p, src, q, new)
    | _, _ => none
  else none

/-- The access of a leaf (R211 step 4, with R152 and R206). -/
def accessOk (k : Access) (r w x cell : Bool) : Bool :=
  match k with
  | .load | .engineRead | .look => r
  | .store => w && !x
  | .atomic => r && w
  | .plant => r && w && cell
  | .fetch => x
  | .engineWrite => w

/-- Whether device `n` exports bytes (R223): number 16 is this device. -/
def Chip.exported (c : Chip) (n pa len : Nat) : Bool :=
  match Sparse.get? c.exports n with
  | none => false
  | some (base, size) => decide (base ≤ pa) && decide (pa + len ≤ base + size)

/-- Whether the peer route to a device is down (R261): its entry has V = 0 or names a link that is not up. -/
def Chip.routeDown (c : Chip) (dev : Nat) : Bool :=
  match Sparse.get? c.peerRoutes dev with
  | none => true
  | some e => !bit e 4 || (Sparse.getD c.links (bits e 0 4).toNat Link.reset).state != .up

/-- Bytes of a die-store bank: 256 banks of equal size (R5). -/
def bankBytes : Nat := Config.storeBytes / 256

/-- Whether bytes meet a die-store bank that the last reset retired (R450), with the bank's run of addresses (log 70). -/
def Chip.bankGone (c : Chip) (p : Place) (pa n : Nat) : Bool :=
  c.banks.any fun x => p == .store x.1 && decide (pa < (x.2 + 1) * bankBytes) && decide (x.2 * bankBytes < pa + n)

/-- Translate `n` bytes at a canonical address under owner 0 to 4 whose page the walk reached. -/
def Chip.leafXl (c : Chip) (k : Access) (short : Bool) (o : Nat) (va : W64) (n : Nat) (e : W64) : XRes :=
  let size := pageBytes (entrySize e)
  let off := vaOff va % size
  let r := bit e 53
  let w := bit e 54
  let x := bit e 55
  let cell := bit e 56
  let base : Xl := { va := va, owner := o, place := .host, pa := 0, pol := entryPol e, ord := bit e 57, cell := cell, r := r, w := w,
                     x := x, mig := none, down := false }
  if entryState e = 5 then
    let t := dieMemory o (entryAddr e)
    match t.1 with
    | .near d =>
      match c.migHeader d t.2 size cell with
      | none => .trap .pageFault
      | some (sp, src, np, new) =>
        if short then .trap .protection
        else if !accessOk k r w x cell then .trap .protection
        else if !Place.has sp src size || c.bankGone sp (src + off) n then .absent sp src
        else if !Place.has np new size || c.bankGone np (new + off) n then .absent np new
        else .ok { base with place := np, pa := new + off, mig := some { die := d, rcd := t.2, off := off, size := size } }
    | p => .absent p t.2
  else if short && entryState e != 4 then .trap .protection
  else if !accessOk k r w x cell then .trap .protection
  else if o = 4 && bit e 52 then
    let dev := (bits e 48 4).toNat
    let pa := (bits e 12 36).toNat * 4096 + off
    if c.exported dev pa n then .ok { base with place := .peer dev, pa := pa, down := c.routeDown dev } else .trap .protection
  else
    match stateMemory o (entryState e) with
    | none => .trap .pageFault
    | some p =>
      if Place.has p (entryAddr e) size && !c.bankGone p (entryAddr e + off) n then .ok { base with place := p, pa := entryAddr e + off } else .absent p (entryAddr e)

/-- Check and translate an access of `n` bytes (R211): owner, alignment, walk, attributes. Under owner 5 the alignment comes before the allocation
check of R205, which R211's steps do not place (DESIGN CHOICE, log 115). -/
def Chip.translate (c : Chip) (who : Who) (k : Access) (align : Nat) (va : W64) (n : Nat) : XRes :=
  match owner who.dies who.die va with
  | none => .trap .protection
  | some o =>
    if va.toNat % align != 0 then .trap .misaligned
    else if o = 5 then
      match who.local? with
      | none => .trap .protection
      | some (core, first, len) =>
        if vaOff va + n ≤ len && accessOk k true true false false then
          .ok { va := va, owner := 5, place := .core core, pa := first + vaOff va, pol := 1, ord := false, cell := false, r := true,
                w := true, x := false, mig := none, down := false }
        else .trap .protection
    else
      let root := ((Sparse.get? c.ctxs who.ctx).map fun x => x.roots.getD o 0).getD 0
      if !bit root 0 then .trap .pageFault
      else
        match c.walk o (vaOff va) 3 ((bits root 12 40).toNat * 4096) with
        | .fault => .trap .pageFault
        | .absent p pa => .absent p pa
        | .leaf e => c.leafXl k (vaOwn va == 6) o (canonical who.die va) n e

/-- Whether `n` bits of a line-valid map are all 1 (R217): bytes of 0xFF from a key up, given the entries from it up. -/
def Memory.allOnes : Nat → Nat → Memory → Bool
  | 0, _, _ => true
  | _ + 1, _, [] => false
  | n + 1, a, (k, b) :: rest => k == a && b == 0xFF && Memory.allOnes n (a + 1) rest

/-- Copy the tags of the four cells of a line; a host source or destination holds VALUE (R218). -/
def Chip.copyTags (c : Chip) (sp : Place) (src : Nat) (np : Place) (new : Nat) : Chip :=
  if np = .host then c
  else (List.range 4).foldl (fun c i =>
    c.setTag np (new + 16 * i) (if sp = .host then tagValue else c.tagAt sp (src + 16 * i))) c

/-- The owner sets DONE of a migration record every bit of whose map is 1, also of a map that software wrote so (R217, R219). -/
def Chip.migDone (c : Chip) (m : Mig) : Chip :=
  let a := physKey (.near m.die) (m.rcd + 64)
  if Memory.allOnes (m.size / 512) a (Memory.from a c.mem) then
    let d := (c.readPhys (.near m.die) m.rcd 1).headD 0
    c.writePhys (.near m.die) m.rcd [d ||| 0x80]
  else c

/-- Pull one line of a migrating page (R218). -/
def Chip.pullLine (c : Chip) (m : Mig) (line : Nat) : Chip :=
  match c.migHeader m.die m.rcd m.size false with
  | none => c
  | some (sp, src, np, new) =>
    let at_ := m.rcd + 64 + line / 8
    let b := (c.readPhys (.near m.die) at_ 1).headD 0
    if bit b (line % 8) then c
    else
      let c := c.writePhys np (new + 64 * line) (c.readPhys sp (src + 64 * line) 64)
      let c := c.copyTags sp (src + 64 * line) np (new + 64 * line)
      (c.writePhys (.near m.die) at_ [b ||| (1 <<< (line % 8))]).migDone m

/-- Pull every line that an access of `n` bytes touches (R218). -/
def Chip.pull (c : Chip) (m : Option Mig) (n : Nat) : Chip :=
  match m with
  | none => c
  | some m =>
    (List.range ((m.off + n - 1) / 64 + 1 - m.off / 64)).foldl (fun c i => c.pullLine m (m.off / 64 + i)) c

/-- Read bytes through a translation. -/
def Chip.readXl (c : Chip) (x : Xl) (n : Nat) : Chip × List Byte :=
  let c := c.pull x.mig n
  (c, c.readPhys x.place x.pa n)

/-- Write bytes through a translation. -/
def Chip.writeXl (c : Chip) (x : Xl) (bs : List Byte) : Chip := (c.pull x.mig bs.length).writePhys x.place x.pa bs

/-- Bytes of no stated value. -/
def freeBytes (ctr n : Nat) : List Byte :=
  ((List.range ((n + 7) / 8)).flatMap fun i => leBytes 8 (Config.freeWord (ctr + i)).toNat).take n

/-! ### Writes past a migration (R219) -/

/-- The numbers of the words of a table, from its key, that memory lists a byte of. Any other word reads 0, which maps nothing (R208). -/
def Memory.words (m : Memory) (a : Nat) : List Nat :=
  (((Memory.from a m).takeWhile fun x => decide (x.1 < a + 4096)).map fun x => (x.1 - a) / 8).eraseDups

/-- The words of a table that may map something, each with its number. -/
def Chip.tableWords (c : Chip) (o pa : Nat) : List (Nat × W64) :=
  let t := tableMemory o pa
  (Memory.words c.mem (physKey t.1 t.2)).map fun i => (i, c.readWord t.1 (t.2 + 8 * i))

/-- The migrating leaves of a die's tree that a walk reaches from the table at `pa` for a level. -/
def Chip.migratingLeaves (c : Chip) (o : Nat) : Nat → Nat → List W64
  | 0, pa =>
    let ws := c.tableWords o pa
    let big (i : Nat) : Bool := ws.any fun x => x.1 == i / 16 * 16 && entryLeaf x.2 && entrySize x.2 == 1
    (ws.filter fun x => leafOk false 0 x.2 && entryState x.2 == 5 && (big x.1 == (entrySize x.2 == 1)) && (!big x.1 || x.1 % 16 == 0)).map
      fun x => x.2
  | level + 1, pa =>
    (c.tableWords o pa).flatMap fun x =>
      if leafOk false (level + 1) x.2 then (if entryState x.2 = 5 then [x.2] else [])
      else if pointerOk x.2 then c.migratingLeaves o level (entryAddr x.2)
      else []

/-- The migrating pages of every context: die and address of the record, page size, CELL. -/
def Chip.migrations (c : Chip) : List (Nat × Nat × Nat × Bool) :=
  c.ctxs.flatMap fun x => (List.range Config.dies).flatMap fun o =>
    let root := x.2.roots.getD o 0
    if bit root 0 then
      (c.migratingLeaves o 3 ((bits root 12 40).toNat * 4096)).filterMap fun e =>
        match dieMemory o (entryAddr e) with
        | (.near d, rcd) => some (d, rcd, pageBytes (entrySize e), bit e 56)
        | _ => none
    else []

/-- The numbers of the units of `unit` bytes of the range of `size` bytes at `base` that the bytes `[pa, pa + n)` meet. -/
def unitsMet (base size unit pa n : Nat) : List Nat :=
  let lo := max base pa - base
  let hi := min (base + size) (pa + n) - base
  if max base pa < min (base + size) (pa + n) then (List.range ((hi - 1) / unit + 1 - lo / unit)).map (lo / unit + ·) else []

/-- The lines that a write of the bytes `[pa, pa + n)` of a memory leaves undefined, where it goes to the source, the new frame or the map
of a migrating page by another way than the page (R219): each in the source and in the new frame. -/
def Chip.spoiltBy (c : Chip) (ms : List (Nat × Nat × Nat × Bool)) (p : Place) (pa n : Nat) : List (Place × Nat) :=
  ms.flatMap fun m =>
    match c.migHeader m.1 m.2.1 m.2.2.1 m.2.2.2 with
    | none => []
    | some (sp, src, np, new) =>
      let size := m.2.2.1
      let ls := (if p = sp then unitsMet src size 64 pa n else []) ++ (if p = np then unitsMet new size 64 pa n else []) ++
        (if p = .near m.1 then (unitsMet (m.2.1 + 64) (size / 512) 1 pa n).flatMap fun b => (List.range 8).map (8 * b + ·) else [])
      ls.eraseDups.flatMap fun i => [(sp, src + 64 * i), (np, new + 64 * i)]

def Chip.spoilt (c : Chip) (p : Place) (pa n : Nat) : List (Place × Nat) := c.spoiltBy c.migrations p pa n

/-- Lines of undefined contents take free values. -/
def Chip.spoil (c : Chip) (ls : List (Place × Nat)) : Chip :=
  ls.foldl (fun c x =>
    if Place.has x.1 x.2 64 then { c with mem := c.mem.write (physKey x.1 x.2) (freeBytes c.freeCtr 64), freeCtr := c.freeCtr + 8 } else c) c

/-- A write of the hub to host memory by physical address: one of the physical paths of R219. -/
def Chip.hubWrite (c : Chip) (pa : Nat) (bs : List Byte) : Chip := (c.writePhys .host pa bs).spoil (c.spoilt .host pa bs.length)

/-! ### Frames that the driver allocates, and power gating (R153, R216) -/

/-- The tags of an interval of a memory become VALUE. -/
def Chip.valueTags (c : Chip) (p : Place) (pa n : Nat) : Chip :=
  let lo := physKey p pa / 16
  let hi := (physKey p (pa + n) + 15) / 16
  { c with tags := c.tags.filter fun x => !(decide (lo ≤ x.1) && decide (x.1 < hi)) }

/-- A power-gated bank of a die's store returns: it is filled with zeros, and its cells hold VALUE. That bank `b` holds the run of
addresses from `b * bankBytes` is the model's choice (DESIGN CHOICE, log 70). -/
def Chip.bankReturn (c : Chip) (die b : Nat) : Chip :=
  if die < Config.dies && b < 256 then
    let a := physKey (.store die) (b * bankBytes)
    { c with mem := Memory.below a c.mem ++ Memory.from (a + bankBytes) c.mem }.valueTags (.store die) (b * bankBytes) bankBytes
  else c

end Sys2Proof.Machine
end

