-- ==== Sys2Proof/Machine/Registers.lean ====
section
/-! DEFINITION. The registers of a strand: how one is read and written, and how loaded bytes land in one (R105, R254, R374). -/

namespace Sys2Proof.Machine

/-- A vector register. -/
def Strand.vreg (t : Strand) (n : Nat) : VReg := Sparse.getD t.vregs n VReg.start

/-- Replace a vector register and set its block's dirty bit (R254). -/
def Strand.setVreg (t : Strand) (n : Nat) (r : VReg) : Strand :=
  { t with vregs := Sparse.set t.vregs n r, dirty := t.dirty ||| (1 <<< (n / 8)) }

/-- A scalar register. -/
def Strand.sreg (t : Strand) (n : Nat) : W64 := Sparse.getD t.sregs n 0

/-- Write a scalar register. -/
def Strand.setSreg (t : Strand) (n : Nat) (v : W64) : Strand := { t with sregs := Sparse.set t.sregs n v }

/-- A mask register; k0 is the launch mask (R4). -/
def Strand.kreg (t : Strand) (n : Nat) : W128 := Sparse.getD t.kregs n 0

/-- Write a mask register; k0 is never written (R105). -/
def Strand.setKreg (t : Strand) (n : Nat) (v : W128) : Strand :=
  if n = 0 then t else { t with kregs := Sparse.set t.kregs n v }

/-- A lane of a register. -/
def VReg.lane (r : VReg) (l : Nat) : W32 := bits r.lanes (32 * l) 32

/-- Put a lane into a register's contents. -/
def putLane (x : LaneWord) (l : Nat) (v : W32) : LaneWord := putBits x (32 * l) v

/-- The value of loaded bytes, extended to whole 32-bit words (R374) or to 64 bits. -/
def extendBytes (signed : Bool) (width : Nat) (bs : List Byte) : Nat :=
  let n := 8 * bs.length
  let v := leNat bs
  if signed && decide (n < width) then wrapInt width (signedOf n v) else v

/-- Put loaded bytes where they go: words of a lane of consecutive registers, the registers' fill unchanged. -/
def Strand.landVec (t : Strand) (reg lane : Nat) (signed : Bool) (bs : List Byte) : Strand :=
  let v := extendBytes signed 32 bs
  (List.range ((bs.length + 3) / 4)).foldl (fun t j =>
    let r := t.vreg (reg + j)
    t.setVreg (reg + j) { r with lanes := putLane r.lanes lane (BitVec.ofNat 32 (v / 2 ^ (32 * j))) }) t

/-- Put loaded bytes where they go. -/
def Strand.land (t : Strand) (d : LoadDest) (bs : List Byte) : Strand :=
  match d with
  | .vec reg lane _ signed => t.landVec reg lane signed bs
  | .scalar reg _ signed => t.setSreg reg (BitVec.ofNat 64 (extendBytes signed 64 bs))

end Sys2Proof.Machine
end

