-- ==== Sys2Proof/Machine/Cache.lean ====
section
/-! DEFINITION. The L1 data caches and instruction caches of the cores, and the writes on their way to owners (11_ordering R224 to R229,
10_page R212). A core's L1 holds 128 KiB and its instruction cache 64 KiB (R4); the model fills them on every cacheable miss, and the line
filled or written longest ago makes room (log 8), those of pages with POL 2 before any other (R208). -/

namespace Sys2Proof.Machine

/-- A core. -/
def Chip.core (c : Chip) (n : Nat) : Core := Sparse.getD c.cores n Core.reset

/-- Replace a core. -/
def Chip.setCore (c : Chip) (n : Nat) (x : Core) : Chip := { c with cores := Sparse.set c.cores n x }

/-- The number of 64-byte lines of a line address: the address of the line that holds a byte. -/
def lineOf (va : W64) : Nat := va.toNat / 64 * 64

/-- The L1 line of a context that holds an address. -/
def findLine (ls : List L1Line) (ctx line : Nat) : Option L1Line := ls.find? fun l => l.ctx == ctx && l.va == line

/-- Remove the L1 line of a context at an address. -/
def dropLine (ls : List L1Line) (ctx line : Nat) : List L1Line := ls.filter fun l => !(l.ctx == ctx && l.va == line)

/-- Bytes of a line. -/
def L1Line.bytes (l : L1Line) (off n : Nat) : List Byte := (List.range n).map fun i => bits l.data (8 * (off + i)) 8

/-- Bytes put into a line, and marked dirty or clean. -/
def L1Line.put (l : L1Line) (off : Nat) (bs : List Byte) (mark : Bool) : L1Line :=
  let n := bs.length
  let m : BitVec 64 := (BitVec.allOnes 64 >>> (64 - n)) <<< off
  { l with data := putBits l.data (8 * off) (BitVec.ofNat (8 * n) (leNat bs)),
           dirty := if mark then l.dirty ||| m else l.dirty &&& ~~~m }

/-- The bytes of memory with a line's dirty bytes in place of theirs. -/
def mergeDirty (l : L1Line) (old : List Byte) : List Byte :=
  old.mapIdx fun i b => if bit l.dirty i then bits l.data (8 * i) 8 else b

/-- Write back a line's dirty bytes, under the translation it was fetched with (R225, R213). -/
def Chip.writeBack (c : Chip) (l : L1Line) : Chip :=
  if l.dirty = 0 then c
  else
    let c := c.pull l.mig 64
    c.writePhys l.place l.pa (mergeDirty l (c.readPhys l.place l.pa 64))

/-- Invalidate instruction cache lines of an interval. -/
def Chip.dropILines (c : Chip) (core ctx lo hi : Nat) : Chip :=
  let x := c.core core
  if x.icache.isEmpty then c
  else c.setCore core
    { x with icache := x.icache.filter fun l => !(l.ctx == ctx && decide (l.va < hi) && decide (lo < l.va + 64)) }

/-- Cores of the dies of a partition. -/
def dieCores (d : Nat) : List Nat := (List.range Config.coresPerDie).map (d * Config.coresPerDie + ·)
def coresOf (dies : List Nat) : List Nat := dies.flatMap dieCores

/-- The order of two atomically held data by R350, as VFMIN and the atomics use it: the lesser (`max = false`) or greater; `none` is the
canonical NaN. -/
def fpPick (F : FFmt) (max : Bool) (x y : Nat) : Option Nat × Exc :=
  let a := F.decode x
  let b := F.decode y
  let e := a.sig ||| b.sig
  if a.sig != 0 || b.sig != 0 then (none, e)
  else if a.isNan && b.isNan then (none, e)
  else if a.isNan then (some y, e)
  else if b.isNan then (some x, e)
  else
    let c := a.cmp b
    let xneg := x.testBit (F.ebits + F.fbits)
    let xFirst := if c = 0 then xneg else decide (c < 0)
    (some (if xFirst != max then x else y), e)

/-- The new value of an atomic (R382). -/
def atomNew (o : AtomOp) (et : ElemType) (rm z n : Nat) (old x : Nat) : Nat :=
  let w := 8 * n
  let so := signedOf w old
  let sx := signedOf w x
  match o with
  | .add => (old + x) % 2 ^ w
  | .min => if so ≤ sx then old else x
  | .max => if so ≥ sx then old else x
  | .minu => if old ≤ x then old else x
  | .maxu => if old ≥ x then old else x
  | .and => old &&& x
  | .or => old ||| x
  | .xor => old ^^^ x
  | .xchg => x
  | .fadd =>
    let F := if et = .f64 then FFmt.f64 else FFmt.f32
    (F.round rm false false z (FVal.add rm (F.decode old) (F.decode x)).1).1
  | .fmin => let F := if et = .f64 then FFmt.f64 else FFmt.f32; (fpPick F false old x).1.getD F.nanBits
  | .fmax => let F := if et = .f64 then FFmt.f64 else FFmt.f32; (fpPick F true old x).1.getD F.nanBits

/-- What an atomic lane writes, given what it finds. -/
def LaneAtom.value (a : LaneAtom) (old : Nat) : Nat :=
  match a.kind with
  | .op o et rm z => atomNew o et rm z a.n old (a.x.toNat % 2 ^ (8 * a.n))
  | .cas cmp => if old = cmp.toNat % 2 ^ (8 * a.n) then a.x.toNat % 2 ^ (8 * a.n) else old

/-- Apply an atomic lane at its owner, indivisibly (R228), giving the old value. -/
def Chip.applyAtom (c : Chip) (place : Place) (pa : Nat) (mig : Option Mig) (a : LaneAtom) : Chip × W64 :=
  let c := c.pull mig a.n
  let old := leNat (c.readPhys place pa a.n)
  (c.writePhys place pa (leBytes a.n (a.value old)), BitVec.ofNat 64 old)

/-- Bytes that a posted write or atomic touches. -/
def Posted.len (p : Posted) : Nat :=
  match p.work with
  | .inl bs => bs.length
  | .inr a => a.n

/-- Whether two posted accesses meet. -/
def Posted.meets (p : Posted) (place : Place) (pa n : Nat) : Bool :=
  p.place == place && decide (p.pa < pa + n) && decide (pa < p.pa + p.len)

/-- The old value of a posted atomic reaches its strand, if it is still there (R383). -/
def Chip.deliverOld (c : Chip) (p : Posted) (n : Nat) (old : W64) : Chip :=
  match p.dest with
  | none => c
  | some d => { c with strands := Sparse.update c.strands p.sid fun t => t.land d (leBytes n old.toNat) }

/-- Perform a posted access at its owner (R226). -/
def Chip.perform (c : Chip) (p : Posted) : Chip :=
  match p.work with
  | .inl bs => (c.pull p.mig bs.length).writePhys p.place p.pa bs
  | .inr a =>
    let r := c.applyAtom p.place p.pa p.mig a
    r.1.deliverOld p a.n r.2

/-- Perform, oldest first, the posted accesses that a test selects. -/
def Chip.drainIf (c : Chip) (sel : Posted → Bool) : Chip :=
  if c.posted.isEmpty then c
  else (c.posted.filter sel).foldl Chip.perform { c with posted := c.posted.filter fun p => !sel p }

/-- Perform every posted access of a strand. -/
def Chip.drainStrand (c : Chip) (sid : Nat) : Chip := c.drainIf fun p => p.sid == sid

/-- Perform every posted access of a context. -/
def Chip.drainCtx (c : Chip) (ctx : Nat) : Chip := c.drainIf fun p => p.ctx == ctx

/-- Perform every posted access of a core if one of them meets the bytes: no later access of the core's strands to a byte overtakes an
earlier one (R122, R226). -/
def Chip.drainFor (c : Chip) (core : Nat) (place : Place) (pa n : Nat) : Chip :=
  if c.posted.any fun p => p.core == core && p.meets place pa n then c.drainIf fun p => p.core == core else c

/-- Write back some lines of a core, and keep them clean or drop them. -/
def Chip.flushLines (c : Chip) (core : Nat) (sel : L1Line → Bool) (drop : Bool) : Chip :=
  let x := c.core core
  let c := (x.l1.filter sel).foldl (fun c l => if l.dirty = 0 then c else (c.drainFor core l.place l.pa 64).writeBack l) c
  let l1 := if drop then x.l1.filter (fun l => !sel l) else x.l1.map fun l => if sel l then { l with dirty := 0 } else l
  if x.l1.isEmpty then c else c.setCore core { x with l1 := l1 }

/-- Write back every dirty line of a context on a core (release, R227). -/
def Chip.releaseL1 (c : Chip) (core ctx : Nat) : Chip := c.flushLines core (fun l => l.ctx == ctx) false

/-- Write back and invalidate every line of a context on a core (acquire, R227). -/
def Chip.acquireL1 (c : Chip) (core ctx : Nat) : Chip := c.flushLines core (fun l => l.ctx == ctx) true

/-- A line lies in part in an interval of canonical addresses. -/
def L1Line.meets (l : L1Line) (ctx lo hi : Nat) : Bool := l.ctx == ctx && decide (l.va < hi) && decide (lo < l.va + 64)

/-- Write back, and drop if asked, the lines of an interval. -/
def Chip.flushRange (c : Chip) (core ctx lo hi : Nat) (drop : Bool) : Chip := c.flushLines core (fun l => l.meets ctx lo hi) drop

/-- Send a write or an atomic to its owner. -/
def Chip.post (c : Chip) (sid core ctx : Nat) (x : Xl) (work : List Byte ⊕ LaneAtom) (dest : Option LoadDest) : Chip :=
  { c with nextId := c.nextId + 1,
           posted := c.posted ++ [{ id := c.nextId, sid := sid, core := core, ctx := ctx, va := x.va, place := x.place, pa := x.pa,
                                    mig := x.mig, work := work, dest := dest }] }

/-- Whether atomics of a strand with a result are still on their way (R228). -/
def Chip.owesResult (c : Chip) (sid : Nat) : Bool := c.posted.any fun p => p.sid == sid && p.dest.isSome

/-- Whether L1 may hold the page (R208, R215, R154). -/
def Xl.cacheable (x : Xl) : Bool := x.owner != 5 && x.pol != 1 && !x.ord && !x.cell

/-- An access that has passed its checks: its canonical address, length, and its translation, or none when it hits an L1 line; then `alt` is
the translation which that line was fetched with, by which it comes back if a fill for an older lane of the instruction has taken its room.
`short` says that its address was an owner 6 one (R206). -/
structure Reach where
  va    : W64
  n     : Nat
  xl    : Option Xl
  alt   : Option Xl := none
  short : Bool := false
  deriving DecidableEq, Repr

/-- The translation that an L1 line was fetched with, for an address in it (R213, R225). -/
def L1Line.xl (l : L1Line) (va : W64) : Xl :=
  let off := va.toNat % 64
  { va := va, owner := vaOwn va, place := l.place, pa := l.pa + off, pol := if l.evictFirst then 2 else 0, ord := false, cell := false, r := l.r, w := l.w,
    x := l.x, mig := l.mig.map fun m => { m with off := m.off + off }, down := false }

/-- What the address checks of one access give (R211, R212). -/
inductive AddrRes
  | ok (r : Reach)
  | trap (c : Cause)
  | absent (p : Place) (pa : Nat)
  deriving DecidableEq, Repr

/-- The address checks of an access of a core (R211): a load or store of SCOPE 0 or 1 that hits a line with the right it needs uses the
line (R212), a line of die store where the address is an owner 6 one (R206); every other goes to the owner. -/
def Chip.reach (c : Chip) (who : Who) (core : Nat) (k : Access) (scope align : Nat) (va : W64) (n : Nat) : AddrRes :=
  match owner who.dies who.die va with
  | none => .trap .protection
  | some _ =>
    if va.toNat % align != 0 then .trap .misaligned
    else
      let cva := canonical who.die va
      let usable (l : L1Line) : Bool :=
        ((k == .load && l.r) || (k == .store && l.w && !l.x)) && (vaOwn va != 6 || (l.place == .store who.die && l.mig.isNone))
      match (if scope ≤ 1 then (findLine (c.core core).l1 who.ctx (lineOf cva)).filter usable else none) with
      | some l => .ok { va := cva, n := n, xl := none, alt := some (l.xl cva), short := vaOwn va == 6 }
      | none =>
        match c.translate who k align va n with
        | .ok x => .ok { va := x.va, n := n, xl := some x, short := vaOwn va == 6 }
        | .trap t => .trap t
        | .absent p pa => .absent p pa

/-- Lines of an L1 data cache and of an instruction cache (R4). -/
def l1Lines : Nat := 128 * 1024 / 64
def icacheLines : Nat := 64 * 1024 / 64

/-- The line of an L1 that leaves first: the last of the list, of those with POL 2 while there is one (R208). -/
def victim (ls : List L1Line) : Option L1Line := (ls.filter fun l => l.evictFirst).getLast?.or ls.getLast?

/-- Make room for one line in a full L1: a line leaves, its dirty bytes written back (R225). -/
def Chip.l1Room (c : Chip) (core : Nat) : Chip :=
  if (c.core core).l1.length < l1Lines then c
  else
    match victim (c.core core).l1 with
    | none => c
    | some l => c.flushLines core (fun x => x == l) true

/-- Fill an L1 line from its owner, clean. -/
def Chip.fillLine (c : Chip) (core ctx : Nat) (x : Xl) : Chip :=
  let off := x.va.toNat % 64
  let pa := x.pa - off
  let mig := x.mig.map fun m => { m with off := m.off - off }
  let c := (c.l1Room core).drainFor core x.place pa 64
  let c := c.pull mig 64
  let l : L1Line := { ctx := ctx, va := lineOf x.va, data := BitVec.ofNat 512 (leNat (c.readPhys x.place pa 64)), dirty := 0, r := x.r,
                      w := x.w, x := x.x, place := x.place, pa := pa, mig := mig, evictFirst := x.pol == 2 }
  let k := c.core core
  c.setCore core { k with l1 := l :: dropLine k.l1 ctx l.va }

/-- Perform a load (R225): from L1, through a fill, or at the owner after the write-back of the line. -/
def Chip.loadBytes (c : Chip) (core ctx scope : Nat) (r : Reach) : Chip × List Byte :=
  let line := lineOf r.va
  match (if scope ≤ 1 then findLine (c.core core).l1 ctx line else none), r.xl.or r.alt with
  | some l, _ => (c, l.bytes (r.va.toNat % 64) r.n)
  | none, none => (c, List.replicate r.n 0)
  | none, some x =>
    if x.cacheable && scope ≤ 1 then
      let c := c.fillLine core ctx x
      match findLine (c.core core).l1 ctx line with
      | some l => (c, l.bytes (r.va.toNat % 64) r.n)
      | none => (c, [])
    else
      let c := if x.owner = 5 then c else c.flushRange core ctx line (line + 64) true
      let c := c.drainFor core x.place x.pa r.n
      c.readXl x r.n

/-- Perform a store (R225): in L1, or through to the owner. An ORDERED or CELL page and local store are written at once; other writes
to owners are posted. -/
def Chip.storeBytes (c : Chip) (sid core ctx scope : Nat) (r : Reach) (bs : List Byte) : Chip :=
  let line := lineOf r.va
  let off := r.va.toNat % 64
  let inL1 (c : Chip) (mark : Bool) : Chip :=
    let k := c.core core
    match findLine k.l1 ctx line with
    | some l => c.setCore core { k with l1 := l.put off bs mark :: dropLine k.l1 ctx line }
    | none => c
  match r.xl with
  | none =>
    match findLine (c.core core).l1 ctx line, r.alt with
    | none, some x => inL1 (c.fillLine core ctx x) true
    | _, _ => inL1 c true
  | some x =>
    if x.cacheable && scope ≤ 1 then
      let c := match findLine (c.core core).l1 ctx line with
        | some l => ((c.drainFor core l.place l.pa 64).writeBack l).fillLine core ctx x
        | none => c.fillLine core ctx x
      inL1 c true
    else if x.owner = 5 || x.ord || x.cell then (c.drainFor core x.place x.pa r.n).writeXl x bs
    else (inL1 c false).post sid core ctx x (.inl bs) none

/-- Before an atomic is sent, its line is written back and dropped (R228). -/
def Chip.beforeAtom (c : Chip) (core ctx : Nat) (va : W64) : Chip := c.flushRange core ctx (lineOf va) (lineOf va + 64) true

/-- Perform an atomic at its owner now, giving the old value. -/
def Chip.atomNow (c : Chip) (core ctx : Nat) (x : Xl) (a : LaneAtom) : Chip × W64 :=
  ((c.beforeAtom core ctx x.va).drainFor core x.place x.pa a.n).applyAtom x.place x.pa x.mig a

/-- An atomic that stays ahead of what follows it is performed at once: in local store, on an ORDERED or CELL page, or under an acquire. -/
def Xl.prompt (x : Xl) (acq : Bool) : Bool := acq || x.owner == 5 || x.ord || x.cell

/-- Send an atomic to its owner, where its old value goes to `dest` if it has a result (R228). -/
def Chip.atomLater (c : Chip) (sid core ctx : Nat) (x : Xl) (a : LaneAtom) (dest : Option LoadDest) : Chip :=
  (c.beforeAtom core ctx x.va).post sid core ctx x (.inr a) dest

/-- The release part of an ordered access or fence of a strand (R227, R229). -/
def Chip.release (c : Chip) (sid core ctx scope : Nat) : Chip :=
  if scope ≥ 2 then (c.drainStrand sid).releaseL1 core ctx else c

/-- The acquire part (R227, R229). -/
def Chip.acquire (c : Chip) (core ctx scope : Nat) : Chip := if scope ≥ 2 then c.acquireL1 core ctx else c

/-- ORD codes (R227). -/
def ordAcquires (o : Nat) : Bool := o == 1 || o == 3
def ordReleases (o : Nat) : Bool := o == 2 || o == 3

end Sys2Proof.Machine
end

