-- ==== Sys2Proof/Machine/Stream.lean ====
section
/-! DEFINITION. The stream generator (01_numbers R33 to R36). -/

namespace Sys2Proof.Machine

/-- The state of Gen between rounds: the counter words and the key words (R35). -/
structure GenState where
  x0 : W32
  x1 : W32
  x2 : W32
  x3 : W32
  ka : W32
  kb : W32
  kl : W32
  deriving DecidableEq, Repr

/-- One round (R35). -/
def genRound (g : GenState) : GenState :=
  let p : W64 := g.x0.setWidth 64 * 0xD1B54A33
  let q : W64 := g.x2.setWidth 64 * 0xA4C23E6B
  { x0 := bits q 32 32 ^^^ g.x1 ^^^ g.ka
    x1 := bits q 0 32
    x2 := bits p 32 32 ^^^ g.x3 ^^^ g.kb
    x3 := bits p 0 32 ^^^ g.kl
    ka := g.ka + 0x5C1D93A7
    kb := g.kb + 0x3B6ED0F9
    kl := g.kl.rotateLeft 5 }

/-- A number of rounds. -/
def genRounds : Nat → GenState → GenState
  | 0, g => g
  | n + 1, g => genRounds n (genRound g)

/-- One draw (R35): seed, lane number, salt, counter value, counter number. -/
def gen (seed : W64) (lane : W32) (salt : W32) (c : W64) (d : W32) : W128 :=
  let g := genRounds 10
    { x0 := bits c 0 32, x1 := bits c 32 32, x2 := d, x3 := salt, ka := bits seed 0 32, kb := bits seed 32 32, kl := lane }
  g.x3 ++ g.x2 ++ g.x1 ++ g.x0

/-- Bits `z` of element `j` for stochastic rounding (R33). -/
def genZ (block : W128) (j : Nat) : Nat := (bits block (16 * j) 16).toNat

end Sys2Proof.Machine
end

