-- ==== Sys2Proof/Machine/Ops.lean ====
section
/-! DEFINITION. Named operations over the strand's registers, events, the one shared operation that takes a trap (R123, R240 to R242),
and the return from one (R246), with retirement (R56, R125). -/

namespace Sys2Proof.Machine

/-! ### Masks and fields -/

/-- The launch mask. -/
def Strand.k0 (t : Strand) : W128 := t.kreg 0

/-- Active(k) (R100). -/
def Strand.active (t : Strand) (f : Frame) : W128 :=
  t.k0 &&& (if f.kn then ~~~(t.kreg f.k.toNat) else t.kreg f.k.toNat)

/-- The lanes that an instruction executes for: those of its replay, or Active(k) (R246). -/
def Strand.lanesOf (t : Strand) (f : Frame) : W128 :=
  match t.replay with
  | some m => m
  | none => t.active f

/-- Lanes of a mask, ascending. -/
def lanesIn (m : W128) : List Nat := (List.range 128).filter fun l => bit m l

/-- The mask of a list of lanes. -/
def maskOf (ls : List Nat) : W128 := ls.foldl (fun m l => m ||| (1 <<< l)) 0

/-- Whether the strand is the handler strand (R243). -/
def Strand.isHandler (t : Strand) : Bool :=
  match t.kind with
  | .handler _ => true
  | _ => false

/-- The half of a paired strand that a lane lies in: 0 low, 1 high; 0 in every other strand (R93). -/
def Strand.half (t : Strand) (l : Nat) : Nat := if t.paired && decide (64 ≤ l) then 1 else 0

/-- The scalar register that holds sN for a half (R93). -/
def halfScalar (h n : Nat) : Nat := n + 32 * h

/-- The halves that a scalar instruction executes on (R93). -/
def Strand.halves (t : Strand) : List Nat := if t.paired then [0, 1] else [0]

/-- Fields of MODE (R22). -/
def Strand.rnd (t : Strand) : Nat := (bits t.mode 0 3).toNat
def Strand.ftz (t : Strand) : Bool := bit t.mode 4
def Strand.daz (t : Strand) : Bool := bit t.mode 5
def Strand.tagchk (t : Strand) : Bool := bit t.mode 6
def Strand.rwrap (t : Strand) : Bool := bit t.mode 7

/-- A value that MODE may hold (R22). -/
def modeOk (v : W64) : Bool := bits v 13 51 == 0 && !bit v 3 && bits v 0 3 != 0 && bits v 0 3 != 7

/-- A value that FLAGS may hold (R23). -/
def flagsOk (v : W64) : Bool := bits v 6 58 == 0

/-- The bits of MODE, FLAGS, TRAPCAUSE and EPC that are not reserved: a reserved field reads as zero (R8, R22, R23, R240, R241). -/
def modeBits (v : W64) : W64 := v &&& 0x1FF7
def flagsBits (v : W64) : W64 := v &&& 0x3F
def causeBits (v : W64) : W64 := v &&& 0xFFFFFFFF000F03FF
def epcBits (v : W64) : W64 := putBits v 0 (0 : BitVec 4)

/-- The rounding mode of an instruction (R19). -/
def Strand.rmOf (t : Strand) (rm : BitVec 3) : Nat := if rm = 0 then t.rnd else rm.toNat

/-! ### Strands, groups, contexts -/

def Chip.strand (c : Chip) (sid : Nat) : Option Strand := Sparse.get? c.strands sid
def Chip.setStrand (c : Chip) (sid : Nat) (t : Strand) : Chip := { c with strands := Sparse.set c.strands sid t }
def Chip.updStrand (c : Chip) (sid : Nat) (f : Strand → Strand) : Chip := { c with strands := Sparse.update c.strands sid f }
def Chip.ctx (c : Chip) (n : Nat) : Option Context := Sparse.get? c.ctxs n
def Chip.setCtx (c : Chip) (n : Nat) (x : Context) : Chip := { c with ctxs := Sparse.set c.ctxs n x }
def Chip.updCtx (c : Chip) (n : Nat) (f : Context → Context) : Chip := { c with ctxs := Sparse.update c.ctxs n f }
def Chip.group (c : Chip) (g : Nat) : Option Group := Sparse.get? c.groups g
def Chip.updGroup (c : Chip) (g : Nat) (f : Group → Group) : Chip := { c with groups := Sparse.update c.groups g f }

/-- The group that a strand's local store addresses name: its own, or its subject's for the handler (R205, R243). -/
def Chip.localGid (c : Chip) (t : Strand) : Nat :=
  match t.kind with
  | .handler s => ((c.strand s).map fun u => u.gid).getD t.gid
  | _ => t.gid

/-- The local store run of a group: core, first byte, length (R115, R205). -/
def Chip.localRun (c : Chip) (gid : Nat) : Option (Nat × Nat × Nat) :=
  (c.group gid).map fun g => (g.core, g.first * Config.granuleBytes, g.grans * Config.granuleBytes)

/-- The accessor that a strand is. -/
def Chip.who (c : Chip) (t : Strand) : Who :=
  { ctx := t.ctx, dies := ((c.ctx t.ctx).map fun x => x.dies).getD [], die := t.core / Config.coresPerDie,
    local? := c.localRun (c.localGid t) }

/-- Whether a context is deterministic. -/
def Chip.isDet (c : Chip) (ctx : Nat) : Bool := ((c.ctx ctx).map fun x => x.det).getD false

/-- Whether the strand's work is buffered for Commit: its context is deterministic, and it is not the handler (R236, R244). -/
def Chip.buffers (c : Chip) (t : Strand) : Bool := c.isDet t.ctx && !t.isHandler

/-- The quantum of a strand's context, if it has one. -/
def Chip.quantumOf (c : Chip) (t : Strand) : Option Nat :=
  if c.buffers t then (c.ctx t.ctx).map fun x => 2 ^ x.qexp else none

/-! ### Events (R75) -/

/-- The contents of an event record. -/
structure Event where
  code    : Nat
  ctx     : Nat
  cause   : Nat
  core    : Nat
  quarter : Nat
  slot    : Nat
  waiting : Bool
  addr    : W64
  mask    : W128
  seq     : Nat
  group   : Nat
  strand  : Nat
  queue   : Nat
  deriving DecidableEq, Repr

def evPageFault : Nat := 1
def evBudStall : Nat := 2
def evCtxFault : Nat := 3
def evEntryFailed : Nat := 4
def evLaunchRefused : Nat := 5
def evTrapReport : Nat := 6

/-- The 64 bytes of a record. -/
def Event.bytes (e : Event) : List Byte :=
  leBytes 1 e.code ++ leBytes 1 e.ctx ++ leBytes 2 e.cause ++ leBytes 2 e.core ++
    leBytes 1 (e.quarter + 4 * b2n e.waiting) ++ leBytes 1 e.slot ++
    leBytes 8 e.addr.toNat ++ leBytes 16 e.mask.toNat ++ leBytes 8 e.seq ++ leBytes 4 e.group ++ leBytes 1 e.strand ++
    leBytes 1 e.queue ++ leBytes 18 0

/-- A handler strand that serves a context ends, so that its core can serve other contexts. -/
def Chip.dropHandlers (c : Chip) (ctx : Nat) : Chip :=
  let serves (k : Core) : Bool := match k.serving with
    | some h => ((c.strand h).map fun t => t.ctx == ctx).getD false
    | none => false
  { c with
    strands := c.strands.filter fun x => !(x.2.ctx == ctx && x.2.isHandler)
    cores := c.cores.map fun x => if serves x.2 then (x.1, { x.2 with serving := none }) else x }

/-- Freeze every resident strand of a context (R46, R47). -/
def Chip.freezeCtx (c : Chip) (ctx : Nat) : Chip :=
  let c := c.dropHandlers ctx
  { c with strands := c.strands.map fun x => if x.2.ctx = ctx then (x.1, { x.2 with status := .frozen }) else x }

/-- A context becomes faulted (R46, R47). While a pre-emption is under way its save completes first, with every strand as the pre-emption
freezes it (R48, R252), in a normal context also where the pre-emption still waits, for a handler or for work in flight, and has saved nothing
(DESIGN CHOICE, log 95). A pre-emption of a deterministic context that still waits for its epoch end (R53) is not being saved: the context
faults at once, and CTX_SAVE then completes the command with ABANDONED (R65; DEDUCED, log 89). -/
def Chip.markFaulted (c : Chip) (ctx : Nat) : Chip :=
  match c.ctx ctx with
  | none => c
  | some x =>
    match x.state with
    | .loaded | .running | .preempted =>
      if x.preempt.isSome && (!x.det || x.saving) then (c.setCtx ctx { x with doomed := true, saving := true }).dropHandlers ctx
      else (c.setCtx ctx { x with state := .faulted, closing := none }).freezeCtx ctx
    | _ => c

/-- Post an event to a context's event queue (R75): an event needs two free slots; the last slot takes the overflow record, and the
context then faults. That record has CODE CTX_FAULT and CAUSE 0xFFFF; its CORE 0xFFFF and its other fields 0 are the model's choice (DESIGN
CHOICE, log 71). -/
def Chip.postEvent (c : Chip) (e : Event) : Chip :=
  match c.ctx e.ctx with
  | none => c
  | some x =>
    match x.evq with
    | none => c
    | some q =>
      if x.overflow then c
      else
        let head := (c.readWord .host q.head).toNat
        let size := 2 ^ q.logn
        let at_ := q.base + 64 * (q.cnt % size)
        let used := q.cnt - head
        if used + 2 ≤ size then
          let c := c.hubWrite at_ e.bytes
          let c := c.hubWrite q.tail (leBytes 8 (q.cnt + 1))
          c.setCtx e.ctx { x with evq := some { q with cnt := q.cnt + 1 } }
        else if used + 1 = size then
          let o : Event := { code := evCtxFault, ctx := e.ctx, cause := 0xFFFF, core := 0xFFFF, quarter := 0, slot := 0,
                             waiting := false, addr := 0, mask := 0, seq := 0, group := 0, strand := 0, queue := 0 }
          let c := c.hubWrite at_ o.bytes
          let c := c.hubWrite q.tail (leBytes 8 (q.cnt + 1))
          (c.setCtx e.ctx { x with evq := some { q with cnt := q.cnt + 1 }, overflow := true }).markFaulted e.ctx
        else c

/-- An event about a strand (R75). A handler strand has no launch root: its SEQ, GROUP and STRAND are 0 (DESIGN CHOICE, log 71). -/
def Strand.event (t : Strand) (code cause : Nat) (addr : W64) (mask : W128) : Event :=
  { code := code, ctx := t.ctx, cause := cause, core := t.core, quarter := t.quarter, slot := t.slot, waiting := false, addr := addr,
    mask := mask, seq := t.root.seq, group := t.root.group, strand := t.root.strand, queue := 0 }

/-- A context fault (R47): the context's strands freeze and CTX_FAULT is posted. -/
def Chip.contextFault (c : Chip) (ctx : Nat) (e : Event) : Chip :=
  match c.ctx ctx with
  | none => c
  | some x =>
    match x.state with
    | .loaded | .running | .preempted => (c.markFaulted ctx).postEvent e
    | _ => c

/-- Resources of a die have come free: its distributor tries its pool's entries again (R157). -/
def Chip.noteFreed (c : Chip) (die : Nat) : Chip := { c with freed := Sparse.set c.freed die (Sparse.getD c.freed die 0 + 1) }

/-! ### Traps -/

/-- Cause codes (R238). -/
def Cause.code : Cause → Nat
  | .illegalOpcode => 0x01 | .reservedField => 0x02 | .badOperand => 0x03 | .privilege => 0x04 | .formatMismatch => 0x05
  | .emptyRead => 0x06 | .mapNotReady => 0x07 | .mapUnclaimed => 0x08 | .rangeLocked => 0x09 | .pageFault => 0x0A
  | .protection => 0x0B | .misaligned => 0x0C | .cellStore => 0x0D | .selfDependence => 0x0E | .budUnfilled => 0x0F
  | .streamEnd => 0x10 | .fpInvalid => 0x11 | .fpDivzero => 0x12 | .fpOverflow => 0x13 | .fpUnderflow => 0x14
  | .fpInexact => 0x15 | .claimDeadlock => 0x16 | .spawnDepth => 0x17 | .linkDown => 0x18 | .preempt => 0x1A
  | .hostInterrupt => 0x1B | .software => 0x1C | .breakpoint => 0x1D

/-- An instruction record (R239). -/
def Trap.instr (cause : Cause) (field : Nat) (va : W64) : Trap :=
  { cause := cause, field := field, va := va, lanes := 0, lane := false, pair := false, arg := 0 }

/-- A lane record (R239). -/
def Trap.lanesAt (cause : Cause) (va : W64) (lanes : W128) : Trap :=
  { cause := cause, field := 0, va := va, lanes := lanes, lane := true, pair := false, arg := 0 }

/-- The TRAPCAUSE word of a trap (R240). -/
def Trap.word (tr : Trap) : W64 :=
  tr.arg ++ BitVec.ofNat 12 0 ++ BitVec.ofNat 4 tr.field ++ BitVec.ofNat 6 0 ++ BitVec.ofBool tr.pair ++ BitVec.ofBool tr.lane
    ++ BitVec.ofNat 8 tr.cause.code

/-- Every claimed slot takes FZ (R145). -/
def Strand.freezeSlots (t : Strand) (fz : Bool) : Strand := { t with slots := t.slots.map fun (n, m) => (n, { m with fz := fz }) }

/-- Whether an entry is a bud read of a producer. -/
def CommitEntry.readsFor (e : CommitEntry) (prod : Option Nat) : Bool :=
  match e.op with
  | .budRead _ q => prod == some q
  | _ => false

/-- TAKING A TRAP in a strand (R123, R240 to R242): the record is written, EPC is where the strand resumes, the slots take FZ, and the
strand freezes. A load that it still waits in is begun again, and leaves the strand's buffer. -/
def Strand.trapped (t : Strand) (tr : Trap) (epc : W64) (rec : Option LaneRecord) : Strand :=
  { t.freezeSlots true with
    trapCause := tr.word
    faultVa := tr.va
    faultMask := tr.lanes
    epc := epcBits epc
    status := .frozen
    record := rec
    replay := none
    issued := none
    load := none
    buffer := match t.load with
      | some p => t.buffer.filter fun e => !e.readsFor p.prod
      | none => t.buffer }

/-- TAKING A TRAP (R242 to R247): in the handler strand it is a context fault; any other strand freezes and joins its core's queue
(R244), and PAGE_FAULT posts its event (R220). Results that its retired atomics still owe it reach it first. -/
def Chip.takeTrap (c : Chip) (sid : Nat) (tr : Trap) (epc : W64) (rec : Option LaneRecord) : Chip :=
  let c := if c.owesResult sid then c.drainStrand sid else c
  match c.strand sid with
  | none => c
  | some t =>
    if t.isHandler then c.contextFault t.ctx (t.event evCtxFault tr.cause.code tr.va 0)
    else
      let c := c.setStrand sid (t.trapped tr epc rec)
      let k := c.core t.core
      let c := c.setCore t.core { k with frozenQ := k.frozenQ ++ [sid] }
      if tr.cause = .pageFault then c.postEvent (t.event evPageFault tr.cause.code tr.va tr.lanes) else c

/-- What the executing instruction has buffered stands, but no instruction counts it: it is not begun again (R56). -/
def Strand.abandons (t : Strand) : Strand :=
  { t with buffer := t.buffer.take t.solid ++ (t.buffer.drop t.solid).map (fun e => { e with open_ := !e.back }), solid := t.buffer.length }

/-- THE RETURN FROM A TRAP (R246): FZ clears; a lane record whose EPC still stands is replayed for the lanes of FAULTMASK that trapped;
otherwise fetching resumes at EPC. After a synchronous trap an interrupt stays pending until the next instruction has retired (R249). A
strand that was moved away from its GBAR does not stand there any more (log 72). What an instruction that is not replayed has buffered stands
for good: its completed lanes keep their effect, and no instruction counts it (R56). -/
def Strand.returned (t : Strand) : Strand :=
  let u := { t.freezeSlots false with
    status := if t.ended then .waiting .quantum else .ready
    spared := decide ((bits t.trapCause 0 8 : BitVec 8).toNat ≠ Cause.hostInterrupt.code)
    gbar := t.gbar && t.epc == t.pc }
  match t.record with
  | some r =>
    if bit t.trapCause 8 && t.epc == r.pc then { u with replay := some (t.faultMask &&& r.trapped), pc := r.pc }
    else { u.abandons with record := none, pc := t.epc }
  | none => { u.abandons with pc := t.epc }

/-! ### Retirement -/

/-- A register becomes empty with no producer (R125): a write to it for its dirty bit, and of zeros (DESIGN CHOICE, log 108). -/
def Strand.emptied (t : Strand) (n : Nat) : Strand :=
  t.setVreg n { t.vreg n with lanes := 0, fill := .empty }

/-- Accrue exceptions (R23). -/
def Strand.accrue (t : Strand) (e : Exc) : Strand := { t with flags := t.flags ||| e.setWidth 64 }

/-- Whether a buffered entry is a memory-writing instruction's (R52). That TCOPY, TRED, LSEND and LRED, whose engines write later, take none of the
commit buffer's places is the model's choice (DESIGN CHOICE, log 114). -/
def CommitEntry.writes (e : CommitEntry) : Bool :=
  match e.op with
  | .store _ | .atoms _ _ | .budst _ | .bloom _ => true
  | _ => false

/-- Whether an entry's instruction ends its quantum because of what its lanes met: a CELL page, or a bud (R52, R169). -/
def CommitEntry.endsQuantum (e : CommitEntry) : Bool :=
  e.cell || (match e.op with
    | .budRead _ _ => true
    | _ => false)

/-- The entries of the strand's buffer whose instruction has not retired: the executing one's. -/
def Strand.loose (t : Strand) : List CommitEntry := t.buffer.drop t.solid

/-- Whether the executing instruction ends its quantum for what some lane of any of its executions met (R52, R169). -/
def Strand.metEnd (t : Strand) : Bool := (t.record.map fun r => r.ends).getD false || t.loose.any CommitEntry.endsQuantum

/-- Retirement (R56, R52): the last-read marks take effect on the registers `marks`, RETIRED counts, the quantum counts instructions and
those that write memory, and ends, and the next instruction is at `pc`. -/
def Strand.retired' (t : Strand) (q : Option Nat) (marks : List Nat) (ends : Bool) (pc : W64) : Strand :=
  let u := marks.foldl Strand.emptied t
  let n := t.quantum + 1
  let w := t.writers + b2n (t.loose.any CommitEntry.writes)
  let stop := match q with
    | none => false
    | some m => ends || t.metEnd || decide (n ≥ m) || decide (w ≥ Config.commitEntries)
  { u with
    retired := t.retired + 1
    pc := pc
    quantum := if q.isSome then n else t.quantum
    writers := if q.isSome then w else t.writers
    solid := t.buffer.length
    ended := stop
    status := if stop then .waiting .quantum else .ready
    spared := t.spared && t.replay.isSome
    record := none
    replay := none
    issued := none
    load := none }

/-- What an instruction does at the strand that executes it. -/
inductive Out
  /-- It retires, with the next instruction at `pc`, and ends the quantum of a deterministic context or not. -/
  | done (t : Strand) (pc : W64) (ends : Bool)
  /-- It completes some lanes and records the others. -/
  | part (t : Strand) (tr : Trap) (wrote : List (Nat × W64 × Nat)) (prod : Option Nat)
  /-- It has no effect and leaves an instruction record. -/
  | stop (tr : Trap)
  /-- It waits. -/
  | wait (t : Strand) (cause : WaitCause)
  /-- It does not issue: the strand stays ready at it (R49, R76). -/
  | stall
  /-- It retires and then traps (R239). -/
  | after (t : Strand) (tr : Trap) (pc : W64)
  deriving DecidableEq, Repr

/-- The end of an instruction of strand `sid`: `i` is it, `marks` the registers its last-read marks empty, `orig` its active set. -/
def Chip.finish (c : Chip) (sid : Nat) (i : Instr) (marks : List Nat) (orig : W128) (o : Out) : Chip :=
  match o with
  | .done t pc ends => c.setStrand sid (t.retired' (c.quantumOf t) marks ends pc)
  | .part t tr wrote prod =>
    let first := t.record
    let rec' : LaneRecord :=
      { instr := i, pc := t.pc, trapped := tr.lanes, orig := (first.map fun r => r.orig).getD orig,
        wrote := ((first.map fun r => r.wrote).getD []) ++ wrote, prod := prod, ends := t.metEnd,
        list := (first.map fun r => r.list).getD [] }
    (c.setStrand sid t).takeTrap sid tr t.pc (some rec')
  | .stop tr =>
    match c.strand sid with
    | none => c
    | some t => c.takeTrap sid tr t.pc none
  | .wait t cause => c.setStrand sid { t with status := .waiting cause }
  | .stall => c.updStrand sid fun t => { t with status := .ready }
  | .after t tr pc => (c.setStrand sid (t.retired' (c.quantumOf t) marks false pc)).takeTrap sid tr pc none

/-- The outcome of a step that changed the chip: a fault if it met a frame that the device does not have. -/
def State.onChip (s : State) (c : Chip) : Host.Outcome State Fault Refusal :=
  match c.halt with
  | some r => .fault r
  | none => .next { s with chip := c }

/-- The outcome of a step that changed the hub controller's registers too. -/
def State.onHub (s : State) (c : Chip) (h : HubCtl) : Host.Outcome State Fault Refusal :=
  match c.halt with
  | some r => .fault r
  | none => .next { s with chip := c, hc := h }

/-- The address of the next instruction (R314). -/
def Strand.nextPc (t : Strand) : W64 := t.pc + 16

end Sys2Proof.Machine
end

