-- ==== Sys2Proof/Machine/Operands.lean ====
section
/-! DEFINITION. Operand fields: what each entry permits in them, stage A of R247 in the order of R312, and the values that source fields
supply (R294 to R298, R303, R337). -/

namespace Sys2Proof

/-- COND of format X (R304). -/
def Frame.cond (f : Frame) : Nat := (bits f.c.code 5 4).toNat

/-- Map control of a source field: enabled, and its slot (R148). -/
def Frame.map (f : Frame) (i : Nat) : Bool × Nat :=
  let x : BitVec 6 := bits f.fs1 (12 - 6 * i) 6
  (bit x 5, (bits x 0 5).toNat)

/-- Fields of format M (R301). -/
def Frame.scope (f : Frame) : Nat := (bits f.fs1 14 4).toNat
def Frame.ord (f : Frame) : Nat := (bits f.fs1 12 2).toNat
def Frame.size (f : Frame) : Nat := (bits f.fs1 9 3).toNat
def Frame.xs (f : Frame) : Nat := (bits f.fs1 6 3).toNat
def Frame.polop (f : Frame) : Nat := (bits f.fs1 2 4).toNat
def Frame.aux (f : Frame) : Nat := (bits f.fs2 4 6).toNat

/-- Fields of format T (R306). -/
def Frame.slot (f : Frame) : Nat := (bits f.fs1 13 5).toNat
def Frame.func (f : Frame) : Nat := (bits f.fs1 0 13).toNat

/-- XCTL of VSHFL (R299). -/
def Frame.xmode (f : Frame) : Nat := (bits f.fs1 3 3).toNat
def Frame.xspan (f : Frame) : Nat := (bits f.fs1 0 3).toNat

/-- Whether an element type is a float type. -/
def ElemType.isFloat (t : ElemType) : Bool := !t.isInt && t != .b32

/-- NEG and ABS of a source field (R297): A is field 0. -/
def Frame.neg (f : Frame) (i : Nat) : Bool := bit f.fs2 (9 - 2 * i)
def Frame.abs (f : Frame) (i : Nat) : Bool := bit f.fs2 (8 - 2 * i)

/-- The vector registers that a source field names, for `n` registers a code. -/
def Operand.regs (o : Operand) (n : Nat) : List Nat :=
  match o with
  | .v r => (List.range n).map (r.val + ·)
  | _ => []

/-- The number of a k code. -/
def Operand.kNum (o : Operand) : Nat :=
  match o with
  | .k n => n.val
  | _ => 0

end Sys2Proof

namespace Sys2Proof.Machine

/-- What an instruction's entry permits in one operand field. `v` is the number of registers that a v code names (0: none may stand
there), whose first must be a multiple of `align`. -/
structure FieldSpec where
  used  : Bool
  opt   : Bool
  v     : Nat
  align : Nat
  s     : Bool
  even  : Bool
  k     : Bool
  lane  : Bool
  pos   : Bool
  zero  : Bool
  imm   : Bool
  map   : Bool
  mapF  : Bool
  mod   : Bool
  deriving DecidableEq, Repr, Inhabited

/-- A field that the entry does not use: it holds 511 (R294). -/
def FieldSpec.unused : FieldSpec :=
  { used := false, opt := false, v := 0, align := 1, s := false, even := false, k := false, lane := false, pos := false, zero := false,
    imm := false, map := false, mapF := false, mod := false }

/-- A field that holds an s code. -/
def FieldSpec.scalar : FieldSpec := { FieldSpec.unused with used := true, s := true }

/-- A field that holds a k code. -/
def FieldSpec.mask : FieldSpec := { FieldSpec.unused with used := true, k := true }

/-- A field that holds a v code for `n` registers; a pair's and a quad's first is a multiple of `n`. -/
def FieldSpec.vec (n : Nat) : FieldSpec := { FieldSpec.unused with used := true, v := n, align := n }

/-- A field that holds 511 or what `x` permits. -/
def FieldSpec.orNone (x : FieldSpec) : FieldSpec := { x with opt := true }

/-- A field that holds 404 or what `x` permits. -/
def FieldSpec.orZero (x : FieldSpec) : FieldSpec := { x with zero := true }

/-- Whether a type is read as .i32, .n32 or .b32, where the position operands may stand (R295). -/
def readsPos : ElemType → Bool
  | .i32 | .n32 | .b32 => true
  | _ => false

/-- Registers that a v code names at a type (R296). -/
def regsOf (t : ElemType) : Nat := if t.width = 64 then 2 else 1

/-- A general vector source at a type (R294, R295, R337). -/
def FieldSpec.src (t : ElemType) (imm map mod : Bool) : FieldSpec :=
  { FieldSpec.vec (regsOf t) with s := true, lane := readsPos t, pos := readsPos t, zero := true, imm := imm, map := map,
                                  mapF := t == .f32, mod := mod }

/-- What stage A needs to know of an instruction (R310, R312). `other` is the condition on ET, SIZE, XS, ORD and COND, `late` the
instruction's own condition on its control word, which comes after the map checks; the failure of either gives FIELD 10. -/
structure OpSpec where
  op     : Nat
  d      : FieldSpec
  a      : FieldSpec
  b      : FieldSpec
  c      : FieldSpec
  sat    : Bool
  rounds : Bool
  typed  : Bool
  other  : Bool
  late   : Bool
  xctl   : Bool
  aux    : Bool
  slot   : Bool
  func   : Nat
  imm0   : Bool
  immRsv : W32
  extra  : Bool
  deriving DecidableEq, Repr, Inhabited

/-- An instruction that uses no field. `extra` is a further reserved value in FS1. -/
def OpSpec.base (op : Nat) : OpSpec :=
  { op := op, d := .unused, a := .unused, b := .unused, c := .unused, sat := false, rounds := false, typed := false, other := true,
    late := true, xctl := false, aux := false, slot := false, func := 0, imm0 := false, immRsv := 0, extra := false }

/-- The format of an instruction. -/
def OpSpec.fmt (sp : OpSpec) : Format := formatOf (BitVec.ofNat 10 sp.op)

/-- The first FIELD code of a list of conditions that holds. -/
def firstField : List (Bool × Nat) → Option Nat
  | [] => none
  | (b, n) :: rest => if b then some n else firstField rest

/-- Conditions on the bits of FS1 that must be zero or are reserved (R297, R299 to R301, R304, R306, R390). The map fields of format S, which R300
names so, have the FIELD codes of map fields (DEDUCED, log 111). -/
def resvFs1 (sp : OpSpec) (f : Frame) : List (Bool × Nat) :=
  match sp.fmt with
  | .V =>
    let bad (i : Nat) : Bool := !(f.map i).1 && (f.map i).2 != 0
    [(bad 0, 7), (bad 1, 8)] ++
      (if sp.xctl then [(decide (f.xmode ≥ 5), 10), (decide (f.xspan ≥ 6), 10)] else [(bad 2, 9)])
  | .S => [((bits f.fs1 12 6 : BitVec 6) != 0, 7), ((bits f.fs1 6 6 : BitVec 6) != 0, 8), ((bits f.fs1 0 6 : BitVec 6) != 0, 9)]
  | .M =>
    let sync := decide (0x280 ≤ sp.op)
    [(decide (f.scope ≥ 5), 10), (decide (f.size ≥ 5) || (sync && f.size != 0), 10), (decide (f.xs ≥ 5) || (sync && f.xs != 0), 10),
     ((decide (sp.op = 0x205 ∨ sp.op = 0x206) && decide (f.polop ≥ 12)) || (sync && f.polop != 0), 10),
     ((bits f.fs1 0 2 : BitVec 2) != 0, 10)]
  | .X => [(f.fs1 != 0, 10)]
  | .T => [(!sp.slot && f.slot != 0, 10), (decide (f.func &&& (8191 - sp.func) ≠ 0) || sp.extra, 10)]

/-- The marks, hints or nowait bits of the three source fields on a field without a v code (R291). -/
def resvMarks (sp : OpSpec) (f : Frame) (x : BitVec 3) : List (Bool × Nat) :=
  let bad (o : Operand) (i : Nat) : Bool := bit x i && (!o.isV || sp.fmt == .S || sp.fmt == .X)
  [(bad f.a 2, 3), (bad f.b 1, 4), (bad f.c 0, 5)]

/-- Whether an instruction's entry takes modifiers (R298). -/
def OpSpec.takesMods (sp : OpSpec) : Bool := sp.a.mod || sp.b.mod || sp.c.mod

/-- Conditions on FS2 (R297, R298, R300, R301, R304, R306). In format S, of which R300 names FS2 as a whole, the bits that hold modifiers in format
V have the FIELD codes of modifiers (DEDUCED, log 111). -/
def resvFs2 (sp : OpSpec) (f : Frame) : List (Bool × Nat) :=
  match sp.fmt with
  | .V =>
    let bad (o : Operand) (i : Nat) : Bool := bit f.fs2 i && (o == .none || !sp.takesMods)
    [(bad f.a 9, 3), (bad f.a 8, 3), (bad f.b 7, 4), (bad f.b 6, 4), (bad f.c 5, 5), (bad f.c 4, 5),
     ((bits f.fs2 0 4 : BitVec 4) != 0, 10)]
  | .S => [((bits f.fs2 8 2 : BitVec 2) != 0, 3), ((bits f.fs2 6 2 : BitVec 2) != 0, 4), ((bits f.fs2 4 2 : BitVec 2) != 0, 5),
           ((bits f.fs2 0 4 : BitVec 4) != 0, 10)]
  | .M => [(!sp.aux && f.aux != 0, 10), ((bits f.fs2 0 4 : BitVec 4) != 0, 10)]
  | .X | .T => [(f.fs2 != 0, 10)]

/-- The FIELD code of the highest reserved field that is not zero or holds a reserved value (R310, R311), if there is one. -/
def reservedField (sp : OpSpec) (f : Frame) : Option Nat :=
  let masked := maskedOp (BitVec.ofNat 10 sp.op)
  firstField (
    (if sp.fmt == .X then [(decide (f.cond ≥ 10), 10), ((bits f.c.code 0 5 : BitVec 5) != 0, 10)] else []) ++
    resvFs1 sp f ++
    [(!masked && f.k != 0, 6), (!masked && f.kn, 6), (f.rm == 7 || (!sp.rounds && f.rm != 0), 10), (!sp.sat && f.sat, 10),
     (!sp.typed && f.et != .f32, 10)] ++
    resvMarks sp f f.lr ++ resvMarks sp f f.ru ++ resvMarks sp f f.nw ++ resvFs2 sp f ++
    [((sp.imm0 && f.imm != 0) || f.imm &&& sp.immRsv != 0, 10)])

/-- Whether a code may stand in a field of a strand (R90, R105, R111, R294 to R296). -/
def codeOk (t : Strand) (fs : FieldSpec) (dest : Bool) (o : Operand) : Bool :=
  if fs.used then
    match o with
    | .v n => fs.v != 0 && n.val % fs.align == 0 && decide (n.val + fs.v ≤ t.regLimit)
    | .s n => fs.s && !(t.isarev == 3 && decide (32 ≤ n.val)) && (!fs.even || n.val % 2 == 0)
    | .k n => fs.k && !(dest && n.val == 0)
    | .lane => fs.lane
    | .strand | .role | .group => fs.pos
    | .zero => fs.zero
    | .imm => fs.imm
    | .none => fs.opt
    | .unassigned _ => false
  else o == .none

/-- Steps 1 and 2 of R149 for a source field's map control. -/
def mapOk12 (t : Strand) (fs : FieldSpec) (o : Operand) (m : Bool × Nat) : Bool :=
  !m.1 || (o.isV && fs.v == 1 && decide (m.2 < t.mapLimit))

/-- Operand and map checks in the order of R312. -/
def operandField (t : Strand) (sp : OpSpec) (f : Frame) : Option Nat :=
  let maps := sp.fmt == .V
  let bad (fs : FieldSpec) (o : Operand) : Bool := !codeOk t fs false o
  let badMap (fs : FieldSpec) (o : Operand) (i : Nat) : Bool := maps && !(sp.xctl && i == 2) && !mapOk12 t fs o (f.map i)
  firstField
    [(!codeOk t sp.d true f.d, 2), (bad sp.a f.a, 3), (badMap sp.a f.a 0, 7), (bad sp.b f.b, 4), (badMap sp.b f.b 1, 8),
     (sp.fmt != .X && bad sp.c f.c, 5), (badMap sp.c f.c 2, 9)]

/-- FM of a slot's descriptor, its chain and CHEN (R130). -/
def MapSlot.fm (m : MapSlot) : ElemType := ElemType.ofCode (bits m.desc 0 4)
def MapSlot.chen (m : MapSlot) : Bool := bit m.desc 17
def MapSlot.chain (m : MapSlot) : Nat := (bits m.desc 12 5).toNat

/-- Steps 3 to 5 of R149 for one mapped field, with the chain's limit of R129. -/
def mapCheck35 (t : Strand) (fs : FieldSpec) (slot : Nat) : Option Cause :=
  match Sparse.get? t.slots slot with
  | none => some .mapUnclaimed
  | some m =>
    let kindOk (x : ElemType) : Bool := fs.map && (if fs.mapF then ElemType.isFloat x else x.isInt)
    if m.chen then
      if m.chain ≥ t.mapLimit then some .badOperand
      else match Sparse.get? t.slots m.chain with
        | none => some .mapUnclaimed
        | some d => if d.chen || !kindOk d.fm then some .badOperand else none
    else if kindOk m.fm then none else some .badOperand

/-- Steps 3 to 5 of R149 for the mapped fields. -/
def mapTrap (t : Strand) (sp : OpSpec) (f : Frame) : Option Trap :=
  let one (fs : FieldSpec) (i : Nat) : Option Trap :=
    if (f.map i).1 && !(sp.xctl && i == 2) then (mapCheck35 t fs (f.map i).2).map fun c => Trap.instr c (7 + i) 0 else none
  if sp.fmt == .V then
    match one sp.a 0, one sp.b 1, one sp.c 2 with
    | some x, _, _ => some x
    | none, some x, _ => some x
    | none, none, x => x
  else none

/-- The opcodes that revision 0x03 leaves unassigned besides R308's (R90). -/
def rev3Missing (op : Nat) : Bool := op == 0x260 || op == 0x261 || op == 0x262 || op == 0x28B

/-- Stage A, steps 2 to 6 (R247, R312): the instruction record of the first failure. -/
def stageA (t : Strand) (sp : OpSpec) (f : Frame) : Option Trap :=
  if t.isarev = 3 && rev3Missing sp.op then some (Trap.instr .illegalOpcode 1 0)
  else if 0x300 ≤ sp.op && !t.isHandler then some (Trap.instr .privilege 1 0)
  else
    match reservedField sp f with
    | some n => some (Trap.instr .reservedField n 0)
    | none =>
      match operandField t sp f with
      | some n => some (Trap.instr .badOperand n 0)
      | none =>
        if !sp.other then some (Trap.instr .badOperand 10 0)
        else
          match mapTrap t sp f with
          | some tr => some tr
          | none => if sp.late then none else some (Trap.instr .badOperand 10 0)

/-! ### Values -/

/-- FP32 bits widened exactly to FP64 (R275). A NaN keeps its sign, its payload and its signalling bit (DEDUCED, log 118). -/
def widen32 (x : Nat) : Nat :=
  match FFmt.f32.decode x with
  | .nan _ | .inf _ => FFmt.f64.signBit (x.testBit 31) + 0x7FF * 2 ^ 52 + x % 2 ^ 23 * 2 ^ 29
  | .fin n m e => (FFmt.f64.round rmRne false false 0 (.num n m e false)).1

/-- IMM32 read at a type (R275, R295). -/
def immValue (et : ElemType) (imm : W32) : W64 :=
  match et with
  | .i64 => imm.signExtend 64
  | .f64 => BitVec.ofNat 64 (widen32 imm.toNat)
  | _ => imm.setWidth 64

/-- The position operands (R103, R93). -/
def Strand.position (t : Strand) (o : Operand) (l : Nat) : Nat :=
  match o with
  | .lane => l - 64 * t.half l
  | .strand => t.index + t.half l
  | .role => t.role
  | .group => t.group % 2 ^ 32
  | _ => 0

/-- The raw bits that a source field supplies in a lane at a type, without map or modifiers (R295, R296). -/
def srcBits (t : Strand) (o : Operand) (et : ElemType) (imm : W32) (l : Nat) : W64 :=
  match o with
  | .v n =>
    if et.width = 64 then (t.vreg (n.val + 1)).lane l ++ (t.vreg n.val).lane l
    else ((t.vreg n.val).lane l).setWidth 64
  | .s n =>
    let x := t.sreg (halfScalar (t.half l) n.val)
    if et.width = 64 then x else (bits x 0 32 : W32).setWidth 64
  | .imm => immValue et imm
  | .zero | .none | .k _ | .unassigned _ => 0
  | p => BitVec.ofNat 64 (t.position p l)

/-- Element `j` of a lane's bits (R16). -/
def element (et : ElemType) (x : W64) (j : Nat) : Nat := x.toNat / 2 ^ (et.width * j) % 2 ^ et.width

/-- Modifiers on an integer (R298). -/
def modInt (neg abs : Bool) (x : Int) : Int :=
  let y := if abs then (x.natAbs : Int) else x
  if neg then -y else y

/-- Modifiers on a float's encoding (R298): the sign bit of a format of width `w`. -/
def modFloat (neg abs : Bool) (w x : Nat) : Nat :=
  let low := x % 2 ^ (w - 1)
  if abs then (if neg then 2 ^ (w - 1) + low else low)
  else if neg then (if x.testBit (w - 1) then low else 2 ^ (w - 1) + low)
  else x

/-- What the full or empty states of source registers do (R121): the instruction goes on, traps, or waits for the registers in flight. -/
inductive SrcState
  | ok | trap
  | wait (regs : List Nat)
  deriving DecidableEq, Repr

/-- The state of one source field. -/
def srcState (t : Strand) (regs : List Nat) (nowait : Bool) : SrcState :=
  regs.foldl (fun s n =>
    match s, (t.vreg n).fill with
    | .trap, _ => .trap
    | s, .full => s
    | _, .empty => .trap
    | .wait rs, .inflight _ _ => if nowait then .trap else .wait (rs ++ [n])
    | .ok, .inflight _ _ => if nowait then .trap else .wait [n]) .ok

/-- The registers that a state waits for. -/
def SrcState.regs : SrcState → List Nat
  | .wait rs => rs
  | _ => []

/-- The states of several fields: a trap before a wait (log 31). -/
def srcStates (xs : List SrcState) : SrcState :=
  if xs.contains .trap then .trap else if xs.all (fun x => x == .ok) then .ok else .wait (xs.flatMap SrcState.regs)

/-- The wait that R121 gives, if a register of the fields is not full. -/
def emptyOut (t : Strand) (s : SrcState) : Option Out :=
  match s with
  | .ok => none
  | .trap => some (.stop (Trap.instr .emptyRead 0 0))
  | .wait rs => some (.wait { t with waitRegs := rs } .emptyReg)

/-- The source fields of an instruction with the registers they name. -/
def fieldRegs (sp : OpSpec) (f : Frame) : List (List Nat × Bool × Bool) :=
  [(f.a.regs sp.a.v, bit f.lr 2, bit f.nw 2), (f.b.regs sp.b.v, bit f.lr 1, bit f.nw 1), (f.c.regs sp.c.v, bit f.lr 0, bit f.nw 0)]

/-- The registers that an instruction's last-read marks empty (R125): those it does not also write. -/
def markRegs (sp : OpSpec) (f : Frame) : List Nat :=
  let dst := f.d.regs sp.d.v
  (fieldRegs sp f).flatMap fun (rs, lr, _) => if lr then rs.filter (fun r => !dst.contains r) else []

/-- Stage B step 8 for the source fields (R121, R247). -/
def sourcesState (t : Strand) (sp : OpSpec) (f : Frame) : SrcState :=
  srcStates ((fieldRegs sp f).map fun (rs, _, nw) => srcState t rs nw)

/-! ### Scalar values -/

/-- An s code's value at 64 bits for a half; 404 reads as zero (R93, R390). -/
def sVal (t : Strand) (h : Nat) (o : Operand) : W64 :=
  match o with
  | .s n => t.sreg (halfScalar h n.val)
  | _ => 0

/-- Write a scalar destination of a half; a field that holds 511 writes nothing. -/
def putS (t : Strand) (h : Nat) (o : Operand) (v : W64) : Strand :=
  match o with
  | .s n => t.setSreg (halfScalar h n.val) v
  | _ => t

/-- A mask source; 404 reads as 128 zero bits (R323). -/
def kVal (t : Strand) (o : Operand) : W128 :=
  match o with
  | .k n => t.kreg n.val
  | _ => 0

/-- Write a mask destination. -/
def putK (t : Strand) (o : Operand) (v : W128) : Strand :=
  match o with
  | .k n => t.setKreg n.val v
  | _ => t

/-- The address of a lane (R303): base, scaled index and offset, modulo 2^64. -/
def address (t : Strand) (f : Frame) (l : Nat) : W64 :=
  let base : W64 := match f.a with
    | .v _ => srcBits t f.a .i64 0 l
    | .s _ => srcBits t f.a .i64 0 l
    | _ => 0
  let idx : W64 := match f.b with
    | .none => 0
    | o => (bits (srcBits t o .i32 0 l) 0 32 : W32).signExtend 64
  base + (idx <<< f.xs) + f.imm.signExtend 64

/-- An address operand [sa + off] (R391) of a half. -/
def addressOperand (t : Strand) (h : Nat) (f : Frame) : W64 := sVal t h f.a + f.imm.signExtend 64

end Sys2Proof.Machine
end

