-- ==== Sys2Proof/Machine/Flags.lean ====
section
/-! DEFINITION. Exceptions, flags and the stream draws of a lane (R23 to R27, R33, R36), and how an instruction's lanes complete or fault
(R25, R123, R248, R338). -/

namespace Sys2Proof.Machine

/-- The exceptions of a lane that MODE traps on (R22, R25). -/
def enabledExc (mode : W64) (e : Exc) : Exc := e &&& (bits mode 8 5 : BitVec 5).setWidth 6

/-- The cause of highest priority among exceptions (R25). -/
def excCause (e : Exc) : Cause :=
  if bit e 0 then .fpInvalid
  else if bit e 1 then .fpDivzero
  else if bit e 2 then .fpOverflow
  else if bit e 3 then .fpUnderflow
  else .fpInexact

/-- The exceptions of several lanes together. -/
def excAll (es : List Exc) : Exc := es.foldl (· ||| ·) 0

/-- A stream counter of a lane: 0 is VRAND's, 1 is stochastic rounding's (R33). A counter that has produced 2^64 − 1 holds 2^64. -/
def Strand.counter (t : Strand) (d l : Nat) : Nat := Sparse.getD (if d = 0 then t.ctr0 else t.ctr1) l t.stream.toNat

/-- One draw of a lane: the `n`-th from its counter's value (R33, R35). -/
def Strand.drawBlock (t : Strand) (seed : W64) (d l n : Nat) : W128 :=
  gen seed (BitVec.ofNat 32 (t.laneBase + l)) t.salt (BitVec.ofNat 64 (t.counter d l + n)) (BitVec.ofNat 32 d)

/-- Whether `n` draws of a lane run out (R36). -/
def Strand.drawsOut (t : Strand) (d l n : Nat) : Bool := !t.rwrap && decide (t.counter d l + n > 2 ^ 64)

/-- Advance a lane's counter by `n` draws (R33, R36). -/
def Strand.advance (t : Strand) (d l n : Nat) : Strand :=
  if n = 0 then t
  else
    let c := t.counter d l + n
    let c := if c ≤ 2 ^ 64 then c else c % 2 ^ 64
    if d = 0 then { t with ctr0 := Sparse.set t.ctr0 l c } else { t with ctr1 := Sparse.set t.ctr1 l c }

/-- What a lane of a vector instruction comes to: its result (the odd register of a pair in the high half; a mask bit in bit 0) and
exceptions, or the fault of stage C step 15 (R247). -/
inductive LaneEnd
  | value (v : W64) (e : Exc)
  | streamEnd
  deriving DecidableEq, Repr

/-- Whether a lane faults, and with what cause (R25, R36). -/
def LaneEnd.fault (x : LaneEnd) (mode : W64) : Option Cause :=
  match x with
  | .streamEnd => some .streamEnd
  | .value _ e => if enabledExc mode e = 0 then none else some (excCause (enabledExc mode e))

/-- The exceptions of a lane. -/
def LaneEnd.exc (x : LaneEnd) : Exc :=
  match x with
  | .streamEnd => 0
  | .value _ e => e

/-- The result of a lane. -/
def LaneEnd.val (x : LaneEnd) : W64 :=
  match x with
  | .streamEnd => 0
  | .value v _ => v

/-- The lane record of a vector instruction's faulted lanes (R248): the cause of the lowest faulted lane, or R25's choice where every
faulted lane has an enabled exception. -/
def lanesTrap (mode : W64) (ls : List (Nat × LaneEnd)) : Option Trap :=
  match ls.filter fun x => (x.2.fault mode).isSome with
  | [] => none
  | (l, x) :: rest =>
    let bad := (l, x) :: rest
    let cause :=
      if bad.any fun y => y.2 == .streamEnd then (x.fault mode).getD .streamEnd
      else excCause (enabledExc mode (excAll (bad.map fun y => y.2.exc)))
    some (Trap.lanesAt cause 0 (maskOf (bad.map fun y => y.1)))

/-- Write lanes of a register, given its contents: what an instruction does not write keeps its contents, or is zero where the register
was not full (R338). -/
def VReg.withLanes (r : VReg) (ls : List (Nat × W32)) : VReg :=
  let base := if r.fill = .full then r.lanes else 0
  { r with lanes := ls.foldl (fun x y => putLane x y.1 y.2) base, fill := .full }

/-- The write of lanes, tag and sidecar of one destination register (R338); a replay writes lanes only (R246). -/
def Strand.writeLanes (t : Strand) (n : Nat) (ls : List (Nat × W32)) (tag : ElemType) (side : BitVec 128) : Strand :=
  let r := (t.vreg n).withLanes ls
  t.setVreg n (if t.replay.isSome then r else { r with tag := tag, side := side })

/-- The lanes that complete. -/
def goodLanes (mode : W64) (ls : List (Nat × LaneEnd)) : List (Nat × LaneEnd) := ls.filter fun x => (x.2.fault mode).isNone

/-- Accrue the flags of the lanes that complete, and advance their counters (R25, R33). -/
def Strand.completeLanes (t : Strand) (d draws : Nat) (good : List (Nat × LaneEnd)) : Strand :=
  good.foldl (fun u x => u.advance d x.1 draws) (t.accrue (excAll (good.map fun x => x.2.exc)))

/-- How an instruction ends whose lanes have been computed: it retires, or leaves a lane record (R123). -/
def endLanes (t : Strand) (trap : Option Trap) : Out :=
  match trap with
  | none => .done t t.nextPc false
  | some tr => .part t tr [] none

end Sys2Proof.Machine
end

