-- ==== Sys2Proof/Machine/MapSlots.lean ====
section
/-! DEFINITION. The value of a mapped source (06_map_slot R132 to R143, R149) and what every format V instruction shares (R337 to R341):
the environment in which its lanes are computed, and how they are written. -/

namespace Sys2Proof.Machine

/-- The span of a slot's descriptor (R130). -/
def MapSlot.span (m : MapSlot) : Nat := 8 * 2 ^ (bits m.desc 8 2).toNat
def MapSlot.live (m : MapSlot) : Bool := bit m.desc 10
def MapSlot.sparse (m : MapSlot) : Bool := bit m.desc 11
def MapSlot.sw (m : MapSlot) : Nat := (bits m.desc 32 32).toNat

/-- The slot word that MQUERY returns (R130). -/
def MapSlot.word (m : MapSlot) : W64 :=
  m.desc ||| (1 <<< 19) ||| (BitVec.ofBool m.v).setWidth 64 <<< 20 ||| (BitVec.ofBool m.d).setWidth 64 <<< 21
    ||| (BitVec.ofBool (!m.loads.isEmpty)).setWidth 64 <<< 22 ||| (BitVec.ofBool m.fz).setWidth 64 <<< 23

/-- Weight `j` of a dense row (R132), or weight element `j` of the kept units of a sparse row (R142). -/
def MapSlot.weight (m : MapSlot) (i j : Nat) : Nat := (bits m.image (1024 * i + m.fm.width * j) m.fm.width).toNat

/-- The terms of a row: the position of the element and its weight (R136, R142). -/
def MapSlot.terms (m : MapSlot) (i : Nat) : List (Nat × Nat) :=
  let n := m.span * m.fm.packing
  if m.sparse then
    let u := if m.fm.width = 4 then 2 else 1
    (List.range (n / u / 4)).flatMap fun q =>
      let a := (bits m.side (128 * i + 4 * q) 2).toNat
      let b := (bits m.side (128 * i + 4 * q + 2) 2).toNat
      (List.range u).map (fun e => (u * (4 * q + a) + e, m.weight i (u * (2 * q) + e))) ++
      (List.range u).map (fun e => (u * (4 * q + b) + e, m.weight i (u * (2 * q + 1) + e)))
  else (List.range n).map fun j => (j, m.weight i j)

/-- The input format of a map for a tag (R137). -/
def MapSlot.input (m : MapSlot) (tag : ElemType) (tagchk : Bool) : Option ElemType :=
  if tag = m.fm ∨ tag = .b32 then some m.fm
  else if tag.width = m.fm.width && tag.width != 64 && tag.isInt == m.fm.isInt && !tagchk then some tag
  else none

/-- A finite exact value as a datum. -/
def Exact.datum : Exact → FVal
  | .nan => .nan false
  | .inf n => .inf n
  | .num n m e _ => .fin n m e

/-- The value of a float map in a lane from the products of its terms (R29, R136): scaled by sw and sx and rounded once. -/
def mapRound (sw sx : FVal) (a : Acc) (exc : Exc) (rm : Nat) (ftz : Bool) (z : Nat) : Nat × Exc :=
  let sum := a.sum rm
  let sc := sw.mul sx
  let p := sc.1.mul sum.1.datum
  let neg := match sc.1 with
    | .fin n _ _ => n
    | _ => false
  let pos' := if neg then a.neg else a.pos
  let neg' := if neg then a.pos else a.neg
  let v : Exact := match p.1 with
    | .fin _ 0 _ => .num (neg' && (!pos' || rm == rmRdn)) 0 0 false
    | y => y.exact
  let r := FFmt.f32.round rm false ftz z v
  (r.1, exc ||| sum.2 ||| sc.2 ||| p.2 ||| r.2)

/-- MapApply without its chain (R136): `elem t e` is the bits of element `e` of input lane `t`, read at type `F`; `present t` whether the
lane supplies terms. -/
def MapSlot.apply (m : MapSlot) (F : ElemType) (elem : Nat → Nat → Nat) (present : Nat → Bool) (sx : W32) (daz ftz sat : Bool)
    (rm z n : Nat) : Nat × Exc :=
  let S := m.span
  let P := m.fm.packing
  let base := n / S * S
  let ts := (m.terms (n % S)).filter fun x => present (base + x.1 / P)
  match m.fm.ffmt, F.ffmt with
  | some fw, some fe =>
    if ts.isEmpty then (0, 0)
    else
      let r := ts.foldl (fun (r : Acc × Exc) x =>
        let p := (fw.decode x.2).mul (fe.read daz (elem (base + x.1 / P) (x.1 % P)))
        (r.1.add p.1, r.2 ||| p.2)) (Acc.zero, 0)
      mapRound (FFmt.f32.decode m.sw) (FFmt.f32.decode sx.toNat) r.1 r.2 rm ftz z
  | _, _ =>
    let v := ts.foldl (fun (v : Int) x => v + m.fm.intVal x.2 * F.intVal (elem (base + x.1 / P) (x.1 % P))) 0
    reduceInt true 32 sat v

/-- Where the lanes of a format V instruction are computed: the strand before it, its fields, its lanes, its rounding mode, the
context's seed, and the values of its mapped fields by lane. -/
structure VEnv where
  t    : Strand
  f    : Frame
  sp   : OpSpec
  act  : W128
  rm   : Nat
  seed : W64
  maps : List (List (Nat × Exc))
  deriving DecidableEq, Repr

/-- The source operand of field `i` (A is 0). -/
def VEnv.op (e : VEnv) (i : Nat) : Operand := if i = 0 then e.f.a else if i = 1 then e.f.b else e.f.c

/-- The slot of a mapped field. -/
def VEnv.slot (e : VEnv) (i : Nat) : Option MapSlot :=
  let m := e.f.map i
  if m.1 && !(e.sp.xctl && i == 2) then Sparse.get? e.t.slots m.2 else none

/-- The chained slot of a slot. -/
def VEnv.chained (e : VEnv) (m : MapSlot) : Option MapSlot := if m.chen then Sparse.get? e.t.slots m.chain else none

/-- Rounding steps of a field's maps that draw (R33). -/
def VEnv.mapDraws (e : VEnv) (i : Nat) : Nat :=
  if e.rm != rmSr then 0
  else match e.slot i with
    | none => 0
    | some m =>
      let c := match e.chained m with
        | some d => b2n (ElemType.isFloat d.fm)
        | none => 0
      b2n (ElemType.isFloat m.fm) + c

/-- Draws of the fields before field `i`; `allDraws` of all three. -/
def VEnv.drawsBefore (e : VEnv) (i : Nat) : Nat := ((List.range i).map e.mapDraws).sum
def VEnv.allDraws (e : VEnv) : Nat := e.drawsBefore 3

/-- Whether an input lane supplies terms under a hole policy (R139). In a replay the active set of a ZERO hole is the set of replayed lanes,
which R246's pseudocode makes the instruction's active set (DEDUCED, log 93). -/
def VEnv.present (e : VEnv) (live : Bool) (t : Nat) : Bool := bit e.t.k0 t && (live || bit e.act t)

/-- The bits of a draw that a map's rounding step takes in an active lane; none otherwise (R136, R140). A lane whose stream has ended traps,
but another lane's chained sum may take in its value: its bits are then a free value (DESIGN CHOICE, log 101). -/
def VEnv.mapZ (e : VEnv) (l n : Nat) : Nat :=
  if e.rm = rmSr && bit e.act l then
    if e.t.drawsOut 1 l (n + 1) then (Config.endedDraw e.t.stream e.t.retired (e.t.laneBase + l) n).toNat
    else genZ (e.t.drawBlock e.seed 1 l n) 0
  else 0

/-- The first map of field `i` in a lane. -/
def VEnv.firstMap (e : VEnv) (i : Nat) (m : MapSlot) (n : Nat) : Nat × Exc :=
  let r := match e.op i with
    | .v r => e.t.vreg r.val
    | _ => VReg.start
  let F := (m.input r.tag false).getD m.fm
  m.apply F (fun t j => element F ((r.lane t).setWidth 64) j) (e.present m.live) (bits r.side (32 * (n / 32)) 32) e.t.daz e.t.ftz e.f.sat
    e.rm (e.mapZ n (e.drawsBefore i)) n

/-- The value of mapped field `i` in an output lane (R136, R140). Its exceptions are those of the first-map values that the lane's chained sum
takes in, and those of the lane's own first map, which MapApply computes there whatever the chained row keeps of it (R136, R141). -/
def VEnv.mapValue (e : VEnv) (i : Nat) (m : MapSlot) (n : Nat) : Nat × Exc :=
  match e.chained m with
  | none => e.firstMap i m n
  | some c =>
    let base := n / c.span * c.span
    let P := c.fm.packing
    let used := ((c.terms (n % c.span)).map fun x => base + x.1 / P).filter (e.present c.live)
    let ys : List (Nat × Exc) := (List.range c.span).map fun t => if used.contains (base + t) || base + t == n then e.firstMap i m (base + t) else (0, 0)
    let F := (c.input (if ElemType.isFloat m.fm then .f32 else .i32) false).getD c.fm
    let v := c.apply F (fun t _ => (ys.getD (t - base) (0, 0)).1) (e.present c.live) one32 e.t.daz e.t.ftz e.f.sat e.rm
      (e.mapZ n (e.drawsBefore i + b2n (ElemType.isFloat m.fm))) n
    (v.1, v.2 ||| excAll (ys.map fun y => y.2))

/-- The values of a mapped field in the active lanes. -/
def VEnv.mapList (e : VEnv) (i : Nat) : List (Nat × Exc) :=
  match e.slot i with
  | none => []
  | some m => (List.range 128).map fun n => if bit e.act n then e.mapValue i m n else (0, 0)

/-- The environment of an instruction whose checks have passed. -/
def VEnv.make (t : Strand) (f : Frame) (sp : OpSpec) (act : W128) (seed : W64) : VEnv :=
  let e : VEnv := { t := t, f := f, sp := sp, act := act, rm := t.rmOf f.rm, seed := seed, maps := [] }
  { e with maps := [e.mapList 0, e.mapList 1, e.mapList 2] }

/-- Whether field `i` is mapped. -/
def VEnv.mapped (e : VEnv) (i : Nat) : Bool := (e.slot i).isSome

/-- The raw bits of element `j` of field `i` in a lane at a type, before its modifiers (R337). -/
def VEnv.raw (e : VEnv) (i : Nat) (et : ElemType) (l j : Nat) : Nat :=
  if e.mapped i then ((e.maps.getD i []).getD l (0, 0)).1 else element et (srcBits e.t (e.op i) et e.f.imm l) j

/-- The whole lane of field `i`, every element together. -/
def VEnv.whole (e : VEnv) (i : Nat) (et : ElemType) (l : Nat) : W64 :=
  if e.mapped i then BitVec.ofNat 64 ((e.maps.getD i []).getD l (0, 0)).1 else srcBits e.t (e.op i) et e.f.imm l

/-- The exact integer that field `i` supplies (R337, R298). -/
def VEnv.int (e : VEnv) (i : Nat) (et : ElemType) (l j : Nat) : Int := modInt (e.f.neg i) (e.f.abs i) (et.intVal (e.raw i et l j))

/-- The datum that field `i` supplies at a float format (R337, R298); DAZ applies to an element of a register. -/
def VEnv.fp (e : VEnv) (i : Nat) (et : ElemType) (F : FFmt) (l j : Nat) : FVal :=
  F.read (e.t.daz && !e.mapped i && (e.op i).isV) (modFloat (e.f.neg i) (e.f.abs i) et.width (e.raw i et l j))

/-- The exceptions of the maps of an output lane (R141). -/
def VEnv.mapExc (e : VEnv) (l : Nat) : Exc := excAll (e.maps.map fun m => (m.getD l (0, 0)).2)

/-! ### The checks and the writes that every format V instruction shares -/

/-- Steps 6 and 7 of R149 for one field. -/
inductive SlotCheck
  | ok | notReady | wait | mismatch
  deriving DecidableEq, Repr

/-- Whether a slot can be read. -/
def slotReady (m : MapSlot) (nowait : Bool) : SlotCheck :=
  if !m.loads.isEmpty then (if nowait then .notReady else .wait) else if m.v then .ok else .notReady

/-- Step 6 of R149: the slots of a field. -/
def VEnv.ready (e : VEnv) (i : Nat) : List SlotCheck :=
  match e.slot i with
  | none => []
  | some m =>
    let nw := bit e.f.nw (2 - i)
    slotReady m nw :: (match e.chained m with
      | some c => [slotReady c nw]
      | none => [])

/-- Step 7 of R149: the tags of a field. -/
def VEnv.tagsOk (e : VEnv) (i : Nat) : Bool :=
  match e.slot i with
  | none => true
  | some m =>
    let tag := match e.op i with
      | .v r => (e.t.vreg r.val).tag
      | _ => .b32
    (m.input tag e.t.tagchk).isSome && (match e.chained m with
      | some c => (c.input (if ElemType.isFloat m.fm then .f32 else .i32) e.t.tagchk).isSome
      | none => true)

/-- Stage B, steps 8 to 10 (R247): what stops the instruction before its lanes. A slot that is not ready traps at once, though another
slot is to be waited for (DESIGN CHOICE, log 31). -/
def VEnv.stageB (e : VEnv) : Option Out :=
  match emptyOut e.t (sourcesState e.t e.sp e.f) with
  | some o => some o
  | none =>
    let rs := e.ready 0 ++ e.ready 1 ++ e.ready 2
    if rs.contains .notReady then some (.part e.t (Trap.lanesAt .mapNotReady 0 e.act) [] none)
    else if rs.contains .wait then some (.wait e.t .mapSlot)
    else if e.tagsOk 0 && e.tagsOk 1 && e.tagsOk 2 then none
    else some (.part e.t (Trap.lanesAt .formatMismatch 0 e.act) [] none)

/-- A format V instruction: its checks, the draws of its own (counter and number), the destination's tag and sidecar for each register,
and the result of a lane. -/
structure VecOp where
  sp    : OpSpec
  ctr   : Nat
  draws : Bool
  tags  : VEnv → List (ElemType × BitVec 128)
  lane  : VEnv → Nat → W64 × Exc

/-- Draws of each lane (R33): of the maps, and of the result under stochastic rounding; VRAND makes one. -/
def VecOp.drawCount (o : VecOp) (e : VEnv) : Nat :=
  if o.ctr = 0 then 1 else e.allDraws + (if o.draws && e.rm == rmSr then 1 else 0)

/-- The lanes of a format V instruction, computed. -/
def VecOp.lanes (o : VecOp) (e : VEnv) : List (Nat × LaneEnd) :=
  (lanesIn e.act).map fun l =>
    if e.t.drawsOut o.ctr l (o.drawCount e) then (l, .streamEnd)
    else
      let r := o.lane e l
      (l, .value r.1 (r.2 ||| e.mapExc l))

/-- The 16 bits that element `j` of the result takes of the lane's last draw (R33). -/
def VEnv.z (e : VEnv) (l j : Nat) : Nat := if e.rm = rmSr then genZ (e.t.drawBlock e.seed 1 l e.allDraws) j else 0

/-- The number of a v code. -/
def vNum : Operand → Nat
  | .v n => n.val
  | _ => 0

/-- The results of the lanes that complete, written to the destination registers (R338). -/
def Strand.writeResults (t : Strand) (d : Nat) (tags : List (ElemType × BitVec 128)) (good : List (Nat × LaneEnd)) : Strand :=
  (tags.zipIdx).foldl (fun u x =>
    u.writeLanes (d + x.2) (good.map fun y => (y.1, bits y.2.val (32 * x.2) 32)) x.1.1 x.1.2) t

/-- The seed of a strand's context (R33). -/
def Chip.seed (c : Chip) (t : Strand) : W64 := ((c.ctx t.ctx).map fun x => x.seed).getD 0

/-- A format V instruction with a vector destination, after stage A. A lane record of stage B too sets the destination's tag, sidecar and
full state (R338, R246). -/
def vecOut (c : Chip) (t : Strand) (f : Frame) (o : VecOp) : Out :=
  let act := t.lanesOf f
  if act = 0 then .done t t.nextPc false
  else
    let e := VEnv.make t f o.sp act (c.seed t)
    match e.stageB with
    | some (.part _ tr w p) => .part (t.writeResults (vNum f.d) (o.tags e) []) tr w p
    | some x => x
    | none =>
      let ls := o.lanes e
      let good := goodLanes t.mode ls
      endLanes ((t.writeResults (vNum f.d) (o.tags e) good).completeLanes o.ctr (o.drawCount e) good) (lanesTrap t.mode ls)

/-- The bits of a mask destination: a completed lane's result, a faulted lane's old bit, 0 elsewhere; a replay keeps the bits of the
lanes that it does not execute (R344, R351, R246). -/
def maskResult (replay : Bool) (old act : W128) (good : List (Nat × LaneEnd)) : W128 :=
  let done := maskOf (good.map fun x => x.1)
  let ones := maskOf ((good.filter fun x => bit x.2.val 0).map fun x => x.1)
  ones ||| (old &&& ~~~done &&& (if replay then BitVec.allOnes 128 else act))

/-- A format V instruction with a mask destination, after stage A. -/
def vecMaskOut (c : Chip) (t : Strand) (f : Frame) (o : VecOp) : Out :=
  let act := t.lanesOf f
  let kd := f.d.kNum
  if act = 0 then .done (if t.replay.isSome then t else t.setKreg kd 0) t.nextPc false
  else
    let e := VEnv.make t f o.sp act (c.seed t)
    match e.stageB with
    | some (.part _ tr w p) => .part (t.setKreg kd (maskResult t.replay.isSome (t.kreg kd) act [])) tr w p
    | some x => x
    | none =>
      let ls := o.lanes e
      let good := goodLanes t.mode ls
      endLanes ((t.setKreg kd (maskResult t.replay.isSome (t.kreg kd) act good)).completeLanes o.ctr (o.drawCount e) good)
        (lanesTrap t.mode ls)

/-! ### An instruction of a strand -/

/-- Whether an instruction makes accesses of memory: format M, MLOAD, MSIDE and MDRAIN (R375, R369), and the reads of records and images by
TCOPY, TRED, LSEND, LRED, HLOADM and PATCH (R401, R416, R418). SPAWN and SPAWND wait for every older load (R405). -/
def OpSpec.accesses (sp : OpSpec) : Bool :=
  sp.fmt == .M || [0x1E3, 0x1E4, 0x1E7, 0x2C0, 0x2C1, 0x2C2, 0x2C3, 0x309, 0x30B].contains sp.op

/-- Whether an access waits behind an older acquire load whose deferred lanes have not landed (R227). The replay of that load is not younger
than it (R124, R246). -/
def Strand.awaitsAcquire (t : Strand) (sp : OpSpec) : Bool := t.acq.isSome && t.replay.isNone && sp.accesses

/-- An instruction of the strand that executes now: stage A, then its own part, then its end. -/
def State.strandInstr (s : State) (i : Instr) (sp : OpSpec) (f : Frame) (body : Chip → Strand → Chip × Out) :
    Host.Outcome State Fault Refusal :=
  match s.chip.strand s.chip.cur with
  | none => .next s
  | some t =>
    match stageA t sp f with
    | some tr => s.onChip (s.chip.finish s.chip.cur i [] 0 (.stop tr))
    | none =>
      if t.awaitsAcquire sp then s.onChip (s.chip.finish s.chip.cur i [] 0 (.wait t .bud))
      else
        let r := body s.chip t
        s.onChip (r.1.finish s.chip.cur i (markRegs sp f) (t.active f) r.2)

/-- An instruction that touches nothing but its strand. -/
def State.strandOnly (s : State) (i : Instr) (sp : OpSpec) (f : Frame) (body : Strand → Out) : Host.Outcome State Fault Refusal :=
  s.strandInstr i sp f fun c t => (c, body t)

/-- A format V instruction with a vector destination. -/
def State.vec (s : State) (i : Instr) (f : Frame) (o : VecOp) : Host.Outcome State Fault Refusal :=
  s.strandInstr i o.sp f fun c t => (c, vecOut c t f o)

/-- A format V instruction with a mask destination. -/
def State.vecMask (s : State) (i : Instr) (f : Frame) (o : VecOp) : Host.Outcome State Fault Refusal :=
  s.strandInstr i o.sp f fun c t => (c, vecMaskOut c t f o)

end Sys2Proof.Machine
end

