-- ==== Sys2Proof/Machine/Control.lean ====
section
/-! DEFINITION. Control instructions but EXIT (16_isa_control_scalar R314 to R322), and the steps of a strand that have no assigned
opcode (R220, R308). -/

namespace Sys2Proof.Machine

/-- A field of A that suits COND (R304), given what the opcode's row permits. -/
def condField (lo hi : Nat) (scalar : Bool) (f : Frame) : FieldSpec :=
  let c := f.cond
  if lo ≤ c && c ≤ hi then (if c = 0 then .unused else if scalar then .scalar else FieldSpec.mask.orZero)
  else if c = 0 then { FieldSpec.mask.orZero.orNone with s := true }
  else { FieldSpec.mask.orZero with s := true }

/-- An unconditional control instruction. -/
def controlSpec (op : Nat) (f : Frame) (imm0 : Bool) : OpSpec := { OpSpec.base op with other := f.cond == 0, imm0 := imm0 }

/-- The relative target (R315). -/
def relTarget (t : Strand) (f : Frame) : W64 := t.pc + (f.imm.signExtend 64 <<< 4)

/-- A half's bits of a mask: all of it in a strand that is not paired (R94, R325). -/
def halfMask (t : Strand) (h : Nat) (x : W128) : W128 :=
  if t.paired then (x >>> (64 * h)) &&& 0xFFFFFFFFFFFFFFFF else x

/-- Test of COND on a mask (R304), for a half. -/
def testMask (t : Strand) (h cond : Nat) (x : W128) : Bool :=
  let k0 := halfMask t h t.k0
  let y := halfMask t h x &&& k0
  match cond with
  | 1 => y != 0
  | 2 => y == k0
  | _ => y == 0

/-- Test of COND on a scalar (R304). -/
def testScalar (cond : Nat) (x : W64) : Bool :=
  match cond with
  | 4 => x == 0
  | 5 => x != 0
  | 6 => decide (x.toInt < 0)
  | 7 => decide (0 ≤ x.toInt)
  | 8 => decide (0 < x.toInt)
  | _ => decide (x.toInt ≤ 0)

/-- The halves that take part in a branch (R318). -/
def branchHalves (t : Strand) : List Nat := t.halves.filter fun h => h == 0 || halfMask t h t.k0 != 0

/-- The trap of a divergent paired branch (R94, R240): FIELD 3, PAIR set, FAULTMASK the high half's bits of k0. -/
def divergence (t : Strand) : Trap :=
  { Trap.instr .badOperand 3 0 with pair := true, lanes := t.k0 &&& (BitVec.allOnes 128 <<< 64) }

/-- A branch whose halves agree goes on; one whose halves do not traps (R94). -/
def branchOut (t : Strand) (test : Nat → Bool) (after : Strand) (target : W64) : Out :=
  match (branchHalves t).map test with
  | [] => .done after t.nextPc false
  | x :: rest => if rest.all (· == x) then .done after (if x then target else t.nextPc) false else .stop (divergence t)

/-- Control operations of a strand. -/
def nopOut (t : Strand) : Out := .done t t.nextPc false

def braOut (f : Frame) (t : Strand) : Out :=
  branchOut t (fun h => f.cond == 0 || testMask t h f.cond (kVal t f.a)) t (relTarget t f)

def brsOut (f : Frame) (t : Strand) : Out := branchOut t (fun h => testScalar f.cond (sVal t h f.a)) t (relTarget t f)

def brkOut (f : Frame) (t : Strand) : Out :=
  branchOut t (fun h => testMask t h f.cond (kVal t f.a)) (putK t f.d (kVal t f.d &&& ~~~(kVal t f.a))) (relTarget t f)

def callOut (f : Frame) (t : Strand) : Out :=
  .done (t.halves.foldl (fun u h => putS u h f.d t.nextPc) t) (relTarget t f) false

/-- RET and JMPI (R319): both halves' targets must agree. -/
def jumpOut (f : Frame) (t : Strand) : Out :=
  let x := sVal t 0 f.a
  if (branchHalves t).any fun h => sVal t h f.a != x then .stop (divergence t)
  else if (bits x 0 4 : BitVec 4) != 0 then .stop (Trap.instr .misaligned 3 x)
  else .done t x false

/-- YIELD ends the quantum in a deterministic context (R320). -/
def yieldOut (t : Strand) : Out := .done t t.nextPc true

/-- TRAP and BKPT retire and then trap (R322). -/
def trapOut (cause : Cause) (arg : W32) (t : Strand) : Out := .after t { Trap.instr cause 0 0 with arg := arg } t.nextPc

def execNop (f : Frame) (s : State) : Host.Outcome State Fault Refusal := s.strandOnly (.nop f) (controlSpec 0x000 f true) f nopOut
def execBra (f : Frame) (s : State) : Host.Outcome State Fault Refusal :=
  s.strandOnly (.bra f) { OpSpec.base 0x001 with a := condField 0 3 false f, other := f.cond ≤ 3 } f (braOut f)
def execBrs (f : Frame) (s : State) : Host.Outcome State Fault Refusal :=
  s.strandOnly (.brs f) { OpSpec.base 0x002 with a := condField 4 9 true f, other := 4 ≤ f.cond && f.cond ≤ 9 } f (brsOut f)
def execBrk (f : Frame) (s : State) : Host.Outcome State Fault Refusal :=
  s.strandOnly (.brk f) { OpSpec.base 0x003 with d := .mask, a := condField 1 3 false f, other := 1 ≤ f.cond && f.cond ≤ 3 } f (brkOut f)
def execCall (f : Frame) (s : State) : Host.Outcome State Fault Refusal :=
  s.strandOnly (.call f) { controlSpec 0x004 f false with d := .scalar } f (callOut f)
def execRet (f : Frame) (s : State) : Host.Outcome State Fault Refusal :=
  s.strandOnly (.ret f) { controlSpec 0x005 f true with a := .scalar } f (jumpOut f)
def execJmpi (f : Frame) (s : State) : Host.Outcome State Fault Refusal :=
  s.strandOnly (.jmpi f) { controlSpec 0x006 f true with a := .scalar } f (jumpOut f)
def execYield (f : Frame) (s : State) : Host.Outcome State Fault Refusal :=
  s.strandOnly (.yield f) (controlSpec 0x007 f true) f yieldOut
def execTrap (f : Frame) (s : State) : Host.Outcome State Fault Refusal :=
  s.strandOnly (.trap f) (controlSpec 0x009 f false) f (trapOut .software f.imm)
def execBkpt (f : Frame) (s : State) : Host.Outcome State Fault Refusal :=
  s.strandOnly (.bkpt f) (controlSpec 0x00A f false) f (trapOut .breakpoint 0)

/-- The executing strand takes an instruction record (R247 steps A1 and A2). -/
def State.stopStrand (s : State) (i : Instr) (tr : Trap) : Host.Outcome State Fault Refusal :=
  match s.chip.strand s.chip.cur with
  | none => .next s
  | some _ => s.onChip (s.chip.finish s.chip.cur i [] 0 (.stop tr))

/-- ILLEGAL_OPCODE (R308): FIELD 1. -/
def execIllegalOpcode (op : BitVec 10) (f : Frame) (s : State) : Host.Outcome State Fault Refusal :=
  s.stopStrand (.illegalOpcode op f) (Trap.instr .illegalOpcode 1 0)

/-- A fetch that fails Owner, the walk, X or the peer route (R220, R223, R315): FAULTVA is the fetch address. A fetch that does not fail has
no such step. -/
def execInstructionFetchFault (s : State) : Host.Outcome State Fault Refusal :=
  match s.chip.strand s.chip.cur with
  | none => .next s
  | some t =>
    match s.chip.translate (s.chip.who t) .fetch 16 t.pc 16 with
    | .trap cause => s.stopStrand .instructionFetchFault (Trap.instr cause 0 t.pc)
    | .absent p pa => s.onChip (s.chip.absent p pa)
    | .ok x => if x.down then s.stopStrand .instructionFetchFault (Trap.instr .linkDown 0 t.pc) else .next s

end Sys2Proof.Machine
end

