-- ==== Sys2Proof/Machine/Access.lean ====
section
/-! DEFINITION. The checks of a lane's access in stage C (12_traps R247 steps 11 to 14: R211, R180, R161, R223), range locks (08_barrier
R178, R180), what a load of a deterministic context sees of its strand's buffer (R237), and the layouts of memory data (R374). -/

namespace Sys2Proof.Machine

/-! ### Range locks -/

/-- The lowest address of `[lo, hi)` that a lock of the core covers for an access (R180): a load meets destination ranges, a store or
atomic every range. A range of local store is the group's own. -/
def Chip.lockHit (c : Chip) (core ctx gid : Nat) (writes : Bool) (lo hi : Nat) : Option Nat :=
  (c.core core).locks.foldl (fun best k =>
    if k.ctx == ctx && (writes || !k.source) && (k.gid.isNone || k.gid == some gid) && decide (k.lo < hi) && decide (lo < k.hi) then
      match best with
      | some b => some (min b (max lo k.lo))
      | none => some (max lo k.lo)
    else best) none

/-! ### One lane -/

/-- What the checks of a lane give: its accesses, or its cause and FAULTVA. -/
inductive LaneRes
  | ok (rs : List Reach)
  | bad (cause : Cause) (va : W64)
  deriving DecidableEq, Repr

/-- Step 11 for the accesses of a lane, each an address and a length. -/
def Chip.reachAll (c : Chip) (who : Who) (core : Nat) (k : Access) (scope align : Nat) : List (W64 × Nat) → Chip × LaneRes
  | [] => (c, .ok [])
  | (va, n) :: rest =>
    match c.reach who core k scope align va n with
    | .trap x => (c, .bad x va)
    | .absent p pa => (c.absent p pa, .bad .pageFault va)
    | .ok r =>
      match c.reachAll who core k scope align rest with
      | (c, .ok rs) => (c, .ok (r :: rs))
      | x => x

/-- Step 12: the first locked byte of the accesses, at its canonical address (DESIGN CHOICE, log 87). The ranges of a deterministic strand's
own buffered TCOPY or TRED are not among the locks: R403 has it buffered at its retirement (DEDUCED, log 81). -/
def Chip.firstLock (c : Chip) (core ctx gid : Nat) (writes : Bool) : List Reach → Option W64
  | [] => none
  | r :: rest =>
    match c.lockHit core ctx gid writes r.va.toNat (r.va.toNat + r.n) with
    | some a => some (BitVec.ofNat 64 a)
    | none => c.firstLock core ctx gid writes rest

/-- The cell that holds an address (R152). -/
def cellOf (va : W64) : W64 := va &&& ~~~(0xF : W64)

/-- Whether an access is in a CELL page. -/
def Reach.cell (r : Reach) : Bool :=
  match r.xl with
  | some x => x.cell
  | none => false

/-- Whether an access is in an ORDERED page (R215). -/
def Reach.ordered (r : Reach) : Bool :=
  match r.xl with
  | some x => x.ord
  | none => false

/-- Pull what a cell access needs before its tag is read (R160). -/
def Chip.pullReach (c : Chip) (r : Reach) : Chip :=
  match r.xl with
  | some x => if x.cell then c.pull x.mig r.n else c
  | none => c

/-- The tag of the cell of an access. -/
def Chip.tagOf (c : Chip) (x : Xl) : BitVec 2 := c.tagAt x.place x.pa

/-- Step 13 for stores and atomics: the first access that meets a cell that is not VALUE. -/
def Chip.firstCellStore (c : Chip) : List Reach → Option W64
  | [] => none
  | r :: rest =>
    match r.xl with
    | some x => if x.cell && c.tagOf x != tagValue then some (cellOf r.va) else c.firstCellStore rest
    | none => c.firstCellStore rest

/-- Step 14: the first access whose peer route is down. -/
def firstDown : List Reach → Option W64
  | [] => none
  | r :: rest =>
    match r.xl with
    | some x => if x.down then some r.va else firstDown rest
    | none => firstDown rest

/-- Steps 11 to 14 for a lane. `writes` marks stores and atomics; `cells` whether they meet the cell state table now, which in a
deterministic context they do at Commit (R169). -/
def Chip.checkLane (c : Chip) (who : Who) (core gid : Nat) (k : Access) (scope align : Nat) (writes cells : Bool)
    (accs : List (W64 × Nat)) : Chip × LaneRes :=
  match c.reachAll who core k scope align accs with
  | (c, .bad x va) => (c, .bad x va)
  | (c, .ok rs) =>
    match c.firstLock core who.ctx gid writes rs with
    | some va => (c, .bad .rangeLocked va)
    | none =>
      let c := rs.foldl Chip.pullReach c
      match if writes && cells then c.firstCellStore rs else none with
      | some va => (c, .bad .cellStore va)
      | none =>
        match firstDown rs with
        | some va => (c, .bad .linkDown va)
        | none => (c, .ok rs)

/-- Steps 11 to 14 for one access whose FAULTVA is its first faulting byte for a CELL_STORE too, where R248 has the cell's address (R331, R385). -/
def Chip.checkByte (c : Chip) (who : Who) (core gid : Nat) (k : Access) (scope align : Nat) (writes cells : Bool) (va : W64) (n : Nat) :
    Chip × LaneRes :=
  match c.checkLane who core gid k scope align writes cells [(va, n)] with
  | (c, .bad x a) => (c, .bad x (if x = .cellStore then canonical who.die va else a))
  | r => r

/-- A translation some bytes further on. -/
def Xl.part (x : Xl) (off : Nat) : Xl :=
  { x with va := x.va + BitVec.ofNat 64 off, pa := x.pa + off, mig := x.mig.map fun m => { m with off := m.off + off } }

/-- Part of an access. -/
def Reach.part (r : Reach) (off n : Nat) : Reach :=
  { r with va := r.va + BitVec.ofNat 64 off, n := n, xl := r.xl.map fun x => x.part off, alt := r.alt.map fun x => x.part off }

/-- The FIELD of an instruction record for a failed access of the address that field A forms (R451): 3 where the address itself fails, in
alignment or in its owner, and 0 where what the tables hold refuses it. -/
def Chip.accessField (c : Chip) (t : Strand) (cause : Cause) (va : W64) : Nat :=
  let who := c.who t
  if cause = .misaligned || (cause == .protection && (vaOwn va == 5 || (owner who.dies who.die va).isNone)) then 3 else 0

/-- Owner, the first check of every address (R205), as an instruction record. -/
def Chip.ownerTrap (c : Chip) (t : Strand) (field : Nat) (va : W64) : Option Trap :=
  let who := c.who t
  if (owner who.dies who.die va).isNone then some (Trap.instr .protection field va) else none

/-- The lane record of some faulted lanes (R220, R248): the cause and address of the lowest. -/
def faultTrap (fs : List LaneFault) : Option Trap :=
  match sortBy LaneFault.lane fs with
  | [] => none
  | x :: _ => some (Trap.lanesAt x.cause x.va (maskOf (fs.map LaneFault.lane)))

/-- How an access instruction ends whose lanes have been performed. -/
def accessEnd (t : Strand) (fs : List LaneFault) (wrote : List (Nat × W64 × Nat)) (prod : Option Nat) (ends : Bool) : Out :=
  match faultTrap fs with
  | none => .done t t.nextPc ends
  | some tr => .part t tr wrote prod

/-! ### The strand's own buffer (R237) -/

/-- The buffered writes that a strand's own loads see: its stores; a buffered atomic's effect stands only from Commit on. -/
def CommitEntry.stores (e : CommitEntry) : List LaneWrite :=
  match e.op with
  | .store ws => ws
  | _ => []

/-- Bytes at a canonical address with one write over them. -/
def overlayOne (va : W64) (bs : List Byte) (w : LaneWrite) : List Byte :=
  let a := va.toNat
  let b := w.va.toNat
  if b < a + bs.length && a < b + w.bytes.length then
    bs.mapIdx fun i x => if b ≤ a + i && a + i < b + w.bytes.length then w.bytes.getD (a + i - b) x else x
  else bs

/-- Bytes at a canonical address with the strand's buffered stores over them. -/
def Strand.overlay (t : Strand) (va : W64) (bs : List Byte) : List Byte :=
  t.buffer.foldl (fun bs e => e.stores.foldl (overlayOne va) bs) bs

/-- Load the bytes of an access for a strand. -/
def Chip.loadReach (c : Chip) (t : Strand) (scope : Nat) (r : Reach) : Chip × List Byte :=
  let x := c.loadBytes t.core t.ctx scope r
  (x.1, if t.buffer.isEmpty then x.2 else t.overlay r.va x.2)

/-! ### Data (R374) -/

/-- The types that an access size takes. -/
def dataTypeOk (size : Nat) (et : ElemType) : Bool :=
  match size with
  | 0 | 1 => et == .i32 || et == .n32 || et == .b32
  | 2 => decide (et.width ≤ 32)
  | 3 => et == .f64 || et == .i64 || et == .b32
  | 4 => et == .b32
  | _ => false

/-- Registers that a data operand takes at a size. -/
def dataRegs (size : Nat) : Nat := if size = 3 then 2 else if size = 4 then 4 else 1

/-- A data field of a store (R373). -/
def FieldSpec.data (size : Nat) : FieldSpec := { FieldSpec.vec (dataRegs size) with s := true, even := size == 4, zero := true }

/-- The base and index fields of a lane's address (R303, R373). -/
def FieldSpec.addrBase : FieldSpec := { FieldSpec.vec 2 with s := true, opt := true }
def FieldSpec.addrIndex : FieldSpec := { FieldSpec.vec 1 with s := true, lane := true, zero := true, opt := true }

/-- The bytes that a data operand supplies in a lane: `n` of them from register or scalar code `o`. -/
def dataBytes (t : Strand) (o : Operand) (n l : Nat) : List Byte :=
  match o with
  | .v r =>
    ((List.range ((n + 3) / 4)).flatMap fun j => leBytes 4 ((t.vreg (r.val + j)).lane l).toNat).take n
  | .s r =>
    let h := t.half l
    (leBytes 8 (t.sreg (halfScalar h r.val)).toNat ++ leBytes 8 (t.sreg (halfScalar h (r.val + 1))).toNat).take n
  | _ => List.replicate n 0

/-- Whether an access's address space reaches the end of its page piece by piece: the 16-, 64- or smaller-byte pieces of `n` bytes. -/
def pieces (va : W64) (n step : Nat) : List (W64 × Nat) :=
  (List.range (n / step)).map fun i => (va + BitVec.ofNat 64 (step * i), step)

end Sys2Proof.Machine
end

