-- ==== Sys2Proof/Machine/MapInstr.lean ====
section
/-! DEFINITION. Map slot instructions (18_isa_map_memory_cell R365 to R372; 06_map_slot R130 to R135, R150) and the landing of their
loads. -/

namespace Sys2Proof

/-- FUNC fields of a map instruction (R366). -/
def Frame.first (f : Frame) : Nat := f.func % 32
def Frame.rows (f : Frame) (w : Nat) : Nat := f.func / 32 % 2 ^ w + 1

/-- PAT and PARAM of MGEN (R366, R371). -/
def Frame.pat (f : Frame) : Nat := f.func % 8
def Frame.patParam (f : Frame) : Int := Machine.signedOf 6 (f.func / 8 % 64)

end Sys2Proof

namespace Sys2Proof.Machine

/-- The checks of a map instruction (R366): `fn` is the part of FUNC that it uses. -/
def mapSpec (op fn : Nat) : OpSpec := { OpSpec.base op with slot := true, imm0 := true, func := fn }

/-- The check of R365 that SLOT is claimed in a strand's slots. -/
def unclaimedTrap (t : Strand) (slot : Nat) : Option Trap :=
  if (Sparse.get? t.slots slot).isNone then some (Trap.instr .mapUnclaimed 10 0) else none

/-- The checks of R365 on SLOT in a strand's slots. -/
def slotTrap (t : Strand) (slot : Nat) (claimed : Bool) : Option Trap :=
  if slot ≥ t.mapLimit then some (Trap.instr .badOperand 10 0)
  else if claimed then unclaimedTrap t slot
  else none

/-- Replace a slot of a strand. -/
def Strand.setSlot (t : Strand) (n : Nat) (m : MapSlot) : Strand := { t with slots := Sparse.set t.slots n m }

/-- A map instruction on the executing strand's own slots. -/
def State.mapOwn (s : State) (i : Instr) (sp : OpSpec) (f : Frame) (body : MapSlot → Chip → Strand → Chip × Out) :
    Host.Outcome State Fault Refusal :=
  s.strandInstr i sp f fun c t =>
    match slotTrap t f.slot true, Sparse.get? t.slots f.slot with
    | some tr, _ => (c, .stop tr)
    | none, none => (c, .stop (Trap.instr .mapUnclaimed 10 0))
    | none, some m => body m c t

/-- The instruction retires and does nothing else. -/
def retires (t : Strand) : Out := .done t t.nextPc false

/-- A claimed slot at MCLAIM (R130). -/
def MapSlot.claimed : MapSlot :=
  { image := 0, side := 0, desc := MapSlot.resetDesc, v := false, d := false, fz := false, loads := [] }

/-- MCLAIM (R367, R389): it takes the physical slot that was freed last, and waits while that one has a load outstanding from before its MFREE;
where none is left that was freed, it takes one that was never claimed (DEDUCED, log 29). -/
def mclaimOut (f : Frame) (t : Strand) : Out :=
  if (Sparse.get? t.slots f.slot).isSome then .stop (Trap.instr .badOperand 10 0)
  else
    match t.draining.getLast? with
    | some (_ :: _) => .wait t .mapSlot
    | _ => retires ({ t with draining := t.draining.dropLast }.setSlot f.slot MapSlot.claimed)

def execMclaim (f : Frame) (s : State) : Host.Outcome State Fault Refusal :=
  s.strandOnly (.mclaim f) (mapSpec 0x1E0 0) f fun t =>
    match slotTrap t f.slot false with
    | some tr => .stop tr
    | none => mclaimOut f t

/-- MFREE (R147, R367): the physical slot returns to the strand, with the loads that have still to land in it. -/
def Strand.freeSlot (t : Strand) (n : Nat) (m : MapSlot) : Strand :=
  { t with slots := Sparse.erase t.slots n, draining := t.draining ++ [m.loads] }

def execMfree (f : Frame) (s : State) : Host.Outcome State Fault Refusal :=
  s.mapOwn (.mfree f) (mapSpec 0x1E1 0) f fun m c t => (c, retires (t.freeSlot f.slot m))

/-- Whether MBIND accepts a descriptor (R131). -/
def bindOk (t : Strand) (slot : Nat) (w : W64) : Bool :=
  let fm := ElemType.ofCode (bits w 0 4)
  let span := 8 * 2 ^ (bits w 8 2).toNat
  let chain := (bits w 12 5).toNat
  decide ((bits w 0 4).toNat ≤ 12) && bits w 8 2 != (3 : BitVec 2) && bits w 24 8 == (0 : BitVec 8) && !bit w 18
    && bits w 4 4 == (0 : BitVec 4) && !(bit w 17 && (decide (chain ≥ t.mapLimit) || chain == slot))
    && !(fm.isInt && bits w 32 32 != one32)
    && !(bit w 11 && decide (span * fm.packing < (if fm.width = 4 then 16 else 8)))

/-- The descriptor bits of a word that MBIND accepts (R130). -/
def descBits (w : W64) : W64 := (bits w 32 32 : W32) ++ (bits w 0 18 : BitVec 18).setWidth 32

/-- MBIND (R368). -/
def execMbind (f : Frame) (s : State) : Host.Outcome State Fault Refusal :=
  s.mapOwn (.mbind f) { mapSpec 0x1E2 0 with a := FieldSpec.scalar.orZero } f fun m c t =>
    let w := sVal t 0 f.a
    if bindOk t f.slot w then
      (c, retires (t.setSlot f.slot { m with desc := descBits w }))
    else (c, .stop (Trap.instr .badOperand 3 0))

/-! ### Loads into a slot -/

/-- The rows of a slot load, each an address and its bytes in pieces of 16 bytes (R369). -/
def slotRows (base pitch : W64) (n size : Nat) : List (W64 × Nat) :=
  (List.range n).flatMap fun i => pieces (base + pitch * BitVec.ofNat 64 i) size 16

/-- The checks of a slot load's bytes (R369), in order: the first failure, or the accesses. -/
def Chip.checkBytes (c : Chip) (who : Who) (core gid : Nat) (k : Access) (writes : Bool) : List (W64 × Nat) → Chip × LaneRes
  | [] => (c, .ok [])
  | (va, n) :: rest =>
    match c.checkLane who core gid k 2 1 writes false [(va, n)] with
    | (c, .bad x a) => (c, .bad x a)
    | (c, .ok rs) =>
      match c.checkBytes who core gid k writes rest with
      | (c, .ok more) => (c, .ok (rs ++ more))
      | x => x

/-- Read bytes at their owner after the core's dirty bytes of the line, with the strand's buffered stores over them (R122, R225, R237). The
core's copy of the line goes, so that no later load finds an older write there (R226). -/
def Chip.readOwner (c : Chip) (t : Strand) (r : Reach) : Chip × List Byte :=
  match r.xl with
  | none => (c, List.replicate r.n 0)
  | some x =>
    let line := lineOf r.va
    let c := if x.owner = 5 then c else c.flushRange t.core t.ctx line (line + 64) true
    let y := (c.drainFor t.core x.place x.pa r.n).readXl x r.n
    (y.1, t.overlay r.va y.2)

/-- Read several accesses. -/
def Chip.readOwners (c : Chip) (t : Strand) : List Reach → Chip × List Byte
  | [] => (c, [])
  | r :: rest =>
    let x := c.readOwner t r
    let y := x.1.readOwners t rest
    (y.1, x.2 ++ y.2)

/-- MLOAD and MSIDE (R369): the reads are performed at retirement; their bytes land later. -/
def slotLoadOut (f : Frame) (side : Bool) (m : MapSlot) (c : Chip) (t : Strand) : Chip × Out :=
  let first := f.first
  let n := f.rows 5
  let base := sVal t 0 f.a
  let size := if side then 16 else 128
  let pitch : W64 := if side then 16 else match f.b with
    | .s _ => sVal t 0 f.b
    | _ => 128
  if first + n > 32 then (c, .stop (Trap.instr .badOperand 10 0))
  else if (c.ownerTrap t 3 base).isSome then (c, .stop (Trap.instr .protection 3 base))
  else if base.toNat % 16 != 0 then (c, .stop (Trap.instr .misaligned 3 base))
  else if pitch.toNat % 16 != 0 then (c, .stop (Trap.instr .misaligned 4 base))
  else
    match c.checkBytes (c.who t) t.core (c.localGid t) .load false (slotRows base pitch n size) with
    | (c, .bad x va) => (c, .stop (Trap.instr x (c.accessField t x va) va))
    | (c, .ok rs) =>
      let y := c.readOwners t rs
      let id := y.1.nextId
      let load : SlotLoad := { id := id, sid := y.1.cur, slot := f.slot, side := side, first := first * size, bytes := y.2 }
      ({ y.1 with nextId := id + 1, slotLoads := y.1.slotLoads ++ [load] },
        retires (t.setSlot f.slot { m with loads := m.loads ++ [id] }))

def execMload (f : Frame) (s : State) : Host.Outcome State Fault Refusal :=
  s.mapOwn (.mload f) { mapSpec 0x1E3 0x3FF with a := .scalar, b := FieldSpec.scalar.orNone } f (slotLoadOut f false)
def execMside (f : Frame) (s : State) : Host.Outcome State Fault Refusal :=
  s.mapOwn (.mside f) { mapSpec 0x1E4 0x3FF with a := .scalar } f (slotLoadOut f true)

/-- Bytes put into a slot's image or side memory; the slot leaves loading for dirty with its last load (R134). -/
def MapSlot.landed (m : MapSlot) (load : SlotLoad) : MapSlot :=
  let loads := m.loads.filter (· != load.id)
  let n := 8 * load.bytes.length
  let x : BitVec n := BitVec.ofNat n (leNat load.bytes)
  let m := { m with loads := loads, v := m.v || loads.isEmpty, d := m.d || loads.isEmpty }
  if load.side then { m with side := putBits m.side (8 * load.first) x } else { m with image := putBits m.image (8 * load.first) x }

/-- A load lands in a strand: into the slot that is loading with it, or into nothing (R367). -/
def Strand.slotLanded (t : Strand) (load : SlotLoad) : Strand :=
  { t with
    slots := t.slots.map fun x => if x.2.loads.contains load.id then (x.1, x.2.landed load) else x
    draining := t.draining.map fun ls => ls.filter (· != load.id) }

/-- A load of a strand that has exited has landed: its physical slot is free for a placement (R147). -/
def Chip.slotReturned (c : Chip) (load : SlotLoad) : Chip :=
  match load.held with
  | some h => c.noteFreed (h.core / Config.coresPerDie)
  | none => c

/-- SLOT_LOAD_LAND (R134): a strand's loads land in program order, so only its oldest outstanding load lands. One of a strand that has exited
lands into nothing. -/
def Chip.slotLoadLand (c : Chip) (op : Nat) : Chip :=
  match c.slotLoads.find? fun x => x.id == op with
  | none => c
  | some load =>
    match c.slotLoads.find? fun x => x.sid == load.sid with
    | none => c
    | some first =>
      if first.id = op then
        ({ c with slotLoads := c.slotLoads.filter fun x => x.id != op }.slotReturned load).updStrand load.sid fun t => t.slotLanded load
      else c

def execSlotLoadLand (op : Nat) (s : State) : Host.Outcome State Fault Refusal := s.onChip (s.chip.slotLoadLand op)

/-! ### Patterns and rows -/

/-- A slot that is loading makes the instruction wait (R134). -/
def MapSlot.whenLanded (m : MapSlot) (c : Chip) (t : Strand) (k : Chip × Out) : Chip × Out :=
  if m.loads.isEmpty then k else (c, .wait t .mapSlot)

/-- MFILL (R370). -/
def execMfill (f : Frame) (s : State) : Host.Outcome State Fault Refusal :=
  let sp := { mapSpec 0x1E5 0x7F with a := FieldSpec.vec 1 }
  s.mapOwn (.mfill f) sp f fun m c t =>
    let n := f.rows 2
    if f.first + n > 32 then (c, .stop (Trap.instr .badOperand 10 0))
    else
      match emptyOut t (sourcesState t sp f) with
      | some o => (c, o)
      | none =>
        let x : BitVec (1024 * n) := bits (t.vreg (vNum f.a)).lanes 0 (1024 * n)
        m.whenLanded c t (c, retires (t.setSlot f.slot { m with image := putBits m.image (1024 * f.first) x, v := true, d := true }))

/-- Whether PARAM is within its limits for a span (R371). -/
def patOk (pat : Nat) (p : Int) (span : Nat) : Bool :=
  match pat with
  | 2 => decide (0 ≤ p ∧ p < span)
  | 3 => decide (-(span : Int) < p ∧ p < span)
  | 6 => decide (0 ≤ p) && span % 2 ^ p.toNat == 0
  | _ => p == 0

/-- The lane weight pat(i, t) (R150). -/
def patBit (pat : Nat) (p : Int) (span i t : Nat) : Bool :=
  match pat with
  | 0 => t == i
  | 1 => t == span - 1 - i
  | 2 => t == (i + p.toNat) % span
  | 3 => (t : Int) == i + p
  | 4 => true
  | 5 => decide (t ≤ i)
  | _ => t / 2 ^ p.toNat == i / 2 ^ p.toNat

/-- The encoding of 1 in a weight format (R371). -/
def oneOf (fm : ElemType) : Nat :=
  match fm with
  | .f32 => 0x3F800000 | .f16 => 0x3C00 | .bf16 => 0x3F80 | .e4m3 => 0x38 | .e5m2 => 0x3C | .e2m1 => 0x2 | _ => 1

/-- A lane whose every element is 1. -/
def laneOnes (fm : ElemType) : Nat := ((List.range fm.packing).map fun e => oneOf fm * 2 ^ (fm.width * e)).sum

/-- The image of a pattern (R150, R371). -/
def patImage (pat : Nat) (p : Int) (span : Nat) (fm : ElemType) : ImageWord :=
  let one := laneOnes fm
  let row (i : Nat) : Nat := ((List.range span).map fun t => if patBit pat p span i t then one * 2 ^ (32 * t) else 0).sum
  BitVec.ofNat 32768 (((List.range span).map fun i => row i * 2 ^ (1024 * i)).sum)

/-- MGEN (R371). -/
def execMgen (f : Frame) (s : State) : Host.Outcome State Fault Refusal :=
  s.mapOwn (.mgen f) { mapSpec 0x1E6 0x1FF with extra := f.pat == 7 } f fun m c t =>
    m.whenLanded c t
      (if m.sparse || !patOk f.pat f.patParam m.span then (c, .stop (Trap.instr .badOperand 10 0))
       else (c, retires (t.setSlot f.slot { m with image := patImage f.pat f.patParam m.span m.fm, v := true, d := true })))

/-- MQUERY (R368). -/
def execMquery (f : Frame) (s : State) : Host.Outcome State Fault Refusal :=
  s.mapOwn (.mquery f) { mapSpec 0x1E8 0 with d := .scalar } f fun m c t => (c, retires (putS t 0 f.d m.word))

/-! ### MDRAIN -/

/-- The strand whose slots MDRAIN names: the handler's subject, or the strand itself (R251). -/
def Chip.slotOwner (c : Chip) (t : Strand) : Strand :=
  match t.kind with
  | .handler u => (c.strand u).getD t
  | _ => t

/-- The 4672 bytes that MDRAIN writes (R372). -/
def MapSlot.drained (m : MapSlot) : List Byte :=
  (if m.v then leBytes 4096 m.image.toNat ++ leBytes 512 m.side.toNat else List.replicate 4608 0)
    ++ leBytes 8 m.word.toNat ++ List.replicate 56 0

/-- Bytes in pieces of `n`. -/
def chunks (n : Nat) : Nat → List Byte → List (List Byte)
  | 0, _ => []
  | k + 1, bs => bs.take n :: chunks n k (bs.drop n)

/-- The checks of MDRAIN's bytes (R372): R211, then CELL, then R180, in pieces of 64 bytes. -/
def Chip.checkDrain (c : Chip) (who : Who) (core gid : Nat) : List (W64 × Nat) → Chip × LaneRes
  | [] => (c, .ok [])
  | (va, n) :: rest =>
    match c.reach who core .store 0 1 va n with
    | .trap x => (c, .bad x va)
    | .absent p pa => (c.absent p pa, .bad .pageFault va)
    | .ok r =>
      if r.cell then (c, .bad .protection va)
      else
        match c.lockHit core who.ctx gid true r.va.toNat (r.va.toNat + n) with
        | some a => (c, .bad .rangeLocked (BitVec.ofNat 64 a))
        | none =>
          match firstDown [r], c.checkDrain who core gid rest with
          | some a, _ => (c, .bad .linkDown a)
          | none, (c, .ok rs) => (c, .ok (r :: rs))
          | none, x => x

/-- The stores of MDRAIN (R372): performed, or buffered in a deterministic context (R236). -/
def mdrainOut (f : Frame) (m : MapSlot) (c : Chip) (t : Strand) : Chip × Out :=
  let base := sVal t 0 f.a
  if (c.ownerTrap t 3 base).isSome then (c, .stop (Trap.instr .protection 3 base))
  else if base.toNat % 64 != 0 then (c, .stop (Trap.instr .misaligned 3 base))
  else
    match c.checkDrain (c.who t) t.core (c.localGid t) (pieces base 4672 64) with
    | (c, .bad x va) => (c, .stop (Trap.instr x (c.accessField t x va) va))
    | (c, .ok rs) =>
      let data := rs.zip (chunks 64 73 m.drained)
      if c.buffers t then
        let e : CommitEntry := { pc := t.pc, instr := .mdrain f, active := t.k0,
                                 op := .store (data.map fun x => { lane := 0, va := x.1.va, bytes := x.2 }) }
        (c, retires { t with buffer := t.buffer ++ [e] })
      else (data.foldl (fun c x => c.storeBytes c.cur t.core t.ctx 0 x.1 x.2) c, retires t)

/-- MDRAIN (R372). The handler's names a slot of its subject, and no MAPLIMIT is looked at (R306). -/
def execMdrain (f : Frame) (s : State) : Host.Outcome State Fault Refusal :=
  s.strandInstr (.mdrain f) { mapSpec 0x1E7 0 with a := .scalar } f fun c t =>
    let u := c.slotOwner t
    match if t.isHandler then unclaimedTrap u f.slot else slotTrap u f.slot true, Sparse.get? u.slots f.slot with
    | some tr, _ => (c, .stop tr)
    | none, none => (c, .stop (Trap.instr .mapUnclaimed 10 0))
    | none, some m => m.whenLanded c t (mdrainOut f m c t)

end Sys2Proof.Machine
end

