-- ==== Sys2Proof/Machine/Resources.lean ====
section
/-! DEFINITION. What a core, a pool and a context have room for: footprints (05_group_strand R115), strand tokens (R114), quotas (02_context
R49), ready pools (03_queue R76), and the records that create strands (R113, R156). -/

namespace Sys2Proof.Machine

/-! ### Footprints -/

/-- The footprint fields of a kernel header, spawn record or bud record (R78, R113, R156): registers, lookahead registers, local store
granules, map slots. -/
structure Foot where
  regs  : Nat
  look  : Nat
  grans : Nat
  maps  : Nat
  deriving DecidableEq, Repr, Inhabited

/-- LOOKAHEAD codes (R78). -/
def lookaheadOf (n : Nat) : Nat := if n = 0 then 0 else 4 * 2 ^ n

/-- The fields of a word that holds LOOKAHEAD at [46:45], REGS at [44:36], LOCAL at [35:28] and MAPS at [27:22]. -/
def Foot.ofWord (w : W64) : Foot :=
  { regs := (bits w 36 9).toNat, look := lookaheadOf (bits w 45 2).toNat, grans := (bits w 28 8).toNat, maps := (bits w 22 6).toNat }

/-- Blocks of a footprint (R115). -/
def Foot.fast (f : Foot) : Nat := (min f.regs 256 + f.look) / 8
def Foot.cold (f : Foot) : Nat := (f.regs - 256) / 8

/-- Fields within their ranges (R78). -/
def Foot.inRange (f : Foot) : Bool :=
  decide (8 ≤ f.regs ∧ f.regs ≤ 320) && f.regs % 8 == 0 && decide (f.grans ≤ Config.granules) && decide (f.maps ≤ 32)

/-! What of a core the last reset left in use (R115, R450). R450 says that the facts reflect what remains when a unit is retired; that every
core loses what the facts have lost, and each die its highest-numbered cores, is the model's choice (DESIGN CHOICE, log 61). -/

/-- A fact as the last reset fixed it, `full` where it lowered none. -/
def Chip.fact (c : Chip) (n full : Nat) : Nat := (Sparse.getD c.facts n (full, 0)).1

def Chip.fastCap (c : Chip) : Nat := Config.fastBlocks - (256 - c.fact 0x0003 256 + 7) / 8
def Chip.coldCap (c : Chip) : Nat := Config.coldBlocks - (64 - (c.fact 0x0002 320 - c.fact 0x0003 256) + 7) / 8
def Chip.mapCap (c : Chip) : Nat := min Config.mapSlots (c.fact 0x0007 32)
def Chip.granCap (c : Chip) : Nat := min Config.granules (c.fact 0x0005 262144 / Config.granuleBytes)
def Chip.inUse (c : Chip) (core : Nat) : Bool := decide (core % Config.coresPerDie < c.fact 0x0020 48)

/-- Whether a group of `n` strands fits an empty core (R82, R115). -/
def Chip.fitsEmpty (c : Chip) (n : Nat) (f : Foot) : Bool :=
  let per := (n + 3) / 4
  decide (per ≤ Config.slotsPerQuarter ∧ per * f.fast ≤ c.fastCap ∧ per * f.cold ≤ c.coldCap ∧ per * f.maps ≤ c.mapCap ∧
    f.grans ≤ c.granCap)

/-- The strands of a core but its handler; one that has exited has given its slot and blocks back (R108). -/
def Chip.onCore (c : Chip) (core : Nat) : List Strand :=
  (c.strands.filter fun x => x.2.core == core && !x.2.isHandler && !x.2.exited).map fun x => x.2

/-- The groups of a core. -/
def Chip.groupsOn (c : Chip) (core : Nat) : List Group := (c.groups.filter fun x => x.2.core == core).map fun x => x.2

/-- Blocks of a kind in a quarter of a core that are occupied: architectural and pool blocks, and lookahead blocks (R109, R115). -/
def Chip.blocksUsed (c : Chip) (core q : Nat) (cold : Bool) : Nat :=
  let mine (bs : List Block) : Nat := (bs.filter fun b => b.cold == cold && b.quarter == q).length
  let ts := c.onCore core
  ((ts.map fun t => mine t.blocks).sum + ((c.groupsOn core).map fun g => mine g.pool + mine g.ret).sum) +
    (if cold then 0 else ((ts.filter fun t => t.quarter == q).map fun t => t.lookahead / 8).sum)

/-- Strand slots of a quarter in use. -/
def Chip.slotsUsed (c : Chip) (core q : Nat) : List Nat := ((c.onCore core).filter fun t => t.quarter == q).map fun t => t.slot

/-- Whether a load is of a strand of a context that has exited. -/
def SlotLoad.heldIn (l : SlotLoad) (ctx : Nat) : Bool := l.held.any fun h => h.ctx == ctx

/-- Physical map slots of a quarter that loads of exited strands hold (R147). -/
def Chip.mapsHeld (c : Chip) (core q : Nat) : Nat :=
  ((c.slotLoads.filterMap fun l => l.held.bind fun h => if h.core == core && h.quarter == q then some (l.sid, h.slot) else none).eraseDups).length

/-- Map slots of a quarter in use. -/
def Chip.mapsUsed (c : Chip) (core q : Nat) : Nat :=
  (((c.onCore core).filter fun t => t.quarter == q).map fun t => t.mapLimit).sum + c.mapsHeld core q

/-- Whether `n` strands of a footprint fit a quarter. -/
def Chip.fitsQuarter (c : Chip) (core q n : Nat) (f : Foot) : Bool :=
  n == 0 ||
  (decide ((c.slotsUsed core q).length + n ≤ Config.slotsPerQuarter) &&
    decide (c.blocksUsed core q false + n * f.fast ≤ c.fastCap) &&
    decide (c.blocksUsed core q true + n * f.cold ≤ c.coldCap) && decide (c.mapsUsed core q + n * f.maps ≤ c.mapCap))

/-- The first granule of a free run of local store (R115): the lowest. -/
def Chip.localFit (c : Chip) (core n : Nat) : Option Nat :=
  let gs := c.groupsOn core
  (List.range (c.granCap + 1 - n)).find? fun a => gs.all fun g => g.grans == 0 || n == 0 || a + n ≤ g.first || g.first + g.grans ≤ a

/-- Strands of a group of `n` that a quarter takes from starting quarter `F` (R116). -/
def strandsIn (n F q : Nat) : Nat := ((List.range n).filter fun s => (F + s) % 4 == q).length

/-- The starting quarter and the local store run of a group of `n` strands on a core, if it fits (R116). -/
def Chip.groupFit (c : Chip) (core n : Nat) (f : Foot) : Option (Nat × Nat) :=
  match if c.inUse core then c.localFit core f.grans else none with
  | none => none
  | some first =>
    let p := (c.core core).rot
    (((List.range 4).map fun i => (p + i) % 4).find? fun F =>
      (List.range 4).all fun q => c.fitsQuarter core q (strandsIn n F q) f).map fun F => (F, first)

/-- The blocks of a strand placed in a quarter: the lowest register's first (R110). -/
def Foot.blocks (f : Foot) (q : Nat) : List Block :=
  List.replicate (min f.regs 256 / 8) { cold := false, quarter := q } ++ List.replicate f.cold { cold := true, quarter := q }

/-- Resources have come free on some dies. -/
def Chip.noteFreedAll (c : Chip) (dies : List Nat) : Chip := dies.foldl Chip.noteFreed c

/-! ### Tokens and quotas -/

/-- Every strand of a die's pool and its overflow storage, in order (R76). -/
def Chip.poolOf (c : Chip) (die : Nat) : List NewStrand := Sparse.getD c.pools die [] ++ Sparse.getD c.overflows die []

/-- Every pool entry of the device. -/
def Chip.allPools (c : Chip) : List NewStrand := (List.range Config.dies).flatMap c.poolOf

/-- Tokens of a context's strands that have not exited (R114). -/
def Chip.tokens (c : Chip) (ctx : Nat) : List Nat :=
  ((c.strands.filter fun x => x.2.ctx == ctx && !x.2.isHandler && !x.2.exited).map fun x => x.2.token) ++
  ((c.allPools.filter fun n => n.ctx == ctx).map fun n => n.token) ++
  (match Sparse.get? c.saved ctx with
    | some s => (s.strands.map fun x => x.2.token) ++ s.pools.flatMap fun x => x.2.map fun n => n.token
    | none => [])

/-- The lowest free token of a context (R114). -/
def Chip.freshToken (c : Chip) (ctx : Nat) : Nat :=
  let used := c.tokens ctx
  leastFree used 1 (used.length + 1)

/-- Whether a strand is one that SPAWNQ counts: spawned, or an evaluator (R39, R157). -/
def StrandKind.counted : StrandKind → Bool
  | .spawned | .evaluator _ => true
  | _ => false

/-! ### What Commit has still to create (R49, R76, R409) -/

/-- The buffered work of every strand. -/
def Chip.buffered (c : Chip) : List CommitOp := c.strands.flatMap fun x => x.2.buffer.map fun e => e.op

/-- The strand that a buffered SPAWN or SPAWND will create, with its count. -/
def CommitOp.spawns : CommitOp → Option (NewStrand × Nat)
  | .spawn n _ => some (n, 0)
  | .spawnd n count _ => some (n, count)
  | _ => none

def Chip.bufferedSpawns (c : Chip) : List (NewStrand × Nat) := c.buffered.filterMap CommitOp.spawns

/-- The key of a node of a context (R407). -/
def nodeKey (ctx index : Nat) : Nat := ctx * 2 ^ 18 + index

/-- The valid node that a handle names for a strand's context (R408): its key. -/
def Chip.nodeOf (c : Chip) (ctx : Nat) (h : W64) : Option (Nat × Node) :=
  let key := nodeKey ctx (bits h 0 18).toNat
  if bits h 40 24 != (0 : BitVec 24) || (bits h 34 6).toNat != ctx then none
  else
    match Sparse.get? c.nodes key with
    | none => none
    | some n => if n.gen = (bits h 18 16).toNat then some (key, n) else none

/-- Buffered SIGNALs of a node. -/
def Chip.bufferedSignals (c : Chip) (ctx key : Nat) : Nat :=
  (c.buffered.filter fun o => match o with
    | .signal h => (c.nodeOf ctx h).any fun x => x.1 == key
    | _ => false).length

/-- Pool places of a die that buffered SPAWNs, SPAWNDs and SIGNALs will take. -/
def Chip.poolClaims (c : Chip) (die : Nat) : Nat :=
  (c.bufferedSpawns.filter fun x => x.1.die == die && x.2 == 0).length +
    (c.nodes.filter fun x => x.2.strand.die == die && decide (x.2.count ≤ c.bufferedSignals x.2.strand.ctx x.1)).length

/-- Whether the node store has a place, past those that buffered SPAWNDs will take (R405). -/
def Chip.nodeRoom (c : Chip) : Bool :=
  decide (c.nodes.length + (c.bufferedSpawns.filter fun x => x.2 != 0).length < Config.nodeEntries)

/-- Spawned strands and graph nodes of a context that are outstanding (R39, R49), with those that Commit has still to create. -/
def Chip.spawnCount (c : Chip) (ctx : Nat) : Nat :=
  (c.bufferedSpawns.filter fun x => x.1.ctx == ctx).length +
  (c.strands.filter fun x => x.2.ctx == ctx && x.2.kind.counted && !x.2.exited).length +
  (c.allPools.filter fun n => n.ctx == ctx).length + (c.nodes.filter fun x => x.2.strand.ctx == ctx).length

/-- Whether a context is at SPAWNQ (R49); 0 means no quota. -/
def Chip.atSpawnQ (c : Chip) (ctx : Nat) : Bool :=
  match c.ctx ctx with
  | none => false
  | some x => x.spawnQ != 0 && decide (x.spawnQ ≤ c.spawnCount ctx)

/-- Whether a die's pool or its overflow storage has a place (R76), past those that buffered work will take. -/
def Chip.poolRoom (c : Chip) (die : Nat) : Bool :=
  decide ((c.poolOf die).length + c.poolClaims die < Config.poolEntries + Config.overflowEntries)

/-- Put a die's pool entries back, those past the pool's places in overflow storage (R76). -/
def Chip.setPool (c : Chip) (die : Nat) (xs : List NewStrand) : Chip :=
  { c with pools := Sparse.set c.pools die (xs.take Config.poolEntries),
           overflows := Sparse.set c.overflows die (xs.drop Config.poolEntries) }

/-- An entry enters before the first entry of its context that orders after it. -/
def insertPool (n : NewStrand) : List NewStrand → List NewStrand
  | [] => [n]
  | x :: xs => if x.ctx = n.ctx && identLt n.ident x.ident then n :: x :: xs else x :: insertPool n xs

/-- A strand enters its die's pool (R76): at the end, or in identifier order in a deterministic context. -/
def Chip.enterPool (c : Chip) (n : NewStrand) : Chip :=
  c.setPool n.die (if c.isDet n.ctx then insertPool n (c.poolOf n.die) else c.poolOf n.die ++ [n])

/-! ### Records in memory -/

/-- A 64-byte record as its words of 64 bits. -/
def wordAt (bs : List Byte) (i : Nat) : W64 := BitVec.ofNat 64 (leNat ((bs.drop (8 * i)).take 8))

/-- Footprint fields of a record of R113 or R156 and the reserved bits of its first 128 bits. -/
def Chip.recordFootOk (c : Chip) (bs : List Byte) : Bool :=
  let w := wordAt bs 0
  (bits w 0 22 : BitVec 22) == 0 && (bits w 47 17 : BitVec 17) == 0 && wordAt bs 1 == 0 &&
    (Foot.ofWord w).inRange && c.fitsEmpty 1 (Foot.ofWord w)

/-- Whether a bud record passes the owner's checks (R156, R161). -/
def Chip.budRecordOk (c : Chip) (bs : List Byte) : Bool :=
  let w2 := wordAt bs 2
  c.recordFootOk bs && (bits w2 2 5 : BitVec 5) == 0 && (bits w2 16 48 : BitVec 48) == 0 && (bits w2 14 2 : BitVec 2) != 3 &&
    (bits (wordAt bs 3) 0 4 : BitVec 4) == 0 && wordAt bs 4 == 0 && wordAt bs 6 == 0 && wordAt bs 7 == 0

/-- Whether a spawn record passes the checks of R113, for a strand whose partition has the dies `dies`. -/
def Chip.spawnRecordOk (c : Chip) (dies : List Nat) (bs : List Byte) : Bool :=
  let w2 := wordAt bs 2
  let hint := (bits w2 14 2).toNat
  c.recordFootOk bs && (bits w2 2 10 : BitVec 10) == 0 && (bits w2 16 16 : BitVec 16) == 0 &&
    (bits (wordAt bs 3) 0 4 : BitVec 4) == 0 && (hint != 3 || dies.contains (bits w2 12 2).toNat)

end Sys2Proof.Machine
end

