-- ==== Sys2Proof/Machine/MemForms.lean ====
section
/-! DEFINITION. The forms of memory and cell instructions (18_isa_map_memory_cell R373, R374, R379, R382 to R388; 16_isa_control_scalar
R330): what their fields may hold, the accesses of a lane, and where loaded bytes go. -/

namespace Sys2Proof.Machine

/-- A memory instruction whose ET, SIZE, ORD and AUX conditions are `other`. -/
def memSpec (op : Nat) (f : Frame) (ords : List Nat) (other : Bool) : OpSpec :=
  { OpSpec.base op with a := .addrBase, b := .addrIndex, typed := true, other := other && ords.contains f.ord }

/-- A vector destination at a size. -/
def FieldSpec.loaded (size : Nat) : FieldSpec := FieldSpec.vec (dataRegs size)

/-- VLD and VLDA (R378, R380). -/
def vldSpec (op : Nat) (ords : List Nat) (f : Frame) : OpSpec :=
  { memSpec op f ords (dataTypeOk f.size f.et) with d := .loaded f.size }

/-- VST. -/
def vstSpec (f : Frame) : OpSpec := { memSpec 0x201 f [0, 2] (dataTypeOk f.size f.et) with c := .data f.size }

/-- Types of a block access (R379). -/
def blockTypeOk (f : Frame) : Bool := decide (f.aux ≤ 7) && f.size == 2 && decide (f.et.width ≤ 32)

/-- `n` consecutive registers of a block access. -/
def FieldSpec.block (f : Frame) : FieldSpec := { FieldSpec.vec (if f.aux ≤ 7 then f.aux + 1 else 1) with align := 1 }

/-- The fields of a block access's base and index. -/
def blockSpec (op : Nat) (f : Frame) (ords : List Nat) : OpSpec :=
  { OpSpec.base op with a := FieldSpec.scalar.orNone, b := FieldSpec.scalar.orZero.orNone, typed := true, aux := true,
                        other := blockTypeOk f && ords.contains f.ord }

def vldbSpec (f : Frame) : OpSpec := { blockSpec 0x202 f [0, 1] with d := .block f }
def vstbSpec (f : Frame) : OpSpec := { blockSpec 0x203 f [0, 2] with c := .block f }

/-- SLD and SST (R330): AUX that is not 0 is a bad operand. -/
def scalarMemOk (f : Frame) : Bool :=
  decide (f.size ≤ 3) && f.aux == 0 && (f.et == .i64 || (f.et == .n32 && decide (f.size ≤ 2)))
def scalarMemSpec (op : Nat) (f : Frame) (ords : List Nat) : OpSpec :=
  { OpSpec.base op with a := FieldSpec.scalar.orNone, b := FieldSpec.scalar.orZero.orNone, typed := true, aux := true,
                        other := scalarMemOk f && ords.contains f.ord }
def sldSpec (f : Frame) : OpSpec := { scalarMemSpec 0x073 f [0, 1] with d := .scalar }
def sstSpec (f : Frame) : OpSpec := { scalarMemSpec 0x074 f [0, 2] with c := .scalar }

/-! ### Accesses -/

/-- The base of a block access for a half (R379). -/
def blockBase (t : Strand) (f : Frame) (h : Nat) : W64 :=
  let idx : W64 := (bits (sVal t h f.b) 0 32 : W32).signExtend 64
  sVal t h f.a + (idx <<< f.xs) + f.imm.signExtend 64

/-- The accesses of lane `l` of a block of `n` registers. -/
def blockAccs (t : Strand) (f : Frame) (n l : Nat) : List (W64 × Nat) :=
  let b := blockBase t f (t.half l)
  (List.range n).map fun r => (b + BitVec.ofNat 64 (512 * r + 4 * (l - 64 * t.half l)), 4)

/-- The access of lane `l` (R375). -/
def laneAccs (t : Strand) (f : Frame) (l : Nat) : List (W64 × Nat) := [(address t f l, 2 ^ f.size)]

/-- Whether loaded bytes are sign-extended (R374, R330). -/
def signedLoad (et : ElemType) : Bool := et == .i32 || et == .i64

/-! ### Loads -/

/-- A load that writes vector registers: its instruction and checks, whether it is a block, and whether it delivers later (R380). -/
structure LoadForm where
  i     : Instr
  f     : Frame
  sp    : OpSpec
  block : Bool
  late  : Bool
  deriving DecidableEq, Repr

def vldForm (f : Frame) : LoadForm := { i := .vld f, f := f, sp := vldSpec 0x200 [0, 1] f, block := false, late := false }
def vldbForm (f : Frame) : LoadForm := { i := .vldb f, f := f, sp := vldbSpec f, block := true, late := false }
def vldaForm (f : Frame) : LoadForm := { i := .vlda f, f := f, sp := vldSpec 0x204 [0] f, block := false, late := true }

/-- The form of a vector load. -/
def loadForm : Instr → Option LoadForm
  | .vld f => some (vldForm f)
  | .vldb f => some (vldbForm f)
  | .vlda f => some (vldaForm f)
  | _ => none

/-- The accesses of a lane, each with where its bytes go. -/
def LoadForm.accs (o : LoadForm) (t : Strand) (l : Nat) : List ((W64 × Nat) × LoadDest) :=
  if o.block then (blockAccs t o.f (o.f.aux + 1) l).zipIdx.map fun x => (x.1, .vec (vNum o.f.d + x.2) l 4 false)
  else (laneAccs t o.f l).map fun x => (x, .vec (vNum o.f.d) l x.2 (signedLoad o.f.et))

/-- The registers that a load writes. -/
def LoadForm.dests (o : LoadForm) : List Nat := o.f.d.regs (if o.block then o.f.aux + 1 else dataRegs o.f.size)

end Sys2Proof.Machine
end

