-- ==== Sys2Proof/Machine/Cells.lean ====
section
/-! DEFINITION. The owner's cell state machine (07_cell R156 to R164), how a load that waits on cells ends (05_group_strand R124), and the
landing of asynchronous producers (R121, R163, R380). -/

namespace Sys2Proof

/-- The current behaviour level (R88). -/
def Firmware.level (f : Firmware) : Nat := f.errata.foldl (fun m e => max m e.fixLevel) 0

end Sys2Proof

namespace Sys2Proof.Machine

/-! ### Producers -/

/-- Whether something of a producer has still to land: a waiter, or a VLDA's delivery. -/
def Chip.pending (c : Chip) (prod : Nat) : Bool := (c.waiters.any fun w => w.prod == prod) || (c.vldas.any fun v => v.id == prod)

/-- Whether an older load of a strand has deferred lanes that have not landed (R229). -/
def Chip.defersLoad (c : Chip) (sid : Nat) : Bool := c.waiters.any fun w => w.sid == sid

/-- Whether a register waits for a producer. -/
def RegFill.awaits (x : RegFill) (prod : Nat) : Bool :=
  match x with
  | .inflight _ p => p == prod
  | _ => false

/-- A word of a producer lands in a lane: only where the register still waits for it (R121). -/
def Strand.landWord (t : Strand) (prod reg lane : Nat) (v : W32) : Strand :=
  let r := t.vreg reg
  if r.fill.awaits prod then t.setVreg reg { r with lanes := putLane r.lanes lane v } else t

/-- Bytes of a producer land. -/
def Strand.landFor (t : Strand) (prod : Nat) (d : LoadDest) (bs : List Byte) : Strand :=
  match d with
  | .vec reg lane _ signed =>
    let v := extendBytes signed 32 bs
    (List.range ((bs.length + 3) / 4)).foldl (fun t j => t.landWord prod (reg + j) lane (BitVec.ofNat 32 (v / 2 ^ (32 * j)))) t
  | .scalar reg _ signed => t.setSreg reg (BitVec.ofNat 64 (extendBytes signed 64 bs))

/-- Every register that waits for a producer becomes full; a strand that waits for a register looks again (R108). -/
def Strand.fillFor (t : Strand) (prod : Nat) : Strand :=
  { t with vregs := t.vregs.map fun x => if x.2.fill.awaits prod then (x.1, { x.2 with fill := .full }) else x,
           status := if t.status = .waiting .emptyReg then .ready else t.status }

/-- The producer of an entry's destination lanes. -/
def CommitEntry.prod (e : CommitEntry) : Option Nat :=
  match e.op with
  | .atoms _ (some (_, p)) => some p
  | .budRead _ p => some p
  | _ => none

/-- Whether a strand's buffer holds an entry that delivers for a producer (R169, R237). -/
def Strand.buffersProd (t : Strand) (prod : Nat) : Bool := t.buffer.any fun e => e.prod == some prod

/-- An acquire load whose deferred lanes have landed is complete (R227). -/
def Chip.endAcquire (c : Chip) (sid prod : Nat) : Chip :=
  match c.strand sid with
  | none => c
  | some t =>
    match t.acq with
    | some (scope, p) => if p = prod then (c.setStrand sid { t with acq := none }).acquire t.core t.ctx scope else c
    | none => c

/-- A producer whose last lane has landed fills its registers. -/
def Chip.settle (c : Chip) (sid prod : Nat) : Chip :=
  if c.pending prod || ((c.strand sid).map fun t => t.buffersProd prod).getD false then c
  else (c.updStrand sid fun t => t.fillFor prod).endAcquire sid prod

/-- The lane that loaded bytes belong to. -/
def LoadDest.lane? : LoadDest → Option Nat
  | .vec _ l _ _ => some l
  | .scalar _ _ _ => none

/-- Whether loaded bytes belong to one of some lanes. -/
def LoadDest.inLanes (d : LoadDest) (ls : List Nat) : Bool := ls.any fun l => d.lane? == some l

/-- The deferred reads of some lanes of a load go: those lanes have faulted, so they have no effect (R123, R375). -/
def Chip.dropLanes (c : Chip) (sid prod : Nat) (ls : List Nat) : Chip :=
  if ls.isEmpty then c
  else { c with waiters := (c.waiters.map fun w =>
      if w.sid == sid && w.prod == prod then { w with reads := w.reads.filter fun r => !ls.contains r.lane } else w).filter fun w =>
        !w.reads.isEmpty }

/-! ### How a load ends -/

/-- A destination register of a load before its bytes land: what it held, zero where it was not full (R338); a replay that joins the
producer of its first execution keeps what has landed. -/
def VReg.loadBase (r : VReg) (prod : Option Nat) : VReg :=
  match r.fill, prod with
  | .full, _ => r
  | .inflight _ p, some q => if p = q then r else { r with lanes := 0, fill := .full }
  | _, _ => { r with lanes := 0, fill := .full }

/-- A vector load whose lanes have all answered, apart from deferred ones (R123, R124, R378, R380): the tag and sidecar of its first
execution, the bytes of its lanes that did not fault, and its registers empty while a lane of its producer has still to land. An acquire
load is complete only then; at SCOPE 0 ORD has no effect (R227). -/
def LoadForm.finish (o : LoadForm) (c : Chip) (t : Strand) (sid : Nat) (got : List (LoadDest × List Byte)) (faults : List LaneFault)
    (prod : Option Nat) : Chip × Out :=
  let ds := o.dests
  let bad := faults.map fun x => x.lane
  let got := got.filter fun x => !x.1.inLanes bad
  let c := match prod with
    | some p => c.dropLanes sid p bad
    | none => c
  let ends := match prod with
    | some p => t.buffersProd p
    | none => false
  let t := ds.foldl (fun t r =>
    let x := (t.vreg r).loadBase prod
    t.setVreg r (if t.replay.isSome then x else { x with tag := o.f.et, side := side1 })) t
  let late := o.late && !got.isEmpty
  let t := if late then t else got.foldl (fun t x => t.land x.1 x.2) t
  let p := prod.getD 0
  let c := if late then { c with vldas := c.vldas ++ [{ id := p, sid := sid, items := got }] } else c
  let fill : RegFill := match prod with
    | some p => if c.pending p || ends then .inflight (if c.waiters.any (fun w => w.prod == p) || ends then .bud else .vlda) p else .full
    | none => .full
  let t := ds.foldl (fun t r => t.setVreg r { t.vreg r with fill := fill }) t
  let later := ordAcquires o.f.ord && o.f.scope != 0 && !c.buffers t && (fill != .full)
  let t := if later then { t with acq := some (o.f.scope, p) } else t
  let c := if ordAcquires o.f.ord && !later then c.acquire t.core t.ctx o.f.scope else c
  (c, accessEnd t faults [] (match fill with
    | .inflight _ p => some p
    | _ => none) ends)

/-- SLD at its end (R331): an instruction record, or its bytes. What a bud record gives as its fault is a record in memory: FIELD 11 (R451). -/
def sldFinish (f : Frame) (c : Chip) (t : Strand) (got : List (LoadDest × List Byte)) (faults : List LaneFault) : Chip × Out :=
  match faults with
  | x :: _ => (c, .stop (Trap.instr x.cause (if x.atRec then 11 else c.accessField t x.cause x.va) x.va))
  | [] =>
    let c := if ordAcquires f.ord then c.acquire t.core t.ctx f.scope else c
    (c, retires (got.foldl (fun t x => t.land x.1 x.2) t))

/-- Remove a strand's requests and waiters of a producer. -/
def Chip.dropProd (c : Chip) (sid prod : Nat) : Chip :=
  { c with cellReqs := c.cellReqs.filter fun r => r.sid != sid, waiters := c.waiters.filter fun w => !(w.sid == sid && w.prod == prod) }

/-- Whether a load in progress has all the answers it needs: an SLD stays until its bytes have landed (R331). -/
def Chip.loadReady (c : Chip) (p : LoadProg) : Bool :=
  p.pend == 0 && (match p.instr, p.prod with
    | .sld _, some q => !c.pending q || !p.faults.isEmpty
    | _, _ => true)

/-- End a strand's load in progress once it has its answers. -/
def Chip.tryEndLoad (c : Chip) (sid : Nat) : Chip :=
  match c.strand sid with
  | none => c
  | some t =>
    match t.load with
    | none => c
    | some p =>
      if c.loadReady p then
        match p.instr with
        | .sld f =>
          let c := match p.prod with
            | some q => c.dropProd sid q
            | none => c
          let r := sldFinish f c { t with load := none } p.got p.faults
          r.1.finish sid p.instr [] 0 r.2
        | _ =>
          match loadForm p.instr with
          | none => c
          | some o =>
            let r := o.finish c { t with load := none } sid p.got p.faults p.prod
            r.1.finish sid p.instr (markRegs o.sp o.f) (t.active o.f) r.2
      else c

/-- Whether a buffered bud read of a producer has a lane with reads that its owner has still to answer. -/
def CommitEntry.holdsLane (e : CommitEntry) (prod lane : Nat) : Bool :=
  match e.op with
  | .budRead rs q => q == prod && rs.any fun r => r.lane == lane
  | _ => false

/-- Bytes of a lane of a load of a deterministic context arrive: they land, or wait in the strand's buffer with those of a lane that has other
reads to come, since a lane that then fails has no effect (R375). -/
def Strand.takeBytes (t : Strand) (prod : Nat) (r : CellRead) (bs : List Byte) : Strand :=
  if t.buffer.any fun e => e.holdsLane prod r.lane then
    { t with buffer := t.buffer.map fun e => if e.holdsLane prod r.lane then { e with got := e.got ++ [(r.dest, bs)] } else e }
  else t.landFor prod r.dest bs

/-- A woken waiter's bytes reach its load (R163): one in progress, or the registers that wait for it. -/
def Chip.wake (c : Chip) (w : Waiter) (cellBytes : List Byte) : Chip :=
  let part (r : CellRead) : List Byte :=
    (cellBytes.drop r.off).take (match r.dest with
      | .vec _ _ n _ => n
      | .scalar _ n _ => n)
  match c.strand w.sid with
  | none => c
  | some t =>
    match t.load with
    | some p =>
      if p.prod == some w.prod then
        (c.setStrand w.sid { t with load := some { p with got := p.got ++ w.reads.map fun r => (r.dest, part r) } }).tryEndLoad w.sid
      else (c.setStrand w.sid (w.reads.foldl (fun t r => t.takeBytes w.prod r (part r)) t)).settle w.sid w.prod
    | none => (c.setStrand w.sid (w.reads.foldl (fun t r => t.takeBytes w.prod r (part r)) t)).settle w.sid w.prod

/-! ### Openings -/

/-- The opening entry of a cell: by context and canonical address, or by where the cell lies (R159). -/
def Chip.opening (c : Chip) (ctx : Nat) (cell : W64) (key : Nat) : Option Opening :=
  match c.openings.find? fun o => o.ctx == ctx && o.cell == cell with
  | some o => some o
  | none => c.openings.find? fun o => o.key == key

/-- Wait table entries of a die in use, by all contexts or by one (R159, R49). -/
def Chip.waitUsed (c : Chip) (die : Nat) : Nat :=
  (c.openings.filter fun o => o.die == die).length + (c.waiters.filter fun w => w.die == die).length
def Chip.waitUsedBy (c : Chip) (die ctx : Nat) : Nat :=
  (c.openings.filter fun o => o.die == die && o.ctx == ctx).length + (c.waiters.filter fun w => w.die == die && w.ctx == ctx).length

/-- Whether a die's wait table and the context's WAITQ have `n` entries free (R49, R161). -/
def Chip.waitRoom (c : Chip) (die ctx n : Nat) : Bool :=
  let q := ((c.ctx ctx).map fun x => x.waitQ).getD 0
  let q := if q = 0 then Config.waitEntries else q
  decide (c.waitUsed die + n ≤ Config.waitEntries) && decide (c.waitUsedBy die ctx + n ≤ q)

/-- The salt of an evaluator (R33). -/
def cellSalt (cell : W64) : W32 := (bits cell 54 3 : BitVec 3) ++ (bits cell 4 29 : BitVec 29)

/-- The evaluator that a bud read creates (R157, R158): `o` is the bud's owner die, `t` the strand whose load opens it. -/
def evaluatorOf (level : Nat) (det : Bool) (t : Strand) (o : Nat) (cell rec arg : W64) (bs : List Byte) (token : Nat) : NewStrand :=
  let foot := Foot.ofWord (wordAt bs 0)
  let w2 := wordAt bs 2
  let place := if det then 0 else (bits w2 14 2).toNat
  { ctx := t.ctx, kind := .evaluator cell, pc := wordAt bs 3, args := [cell, arg, rec], regs := foot.regs, lookahead := foot.look,
    granules := foot.grans, maps := foot.maps, cls := (bits w2 0 2).toNat, salt := cellSalt cell, stream := wordAt bs 5, isarev := 4,
    blevel := level, compat := false, token := token, parent := 0, chain := [token], depth := 1, maxDepth := 1 + (bits w2 7 3).toNat,
    ident := t.ident ++ [t.ordinal], root := t.root, launch := none, group := 0, coords := { base := 0, levels := [], pod := 0 },
    die := if place = 0 then o else t.core / Config.coresPerDie, anyDie := place == 2,
    wantCore := if place = 1 then some t.core else none, retry := (bits w2 10 4).toNat, tried := none }

/-- What a cell's owner answers a load lane. -/
inductive CellAns
  | bytes (bs : List Byte)
  | deferred
  | refused
  | fault (cause : Cause) (va : W64)
  | badRecord (cause : Cause) (va : W64)
  deriving DecidableEq, Repr

/-- The lane fault that an answer leaves in a lane, if it is one. -/
def CellAns.laneFault (a : CellAns) (lane : Nat) : Option LaneFault :=
  match a with
  | .fault cause va => some { lane := lane, cause := cause, va := va }
  | .badRecord cause va => some { lane := lane, cause := cause, va := va, atRec := true }
  | _ => none

/-- The address that a read of a cell accesses, as its instruction has it: an owner 6 one goes by the short form again (R206). -/
def CellRead.va (r : CellRead) : W64 :=
  let va := r.cell + BitVec.ofNat 64 r.off
  if r.short then vaWithOwn va 6 else va

/-- The bytes of a read. -/
def CellRead.len (r : CellRead) : Nat :=
  match r.dest with
  | .vec _ _ n _ => n
  | .scalar _ n _ => n

/-- FAULTVA of a read that its cell refuses: the cell's address (R248), but the first faulting byte for SLD (R331). -/
def CellRead.faultVa (r : CellRead) : W64 :=
  match r.dest with
  | .vec _ _ _ _ => r.cell
  | .scalar _ _ _ => r.cell + BitVec.ofNat 64 r.off

/-- The 16 bytes of a cell. -/
def Chip.cellBytes (c : Chip) (x : Xl) : List Byte := c.readPhys x.place (x.pa / 16 * 16) 16

/-- A load instruction's lanes that wait on a cell: one waiter entry for them all (R159). -/
def Chip.joinWaiter (c : Chip) (die ctx : Nat) (cell : W64) (sid prod : Nat) (read : CellRead) : Chip :=
  let mine (w : Waiter) : Bool := w.ctx == ctx && w.cell == cell && w.sid == sid && w.prod == prod
  if c.waiters.any mine then
    { c with waiters := c.waiters.map fun w => if mine w then { w with reads := w.reads ++ [read] } else w }
  else { c with waiters := c.waiters ++ [{ die := die, ctx := ctx, cell := cell, sid := sid, prod := prod, reads := [read] }] }

/-- Whether the lanes of a load need a new waiter entry for a cell. -/
def Chip.needsEntry (c : Chip) (ctx : Nat) (cell : W64) (sid prod : Nat) : Bool :=
  !(c.waiters.any fun w => w.ctx == ctx && w.cell == cell && w.sid == sid && w.prod == prod)

/-- A load lane at an OPENING cell (R161). -/
def Chip.meetOpening (c : Chip) (t : Strand) (sid prod : Nat) (o : Nat) (key : Nat) (read : CellRead) : Chip × CellAns :=
  match c.opening t.ctx read.cell key with
  | none => (c, .fault .protection read.faultVa)
  | some e =>
    if e.ctx != t.ctx then (c, .fault .protection read.faultVa)
    else if t.chain.contains e.opener then (c, .fault .selfDependence read.faultVa)
    else if !c.needsEntry t.ctx e.cell sid prod || c.waitRoom o t.ctx 1 then
      (c.joinWaiter e.die t.ctx e.cell sid prod read, .deferred)
    else (c, .refused)

/-- A load lane at a BUD cell (R161): the record's checks, the resources, the opening. A record that cannot be reached, by a
failed peer route too (R223), gives its own address as FAULTVA, as its row states; one that is ill formed, whose row states none, gives the cell's
(DEDUCED, log 88). Owner 6 of a record's address is the die that owns the bud (DEDUCED, log 106). Openings and SPAWNs of a strand share one ordinal
count, which R169 states of evaluators only (DEDUCED, log 113). -/
def Chip.meetBud (c : Chip) (det : Bool) (t : Strand) (sid prod : Nat) (x : Xl) (read : CellRead) : Chip × CellAns :=
  let bs := c.cellBytes x
  let rec_ := wordAt bs 0
  let arg := wordAt bs 1
  let who : Who := { ctx := t.ctx, dies := ((c.ctx t.ctx).map fun y => y.dies).getD [], die := x.owner, local? := none }
  match c.translate who .load 64 rec_ 64 with
  | .trap cause => (c, .badRecord cause rec_)
  | .absent p pa => (c.absent p pa, .badRecord .pageFault rec_)
  | .ok y =>
    if y.down then (c, .badRecord .linkDown rec_)
    else
    let r := c.readXl y 64
    let c := r.1
    if !c.budRecordOk r.2 then (c, .badRecord .badOperand read.faultVa)
    else
      let token := c.freshToken t.ctx
      let n := evaluatorOf c.firmware.level det t x.owner read.cell rec_ arg r.2 token
      if !c.waitRoom x.owner t.ctx 2 || c.atSpawnQ t.ctx || !c.poolRoom n.die then (c, .refused)
      else
        let key := physKey x.place x.pa / 16
        let e : Opening := { die := x.owner, ctx := t.ctx, cell := read.cell, key := key, opener := token, retry := n.retry, root := t.root,
                             told := false }
        let c := c.setTag x.place (x.pa / 16 * 16) tagOpening
        let c := { c with openings := c.openings ++ [e] }.enterPool n
        let c := c.updStrand sid fun u => { u with ordinal := u.ordinal + 1 }
        (c.joinWaiter x.owner t.ctx read.cell sid prod read, .deferred)

/-- A core load lane at a cell's owner (R160, R161): the translation checks, then the tag. -/
def Chip.cellLoad (c : Chip) (det : Bool) (t : Strand) (sid prod : Nat) (read : CellRead) : Chip × CellAns :=
  let va := read.va
  let n := read.len
  match c.translate (c.who t) .load n va n with
  | .trap cause => (c, .fault cause va)
  | .absent p pa => (c.absent p pa, .fault .pageFault va)
  | .ok x =>
    let r := c.readXl x n
    let c := r.1
    if !x.cell then (c, .bytes r.2)
    else
      let tag := c.tagOf x
      if tag = tagValue then (c, .bytes r.2)
      else if tag = tagOpening then c.meetOpening t sid prod x.owner (physKey x.place x.pa / 16) read
      else c.meetBud det t sid prod x read

/-! ### Steps of owners -/

/-- Change a strand's load in progress. -/
def Chip.updLoad (c : Chip) (sid : Nat) (g : LoadProg → LoadProg) : Chip :=
  c.updStrand sid fun t => { t with load := t.load.map g }

/-- The producer of a load in progress, made now if it has none. -/
def Chip.loadProducer (c : Chip) (p : LoadProg) : Chip × Nat :=
  match p.prod with
  | some q => (c, q)
  | none => ({ c with nextId := c.nextId + 1 }, c.nextId)

/-- Take a request off, with its answer, and end the load if it was the last; a refused one waits behind the others. -/
def Chip.answer (c : Chip) (req : CellReq) (prod : Nat) (a : CellAns) : Chip :=
  let gone (c : Chip) : Chip := { c with cellReqs := c.cellReqs.filter fun r => r.id != req.id }
  match a with
  | .refused => { c with cellReqs := (c.cellReqs.filter fun r => r.id != req.id) ++ [{ req with refused := true }] }
  | .bytes bs => ((gone c).updLoad req.sid fun p => { p with pend := p.pend - 1, got := p.got ++ [(req.read.dest, bs)] }).tryEndLoad req.sid
  | .deferred => ((gone c).updLoad req.sid fun p => { p with pend := p.pend - 1, prod := some prod }).tryEndLoad req.sid
  | .fault _ _ | .badRecord _ _ =>
    ((gone c).updLoad req.sid fun p =>
      { p with pend := p.pend - 1,
               faults := if p.faults.any (fun f => f.lane == req.read.lane) then p.faults
                         else p.faults ++ (a.laneFault req.read.lane).toList }).tryEndLoad req.sid

/-- A strand's load can go on only while its context is loaded or running. -/
def Chip.loadOf (c : Chip) (sid : Nat) : Option (Strand × LoadProg) :=
  match c.strand sid with
  | none => none
  | some t =>
    match t.load, c.ctx t.ctx with
    | some p, some x => if x.state == .loaded || x.state == .running then some (t, p) else none
    | _, _ => none

/-- Whether a request is not to wait behind another of its strand: a lane takes its cells in turn (R160), and accesses of ORDERED pages are
performed in the order of lanes, each after the one before it has been (R215; log 94). -/
def Chip.inTurn (c : Chip) (q : CellReq) : Bool :=
  !c.cellReqs.any fun r => r.sid == q.sid && (r.read.lane == q.read.lane || (r.read.ord && q.read.ord)) && decide (r.id < q.id)

/-- OWNER_CELL_LOAD (R161). A lane that has faulted meets no further cell. -/
def Chip.ownerCellLoad (c : Chip) (req : Nat) : Chip :=
  match c.cellReqs.find? fun r => r.id == req && !r.refused with
  | none => c
  | some q =>
    match c.loadOf q.sid with
    | none => c
    | some (t, p) =>
      if !c.inTurn q then c
      else
        match p.faults.find? fun x => x.lane == q.read.lane with
        | some x => c.answer q 0 (.fault x.cause x.va)
        | none =>
          let d := c.loadProducer p
          let a := d.1.cellLoad (c.isDet t.ctx) t q.sid d.2 q.read
          a.1.answer q d.2 a.2

def execOwnerCellLoad (req : Nat) (s : State) : Host.Outcome State Fault Refusal := s.onChip (s.chip.ownerCellLoad req)

/-- LOAD_REISSUE (R160): the lane is on its way to the owner again, where OWNER_CELL_LOAD checks it afresh. -/
def Chip.loadReissue (c : Chip) (req : Nat) : Chip :=
  { c with cellReqs := c.cellReqs.map fun r => if r.id = req then { r with refused := false } else r }

def execLoadReissue (req : Nat) (s : State) : Host.Outcome State Fault Refusal := s.onChip (s.chip.loadReissue req)

/-- VLDA_LAND (R380). -/
def Chip.vldaLand (c : Chip) (op : Nat) : Chip :=
  match c.vldas.find? fun v => v.id == op with
  | none => c
  | some v =>
    let items := (c.vldas.filter fun w => w.id == op).flatMap fun w => w.items
    let c := { c with vldas := c.vldas.filter fun w => w.id != op }
    (c.updStrand v.sid fun t => items.foldl (fun t x => t.landFor op x.1 x.2) t).settle v.sid op

def execVldaLand (op : Nat) (s : State) : Host.Outcome State Fault Refusal := s.onChip (s.chip.vldaLand op)

/-! ### Instructions that may end a quantum -/

/-- The last entry of a buffer with the marks that wait for it. -/
def markLast (marks : List Nat) : List CommitEntry → List CommitEntry
  | [] => []
  | [e] => [{ e with marks := marks }]
  | e :: es => e :: markLast marks es

/-- Whether a memory instruction is a release that waits for deferred lanes of older loads (R164, R227): not within a deterministic
context, where ORD adds no visibility (R237). -/
def Chip.releaseWaits (c : Chip) (t : Strand) (sp : OpSpec) (f : Frame) : Bool :=
  ((ordReleases f.ord && f.scope != 0) || sp.op == 0x261) && !c.buffers t && c.defersLoad c.cur

/-- A memory instruction: its last-read marks wait for Commit where it ends its strand's quantum there, because it has not retired until
Commit has applied it (R125, R169). -/
def State.memInstr (s : State) (i : Instr) (sp : OpSpec) (f : Frame) (body : Chip → Strand → Chip × Out) :
    Host.Outcome State Fault Refusal :=
  match s.chip.strand s.chip.cur with
  | none => .next s
  | some t =>
    match stageA t sp f with
    | some tr => s.onChip (s.chip.finish s.chip.cur i [] 0 (.stop tr))
    | none =>
      if t.awaitsAcquire sp || s.chip.releaseWaits t sp f then s.onChip (s.chip.finish s.chip.cur i [] 0 (.wait t .bud))
      else
        let r := body s.chip t
        match r.2 with
        | .done t' pc ends =>
          if s.chip.buffers t && (ends || t'.metEnd) && !t'.loose.isEmpty then
            let u := { t' with buffer := markLast (markRegs sp f) t'.buffer }
            s.onChip (r.1.finish s.chip.cur i [] (t.active f) (.done u pc ends))
          else s.onChip (r.1.finish s.chip.cur i (markRegs sp f) (t.active f) (.done t' pc ends))
        | o => s.onChip (r.1.finish s.chip.cur i (markRegs sp f) (t.active f) o)

/-- A buffered entry of the executing strand (R236). -/
def Strand.bufferOp (t : Strand) (i : Instr) (act : W128) (op : CommitOp) (cell : Bool := false) : Strand :=
  let before := match t.replay, t.record with
    | some _, some r => r.wrote
    | _, _ => []
  { t with buffer := t.buffer ++ [{ pc := t.pc, instr := i, active := act, op := op, wrote := before, cell := cell,
                                    list := (t.record.map fun r => r.list).getD [] }] }

/-! ### Loads of a strand -/

/-- What the lanes of a load come to at issue: faults, bytes, and reads of cells. -/
structure LoadLanes where
  faults : List LaneFault
  got    : List (LoadDest × List Byte)
  cells  : List CellRead
  deriving DecidableEq, Repr

/-- The checked lanes of a load: each lane's faults, or its accesses with where their bytes go. -/
def LoadForm.check (o : LoadForm) (c : Chip) (t : Strand) : List Nat → Chip × List LaneFault × List (Nat × Reach × LoadDest)
  | [] => (c, [], [])
  | l :: rest =>
    let accs := o.accs t l
    let align := if o.block then 4 else 2 ^ o.f.size
    let r := c.checkLane (c.who t) t.core (c.localGid t) .load o.f.scope align false false (accs.map fun x => x.1)
    let more := o.check r.1 t rest
    match r.2 with
    | .bad cause va => (more.1, { lane := l, cause := cause, va := va } :: more.2.1, more.2.2)
    | .ok rs => (more.1, more.2.1, (rs.zip (accs.map fun x => x.2)).map (fun x => (l, x.1, x.2)) ++ more.2.2)

/-- Whether a load must go to the owner's cell state machine: in a deterministic context a VALUE cell is read at once (R169, R237). -/
def Chip.needsCell (c : Chip) (det : Bool) (r : Reach) : Bool :=
  match r.xl with
  | some x => x.cell && (!det || c.tagOf x != tagValue)
  | none => false

/-- Perform the checked accesses of a load, apart from those that go to an owner's cell state machine. `held` says that one of these is of an
ORDERED page: the later accesses of ORDERED pages then wait behind it (R215). -/
def Chip.readBehind (c : Chip) (det : Bool) (t : Strand) (scope : Nat) (held : Bool) : List (Nat × Reach × LoadDest) → Chip × LoadLanes
  | [] => (c, { faults := [], got := [], cells := [] })
  | (l, r, d) :: rest =>
    if c.needsCell det r || (held && r.ordered) then
      let x := c.readBehind det t scope (held || (!det && r.ordered)) rest
      (x.1, { x.2 with cells := { lane := l, cell := cellOf r.va, off := r.va.toNat % 16, dest := d, short := r.short, ord := r.ordered } ::
                                  x.2.cells })
    else
      let y := c.loadReach t scope r
      let x := y.1.readBehind det t scope held rest
      (x.1, { x.2 with got := (d, y.2) :: x.2.got })

/-- Perform the checked accesses of a load, apart from those that wait for a cell's owner. -/
def Chip.readLanes (c : Chip) (det : Bool) (t : Strand) (scope : Nat) (ws : List (Nat × Reach × LoadDest)) : Chip × LoadLanes :=
  c.readBehind det t scope false ws

/-- Requests to cell owners of a strand's load. -/
def Chip.request (c : Chip) (sid : Nat) (reads : List CellRead) : Chip :=
  reads.foldl (fun c r =>
    { c with nextId := c.nextId + 1, cellReqs := c.cellReqs ++ [{ id := c.nextId, sid := sid, read := r, refused := false }] }) c

/-- The producer that a load's deferred or late lanes join: that of its lane record while a destination still waits for it (R124). -/
def Strand.recordProd (t : Strand) (ds : List Nat) : Option Nat :=
  match t.replay, t.record.bind fun r => r.prod with
  | some _, some p => if ds.any fun d => (t.vreg d).fill.awaits p then some p else none
  | _, _ => none

/-- A vector load (R378 to R380). In a deterministic context the bytes of a lane that reads a bud land once all of its reads have answered
(R375). -/
def LoadForm.out (o : LoadForm) (c : Chip) (t : Strand) : Chip × Out :=
  let act := t.lanesOf o.f
  if act = 0 then (c, retires t)
  else
    match emptyOut t (sourcesState t o.sp o.f) with
    | some x => (c, x)
    | none =>
      let det := c.buffers t
      let checked := o.check c t (lanesIn act)
      let x := checked.1.readLanes det t o.f.scope checked.2.2
      let c := x.1
      let sid := c.cur
      let prod := t.recordProd o.dests
      if x.2.cells.isEmpty && !o.late then o.finish c t sid x.2.got checked.2.1 prod
      else
        let p := match prod with
          | some q => (c, q)
          | none => ({ c with nextId := c.nextId + 1 }, c.nextId)
        if x.2.cells.isEmpty then o.finish p.1 t sid x.2.got checked.2.1 (some p.2)
        else if det then
          let asks := x.2.cells.map fun r => r.lane
          let e : CommitEntry := { pc := t.pc, instr := o.i, active := act, op := .budRead x.2.cells p.2,
                                   got := x.2.got.filter fun y => y.1.inLanes asks }
          o.finish p.1 { t with buffer := t.buffer ++ [e] } sid (x.2.got.filter fun y => !y.1.inLanes asks) checked.2.1 (some p.2)
        else
          let c := p.1.request sid x.2.cells
          (c, .wait { t with load := some { instr := o.i, pc := t.pc, active := act, pend := x.2.cells.length,
                                            prod := if o.late || prod.isSome then some p.2 else none, faults := checked.2.1,
                                            dests := o.dests, got := x.2.got } } .bud)

def execVld (f : Frame) (s : State) : Host.Outcome State Fault Refusal :=
  s.memInstr (.vld f) (vldForm f).sp f fun c t => (vldForm f).out c t
def execVldb (f : Frame) (s : State) : Host.Outcome State Fault Refusal :=
  s.memInstr (.vldb f) (vldbForm f).sp f fun c t => (vldbForm f).out c t
def execVlda (f : Frame) (s : State) : Host.Outcome State Fault Refusal :=
  s.memInstr (.vlda f) (vldaForm f).sp f fun c t => (vldaForm f).out c t

/-- The accesses of SLD and SST: one for each half (R331). -/
def scalarAccs (t : Strand) (f : Frame) : List (Nat × W64 × Nat) := t.halves.map fun h => (h, blockBase t f h, 2 ^ f.size)

/-- Checked accesses of SLD and SST, low half first. FAULTVA is the first faulting byte, of CELL_STORE too (R331). -/
def Chip.checkScalar (c : Chip) (t : Strand) (k : Access) (f : Frame) (writes cells : Bool) :
    List (Nat × W64 × Nat) → Chip × LaneRes
  | [] => (c, .ok [])
  | (_, va, n) :: rest =>
    match c.checkByte (c.who t) t.core (c.localGid t) k f.scope n writes cells va n with
    | (c, .bad x a) => (c, .bad x a)
    | (c, .ok rs) =>
      match c.checkScalar t k f writes cells rest with
      | (c, .ok more) => (c, .ok (rs ++ more))
      | x => x

/-- SLD (R330, R331). An SLD of a bud in a deterministic context is buffered, and waits for its bytes, which an epoch end gives (R52). -/
def sldOut (f : Frame) (c : Chip) (t : Strand) : Chip × Out :=
  match c.checkScalar t .load f false false (scalarAccs t f) with
  | (c, .bad x va) => (c, .stop (Trap.instr x (c.accessField t x va) va))
  | (c, .ok rs) =>
    let det := c.buffers t
    let dests := (scalarAccs t f).map fun x => LoadDest.scalar (halfScalar x.1 (match f.d with
      | .s n => n.val
      | _ => 0)) x.2.2 (signedLoad f.et)
    let x := c.readLanes det t f.scope ((rs.zip dests).map fun y => (0, y.1, y.2))
    if x.2.cells.isEmpty then sldFinish f x.1 t x.2.got []
    else
      let p := x.1.nextId
      let c := { x.1 with nextId := p + 1 }
      let prog : LoadProg := { instr := .sld f, pc := t.pc, active := 0, pend := x.2.cells.length, prod := some p, faults := [], dests := [],
                               got := x.2.got }
      if det then
        let e : CommitEntry := { pc := t.pc, instr := .sld f, active := 0, op := .budRead x.2.cells p }
        (c, .wait { t with buffer := t.buffer ++ [e], load := some prog } .bud)
      else (c.request c.cur x.2.cells, .wait { t with load := some prog } .bud)

def execSld (f : Frame) (s : State) : Host.Outcome State Fault Refusal := s.memInstr (.sld f) (sldSpec f) f fun c t => sldOut f c t

end Sys2Proof.Machine
end

