-- ==== Sys2Proof/Machine/MemInstr.lean ====
section
/-! DEFINITION. Stores, atomics and cell writes of a strand (18_isa_map_memory_cell R375 to R388; 16_isa_control_scalar R330, R331), and the
steps that carry memory traffic on: writes that arrive at owners, write-backs, migration pulls (11_ordering R225, R226; 10_page R218). -/

namespace Sys2Proof.Machine

/-! ### Bytes that a replay writes (R221) -/

/-- Whether a byte was written at the first execution by an index above `l`. -/
def Strand.taken (t : Strand) (l a : Nat) : Bool :=
  match t.replay, t.record with
  | some _, some r => r.wrote.any fun w => decide (l < w.1) && decide (w.2.1.toNat ≤ a) && decide (a < w.2.1.toNat + w.2.2)
  | _, _ => false

/-- The offsets of the first byte and the bytes of each run that a replayed lane still writes, from offset `i` on; `cur` is the run so far. -/
def keptRuns (free : Nat → Bool) : Nat → Nat → List Byte → List Byte → List (Nat × List Byte)
  | _, start, cur, [] => if cur.isEmpty then [] else [(start, cur)]
  | i, start, cur, b :: bs =>
    if free i then keptRuns free (i + 1) (if cur.isEmpty then i else start) (cur ++ [b]) bs
    else if cur.isEmpty then keptRuns free (i + 1) start [] bs
    else (start, cur) :: keptRuns free (i + 1) start [] bs

/-- What index `l` writes of the bytes of an access. -/
def Strand.keeps (t : Strand) (l : Nat) (r : Reach) (bs : List Byte) : List (Reach × List Byte) :=
  if t.replay.isSome then
    (keptRuns (fun i => !t.taken l (r.va.toNat + i)) 0 0 [] bs).map fun x => (r.part x.1 x.2.length, x.2)
  else [(r, bs)]

/-! ### Stores -/

/-- A store: its instruction and checks, and whether it is a block. -/
structure StoreForm where
  i     : Instr
  f     : Frame
  sp    : OpSpec
  block : Bool
  deriving DecidableEq, Repr

def vstForm (f : Frame) : StoreForm := { i := .vst f, f := f, sp := vstSpec f, block := false }
def vstbForm (f : Frame) : StoreForm := { i := .vstb f, f := f, sp := vstbSpec f, block := true }

/-- The accesses of a lane, each with its bytes (R374, R379). -/
def StoreForm.accs (o : StoreForm) (t : Strand) (l : Nat) : List ((W64 × Nat) × List Byte) :=
  if o.block then
    (blockAccs t o.f (o.f.aux + 1) l).zipIdx.map fun x => (x.1, leBytes 4 ((t.vreg (vNum o.f.c + x.2)).lane l).toNat)
  else (laneAccs t o.f l).map fun x => (x, dataBytes t o.f.c x.2 l)

/-- The checked lanes of a store: faults, and each good lane's accesses with their bytes. -/
def StoreForm.check (o : StoreForm) (c : Chip) (t : Strand) : List Nat → Chip × List LaneFault × List (Nat × Reach × List Byte)
  | [] => (c, [], [])
  | l :: rest =>
    let accs := o.accs t l
    let align := if o.block then 4 else 2 ^ o.f.size
    let r := c.checkLane (c.who t) t.core (c.localGid t) .store o.f.scope align true (!c.buffers t) (accs.map fun x => x.1)
    let more := o.check r.1 t rest
    match r.2 with
    | .bad cause va => (more.1, { lane := l, cause := cause, va := va } :: more.2.1, more.2.2)
    | .ok rs => (more.1, more.2.1, (rs.zip (accs.map fun x => x.2)).map (fun x => (l, x.1, x.2)) ++ more.2.2)

/-- The writes of an instruction that no later one of it covers: its accesses have one size and are aligned to it, so two that meet are
at one address, and the highest lane's alone leaves the core (R226, R376). -/
def mergeWrites : List (Nat × Reach × List Byte) → List (Nat × Reach × List Byte)
  | [] => []
  | w :: ws => if ws.any fun x => x.2.1.va == w.2.1.va then mergeWrites ws else w :: mergeWrites ws

/-- Perform the stores of checked lanes, in ascending order of lane (R376). -/
def Chip.storeLanes (c : Chip) (t : Strand) (scope : Nat) (ws : List (Nat × Reach × List Byte)) : Chip :=
  (mergeWrites ws).foldl (fun c w => (t.keeps w.1 w.2.1 w.2.2).foldl (fun c x => c.storeBytes c.cur t.core t.ctx scope x.1 x.2) c) c

/-- The buffered stores of checked lanes. -/
def Strand.storeWrites (t : Strand) (ws : List (Nat × Reach × List Byte)) : List LaneWrite :=
  ws.flatMap fun w => (t.keeps w.1 w.2.1 w.2.2).map fun x => { lane := w.1, va := x.1.va, bytes := x.2 }

/-- What the lanes of a store wrote, for the lane record (R221). -/
def wroteOf (ws : List (Nat × Reach × List Byte)) : List (Nat × W64 × Nat) := ws.map fun w => (w.1, w.2.1.va, w.2.1.n)

/-- A vector store (R378, R379). -/
def StoreForm.out (o : StoreForm) (c : Chip) (t : Strand) : Chip × Out :=
  let act := t.lanesOf o.f
  if act = 0 then (c, retires t)
  else
    match emptyOut t (sourcesState t o.sp o.f) with
    | some x => (c, x)
    | none =>
      let k := o.check c t (lanesIn act)
      if c.buffers t then
        let cell := k.2.2.any fun w => w.2.1.cell
        (k.1, accessEnd (t.bufferOp o.i act (.store (t.storeWrites k.2.2)) cell) k.2.1 (wroteOf k.2.2) none cell)
      else
        let c := if ordReleases o.f.ord then k.1.release k.1.cur t.core t.ctx o.f.scope else k.1
        (c.storeLanes t o.f.scope k.2.2, accessEnd t k.2.1 (wroteOf k.2.2) none false)

def execVst (f : Frame) (s : State) : Host.Outcome State Fault Refusal :=
  s.memInstr (.vst f) (vstForm f).sp f fun c t => (vstForm f).out c t
def execVstb (f : Frame) (s : State) : Host.Outcome State Fault Refusal :=
  s.memInstr (.vstb f) (vstbForm f).sp f fun c t => (vstbForm f).out c t

/-- SST (R330, R331): one access for each half, low half first; a fault is an instruction record with the FIELD of its base (R451). -/
def sstOut (f : Frame) (c : Chip) (t : Strand) : Chip × Out :=
  let accs := scalarAccs t f
  match c.checkScalar t .store f true (!c.buffers t) accs with
  | (c, .bad x va) => (c, .stop (Trap.instr x (c.accessField t x va) va))
  | (c, .ok rs) =>
    let ws := (rs.zip accs).map fun x => (x.2.1, x.1, leBytes x.2.2.2 ((sVal t x.2.1 f.c).toNat % 2 ^ (8 * x.2.2.2)))
    if c.buffers t then (c, accessEnd (t.bufferOp (.sst f) 0 (.store (t.storeWrites ws))) [] [] none (ws.any fun w => w.2.1.cell))
    else
      let c := if ordReleases f.ord then c.release c.cur t.core t.ctx f.scope else c
      (c.storeLanes t f.scope ws, retires t)

def execSst (f : Frame) (s : State) : Host.Outcome State Fault Refusal := s.memInstr (.sst f) (sstSpec f) f fun c t => sstOut f c t

/-! ### Atomics -/

/-- The operation that POLOP names (R302). -/
def atomOpOf (n : Nat) : AtomOp :=
  match n with
  | 0 => .add | 1 => .min | 2 => .max | 3 => .minu | 4 => .maxu | 5 => .and | 6 => .or | 7 => .xor | 8 => .xchg | 9 => .fadd
  | 10 => .fmin | _ => .fmax

/-- Whether an atomic operation takes a type (R382). -/
def atomTypeOk (n : Nat) (et : ElemType) : Bool :=
  let int := et == .i32 || et == .n32 || et == .i64
  if n ≤ 4 then int
  else if n ≤ 7 then int || et == .b32
  else if n = 8 then int || et == .f32 || et == .f64 || et == .b32
  else et == .f32 || et == .f64

/-- Whether SIZE suits a type: 2 for 32 bits, 3 for 64 (R382). -/
def atomSizeOk (size : Nat) (et : ElemType) : Bool := (size == 2 && et.width == 32) || (size == 3 && et.width == 64)

/-- Whether the operation rounds stochastically: by MODE.RND alone, since RM 6 is refused (R382). -/
def atomDraws (t : Strand) (f : Frame) : Bool := t.rmOf f.rm == rmSr

/-- VATOM and VATOMR (R382). -/
def vatomSpec (op : Nat) (f : Frame) : OpSpec :=
  { memSpec op f [0, 1, 2, 3] (atomTypeOk f.polop f.et && atomSizeOk f.size f.et && !(f.polop == 9 && f.rm == 6)) with
    c := .data f.size, rounds := f.polop == 9 }

/-- VCAS (R384). -/
def vcasSpec (f : Frame) : OpSpec :=
  { memSpec 0x207 f [0, 1, 2, 3] ((f.et == .b32 || f.et == .i32 || f.et == .n32 || f.et == .f32 || f.et == .i64 || f.et == .f64)
      && atomSizeOk f.size f.et) with d := .loaded f.size, c := .data f.size }

/-- An atomic: its instruction and checks, whether it has a destination, and whether it is VCAS. -/
structure AtomForm where
  i    : Instr
  f    : Frame
  sp   : OpSpec
  dest : Bool
  cas  : Bool
  deriving DecidableEq, Repr

def vatomForm (f : Frame) : AtomForm := { i := .vatom f, f := f, sp := vatomSpec 0x205 f, dest := false, cas := false }
def vatomrForm (f : Frame) : AtomForm :=
  { i := .vatomr f, f := f, sp := { vatomSpec 0x206 f with d := .loaded f.size }, dest := true, cas := false }
def vcasForm (f : Frame) : AtomForm := { i := .vcas f, f := f, sp := vcasSpec f, dest := true, cas := true }

/-- Whether an atomic draws. -/
def AtomForm.draws (o : AtomForm) (t : Strand) : Bool := !o.cas && o.f.polop == 9 && atomDraws t o.f

/-- The atomic of a lane, at its canonical address. -/
def AtomForm.lane (o : AtomForm) (seed : W64) (t : Strand) (l : Nat) (va : W64) : LaneAtom :=
  let n := 2 ^ o.f.size
  { lane := l, va := va, n := n, x := BitVec.ofNat 64 (leNat (dataBytes t o.f.c n l)),
    kind := if o.cas then .cas (BitVec.ofNat 64 (leNat (dataBytes t o.f.d n l)))
            else .op (atomOpOf o.f.polop) o.f.et (t.rmOf o.f.rm) (if o.draws t then genZ (t.drawBlock seed 1 l 0) 0 else 0) }

/-- The checked lanes of an atomic. -/
def AtomForm.check (o : AtomForm) (c : Chip) (t : Strand) : List Nat → Chip × List LaneFault × List (Nat × Reach)
  | [] => (c, [], [])
  | l :: rest =>
    let r := c.checkLane (c.who t) t.core (c.localGid t) .atomic o.f.scope (2 ^ o.f.size) true (!c.buffers t) (laneAccs t o.f l)
    let more := o.check r.1 t rest
    match r.2 with
    | .bad cause va => (more.1, { lane := l, cause := cause, va := va } :: more.2.1, more.2.2)
    | .ok rs =>
      if o.draws t && t.drawsOut 1 l 1 then (more.1, { lane := l, cause := .streamEnd, va := 0 } :: more.2.1, more.2.2)
      else (more.1, more.2.1, rs.map (fun x => (l, x)) ++ more.2.2)

/-- Carry out the atomics of checked lanes, in ascending order of lane (R383): at once, with the old value, where nothing may overtake
them, else on their way to their owners, from where the old value comes to register `dest` (R228). -/
def Chip.atomLanes (c : Chip) (t : Strand) (dest : Option Nat) (acq : Bool) : List (LaneAtom × Reach) → Chip × List (Nat × W64)
  | [] => (c, [])
  | (a, r) :: rest =>
    match r.xl with
    | none => c.atomLanes t dest acq rest
    | some x =>
      if x.prompt acq then
        let y := c.atomNow t.core t.ctx x a
        let z := y.1.atomLanes t dest acq rest
        (z.1, (a.lane, y.2) :: z.2)
      else (c.atomLater c.cur t.core t.ctx x a (dest.map fun d => .vec d a.lane a.n false)).atomLanes t dest acq rest

/-- Old values in the lanes of a destination. -/
def Strand.putOld (t : Strand) (d n : Nat) (olds : List (Nat × W64)) : Strand :=
  olds.foldl (fun t x => t.landVec d x.1 false (leBytes n x.2.toNat)) t

/-- The destination registers of an atomic on its first execution and on a replay, with their tag (R338, R383). -/
def AtomForm.destBase (o : AtomForm) (t : Strand) (prod : Option Nat) : Strand :=
  if o.dest then
    (o.f.d.regs (dataRegs o.f.size)).foldl (fun t r =>
      let x := (t.vreg r).loadBase prod
      t.setVreg r (if t.replay.isSome then x else { x with tag := o.f.et, side := side1 })) t
  else t

/-- The states of an atomic's sources; VCAS reads D too (R384). -/
def AtomForm.sources (o : AtomForm) (t : Strand) : SrcState :=
  srcStates [sourcesState t o.sp o.f, if o.cas then srcState t (o.f.d.regs (dataRegs o.f.size)) false else .ok]

/-- VATOM, VATOMR and VCAS (R383, R384). Results of older atomics that reach the strand meanwhile stand (R228). -/
def AtomForm.out (o : AtomForm) (c : Chip) (t : Strand) : Chip × Out :=
  let act := t.lanesOf o.f
  if act = 0 then (c, retires t)
  else
    match emptyOut t (o.sources t) with
    | some x => (c, x)
    | none =>
      let k := o.check c t (lanesIn act)
      let n := 2 ^ o.f.size
      let atoms := k.2.2.map fun x => (o.lane (c.seed t) t x.1 x.2.va, x.2)
      let drawn (u : Strand) : Strand := if o.draws t then atoms.foldl (fun u x => u.advance 1 x.1.lane 1) u else u
      let t' := drawn t
      let ds := o.f.d.regs (dataRegs o.f.size)
      let cell := k.2.2.any fun x => x.2.cell
      if c.buffers t then
        if o.dest && !atoms.isEmpty then
          let prod := t.recordProd ds
          let p := match prod with
            | some q => (k.1, q)
            | none => ({ k.1 with nextId := k.1.nextId + 1 }, k.1.nextId)
          let t' := o.destBase t' (some p.2)
          let t' := ds.foldl (fun t r => t.setVreg r { t.vreg r with fill := .inflight .commit p.2 }) t'
          (p.1, accessEnd (t'.bufferOp o.i act (.atoms (atoms.map fun x => x.1) (some (vNum o.f.d, p.2))) cell) k.2.1 [] (some p.2) cell)
        else
          (k.1, accessEnd ((o.destBase t' none).bufferOp o.i act (.atoms (atoms.map fun x => x.1) none) cell) k.2.1 [] none cell)
      else
        let c := if ordReleases o.f.ord then k.1.release k.1.cur t.core t.ctx o.f.scope else k.1
        let acq := ordAcquires o.f.ord && o.f.scope != 0
        let r := c.atomLanes t (if o.dest then some (vNum o.f.d) else none) acq atoms
        let c := if acq then r.1.acquire t.core t.ctx o.f.scope else r.1
        let u := drawn ((c.strand c.cur).getD t)
        (c, accessEnd (if o.dest then (o.destBase u none).putOld (vNum o.f.d) n r.2 else u) k.2.1 [] none false)

def execVatom (f : Frame) (s : State) : Host.Outcome State Fault Refusal :=
  s.memInstr (.vatom f) (vatomForm f).sp f fun c t => (vatomForm f).out c t
def execVatomr (f : Frame) (s : State) : Host.Outcome State Fault Refusal :=
  s.memInstr (.vatomr f) (vatomrForm f).sp f fun c t => (vatomrForm f).out c t
def execVcas (f : Frame) (s : State) : Host.Outcome State Fault Refusal :=
  s.memInstr (.vcas f) (vcasForm f).sp f fun c t => (vcasForm f).out c t

/-! ### VMCAST -/

/-- ROP, SIZE and ET go together (R385). -/
def vmcastOk (f : Frame) : Bool :=
  match f.aux with
  | 0 => (f.size == 2 || f.size == 3) && dataTypeOk f.size f.et
  | 1 => atomTypeOk 0 f.et && atomSizeOk f.size f.et
  | 2 => atomTypeOk 9 f.et && atomSizeOk f.size f.et && f.rm != 6
  | _ => false

def vmcastSpec (f : Frame) : OpSpec :=
  { OpSpec.base 0x208 with a := .scalar, b := .scalar, c := .data f.size, typed := true, aux := true, imm0 := true, rounds := f.aux == 2,
                           other := vmcastOk f && f.xs == 0 }

/-- The checks of a half's list of destinations (R385), Owner's first (R205), and its bases as they stand at issue. -/
def Chip.vmcastList (c : Chip) (t : Strand) (f : Frame) (h : Nat) : Chip × (List W64 ⊕ Trap) :=
  let list := sVal t h f.a
  let n := (sVal t h f.b).toNat
  if (c.ownerTrap t 3 list).isSome then (c, .inr (Trap.instr .protection 3 list))
  else if vaOwn list != 5 then (c, .inr (Trap.instr .badOperand 3 list))
  else if list.toNat % 8 != 0 then (c, .inr (Trap.instr .misaligned 3 list))
  else if n = 0 || n > 128 then (c, .inr (Trap.instr .badOperand 4 0))
  else
    match c.translate (c.who t) .load 8 list (8 * n) with
    | .trap x => (c, .inr (Trap.instr x 3 list))
    | .absent p pa => (c.absent p pa, .inr (Trap.instr .protection 3 list))
    | .ok x =>
      let r := c.readXl x (8 * n)
      let bs := t.overlay x.va r.2
      (r.1, .inl ((List.range n).map fun i => wordAt bs i))

/-- A destination's base for each half: a half whose list is shorter has none. -/
abbrev CastBases := List (Option W64)

/-- The lists of a strand's halves (R93), low half first. Destination `n` of a paired strand is its halves' destinations `n` together, which
share bit `n` of FAULTMASK: a failing lane of one half denies both (DESIGN CHOICE, log 85). -/
def Chip.vmcastLists (c : Chip) (t : Strand) (f : Frame) : Chip × (List CastBases ⊕ Trap) :=
  match c.vmcastList t f 0 with
  | (c, .inr tr) => (c, .inr tr)
  | (c, .inl low) =>
    if t.paired then
      match c.vmcastList t f 1 with
      | (c, .inr tr) => (c, .inr tr)
      | (c, .inl high) => (c, .inl ((List.range (max low.length high.length)).map fun n => [low[n]?, high[n]?]))
    else (c, .inl (low.map fun b => [some b]))

/-- The base of a lane, and its number within its half (R93, R385). -/
def castBase (t : Strand) (bs : CastBases) (l : Nat) : Option W64 := bs.getD (t.half l) none
def halfLane (t : Strand) (l : Nat) : Nat := l - 64 * t.half l

/-- The draws that a lane makes for some destinations that are performed: one for each that its half's list has (R33). -/
def castDraws (t : Strand) (done : List CastBases) (l : Nat) : Nat := (done.filter fun b => (castBase t b l).isSome).length

/-- One access of a destination: its index, lane and translated access. -/
structure CastLane where
  n : Nat
  l : Nat
  r : Reach
  deriving DecidableEq, Repr

/-- The checks of one destination's lanes (R385): its accesses, or the cause of its lowest failing lane with that lane's first faulting byte
(R385, and not R222's lowest destination byte; DEDUCED, log 107). `done` are the destinations performed before it. -/
def Chip.castDest (c : Chip) (t : Strand) (f : Frame) (n : Nat) (bases : CastBases) (draws : Bool) (done : List CastBases) :
    List Nat → Chip × (List CastLane ⊕ LaneFault)
  | [] => (c, .inl [])
  | l :: rest =>
    match castBase t bases l with
    | none => c.castDest t f n bases draws done rest
    | some base =>
    let k : Access := if f.aux = 0 then .store else .atomic
    let va := base + BitVec.ofNat 64 (2 ^ f.size * halfLane t l)
    match c.checkByte (c.who t) t.core (c.localGid t) k 2 (2 ^ f.size) true (!c.buffers t) va (2 ^ f.size) with
    | (c, .bad x a) => (c, .inr { lane := n, cause := x, va := a })
    | (c, .ok rs) =>
      if draws && t.drawsOut 1 l (castDraws t done l + 1) then (c, .inr { lane := n, cause := .streamEnd, va := 0 })
      else
        match c.castDest t f n bases draws done rest with
        | (c, .inl more) => (c, .inl (rs.map (fun r => { n := n, l := l, r := r }) ++ more))
        | x => x

/-- The destinations of a VMCAST: those denied, the lanes of the others, each with the draws that it has made before, and those performed. -/
def Chip.castDests (c : Chip) (t : Strand) (f : Frame) (lanes : List Nat) (draws : Bool) :
    List CastBases → List (Nat × CastBases) → Chip × List LaneFault × List (Nat × CastLane) × List CastBases
  | done, [] => (c, [], [], done)
  | done, (n, bases) :: rest =>
    match c.castDest t f n bases draws done lanes with
    | (c, .inr bad) =>
      let m := c.castDests t f lanes draws done rest
      (m.1, bad :: m.2.1, m.2.2)
    | (c, .inl ok) =>
      let m := c.castDests t f lanes draws (done ++ [bases]) rest
      (m.1, m.2.1, ok.map (fun x => (castDraws t done x.l, x)) ++ m.2.2.1, m.2.2.2)

/-- The bytes of a lane's data. -/
def castBytes (t : Strand) (f : Frame) (l : Nat) : List Byte := dataBytes t f.c (2 ^ f.size) l

/-- The atomic of a lane of a destination; `j` counts the draws that the lane has made before it. -/
def castAtom (seed : W64) (t : Strand) (f : Frame) (draws : Bool) (j : Nat) (x : CastLane) : LaneAtom :=
  { lane := x.n, va := x.r.va, n := 2 ^ f.size, x := BitVec.ofNat 64 (leNat (castBytes t f x.l)),
    kind := .op (if f.aux = 1 then .add else .fadd) f.et (t.rmOf f.rm) (if draws then genZ (t.drawBlock seed 1 x.l j) 0 else 0) }

/-- Perform one lane at its owner, indivisibly (R228): the bytes that no later write of the first execution wrote (R385). -/
def Chip.castOne (c : Chip) (t : Strand) (f : Frame) (draws : Bool) (j : Nat) (x : CastLane) : Chip :=
  match x.r.xl with
  | none => c
  | some xl =>
    let c := ((c.beforeAtom t.core t.ctx x.r.va).drainFor t.core xl.place xl.pa x.r.n).pull xl.mig x.r.n
    let new := if f.aux = 0 then castBytes t f x.l
      else leBytes x.r.n ((castAtom (c.seed t) t f draws j x).value (leNat (c.readPhys xl.place xl.pa x.r.n)))
    (t.keeps x.n x.r new).foldl (fun c y => match y.1.xl with
      | none => c
      | some z => c.writePhys z.place z.pa y.2) c

/-- The lists of a VMCAST as they stood at its issue: a replay reads none again (R385). -/
def Chip.castLists (c : Chip) (t : Strand) (f : Frame) : Chip × (List CastBases ⊕ Trap) :=
  match t.replay, t.record with
  | some _, some r => (c, .inl r.list)
  | _, _ => c.vmcastLists t f

/-- VMCAST (R385). A replay takes the destinations of FAULTMASK with the original active set and the lists read at issue; an empty set
retires at once (R246). -/
def vmcastOut (f : Frame) (c : Chip) (t : Strand) : Chip × Out :=
  let act := match t.replay, t.record with
    | some _, some r => r.orig
    | _, _ => t.active f
  let picked (n : Nat) : Bool := match t.replay with
    | some m => bit m n
    | none => true
  if t.replay == some 0 then (c, retires t)
  else
    match c.castLists t f with
    | (c, .inr tr) => (c, .stop tr)
    | (c, .inl bases) =>
      if act = 0 then (c, retires t)
      else
      match emptyOut t (sourcesState t (vmcastSpec f) f) with
      | some x => (c, x)
      | none =>
        let draws := f.aux == 2 && atomDraws t f
        let dests := (bases.zipIdx.map fun x => (x.2, x.1)).filter fun x => picked x.1
        let k := c.castDests t f (lanesIn act) draws [] dests
        let wrote := k.2.2.1.map fun x => (x.2.n, x.2.r.va, x.2.r.n)
        let u := if draws then (lanesIn act).foldl (fun u l => u.advance 1 l (castDraws t k.2.2.2 l)) t else t
        let t' : Strand := if t.replay.isSome then u else
          { u with record := some { instr := .vmcast f, pc := t.pc, trapped := 0, orig := act, wrote := [], prod := none, list := bases } }
        if c.buffers t then
          let op : CommitOp := if f.aux = 0 then
              .store (t.storeWrites (k.2.2.1.map fun x => (x.2.n, x.2.r, castBytes t f x.2.l)))
            else .atoms (k.2.2.1.map fun x => castAtom (c.seed t) t f draws x.1 x.2) none
          let cell := k.2.2.1.any fun x => x.2.r.cell
          (k.1, accessEnd (t'.bufferOp (.vmcast f) act op cell) k.2.1 wrote none cell)
        else
          let c := if ordReleases f.ord then k.1.release k.1.cur t.core t.ctx f.scope else k.1
          let c := k.2.2.1.foldl (fun c x => c.castOne t f draws x.1 x.2) c
          let c := if ordAcquires f.ord then c.acquire t.core t.ctx f.scope else c
          (c, accessEnd t' k.2.1 wrote none false)

def execVmcast (f : Frame) (s : State) : Host.Outcome State Fault Refusal :=
  s.memInstr (.vmcast f) (vmcastSpec f) f fun c t => vmcastOut f c t

/-- VPREF (R381) has no architectural effect and checks nothing but its encoding. -/
def execVpref (f : Frame) (s : State) : Host.Outcome State Fault Refusal :=
  s.strandOnly (.vpref f)
    { memSpec 0x209 f [0] (f.scope == 0) with typed := false } f retires

/-! ### Cells -/

/-- Cell instructions take SIZE 4 and type b32 (R373, R374). -/
def cellOk (f : Frame) : Bool := f.size == 4 && f.et == .b32

def budstSpec (f : Frame) : OpSpec := { memSpec 0x260 f [0, 2] (cellOk f) with c := { FieldSpec.data 4 with zero := false } }
def budqSpec (f : Frame) : OpSpec := { memSpec 0x262 f [0, 1] (cellOk f) with d := .vec 1 }
def bloomSpec (f : Frame) : OpSpec :=
  { OpSpec.base 0x261 with a := .scalar, c := { FieldSpec.scalar with even := true }, typed := true,
                           other := cellOk f && f.scope == 0 && f.ord == 0 }

/-- Whether a bud record address may stand in a cell (R153, R386). -/
def recordAddrOk (w : W64) : Bool := (bits w 0 6 : BitVec 6) == 0 && (bits w 57 7 : BitVec 7) == 0

/-- Write a cell's bytes and tag (R162). -/
def Chip.plant (c : Chip) (x : Xl) (bs : List Byte) (tag : BitVec 2) : Chip :=
  ((c.pull x.mig 16).writePhys x.place x.pa bs).setTag x.place x.pa tag

/-- Plant a bud in a lane's cell: VALUE and BUD become BUD; OPENING refuses it (R161). -/
def Chip.budstOne (c : Chip) (x : Xl) (bs : List Byte) : Option Chip :=
  let c := c.pull x.mig 16
  if c.tagOf x = tagOpening then none else some (c.plant x bs tagBud)

/-- The checked lanes of BUDST; in a normal context an OPENING cell faults the lane (R386). -/
def checkBudst (f : Frame) (c : Chip) (t : Strand) : List Nat → Chip × List LaneFault × List (Nat × Reach)
  | [] => (c, [], [])
  | l :: rest =>
    let r := c.checkLane (c.who t) t.core (c.localGid t) .plant f.scope 16 true false (laneAccs t f l)
    let more := checkBudst f r.1 t rest
    let bad (cause : Cause) (va : W64) := (more.1, ({ lane := l, cause := cause, va := va } : LaneFault) :: more.2.1, more.2.2)
    match r.2 with
    | .bad cause va => bad cause va
    | .ok rs =>
      let open_ := !c.buffers t && rs.any fun x => match x.xl with
        | some y => r.1.tagOf y == tagOpening
        | none => false
      if open_ then bad .cellStore (cellOf ((rs.head?.map fun x => x.va).getD 0))
      else (more.1, more.2.1, rs.map (fun x => (l, x)) ++ more.2.2)

/-- Whether a lane of BUDST plants its bud: a replayed one does not, where a higher lane has written the cell at the first execution (R221,
R376). -/
def Strand.plants (t : Strand) (f : Frame) (l : Nat) (r : Reach) : Bool := !(t.keeps l r (dataBytes t f.c 16 l)).isEmpty

/-- BUDST (R386). -/
def budstOut (f : Frame) (c : Chip) (t : Strand) : Chip × Out :=
  let act := t.lanesOf f
  if act = 0 then (c, retires t)
  else
    match emptyOut t (sourcesState t (budstSpec f) f) with
    | some x => (c, x)
    | none =>
      if (lanesIn act).any fun l => !recordAddrOk (wordAt (dataBytes t f.c 16 l) 0) then (c, .stop (Trap.instr .badOperand 5 0))
      else
        let k := checkBudst f c t (lanesIn act)
        let ws := (k.2.2.filter fun x => t.plants f x.1 x.2).map fun x => (x.1, x.2, dataBytes t f.c 16 x.1)
        if c.buffers t then
          let cell := !k.2.2.isEmpty
          let op := ws.map fun w => ({ lane := w.1, va := w.2.1.va, bytes := w.2.2 } : LaneWrite)
          (k.1, accessEnd (t.bufferOp (.budst f) act (.budst op) cell) k.2.1 (wroteOf ws) none cell)
        else
          let c := if ordReleases f.ord then k.1.release k.1.cur t.core t.ctx f.scope else k.1
          let c := ws.foldl (fun c w => match w.2.1.xl with
            | none => c
            | some y => (c.budstOne y w.2.2).getD c) c
          (c, accessEnd t k.2.1 (wroteOf ws) none false)

def execBudst (f : Frame) (s : State) : Host.Outcome State Fault Refusal :=
  s.memInstr (.budst f) (budstSpec f) f fun c t => budstOut f c t

/-- BLOOM at the cell's owner (R161, R162): the cell turns VALUE and its waiters wake, or the strand is not the opener. -/
def Chip.bloomAt (c : Chip) (t : Strand) (x : Xl) (bs : List Byte) : Option Chip :=
  let c := c.pull x.mig 16
  let key := physKey x.place x.pa / 16
  match if c.tagOf x = tagOpening then c.opening t.ctx x.va key else none with
  | none => none
  | some e =>
    if e.ctx = t.ctx && e.opener = t.token then
      let woken := c.waiters.filter fun w => w.ctx == e.ctx && w.cell == e.cell
      let c := c.plant x bs tagValue
      let c := { c with openings := c.openings.filter (fun o => !(o.ctx == e.ctx && o.cell == e.cell)),
                        waiters := c.waiters.filter fun w => !(w.ctx == e.ctx && w.cell == e.cell) }
      some (woken.foldl (fun c w => c.wake w bs) c)
    else none

/-- BLOOM (R387): a release at device scope, then the cell's event. With an empty active set it only ends its quantum (R52, R250). -/
def bloomOut (f : Frame) (c : Chip) (t : Strand) : Chip × Out :=
  if t.lanesOf f = 0 then (c, .done t t.nextPc true)
  else
    let va := addressOperand t 0 f
    let bs := dataBytes t f.c 16 0
    match c.checkLane (c.who t) t.core (c.localGid t) .plant 3 16 true false [(va, 16)] with
    | (c, .bad x a) => (c, .stop (Trap.instr x (c.accessField t x a) a))
    | (c, .ok rs) =>
      if c.buffers t then
        (c, .done (t.bufferOp (.bloom f) 0 (.bloom { lane := 0, va := (rs.head?.map fun r => r.va).getD va, bytes := bs })) t.nextPc true)
      else
        match rs.head?.bind fun r => r.xl with
        | none => (c, .stop (Trap.instr .protection 3 va))
        | some x =>
          match (c.release c.cur t.core t.ctx 3).bloomAt t x bs with
          | some c => (c, retires { t with bloomed := true })
          | none => (c, .stop (Trap.instr .cellStore 0 (cellOf x.va)))

def execBloom (f : Frame) (s : State) : Host.Outcome State Fault Refusal :=
  s.memInstr (.bloom f) (bloomSpec f) f fun c t => bloomOut f c t

/-- The tags of checked lanes (R388). -/
def Chip.queryLanes (c : Chip) : List (Nat × Reach) → List (Nat × W32)
  | [] => []
  | (l, r) :: rest =>
    (l, match r.xl with
      | some x => if x.cell then (c.tagOf x).setWidth 32 else 0
      | none => 0) :: c.queryLanes rest

/-- The checked lanes of BUDQ. -/
def checkBudq (f : Frame) (c : Chip) (t : Strand) : List Nat → Chip × List LaneFault × List (Nat × Reach)
  | [] => (c, [], [])
  | l :: rest =>
    let r := c.checkLane (c.who t) t.core (c.localGid t) .look f.scope 16 false false (laneAccs t f l)
    let more := checkBudq f r.1 t rest
    match r.2 with
    | .bad cause va => (more.1, { lane := l, cause := cause, va := va } :: more.2.1, more.2.2)
    | .ok rs => (more.1, more.2.1, rs.map (fun x => (l, x)) ++ more.2.2)

/-- BUDQ (R388). -/
def budqOut (f : Frame) (c : Chip) (t : Strand) : Chip × Out :=
  let act := t.lanesOf f
  if act = 0 then (c, retires t)
  else
    match emptyOut t (sourcesState t (budqSpec f) f) with
    | some x => (c, x)
    | none =>
      let k := checkBudq f c t (lanesIn act)
      let t' := t.writeLanes (vNum f.d) (k.1.queryLanes k.2.2) .n32 side1
      let c := if ordAcquires f.ord then k.1.acquire t.core t.ctx f.scope else k.1
      (c, accessEnd t' k.2.1 [] none false)

def execBudq (f : Frame) (s : State) : Host.Outcome State Fault Refusal :=
  s.memInstr (.budq f) (budqSpec f) f fun c t => budqOut f c t

/-! ### Traffic -/

/-- OWNER_ACCESS (R226): a posted write or atomic arrives at its owner; none overtakes an older one of its core at one byte. -/
def Chip.ownerAccess (c : Chip) (n : Nat) : Chip :=
  match c.posted.find? fun p => p.id == n with
  | none => c
  | some p =>
    if c.posted.any fun q => decide (q.id < n) && q.core == p.core && q.meets p.place p.pa p.len then c
    else c.drainIf fun q => q.id == n

def execOwnerAccess (n : Nat) (s : State) : Host.Outcome State Fault Refusal := s.onChip (s.chip.ownerAccess n)

/-- DIRTY_LINE_WRITE_BACK (R225). -/
def execDirtyLineWriteBack (core ctx : Nat) (va : W64) (evict : Bool) (s : State) : Host.Outcome State Fault Refusal :=
  s.onChip (s.chip.flushRange core ctx (lineOf va) (lineOf va + 64) evict)

/-- The first line of a page whose map bit is 0 (R217), from line `i`, within `fuel` lines. -/
def Chip.absentLine (c : Chip) (m : Mig) (i : Nat) : Nat → Option Nat
  | 0 => none
  | fuel + 1 =>
    if bit ((c.readPhys (.near m.die) (m.rcd + 64 + i / 8) 1).headD 0) (i % 8) then c.absentLine m (i + 1) fuel else some i

/-- The migrating leaf that holds an address of a context. -/
def Chip.migrating (c : Chip) (ctx : Nat) (va : W64) : Option Mig :=
  let o := vaOwn va
  let root := ((c.ctx ctx).map fun x => x.roots.getD o 0).getD 0
  if !bit root 0 || o > 4 then none
  else
    match c.walk o (vaOff va) 3 ((bits root 12 40).toNat * 4096) with
    | .leaf e =>
      let t := dieMemory o (entryAddr e)
      match entryState e, t.1 with
      | 5, .near d =>
        let size := pageBytes (entrySize e)
        if (c.migHeader d t.2 size (bit e 56)).isSome then some { die := d, rcd := t.2, off := 0, size := size } else none
      | _, _ => none
    | _ => none

/-- MIGRATION_PULL (R218): the owner pulls the page's first absent line of its own accord, or sets DONE where none is left. -/
def Chip.migrationPull (c : Chip) (ctx : Nat) (va : W64) : Chip :=
  match c.migrating ctx va with
  | none => c
  | some m =>
    match c.absentLine m 0 (m.size / 64) with
    | none => c.migDone m
    | some i => c.pullLine m i

def execMigrationPull (ctx : Nat) (va : W64) (s : State) : Host.Outcome State Fault Refusal := s.onChip (s.chip.migrationPull ctx va)

end Sys2Proof.Machine
end

