-- ==== Sys2Proof/Machine/Barrier.lean ====
section
/-! DEFINITION. Barrier objects (08_barrier R170 to R177, R398, R399) and binders (11_ordering R230 to R233, R395, R396). -/

namespace Sys2Proof.Machine

/-! ### The barrier object -/

/-- A barrier object (R170): STATUS, PENDBYTES, INITARR, PENDARR and PHASE. -/
structure Bar where
  status : W64
  pend   : Int
  init   : Nat
  arr    : Nat
  phase  : Bool
  deriving DecidableEq, Repr, Inhabited

/-- The object in 32 bytes of local store; reserved bits are ignored (R172). -/
def Bar.ofBytes (bs : List Byte) : Bar :=
  let w1 := wordAt bs 1
  { status := putBits (wordAt bs 3) 5 (0 : BitVec 2), pend := (bits (wordAt bs 2) 8 56 : BitVec 56).toInt,
    init := (bits w1 48 16).toNat, arr := (bits w1 32 16).toNat, phase := bit (wordAt bs 0) 0 }

/-- The 32 bytes of an object; reserved bits are written as zero (R172). -/
def Bar.bytes (b : Bar) : List Byte :=
  leBytes 8 (b2n b.phase) ++ leBytes 8 (b.init % 2 ^ 16 * 2 ^ 48 + b.arr % 2 ^ 16 * 2 ^ 32) ++
    leBytes 8 ((BitVec.ofInt 56 b.pend).toNat * 2 ^ 8) ++ leBytes 8 (b.status.toNat)

/-- The range of PENDBYTES (R170). -/
def pendMin : Int := -(2 ^ 55)
def pendMax : Int := 2 ^ 55 - 1

/-- STATUS bits (R171). -/
def statusCollide : W64 := 1
def statusCellskip : W64 := 2
def statusFault : W64 := 4
def statusOver : W64 := 8
def statusLinkfail : W64 := 16

/-- Where a group's object lies: its core and physical byte, if the group still holds local store there. -/
def Chip.barPlace (c : Chip) (gid : Nat) (obj : W64) : Option (Nat × Nat) :=
  match c.localRun gid with
  | none => none
  | some (core, first, len) => if vaOff obj + 32 ≤ len then some (core, first + vaOff obj) else none

def Chip.readBar (c : Chip) (core pa : Nat) : Bar := Bar.ofBytes (c.readPhys (.core core) pa 32)

/-- Whether an engine operation has counted its last byte. -/
def EngineOp.finished (o : EngineOp) : Bool := o.started && o.counted == o.bytes

/-- An LRED with its slot, CID and GEN, if it has sent flits that may still be unacknowledged once it has counted its last byte (R259). -/
def EngineOp.leaves (o : EngineOp) : List (Nat × Nat × BitVec 32 × BitVec 32) :=
  match o.kind with
  | .lred q cid gen _ size .. => if 1 < size then [(o.id, q.slot, cid, gen)] else []
  | _ => []

/-- Release the locks of an operation on its core and invalidate its destinations' L1 lines there (R174). An address that it left in FVA
stands from now on (R171). -/
def Chip.releaseOp (c : Chip) (o : EngineOp) : Chip :=
  let mine := (c.core o.core).locks.filter fun k => k.op == o.id
  let c := mine.foldl (fun c k => if k.source then c else c.flushRange o.core k.ctx k.lo k.hi true) c
  let k := c.core o.core
  let c := c.setCore o.core { k with locks := k.locks.filter fun x => x.op != o.id }
  { c with engines := c.engines.filter (fun x => x.id != o.id), fvaOps := c.fvaOps.filter (fun m => m.op != o.id),
           sentOps := c.sentOps ++ o.leaves }

/-- Settle (R174), with the update that it belongs to: write the object, completing the phase where both counts are zero. -/
def Chip.settleBar (c : Chip) (core pa gid : Nat) (obj : W64) (b : Bar) : Chip :=
  if b.arr = 0 && b.pend = 0 then
    let done := c.engines.filter fun o => o.gid == gid && o.obj == obj && o.finished
    (done.foldl Chip.releaseOp c).writePhys (.core core) pa ({ b with phase := !b.phase, arr := b.init } : Bar).bytes
  else c.writePhys (.core core) pa b.bytes

/-- PENDBYTES changed by an engine, stopping at the nearest end with OVER (R175). -/
def Bar.engineAdd (b : Bar) (n : Int) : Bar :=
  let v := b.pend + n
  if v < pendMin then { b with pend := pendMin, status := b.status ||| statusOver }
  else if pendMax < v then { b with pend := pendMax, status := b.status ||| statusOver }
  else { b with pend := v }

/-- An engine's update of its object (R173): a charge (positive) or a count-down. An object whose group has gone is not there to update. -/
def Chip.engineBar (c : Chip) (gid : Nat) (obj : W64) (n : Int) : Chip :=
  match c.barPlace gid obj with
  | none => c
  | some (core, pa) => c.settleBar core pa gid obj ((c.readBar core pa).engineAdd n)

/-- Set bits of an object's STATUS; FVA is written with FAULT while FAULT is clear (R171, R175), or `ousting` an address there. No Settle
follows (DESIGN CHOICE, log 86). -/
def Chip.barStatus (c : Chip) (gid : Nat) (obj : W64) (flags : W64) (fva : W64) (ousting : Bool) : Chip :=
  match c.barPlace gid obj with
  | none => c
  | some (core, pa) =>
    let b := c.readBar core pa
    let first := bit flags 2 && (ousting || !bit b.status 2)
    let st := if first then putBits b.status 7 (bits fva 0 57 : BitVec 57) else b.status
    c.writePhys (.core core) pa ({ b with status := st ||| flags } : Bar).bytes

/-! ### Barrier instructions -/

/-- The object that an address names, by the checks of R398 with FIELD `field`: its core and physical byte. -/
def Chip.objectAt (c : Chip) (t : Strand) (va : W64) (field : Nat) : (Nat × Nat) ⊕ Trap :=
  let who := c.who t
  match owner who.dies who.die va with
  | none => .inr (Trap.instr .protection field va)
  | some o =>
    if o != 5 then .inr (Trap.instr .badOperand field va)
    else if va.toNat % 32 != 0 then .inr (Trap.instr .misaligned field va)
    else
      match who.local? with
      | none => .inr (Trap.instr .protection field va)
      | some (core, first, len) =>
        if vaOff va + 32 ≤ len then .inl (core, first + vaOff va) else .inr (Trap.instr .protection field va)

/-- An update of R175: the changed object and the old PHASE, or a refusal. -/
def Bar.boinit (b : Bar) (n : Nat) : Option Bar :=
  if b.pend != 0 || n = 0 then none else some { status := 0, pend := 0, init := n, arr := n, phase := false }
def Bar.boexp (b : Bar) (n : Int) : Option Bar :=
  let v := b.pend + n
  if v < pendMin || pendMax < v then none else some { b with pend := v }
def Bar.boarr (b : Bar) (a : Nat) : Option Bar := if b.arr < a then none else some { b with arr := b.arr - a }

/-- The checks of a barrier instruction (R398). -/
def barSpec (op : Nat) (c : FieldSpec) (d : FieldSpec) (f : Frame) : OpSpec :=
  { OpSpec.base op with a := .scalar, c := c, d := d, other := f.scope == 0 && f.ord == 0 }

/-- Execute an instruction of the synchronisation class once for each half, low half first (R392): the first half that does not retire
ends it; a trap in the high half leaves the low half's effect. -/
def eachHalf (hs : List Nat) (one : Nat → Chip → Strand → Chip × Out) (c : Chip) (t : Strand) : Chip × Out :=
  match hs with
  | [] => (c, retires t)
  | [h] => one h c t
  | h :: rest =>
    match one h c t with
    | (c, .done t _ false) => eachHalf rest one (c.setStrand c.cur t) t
    | (c, .done t _ true) =>
      match eachHalf rest one (c.setStrand c.cur t) t with
      | (c, .done t pc _) => (c, .done t pc true)
      | x => x
    | x => x

/-- BOINIT of a half. -/
def boinitHalf (f : Frame) (h : Nat) (c : Chip) (t : Strand) : Chip × Out :=
  let va := addressOperand t h f
  let n := sVal t h f.c
  match c.objectAt t va 3 with
  | .inr tr => (c, .stop tr)
  | .inl (core, pa) =>
    if n.toNat = 0 || n.toNat > 65535 then (c, .stop (Trap.instr .badOperand 5 0))
    else if c.buffers t then (c, .done (t.bufferOp (.boinit f) 0 (.boinit va n.toNat)) t.nextPc true)
    else
      match (c.readBar core pa).boinit n.toNat with
      | none => (c, .stop (Trap.instr .badOperand 0 0))
      | some b => (c.writePhys (.core core) pa b.bytes, retires t)

/-- BOEXP of a half. -/
def boexpHalf (f : Frame) (h : Nat) (c : Chip) (t : Strand) : Chip × Out :=
  let va := addressOperand t h f
  let n := (sVal t h f.c).toInt
  match c.objectAt t va 3 with
  | .inr tr => (c, .stop tr)
  | .inl (core, pa) =>
    if c.buffers t then (c, .done (t.bufferOp (.boexp f) 0 (.boexp va n)) t.nextPc true)
    else
      match (c.readBar core pa).boexp n with
      | none => (c, .stop (Trap.instr .badOperand 0 0))
      | some b => (c.settleBar core pa (c.localGid t) va b, retires t)

/-- The arrival count of BOARR: 404 gives 1 (R398). -/
def arrivals (t : Strand) (h : Nat) (o : Operand) : Nat :=
  match o with
  | .zero => 1
  | _ => (sVal t h o).toNat

/-- The scalar register that a destination code names for a half. -/
def destScalar (h : Nat) (o : Operand) : Option Nat :=
  match o with
  | .s n => some (halfScalar h n.val)
  | _ => none

/-- BOARR of a half: a release at group scope, which one core's strands have already (R176). -/
def boarrHalf (f : Frame) (h : Nat) (c : Chip) (t : Strand) : Chip × Out :=
  let va := addressOperand t h f
  let a := arrivals t h f.c
  match c.objectAt t va 3 with
  | .inr tr => (c, .stop tr)
  | .inl (core, pa) =>
    if a = 0 || a > 65535 then (c, .stop (Trap.instr .badOperand 5 0))
    else if c.buffers t then (c, .done (t.bufferOp (.boarr f) 0 (.boarr va a (destScalar h f.d))) t.nextPc true)
    else
      let b := c.readBar core pa
      match b.boarr a with
      | none => (c, .stop (Trap.instr .badOperand 0 0))
      | some b' => (c.settleBar core pa (c.localGid t) va b', retires (putS t h f.d (BitVec.ofNat 64 (b2n b.phase))))

/-- BOWAIT and BOTEST are updates too (R172, R175): the object is written as it was read, its reserved bits as zero. In a deterministic context they
only read it (R185, log 24). No Settle follows (DESIGN CHOICE, log 86). -/
def Chip.touchBar (c : Chip) (t : Strand) (core pa : Nat) : Chip :=
  if c.buffers t then c else c.writePhys (.core core) pa (c.readBar core pa).bytes

/-- BOWAIT of a half (R175, R399). In a deterministic context it is the last instruction of the quantum in which it retires, so one that waited
across an epoch end ends that later quantum (DEDUCED, log 24). -/
def bowaitHalf (f : Frame) (h : Nat) (c : Chip) (t : Strand) : Chip × Out :=
  match c.objectAt t (addressOperand t h f) 3 with
  | .inr tr => (c, .stop tr)
  | .inl (core, pa) =>
    let b := c.readBar core pa
    (c.touchBar t core pa, if b.phase = bit (sVal t h f.c) 0 then .wait t .barrier else .done t t.nextPc (c.buffers t))

/-- BOTEST of a half. -/
def botestHalf (f : Frame) (h : Nat) (c : Chip) (t : Strand) : Chip × Out :=
  match c.objectAt t (addressOperand t h f) 3 with
  | .inr tr => (c, .stop tr)
  | .inl (core, pa) =>
    (c.touchBar t core pa, retires (putS t h f.d (BitVec.ofNat 64 (b2n ((c.readBar core pa).phase != bit (sVal t h f.c) 0)))))

def execBoinit (f : Frame) (s : State) : Host.Outcome State Fault Refusal :=
  s.strandInstr (.boinit f) (barSpec 0x286 .scalar .unused f) f fun c t => eachHalf t.halves (boinitHalf f) c t
def execBoexp (f : Frame) (s : State) : Host.Outcome State Fault Refusal :=
  s.strandInstr (.boexp f) (barSpec 0x287 FieldSpec.scalar.orZero .unused f) f fun c t => eachHalf t.halves (boexpHalf f) c t
def execBoarr (f : Frame) (s : State) : Host.Outcome State Fault Refusal :=
  s.strandInstr (.boarr f) (barSpec 0x288 FieldSpec.scalar.orZero FieldSpec.scalar.orNone f) f fun c t => eachHalf t.halves (boarrHalf f) c t
def execBowait (f : Frame) (s : State) : Host.Outcome State Fault Refusal :=
  s.strandInstr (.bowait f) (barSpec 0x289 FieldSpec.scalar.orZero .unused f) f fun c t => eachHalf t.halves (bowaitHalf f) c t
def execBotest (f : Frame) (s : State) : Host.Outcome State Fault Refusal :=
  s.strandInstr (.botest f) (barSpec 0x28A FieldSpec.scalar.orZero .scalar f) f fun c t => eachHalf t.halves (botestHalf f) c t

/-! ### Binders -/

/-- The checks of a binder address (R395). -/
def Chip.binderAt (c : Chip) (t : Strand) (va : W64) : Chip × (Xl ⊕ Trap) :=
  let who := c.who t
  match owner who.dies who.die va with
  | none => (c, .inr (Trap.instr .protection 3 va))
  | some o =>
    if o = 5 then (c, .inr (Trap.instr .badOperand 3 va))
    else
      match c.translate who .atomic 64 va 64 with
      | .trap x => (c, .inr (Trap.instr x 3 va))
      | .absent p pa => (c.absent p pa, .inr (Trap.instr .pageFault 3 va))
      | .ok x => if x.cell then (c, .inr (Trap.instr .protection 3 va)) else (c, .inl x)

/-- A region (R231, R395), in canonical form and widened to whole lines. -/
def Chip.region (c : Chip) (t : Strand) (base len : W64) : (Nat × Nat) ⊕ Trap :=
  let who := c.who t
  let own := vaOwn base
  if vaClean base && (own == 5 || own == 7) then .inr (Trap.instr .badOperand 4 base)
  else
    match owner who.dies who.die base with
    | none => .inr (Trap.instr .protection 4 base)
    | some _ =>
      if len.toNat = 0 || len.toNat > 2 ^ 48 then .inr (Trap.instr .badOperand 5 0)
      else
        let a := (canonical who.die base).toNat
        let lo := a / 64 * 64
        let hi := (a + len.toNat + 63) / 64 * 64
        if lo / 2 ^ 48 = (hi - 1) / 2 ^ 48 then .inl (lo, hi) else .inr (Trap.instr .badOperand 5 0)

/-- Change a core's bindings. -/
def Chip.setBinds (c : Chip) (core : Nat) (bs : List Binding) : Chip :=
  let k := c.core core
  c.setCore core { k with binds := bs }

/-- BIND (R231): none where the table is full. -/
def Chip.bind (c : Chip) (core ctx gid : Nat) (binder : W64) (lo hi : Nat) : Option Chip :=
  let bs := (c.core core).binds
  let mine (e : Binding) : Bool := e.ctx == ctx && e.gid == gid && e.binder == binder && e.lo == lo && e.hi == hi
  if bs.any mine then some (c.setBinds core (bs.map fun e => if mine e then { e with uses := e.uses + 1 } else e))
  else if bs.length < Config.bindEntries then
    some (c.setBinds core (bs ++ [{ ctx := ctx, gid := gid, binder := binder, lo := lo, hi := hi, seen := none, uses := 1 }]))
  else none

/-- UNBIND (R231): none where no entry matches. -/
def Chip.unbind (c : Chip) (core ctx gid : Nat) (binder : W64) (lo hi : Nat) : Option Chip :=
  let bs := (c.core core).binds
  let mine (e : Binding) : Bool := e.ctx == ctx && e.gid == gid && e.binder == binder && e.lo == lo && e.hi == hi
  if bs.any mine then
    some (c.setBinds core ((bs.map fun e => if mine e then { e with uses := e.uses - 1 } else e).filter fun e => e.uses != 0))
  else none

/-- VERSION of a binder at its owner, read as an atomic reads. -/
def Chip.version (c : Chip) (core ctx : Nat) (x : Xl) : Chip × W64 :=
  let r := ((c.beforeAtom core ctx x.va).drainFor core x.place x.pa 8).readXl x 8
  (r.1, BitVec.ofNat 64 (leNat r.2))

/-- REL (R232). -/
def Chip.rel (c : Chip) (sid core ctx : Nat) (x : Xl) : Chip :=
  let c := c.drainStrand sid
  let c := ((c.core core).binds.filter fun e => e.ctx == ctx && e.binder == x.va).foldl
    (fun c e => c.flushRange core ctx e.lo e.hi false) c
  let v := c.version core ctx x
  v.1.writeXl x (leBytes 8 (v.2 + 1).toNat)

/-- ACQ (R233): the version read. -/
def Chip.acq (c : Chip) (sid core ctx : Nat) (x : Xl) : Chip × W64 :=
  let v := (c.drainStrand sid).version core ctx x
  let c := v.1
  let moved (e : Binding) : Bool := e.ctx == ctx && e.binder == x.va && e.seen != some v.2
  let c := ((c.core core).binds.filter moved).foldl (fun c e => c.flushRange core ctx e.lo e.hi true) c
  (c.setBinds core ((c.core core).binds.map fun e => if moved e then { e with seen := some v.2 } else e), v.2)

/-- The checks of a binder instruction (R393). -/
def binderSpec (op : Nat) (region : Bool) (d : FieldSpec) (f : Frame) : OpSpec :=
  { OpSpec.base op with a := .scalar, b := if region then .scalar else .unused, c := if region then .scalar else .unused, d := d,
                        other := f.scope == 0 && f.ord == 0 }

/-- BIND and UNBIND of a half. -/
def bindHalf (f : Frame) (un : Bool) (h : Nat) (c : Chip) (t : Strand) : Chip × Out :=
  match c.binderAt t (addressOperand t h f) with
  | (c, .inr tr) => (c, .stop tr)
  | (c, .inl x) =>
    match c.region t (sVal t h f.b) (sVal t h f.c) with
    | .inr tr => (c, .stop tr)
    | .inl (lo, hi) =>
      if c.buffers t then
        (c, .done (if un then t.bufferOp (.unbind f) 0 (.unbind x.va lo hi) else t.bufferOp (.bind f) 0 (.bind x.va lo hi)) t.nextPc true)
      else
        match if un then c.unbind t.core t.ctx (c.localGid t) x.va lo hi else c.bind t.core t.ctx (c.localGid t) x.va lo hi with
        | none => (c, .stop (Trap.instr .badOperand 0 0))
        | some c => (c, retires t)

/-- Whether an older load of the executing strand has lanes that have not landed (R124): deferred ones, or in a deterministic context a bud read
that Commit has still to answer (R169). -/
def Chip.owesLoads (c : Chip) (t : Strand) : Bool :=
  c.defersLoad c.cur || t.buffer.any fun e => match e.op with
    | .budRead _ _ => true
    | _ => false

/-- Step 1 of REL and ACQ (R232, R233), and of SPAWN, SPAWND and SIGNAL (R406, R408): every older access is performed, so deferred lanes of older
loads have landed. -/
def afterLoads (body : Chip → Strand → Chip × Out) (c : Chip) (t : Strand) : Chip × Out :=
  if c.owesLoads t then (c, .wait t .bud) else body c t

/-- REL of a half. A binder behind a peer route that is down traps LINK_DOWN (R223). -/
def relHalf (f : Frame) (h : Nat) (c : Chip) (t : Strand) : Chip × Out :=
  match c.binderAt t (addressOperand t h f) with
  | (c, .inr tr) => (c, .stop tr)
  | (c, .inl x) =>
    if x.down then (c, .stop (Trap.instr .linkDown 3 (addressOperand t h f)))
    else if c.buffers t then (c, .done (t.bufferOp (.rel f) 0 (.rel x.va)) t.nextPc true) else (c.rel c.cur t.core t.ctx x, retires t)

/-- ACQ of a half, with the same check of the route. -/
def acqHalf (f : Frame) (h : Nat) (c : Chip) (t : Strand) : Chip × Out :=
  match c.binderAt t (addressOperand t h f) with
  | (c, .inr tr) => (c, .stop tr)
  | (c, .inl x) =>
    if x.down then (c, .stop (Trap.instr .linkDown 3 (addressOperand t h f)))
    else if c.buffers t then (c, .done (t.bufferOp (.acq f) 0 (.acq x.va (destScalar h f.d))) t.nextPc true)
    else
      let r := c.acq c.cur t.core t.ctx x
      (r.1, retires (putS t h f.d r.2))

def execBind (f : Frame) (s : State) : Host.Outcome State Fault Refusal :=
  s.strandInstr (.bind f) (binderSpec 0x281 true .unused f) f fun c t => eachHalf t.halves (bindHalf f false) c t
def execUnbind (f : Frame) (s : State) : Host.Outcome State Fault Refusal :=
  s.strandInstr (.unbind f) (binderSpec 0x282 true .unused f) f fun c t => eachHalf t.halves (bindHalf f true) c t
def execAcq (f : Frame) (s : State) : Host.Outcome State Fault Refusal :=
  s.strandInstr (.acq f) (binderSpec 0x283 false FieldSpec.scalar.orNone f) f (afterLoads fun c t => eachHalf t.halves (acqHalf f) c t)
def execRel (f : Frame) (s : State) : Host.Outcome State Fault Refusal :=
  s.strandInstr (.rel f) (binderSpec 0x284 false .unused f) f (afterLoads fun c t => eachHalf t.halves (relHalf f) c t)

/-! ### FENCE and QEND -/

/-- FENCE as release and as acquire (R229). -/
def fenceReleases (o : Nat) : Bool := o != 1
def fenceAcquires (o : Nat) : Bool := o != 2

/-- Whether a FENCE waits for the strand's deferred lanes: an acquire by R229's own words, a release because every older access is performed
first, but for one of SCOPE strand, which orders nothing beyond program order (R394). -/
def fenceAwaits (f : Frame) : Bool := fenceAcquires f.ord || f.scope != 0

/-- FENCE (R229, R394). -/
def fenceOut (f : Frame) (c : Chip) (t : Strand) : Chip × Out :=
  let det := c.buffers t
  if fenceAwaits f && c.owesLoads t then (c, .wait t .bud)
  else
    let c := if fenceReleases f.ord then c.release c.cur t.core t.ctx f.scope else c
    let c := if fenceAcquires f.ord then c.acquire t.core t.ctx f.scope else c
    (c, .done t t.nextPc det)

def execFence (f : Frame) (s : State) : Host.Outcome State Fault Refusal :=
  s.strandInstr (.fence f) { OpSpec.base 0x280 with imm0 := true } f (fenceOut f)

/-- QEND (R397). -/
def execQend (f : Frame) (s : State) : Host.Outcome State Fault Refusal :=
  s.strandInstr (.qend f) (controlSpec 0x28B f true) f fun c t => (c, .done t t.nextPc (c.buffers t))

end Sys2Proof.Machine
end

