-- ==== Sys2Proof/Machine/VecInt.lean ====
section
/-! DEFINITION. Vector integer, bitwise, compare, select, move and index instructions (17_isa_vector R342 to R347). -/

namespace Sys2Proof.Machine

/-- Tag and sidecar of a result type: one register, or two of a pair (R338). -/
def plainTags (et : ElemType) (_ : VEnv) : List (ElemType × BitVec 128) := List.replicate (regsOf et) (et, side1)

/-- The ET that integer arithmetic permits (R342). -/
def intTypes : List ElemType := [.i32, .n32, .i16, .n16, .i8, .n8, .i4, .i64]
def mulhTypes : List ElemType := [.i32, .n32, .i16, .n16, .i8, .n8]
def madTypes : List ElemType := [.i32, .n32, .i16, .n16, .i8, .n8, .i4]
def shiftTypes : List ElemType := [.i32, .n32, .i16, .n16, .i8, .n8, .i64]

/-- Maps are permitted at .i32 and .n32 (R342). -/
def intMap (et : ElemType) : Bool := et == .i32 || et == .n32

/-- The checks of an integer arithmetic instruction with `n` sources. -/
def intSpec (op : Nat) (f : Frame) (n : Nat) (sat : Bool) (types : List ElemType) : OpSpec :=
  let src := FieldSpec.src f.et true (intMap f.et) true
  { OpSpec.base op with
    d := .vec (regsOf f.et), a := src, b := if n ≥ 2 then src else .unused, c := if n ≥ 3 then src else .unused,
    sat := sat, typed := true, other := types.contains f.et }

/-- Put the elements of a lane together (R16). -/
def packLane (et : ElemType) (xs : List Nat) : W64 :=
  (xs.zipIdx).foldl (fun w x => w ||| (BitVec.ofNat 64 x.1 <<< (et.width * x.2))) 0

/-- The lane of an instruction that works element by element. -/
def perElement (et : ElemType) (g : Nat → Nat × Exc) : W64 × Exc :=
  let rs := (List.range et.packing).map g
  (packLane et (rs.map fun r => r.1), excAll (rs.map fun r => r.2))

/-- Integer arithmetic (R342): the exact result of `r` on the elements of A, B and C, reduced. -/
def intOp (op : Nat) (f : Frame) (n : Nat) (sat : Bool) (types : List ElemType) (r : Int → Int → Int → Int) : VecOp :=
  { sp := intSpec op f n sat types
    ctr := 1
    draws := false
    tags := plainTags f.et
    lane := fun e l => perElement f.et fun j =>
      let c := if n ≥ 3 then e.int 2 f.et l j else 0
      reduceInt f.et.signedInt f.et.width f.sat (r (e.int 0 f.et l j) (e.int 1 f.et l j) c) }

/-- A shift distance (R342): b read unsigned at width w, modulo w. -/
def shiftBy (w : Nat) (b : Int) : Nat := wrapInt w b % w

/-- VIADD, VISUB, VIMUL, VIMULH, VIMAD, VIMIN, VIMAX, VSHL, VSHR, VSRA. -/
def execViadd (f : Frame) (s : State) : Host.Outcome State Fault Refusal :=
  s.vec (.viadd f) f (intOp 0x0C0 f 2 true intTypes fun a b _ => a + b)
def execVisub (f : Frame) (s : State) : Host.Outcome State Fault Refusal :=
  s.vec (.visub f) f (intOp 0x0C1 f 2 true intTypes fun a b _ => a - b)
def execVimul (f : Frame) (s : State) : Host.Outcome State Fault Refusal :=
  s.vec (.vimul f) f (intOp 0x0C2 f 2 true intTypes fun a b _ => a * b)
def execVimulh (f : Frame) (s : State) : Host.Outcome State Fault Refusal :=
  s.vec (.vimulh f) f (intOp 0x0C3 f 2 false mulhTypes fun a b _ => a * b / 2 ^ f.et.width)
def execVimad (f : Frame) (s : State) : Host.Outcome State Fault Refusal :=
  s.vec (.vimad f) f (intOp 0x0C4 f 3 true madTypes fun a b c => a * b + c)
def execVimin (f : Frame) (s : State) : Host.Outcome State Fault Refusal :=
  s.vec (.vimin f) f (intOp 0x0C5 f 2 false intTypes fun a b _ => min a b)
def execVimax (f : Frame) (s : State) : Host.Outcome State Fault Refusal :=
  s.vec (.vimax f) f (intOp 0x0C6 f 2 false intTypes fun a b _ => max a b)
def execVshl (f : Frame) (s : State) : Host.Outcome State Fault Refusal :=
  s.vec (.vshl f) f (intOp 0x0CB f 2 true shiftTypes fun a b _ => a * 2 ^ shiftBy f.et.width b)
def execVshr (f : Frame) (s : State) : Host.Outcome State Fault Refusal :=
  s.vec (.vshr f) f (intOp 0x0CC f 2 false shiftTypes fun a b _ => (wrapInt f.et.width a : Int) / 2 ^ shiftBy f.et.width b)
def execVsra (f : Frame) (s : State) : Host.Outcome State Fault Refusal :=
  s.vec (.vsra f) f (intOp 0x0CD f 2 false shiftTypes fun a b _ =>
    signedOf f.et.width (wrapInt f.et.width a) / 2 ^ shiftBy f.et.width b)

/-- A bitwise or bit-field instruction (R343): raw 32-bit sources, one word of result. -/
def bitOp (op : Nat) (f : Frame) (n : Nat) (types : List ElemType) (r : W32 → W32 → W32 → W32) : VecOp :=
  let src := FieldSpec.src .b32 true false false
  let get (e : VEnv) (i l : Nat) : W32 := bits (e.whole i .b32 l) 0 32
  { sp := { OpSpec.base op with
              d := .vec 1, a := src, b := if n ≥ 2 then src else .unused, c := if n ≥ 3 then src else .unused,
              typed := true, other := types.contains f.et }
    ctr := 1
    draws := false
    tags := plainTags f.et
    lane := fun e l =>
      ((r (get e 0 l) (if n ≥ 2 then get e 1 l else 0) (if n ≥ 3 then get e 2 l else 0)).setWidth 64, 0) }

/-- The low `w` bits set. -/
def lowMask (w : Nat) : W32 := BitVec.ofNat 32 (2 ^ w - 1)

/-- VBFE (R343). -/
def bfe (signed : Bool) (a b c : W32) : W32 :=
  let pos := (bits b 0 5).toNat
  let wid := min (bits c 0 6).toNat (32 - pos)
  if wid = 0 then 0
  else
    let x := (a >>> pos) &&& lowMask wid
    if signed && bit x (wid - 1) then x ||| ~~~(lowMask wid) else x

/-- VBFI (R343). -/
def bfi (a b c : W32) : W32 :=
  let pos := (bits b 0 5).toNat
  let wid := min (bits b 8 6).toNat (32 - pos)
  let m := lowMask wid <<< pos
  (c &&& ~~~m) ||| ((a <<< pos) &&& m)

/-- Number of 1 bits. -/
def popCount {n : Nat} (x : BitVec n) : Nat := ((List.range n).filter fun i => bit x i).length

/-- Number of leading zero bits of a word. -/
def leadingZeros (x : W32) : Nat := if x = 0 then 32 else 31 - Nat.log2 x.toNat

def execVand (f : Frame) (s : State) : Host.Outcome State Fault Refusal := s.vec (.vand f) f (bitOp 0x0C7 f 2 [.b32] fun a b _ => a &&& b)
def execVor (f : Frame) (s : State) : Host.Outcome State Fault Refusal := s.vec (.vor f) f (bitOp 0x0C8 f 2 [.b32] fun a b _ => a ||| b)
def execVxor (f : Frame) (s : State) : Host.Outcome State Fault Refusal := s.vec (.vxor f) f (bitOp 0x0C9 f 2 [.b32] fun a b _ => a ^^^ b)
def execVnot (f : Frame) (s : State) : Host.Outcome State Fault Refusal := s.vec (.vnot f) f (bitOp 0x0CA f 1 [.b32] fun a _ _ => ~~~a)
def execVrot (f : Frame) (s : State) : Host.Outcome State Fault Refusal :=
  s.vec (.vrot f) f (bitOp 0x0CE f 2 [.b32] fun a b _ => a.rotateLeft (b.toNat % 32))
def execVbfe (f : Frame) (s : State) : Host.Outcome State Fault Refusal :=
  s.vec (.vbfe f) f (bitOp 0x0CF f 3 [.i32, .n32] (bfe (f.et == .i32)))
def execVbfi (f : Frame) (s : State) : Host.Outcome State Fault Refusal := s.vec (.vbfi f) f (bitOp 0x0D0 f 3 [.b32] bfi)
def execVpopc (f : Frame) (s : State) : Host.Outcome State Fault Refusal :=
  s.vec (.vpopc f) f (bitOp 0x0D1 f 1 [.n32] fun a _ _ => BitVec.ofNat 32 (popCount a))
def execVclz (f : Frame) (s : State) : Host.Outcome State Fault Refusal :=
  s.vec (.vclz f) f (bitOp 0x0D2 f 1 [.n32] fun a _ _ => BitVec.ofNat 32 (leadingZeros a))

/-- Conditions of VICMP and SCMP by code, on two ordered values (R344). -/
def condHolds (cond : Nat) (lt eq : Bool) : Bool :=
  match cond with
  | 0 => eq
  | 1 => !eq
  | 2 => lt
  | 3 => lt || eq
  | 4 => !(lt || eq)
  | _ => !lt

/-- A mask bit as a lane's result. -/
def bitWord (b : Bool) : W64 := if b then 1 else 0

/-- VICMP (R344). -/
def vicmpOp (f : Frame) : VecOp :=
  let src := FieldSpec.src f.et false (intMap f.et) true
  { sp := { OpSpec.base 0x0D3 with
              d := .mask, a := src, b := src, typed := true,
              other := [ElemType.i32, .n32, .i64].contains f.et, late := decide (f.imm.toNat < 6) }
    ctr := 1
    draws := false
    tags := fun _ => []
    lane := fun e l =>
      let a := e.int 0 f.et l 0
      let b := e.int 1 f.et l 0
      (bitWord (condHolds f.imm.toNat (a < b) (a == b)), 0) }

def execVicmp (f : Frame) (s : State) : Host.Outcome State Fault Refusal := s.vecMask (.vicmp f) f (vicmpOp f)

/-- VSEL (R345). -/
def vselOp (f : Frame) : VecOp :=
  let src := FieldSpec.src f.et true (f.et == .f32 || intMap f.et) false
  { sp := { OpSpec.base 0x0D4 with
              d := .vec (regsOf f.et), a := src, b := src, c := FieldSpec.mask.orZero, typed := true, rounds := f.et == .f32 }
    ctr := 1
    draws := false
    tags := plainTags f.et
    lane := fun e l => (e.whole (if bit (kVal e.t f.c) l then 0 else 1) f.et l, 0) }

def execVsel (f : Frame) (s : State) : Host.Outcome State Fault Refusal := s.vec (.vsel f) f (vselOp f)

/-- Tags and sidecars that VMOV copies from its source (R346). -/
def copiedTags (f : Frame) (e : VEnv) : List (ElemType × BitVec 128) :=
  (f.a.regs (regsOf f.et)).map fun n => ((e.t.vreg n).tag, (e.t.vreg n).side)

/-- VMOV (R346). -/
def vmovOp (f : Frame) : VecOp :=
  { sp := { OpSpec.base 0x0D5 with
              d := .vec (regsOf f.et), a := FieldSpec.src f.et true (f.et == .f32 || intMap f.et) false, typed := true,
              rounds := f.et == .f32 }
    ctr := 1
    draws := false
    tags := if f.a.isV && (f.et == .b32 || f.et == .i64) then copiedTags f else plainTags f.et
    lane := fun e l => (e.whole 0 f.et l, 0) }

def execVmov (f : Frame) (s : State) : Host.Outcome State Fault Refusal := s.vec (.vmov f) f (vmovOp f)

/-- The coordinate of a lane at a level, for a linear index (R101). -/
def coordAt (levels : List Level) (pod w n : Nat) : Nat :=
  match levels[n]? with
  | none => 0
  | some v =>
    if v.domain = 5 then pod
    else if v.extent = 0 then 0
    else w / ((levels.take n).filter (fun x => x.domain != 5) |>.map (fun x => x.extent)).prod % v.extent

/-- The coordinate of a strand's lane at a level: 0 for an evaluator and the handler (R101, R158, R243). -/
def Strand.coord (t : Strand) (n l : Nat) : Nat :=
  match t.kind with
  | .evaluator _ | .handler _ => 0
  | _ => coordAt t.coords.levels t.coords.pod (t.coords.base + l) n

/-- VIDX (R347). -/
def vidxOp (f : Frame) : VecOp :=
  { sp := { OpSpec.base 0x0D6 with
              d := .vec 1, a := { FieldSpec.unused with used := true, imm := true }, typed := true,
              other := f.et == .n32, late := decide (f.imm.toNat < 8) }
    ctr := 1
    draws := false
    tags := plainTags f.et
    lane := fun e l => (BitVec.ofNat 64 (e.t.coord f.imm.toNat l), 0) }

def execVidx (f : Frame) (s : State) : Host.Outcome State Fault Refusal := s.vec (.vidx f) f (vidxOp f)

end Sys2Proof.Machine
end

