-- ==== Sys2Proof/Machine/CrossLane.lean ====
section
/-! DEFINITION. Cross-lane instructions (17_isa_vector R361 to R363). -/

namespace Sys2Proof.Machine

/-- The span of VSHFL (R299, R95). -/
def shuffleSpan (t : Strand) (f : Frame) : Nat :=
  let s := 4 * 2 ^ f.xspan
  if t.compat then min s 64 else s

/-- The lane that VSHFL reads (R361): `b` is B's 32 bits. -/
def shuffleFrom (mode S l : Nat) (b : W32) : Int :=
  match mode with
  | 1 => (l : Int) - b.toInt
  | 2 => (l : Int) + b.toInt
  | 3 => ((l ^^^ b.toNat : Nat) : Int)
  | _ => ((l / S * S : Nat) : Int) + b.toInt

/-- The source lane, or the lane itself where that lies outside the segment or does not exist. -/
def shuffleLane (k0 : W128) (S l : Nat) (t : Int) : Nat :=
  let base := l / S * S
  if t < base ∨ (base + S : Nat) ≤ t ∨ !bit k0 t.toNat then l else t.toNat

/-- VSHFL (R361). XCTL's mode: 0 IDX, 1 UP, 2 DOWN, 3 XOR, 4 BCAST (R299). -/
def vshflOp (f : Frame) : VecOp :=
  let bcast := f.xmode == 4
  let srcB := FieldSpec.src .i32 true false false
  { sp := { OpSpec.base 0x1C0 with
              d := .vec (regsOf f.et), a := .vec (regsOf f.et),
              b := if bcast then { srcB with v := 0, lane := false, pos := false } else { srcB with pos := false },
              xctl := true, typed := true, other := f.et == .b32 || f.et == .i64 }
    ctr := 1
    draws := false
    tags := fun e => (f.a.regs (regsOf f.et)).map fun n => ((e.t.vreg n).tag, (e.t.vreg n).side)
    lane := fun e l =>
      let S := shuffleSpan e.t f
      let b : W32 := bits (e.whole 1 .i32 l) 0 32
      (e.whole 0 f.et (shuffleLane e.t.k0 S l (shuffleFrom f.xmode S l b)), 0) }

def execVshfl (f : Frame) (s : State) : Host.Outcome State Fault Refusal := s.vec (.vshfl f) f (vshflOp f)

/-- The lane that VLANE and VPUTL name for a half (R362, R363): B is a scalar, IMM32 or 404. -/
def namedLane (t : Strand) (h : Nat) (f : Frame) : Nat :=
  let b := match f.b with
    | .s n => (t.sreg (halfScalar h n.val)).toNat
    | .imm => f.imm.toNat
    | _ => 0
  if t.compat then b % 64 + 64 * h else b % 128

/-- A field that holds an s code, 510 or 404. -/
def FieldSpec.index : FieldSpec := { FieldSpec.scalar with imm := true, zero := true }

/-- The checks of VLANE. -/
def vlaneSpec (f : Frame) : OpSpec :=
  { OpSpec.base 0x1C1 with
    d := .scalar, a := .vec (regsOf f.et), b := .index, typed := true, other := [ElemType.b32, .i32, .i64].contains f.et }

/-- VLANE's value for a half. -/
def vlaneValue (t : Strand) (f : Frame) (act : W128) (h : Nat) : W64 :=
  let l := namedLane t h f
  if bit act l then
    let x := srcBits t f.a f.et 0 l
    if f.et = .i32 then (bits x 0 32 : W32).signExtend 64 else x
  else 0

/-- VLANE (R362): A is read only where its lane is active. -/
def vlaneOut (f : Frame) (t : Strand) : Out :=
  let act := t.lanesOf f
  let reads := t.halves.any fun h => bit act (namedLane t h f)
  match (if reads then emptyOut t (sourcesState t (vlaneSpec f) f) else none) with
  | some o => o
  | none => .done (t.halves.foldl (fun u h => putS u h f.d (vlaneValue t f act h)) t) t.nextPc false

def execVlane (f : Frame) (s : State) : Host.Outcome State Fault Refusal := s.strandOnly (.vlane f) (vlaneSpec f) f (vlaneOut f)

/-- The checks of VPUTL. -/
def vputlSpec (f : Frame) : OpSpec :=
  { OpSpec.base 0x1C2 with d := .vec (regsOf f.et), a := .index, b := .index, typed := true }

/-- VPUTL (R363): the halves whose named lane is active write it. -/
def vputlOut (f : Frame) (t : Strand) : Out :=
  let act := t.lanesOf f
  let hs := t.halves.filter fun h => bit act (namedLane t h f)
  if hs.isEmpty then .done t t.nextPc false
  else
    let good := hs.map fun h =>
      let l := namedLane t h f
      (l, LaneEnd.value (srcBits t f.a f.et f.imm l) 0)
    .done (t.writeResults (vNum f.d) (List.replicate (regsOf f.et) (f.et, side1)) good) t.nextPc false

def execVputl (f : Frame) (s : State) : Host.Outcome State Fault Refusal := s.strandOnly (.vputl f) (vputlSpec f) f (vputlOut f)

end Sys2Proof.Machine
end

