-- ==== Sys2Proof/Machine/Fetch.lean ====
section
/-! DEFINITION. Fetching an instruction's bytes (R212, R220, R247 step A1, R315) and what a strand does at its turn; the start state of a
strand (R104); and the program load that `State.withFetchWord` stands for (log 40). -/

namespace Sys2Proof.Machine

/-- A strand with the start values of R104, R22 and R23, placed nowhere. -/
def Strand.blank : Strand :=
  { ctx := 0, gid := 0, kind := .launch, core := 0, quarter := 0, slot := 0, index := 0, role := 0, group := 0, cls := 0,
    status := .ready, pc := 0, vregs := [], sregs := [], kregs := [], mode := 1, flags := 0, regLimit := 8, mapLimit := 0,
    lookahead := 0, token := 0, parent := 0, chain := [], depth := 0, maxDepth := 0, epoch := 0, retired := 0, trapCause := 0,
    faultVa := 0, faultMask := 0, epc := 0, salt := 0, stream := 0, ctr0 := [], ctr1 := [], laneBase := 0, isarev := 4, blevel := 0,
    compat := false, paired := false, coords := { base := 0, levels := [], pod := 0 }, ident := [], ordinal := 0,
    root := { seq := 0, group := 0, strand := 0 }, launch := none, blocks := [], dirty := 0, slots := [], draining := [], load := none,
    record := none, replay := none, gbar := false, bloomed := false, hostInt := false, spared := false, held := false,
    quantum := 0, ended := false, exited := false,
    buffer := [], solid := 0, writers := 0, pendTrap := none, waitRegs := [], acq := none, issued := none, saveAt := none }

/-- The result of a fetch: the chip after the instruction cache fill with the word, a fault (R220), or a frame that is not there. -/
inductive Fetched
  | word (c : Chip) (w : W128)
  | fault (cause : Cause)
  | absent (p : Place) (pa : Nat)

/-- The instruction cache line of a context at an address. -/
def Core.iline (k : Core) (ctx line : Nat) : Option ILine := k.icache.find? fun l => l.ctx == ctx && l.va == line

/-- Put a line into an instruction cache; the line filled longest ago makes room in a full one (R4). -/
def Core.fillText (k : Core) (l : ILine) : Core :=
  { k with icache := l :: (if k.icache.length < icacheLines then k.icache else k.icache.dropLast) }

/-- Fetch the word at a strand's program counter (R212), which is aligned to its 16 bytes (R211 step 2): a line that the instruction cache holds, for an owner 6 address one whose leaf is
in state die-store (R206), or the owner's line after the checks of R211 and the peer route (R223), which then stays in the cache. -/
def Chip.fetch (c : Chip) (t : Strand) : Fetched :=
  let who := c.who t
  match owner who.dies who.die t.pc with
  | none => .fault .protection
  | some _ =>
    if t.pc.toNat % 16 != 0 then .fault .misaligned
    else
    let va := canonical who.die t.pc
    let line := lineOf va
    let word (d : BitVec 512) : W128 := bits d (8 * (va.toNat % 64)) 128
    match ((c.core t.core).iline t.ctx line).filter fun l => vaOwn t.pc != 6 || (l.place == .store who.die && !l.moves) with
    | some l => .word c (word l.data)
    | none =>
      match c.translate who .fetch 16 t.pc 16 with
      | .trap x => .fault x
      | .absent p pa => .absent p pa
      | .ok x =>
        if x.down then .fault .linkDown
        else
        let off := va.toNat % 64
        let (c, bs) := c.readXl { x with pa := x.pa - off, mig := x.mig.map fun m => { m with off := m.off - off } } 64
        let d : BitVec 512 := BitVec.ofNat 512 (leNat bs)
        let k := c.core t.core
        let l : ILine := { ctx := t.ctx, va := line, data := d, r := x.r, w := x.w, x := x.x, place := x.place, moves := x.mig.isSome }
        .word (c.setCore t.core (k.fillText l)) (word d)

/-- The die of a patch's owner 6 addresses, and its first byte in canonical form (R205). -/
def Patch.die (p : Patch) : Nat := p.core / Config.coresPerDie
def Patch.start (p : Patch) : Nat := (canonical p.die p.target).toNat

/-- Bytes of a patch's text. -/
def Patch.bytes (p : Patch) : Nat := 16 * p.count

/-- Whether two patches' targets meet. -/
def Patch.meets (a b : Patch) : Bool :=
  a.ctx == b.ctx && decide (a.start < b.start + b.bytes) && decide (b.start < a.start + a.bytes)

/-- Whether a strand's program counter lies in a patch's range, in its canonical form (R96, R205). -/
def Patch.covers (p : Patch) (t : Strand) : Bool :=
  let pc := (canonical (t.core / Config.coresPerDie) t.pc).toNat
  p.ctx == t.ctx && decide (p.start ≤ pc) && decide (pc < p.start + p.bytes)

/-- Whether a patch runs: patches with ranges that meet run one after another, in issue order (R97). -/
def Chip.patchRuns (c : Chip) (p : Patch) : Bool := !(c.patches.takeWhile fun q => q.id != p.id).any fun q => q.meets p

/-- Whether a strand has come to a text range that a running patch has closed (R96). A GBAR that has arrived there is in its strand's reorder
buffer and has first to retire (log 26). A deterministic context's ranges close, change and reopen within its epoch ends (R97). -/
def Chip.closedText (c : Chip) (t : Strand) : Bool := !c.isDet t.ctx && !t.gbar && c.patches.any fun p => c.patchRuns p && p.covers t

/-- Whether a handler strand runs for a context. -/
def Chip.served (c : Chip) (ctx : Nat) : Bool := c.strands.any fun x => x.2.ctx == ctx && x.2.isHandler

/-- Whether a context goes on: no pre-emption of it has begun, or one has but waits for a handler that runs for the context (R48), for a patch
of it in progress (R97), or, in a deterministic context, for the end of its epoch (R53). -/
def Chip.goesOn (c : Chip) (ctx : Nat) (x : Context) : Bool :=
  x.preempt.isNone || (!x.saving && (x.det || c.served ctx || c.patches.any fun p => p.ctx == ctx))

/-- Whether a strand executes when its turn comes (R107): a strand that waits in CLAIM waits for CLAIM_SERVE, one that waits for its
quantum for EPOCH_END, one that stands at its barrier with its GBAR retired for the group's last (R52), and one whose load has lanes at
their owners for their answers; any other waiting strand tries again. A strand of a context that is not loaded or running does not execute.
Under a pre-emption a handler and a replay go on (R249), and every strand until the pre-emption takes effect. While engine operations end
an epoch, its strands stand (R185). -/
def Chip.runnable (c : Chip) (t : Strand) : Bool :=
  (match t.status with
    | .ready => true
    | .waiting .claim | .waiting .quantum | .frozen | .parked => false
    | .waiting .barrier => !(t.gbar && c.isDet t.ctx)
    | .waiting _ => t.load.isNone) &&
  (match c.ctx t.ctx with
    | some x =>
      (x.state == .loaded || x.state == .running) && (x.closing.isNone || t.isHandler) &&
        (c.goesOn t.ctx x || t.isHandler || (!x.saving && t.replay.isSome))
    | none => false)

/-! ### The coroutines of a deterministic quarter (R120) -/

/-- Whether a strand's wait for registers is for the landing of a VLDA alone, which no epoch end gives (R52). -/
def Chip.awaitsVlda (c : Chip) (t : Strand) : Bool :=
  t.waitRegs.any fun r => match (t.vreg r).fill with
    | .inflight _ p =>
      (c.vldas.any fun v => v.id == p) && !(c.waiters.any fun w => w.prod == p) &&
        !(t.buffer.any fun e => match e.op with
          | .budRead _ q => q == p
          | _ => false)
    | _ => false

/-- Whether a strand has ended its quantum or exited, or waits for what an epoch end gives (R52). A held strand counts only under a
pre-emption (R53). -/
def Chip.atEpoch (c : Chip) (t : Strand) (preempt : Bool) : Bool :=
  t.exited ||
  (match t.status with
    | .waiting .quantum | .waiting .barrier | .waiting .claim | .waiting .bud => true
    | .waiting .emptyReg => !c.awaitsVlda t
    | .frozen => t.held && preempt
    | _ => false)

/-- The number of a strand's quarter, for its context. -/
def Strand.quarterKey (t : Strand) : Nat := t.ctx * (4 * Config.cores) + t.core * 4 + t.quarter

/-- The strands of a strand's context in its quarter that may execute. -/
def Chip.mates (c : Chip) (t : Strand) : List Strand :=
  (c.strands.filter fun x => x.2.quarterKey == t.quarterKey && !x.2.isHandler && c.runnable x.2).map fun x => x.2

/-- Whether a strand is the least of some in identifier order. -/
def Strand.leads (t : Strand) (us : List Strand) : Bool := us.all fun u => !identLt u.ident t.ident

/-- Whether a quarter of a deterministic context issues from a strand (R120): from the one that issued last until it has switched away, then
from the next in identifier order, wrapping to the lowest. -/
def Chip.issuesFrom (c : Chip) (t : Strand) : Bool :=
  let us := c.mates t
  match Sparse.get? c.coros t.quarterKey with
  | none => t.leads us
  | some (last, away) =>
    if !away && us.any (fun u => u.ident == last && !c.atEpoch u false) then t.ident == last
    else
      let later := us.filter fun u => identLt last u.ident
      if later.isEmpty then t.leads us else identLt last t.ident && t.leads later

/-- Whether a strand moves when its turn comes. -/
def Chip.moves (c : Chip) (t : Strand) : Bool := c.runnable t && (!c.buffers t || c.issuesFrom t)

/-- The instructions at which a quarter switches to another strand (R120); it also does where the strand stalls in CLAIM or on a bud wait, ends
its quantum or freezes. -/
def switchesAway : Instr → Bool
  | .gbar _ | .bowait _ | .yield _ | .exit _ => true
  | _ => false

/-- A quarter of a deterministic context issues from a strand. -/
def Chip.noteTurn (c : Chip) (t : Strand) (i : Instr) : Chip :=
  if c.buffers t then { c with coros := Sparse.set c.coros t.quarterKey (t.ident, switchesAway i) } else c

/-! ### Results on their way (R228) -/

/-- The fields of an atomic that may overtake older ones. -/
def atomFrame? : Instr → Option Frame
  | .vatom f | .vatomr f | .vcas f => some f
  | _ => none

/-- Whether an instruction names a register. -/
def namesReg (f : Frame) (r : Nat) : Bool :=
  [f.a, f.b, f.c, f.d].any fun o => (o.regs 2).contains r

/-- Whether a strand's next instruction waits for results of its older atomics: only another atomic that names none of their registers goes
ahead of them. -/
def Chip.awaitsResults (c : Chip) (sid : Nat) (i : Instr) : Bool :=
  c.posted.any fun p => p.sid == sid && (match p.dest, atomFrame? i with
    | none, _ => false
    | some (.vec r _ _ _), some f => namesReg f r || namesReg f (r + 1)
    | some _, _ => true)

/-- A strand at its turn: the state before its instruction, and the instruction, if it executes one. A replay executes the recorded
instruction (R246); a strand whose program counter lies in closed text is parked, unless
its instruction there has issued and drains (R96). Where the instruction needs results of older atomics,
the turn goes to those. -/
def State.strandTurn (s : State) (sid : Nat) : State × Option Instr :=
  let s := { s with chip := { s.chip with cur := sid } }
  match s.chip.strand sid with
  | none => (s, none)
  | some t =>
    if !s.chip.moves t then (s, none)
    else
      match t.replay, t.record with
      | some _, some r => ({ s with chip := s.chip.noteTurn t r.instr }, some r.instr)
      | _, _ =>
        if s.chip.closedText t && t.issued.isNone then ({ s with chip := s.chip.setStrand sid { t with status := .parked } }, none)
        else
          match s.chip.fetch t with
          | .word c w =>
            if c.awaitsResults sid (decodeWord w) then ({ s with chip := c.drainStrand sid }, none)
            else ({ s with chip := c.noteTurn t (decodeWord w) }, some (decodeWord w))
          | .fault _ => (s, some .instructionFetchFault)
          | .absent p pa => ({ s with chip := s.chip.absent p pa }, none)

/-- Writes of the outside world to memory that is not the device's: host memory and the memory of peers. What they touch of a page that
migrates from or to host memory has undefined contents (R219). -/
def Chip.outsideWrites (c : Chip) (ws : List Host.Cell) : Chip :=
  let ms := if ws.isEmpty then [] else c.migrations
  let spoilt := ws.flatMap fun x =>
    if physKey .host 0 ≤ x.1 && x.1 < physKey (.peer 0) 0 then c.spoiltBy ms .host (x.1 - physKey .host 0) 1 else []
  (ws.foldl (fun c (k, b) =>
    if physKey .host 0 ≤ k && k < physKey (.core 0) 0 then { c with mem := c.mem.write k [b] } else c) c).spoil spoilt.eraseDups

/-- Steps on what is in flight; the policy of an empty agenda takes them at the end of a round of strands. -/
def inFlight (i : Instr) : Bool :=
  match i with
  | .ownerAccess _ | .ownerCellLoad _ | .vldaLand _ | .slotLoadLand _ | .engineStart _ | .engineCountDown _ _ | .patchApply _
  | .claimServe _ | .handlerStart _ | .hostInterrupt _ => true
  | _ => false

/-- What happens to memories and caches of itself (R4, R153, R216). -/
def Chip.ambient (c : Chip) (a : Ambient) : Chip :=
  match a with
  | .evictText core ctx va => c.dropILines core ctx (va / 64 * 64) (va / 64 * 64 + 64)
  | .allocate p pa n => c.valueTags p pa n
  | .bankReturn die b => c.bankReturn die b

/-- A turn of the agenda (log 32). A step of the hub ends the round of strands. -/
def State.take (s : State) (x : Turn) : State × Option Instr :=
  match x with
  | .strand sid => s.strandTurn sid
  | .event ws i =>
    let c := s.chip.outsideWrites ws
    let s := { s with chip := if inFlight i then c else { c with cur := 0 } }
    match i.toOpcode with
    | some _ => (s, none)
    | none => if i = .instructionFetchFault then (s, none) else (s, some i)
  | .ambient a => ({ s with chip := s.chip.ambient a }, none)

/-! ### The program load of `State.withFetchWord` (log 40) -/

/-- The word of a valid pointer to the table at a physical address (R208). -/
def pointerWord (pa : Nat) : Nat := pa + 1

/-- The context that a program load makes: loaded, on die 0, with one root. -/
def Context.program : Context :=
  { state := .loaded, part := 0, dies := [0], det := false, qexp := 12, seed := 0, strandQ := 256, spawnQ := 0, waitQ := 0, wdog := 0,
    handler := 0, roots := [0x1001, 0, 0, 0, 0], evqAddr := 0, evq := none, saveOff := 0, saveSize := 0, record := 0, seq := 0,
    primary := none, preempt := none, saving := false, scanned := [], overflow := false, doomed := false }

/-- The memory image of a program load: four tables and a page with R, W and X at physical 0x5000 of die 0, holding one word at its
start. -/
def Chip.programMemory (c : Chip) (w : Nat) : Chip :=
  let c := c.writePhys (.near 0) 0x1000 (leBytes 8 (pointerWord 0x2000))
  let c := c.writePhys (.near 0) 0x2000 (leBytes 8 (pointerWord 0x3000))
  let c := c.writePhys (.near 0) 0x3000 (leBytes 8 (pointerWord 0x4000))
  let c := c.writePhys (.near 0) 0x4000 (leBytes 8 (0x5000 + 1 + 8 + 2 ^ 53 + 2 ^ 54 + 2 ^ 55))
  c.writePhys (.near 0) 0x5000 (leBytes 16 w)

/-- The strand of a program load: at the page's start, with all lanes in k0, 32 registers and one map slot. -/
def Strand.program (gid : Nat) : Strand :=
  { Strand.blank with
    gid := gid, kregs := [(0, BitVec.allOnes 128)], regLimit := 32, mapLimit := 1, lookahead := 0,
    blocks := List.replicate 4 { cold := false, quarter := 0 }, dirty := 0xF }

/-- The group of a program load. -/
def Group.program : Group :=
  { ctx := 0, launch := none, index := 0, core := 0, first := 0, grans := 1, pool := [], ret := [], claims := [], hw := 1 }

/-- Load a program of one word and give its strand the next turn. -/
def State.loadWord (s : State) (w : Nat) : State :=
  let c := s.chip.programMemory w
  let gid := c.nextId
  let sid := c.nextId + 1
  let c := { c with
    ctxs := Sparse.set c.ctxs 0 Context.program
    groups := Sparse.set c.groups gid Group.program
    strands := Sparse.set c.strands sid (Strand.program gid)
    nextId := c.nextId + 2 }
  { s with chip := c, agenda := .strand sid :: s.agenda }

/-- Put a word where the strand whose turn is next will fetch it, if a strand's turn is next and its program counter is mapped. -/
def State.placeWord (s : State) (sid : Nat) (w : Nat) : Option State :=
  match s.chip.strand sid with
  | none => none
  | some t =>
    if !s.chip.moves t || t.replay.isSome || s.chip.closedText t then none
    else
      match s.chip.translate (s.chip.who t) .fetch 16 t.pc 16 with
      | .ok x =>
        let c := s.chip.writeXl x (leBytes 16 w)
        let line := lineOf x.va
        some { s with chip := c.dropILines t.core t.ctx line (line + 64) }
      | _ => none

end Sys2Proof.Machine
end

