-- ==== Sys2Proof/Machine/Groups.lean ====
section
/-! DEFINITION. Groups: the group barrier (08_barrier R186), the register pool (05_group_strand R109 to R112, 19 R410), and the end of a
strand (R108, 16_isa_control_scalar R321). -/

namespace Sys2Proof.Machine

/-- The strands of a group that have not exited. -/
def Chip.live (c : Chip) (gid : Nat) : List (Nat × Strand) :=
  c.strands.filter fun x => x.2.gid == gid && !x.2.isHandler && !x.2.exited

/-- Whether a strand stands at its group's barrier; in a deterministic context it may have ended its quantum there (R52). -/
def Strand.atGbar (t : Strand) : Bool := t.gbar && (t.status == .waiting .barrier || t.status == .waiting .quantum)

/-! ### CLAIM_DEADLOCK (R112) -/

/-- Fast and cold blocks that CLAIM of `n` blocks needs (R110). -/
def Strand.claimNeed (t : Strand) (n : Nat) : Nat × Nat :=
  let f := (min (t.regLimit + 8 * n) 256 - min t.regLimit 256) / 8
  (f, n - f)

/-- Take the first `n` blocks of a kind out of a pool, in order: those taken, and the rest. -/
def takeBlocks (cold : Bool) : Nat → List Block → List Block × List Block
  | _, [] => ([], [])
  | 0, bs => ([], bs)
  | n + 1, b :: bs =>
    if b.cold = cold then
      let r := takeBlocks cold n bs
      (b :: r.1, r.2)
    else
      let r := takeBlocks cold (n + 1) bs
      (r.1, b :: r.2)

/-- The blocks that a CLAIM takes and the pool that it leaves, if the pool can serve it whole. -/
def claimBlocks (pool : List Block) (need : Nat × Nat) : Option (List Block × List Block) :=
  let a := takeBlocks false need.1 pool
  let b := takeBlocks true need.2 a.2
  if a.1.length = need.1 && b.1.length = need.2 then some (a.1 ++ b.1, b.2) else none

/-- Whether the group's oldest waiting CLAIM can be served from its pool. -/
def Chip.claimReady (c : Chip) (g : Group) : Bool :=
  match g.claims with
  | [] => false
  | (sid, n, _) :: _ =>
    match c.strand sid with
    | none => false
    | some t => (claimBlocks g.pool (t.claimNeed n)).isSome

/-- The strand that takes CLAIM_DEADLOCK, if the group is in the state of R112. -/
def Chip.deadlocked (c : Chip) (gid : Nat) : Option Nat :=
  let xs := c.live gid
  let claims := xs.filter fun x => x.2.status == .waiting .claim
  if claims.isEmpty || !xs.all (fun x => x.2.status == .waiting .claim || x.2.atGbar) then none
  else
    match c.group gid with
    | none => none
    | some g => if c.claimReady g then none else (sortBy (fun x => x.2.index) claims).head?.map fun x => x.1

/-- A strand that leaves its wait in CLAIM without being served. -/
def Chip.leaveClaim (c : Chip) (sid : Nat) : Chip :=
  match c.strand sid with
  | none => c
  | some t => c.updGroup t.gid fun g => { g with claims := g.claims.filter fun x => x.1 != sid }

/-- Raise CLAIM_DEADLOCK in a group where R112 asks for it. -/
def Chip.claimDeadlock (c : Chip) (gid : Nat) : Chip :=
  match c.deadlocked gid with
  | none => c
  | some sid =>
    match c.strand sid with
    | none => c
    | some t => (c.leaveClaim sid).takeTrap sid (Trap.instr .claimDeadlock 0 0) t.pc none

/-- The same at an event of a normal context; a deterministic one meets it at its epoch ends, when CLAIMs are served. -/
def Chip.claimCheck (c : Chip) (gid ctx : Nat) : Chip := if c.isDet ctx then c else c.claimDeadlock gid

/-! ### GBAR (R186) -/

/-- Whether every strand of a group has arrived; a frozen or parked strand holds the barrier open. -/
def Chip.gbarDone (c : Chip) (gid : Nat) : Bool :=
  let xs := c.live gid
  !xs.isEmpty && xs.all fun x => x.2.gbar && x.2.status != .frozen && x.2.status != .parked

/-- A strand goes on past its group's completed barrier: its GBAR retires, or in a deterministic context, where it retired at its arrival
(R52), the strand is free to issue once its quantum lets it. -/
def Strand.pastGbar (t : Strand) (q : Option Nat) : Strand :=
  if q.isSome then { t with gbar := false, status := if t.status = .waiting .barrier then .ready else t.status }
  else { t.retired' q [] true t.nextPc with gbar := false }

/-- The GBARs of a group end, but that of strand `but`, which the caller ends. -/
def Chip.gbarRetire (c : Chip) (gid but : Nat) : Chip :=
  (c.live gid).foldl (fun c x => if x.1 = but then c else c.setStrand x.1 (x.2.pastGbar (c.quantumOf x.2))) c

/-- Complete a group's barrier if everyone stands at it. -/
def Chip.gbarCheck (c : Chip) (gid : Nat) : Chip := if c.gbarDone gid then c.gbarRetire gid 0 else c

/-- GBAR (R186, R249, R397): an arrival, held until the group's last. In a deterministic context GBAR retires at its arrival and ends the
quantum (R52, event E1 of its example); the strand then stands at the barrier until the group's last has arrived. -/
def gbarOut (c : Chip) (t : Strand) : Chip × Out :=
  if t.isHandler then (c, .stop (Trap.instr .badOperand 0 0))
  else
    let u := { t with gbar := true, status := .ready }
    let d := c.setStrand c.cur u
    if d.gbarDone t.gid then (d.gbarRetire t.gid c.cur, .done { u with gbar := false } t.nextPc true)
    else if c.buffers t then (c, .done u t.nextPc true)
    else
      let u := { u with status := .waiting .barrier }
      ((c.setStrand c.cur u).claimCheck t.gid t.ctx, .wait u .barrier)

def execGbar (f : Frame) (s : State) : Host.Outcome State Fault Refusal :=
  s.strandInstr (.gbar f) (controlSpec 0x285 f true) f gbarOut

/-! ### GIVE and CLAIM (R110, R410) -/

/-- The field of GIVE and CLAIM that holds n. -/
def blocksSpec (op : Nat) : OpSpec := { OpSpec.base op with func := 0x3F, imm0 := true }

/-- A strand without its last `n` blocks, and those blocks. -/
def Strand.gives (t : Strand) (n : Nat) : Strand × List Block :=
  let lim := t.regLimit - 8 * n
  ({ t with regLimit := lim, vregs := t.vregs.filter (fun x => decide (x.1 < lim)), blocks := t.blocks.take (t.blocks.length - n) },
   t.blocks.drop (t.blocks.length - n))

/-- Blocks that return to a group: to its pool, or in a deterministic context to those that reach the pool at the epoch end. -/
def Chip.returnBlocks (c : Chip) (gid ctx : Nat) (bs : List Block) : Chip :=
  c.updGroup gid fun g => if c.isDet ctx then { g with ret := g.ret ++ bs } else { g with pool := g.pool ++ bs }

def giveOut (f : Frame) (c : Chip) (t : Strand) : Chip × Out :=
  let n := f.func
  if t.isHandler then (c, .stop (Trap.instr .badOperand 0 0))
  else if n = 0 || 40 < n || t.regLimit < 8 * n + 8 then (c, .stop (Trap.instr .badOperand 10 0))
  else
    let r := t.gives n
    (c.returnBlocks t.gid t.ctx r.2, retires r.1)

def execGive (f : Frame) (s : State) : Host.Outcome State Fault Refusal := s.strandInstr (.give f) (blocksSpec 0x2E3) f (giveOut f)

/-- A claimed register: empty with no producer (R110); its tag and sidecar are free values (log 5). -/
def claimedReg (k : Nat) : VReg :=
  { lanes := 0, tag := ElemType.ofCode (bits (Config.freeWord k) 0 4), side := Config.freeWord (k + 1) ++ Config.freeWord (k + 2),
    fill := .empty }

/-- A strand with claimed blocks mapped, lowest register to the block taken first. -/
def Strand.claims (t : Strand) (bs : List Block) (ctr : Nat) : Strand :=
  let u := foldUpTo (fun j (u : Strand) => u.setVreg (t.regLimit + j) (claimedReg (ctr + 3 * j))) (8 * bs.length) t
  { u with regLimit := t.regLimit + 8 * bs.length, blocks := t.blocks ++ bs }

/-- Serve the oldest waiting CLAIM of a group if its pool can (R110): its instruction retires. -/
def Chip.serveClaim (c : Chip) (gid : Nat) : Option Chip :=
  match c.group gid with
  | none => none
  | some g =>
    match g.claims with
    | [] => none
    | (sid, n, _) :: rest =>
      match c.strand sid with
      | none => none
      | some t =>
        if t.status != .waiting .claim then none
        else
          match claimBlocks g.pool (t.claimNeed n) with
          | none => none
          | some (bs, pool) =>
            let u := t.claims bs c.freeCtr
            let c := c.updGroup gid fun g => { g with pool := pool, claims := rest }
            let c := c.setStrand sid (u.retired' (c.quantumOf t) [] false t.nextPc)
            some { c with freeCtr := c.freeCtr + 24 * bs.length }

/-- CLAIM: served at once where no older one waits and the pool can, else it waits. -/
def claimOut (f : Frame) (c : Chip) (t : Strand) : Chip × Out :=
  let n := f.func
  if t.isHandler then (c, .stop (Trap.instr .badOperand 0 0))
  else if n = 0 || 40 < n || 320 < t.regLimit + 8 * n then (c, .stop (Trap.instr .badOperand 10 0))
  else
    let g := c.group t.gid
    match if c.buffers t || (g.map fun g => !g.claims.isEmpty).getD true then none
          else g.bind fun g => claimBlocks g.pool (t.claimNeed n) with
    | some (bs, pool) =>
      let u := t.claims bs c.freeCtr
      ({ c.updGroup t.gid fun g => { g with pool := pool } with freeCtr := c.freeCtr + 24 * bs.length }, retires u)
    | none =>
      let u := { t with status := .waiting .claim }
      let d := (c.setStrand c.cur u).updGroup t.gid fun g => { g with claims := g.claims ++ [(c.cur, n, false)] }
      if c.buffers t then (d, .wait u .claim)
      else if d.deadlocked t.gid = some c.cur then (d.leaveClaim c.cur, .stop (Trap.instr .claimDeadlock 0 0))
      else (d.claimDeadlock t.gid, .wait u .claim)

def execClaim (f : Frame) (s : State) : Host.Outcome State Fault Refusal := s.strandInstr (.claim f) (blocksSpec 0x2E4) f (claimOut f)

/-- CLAIM_SERVE (R110): a normal context's; a deterministic context's CLAIMs are served at its epoch ends. -/
def Chip.claimServe (c : Chip) (gid : Nat) : Chip :=
  match c.group gid with
  | none => c
  | some g =>
    match c.ctx g.ctx with
    | none => c
    | some x => if (x.state == .loaded || x.state == .running) && !x.det then (c.serveClaim gid).getD c else c

def execClaimServe (g : Nat) (s : State) : Host.Outcome State Fault Refusal := s.onChip (s.chip.claimServe g)

/-! ### EXIT (R108, R321) -/

/-- The context's first launch with an unplaced group (R69). -/
def Chip.pendingLaunch (c : Chip) (ctx : Nat) : Option (Nat × Launch) := c.launches.find? fun x => x.2.ctx == ctx && x.2.next < x.2.groups

/-- A running context whose last strand has gone, with no launch pending placement, is loaded (R45, R46), also while a launch has still to
complete. -/
def Chip.maybeIdle (c : Chip) (ctx : Nat) : Chip :=
  match c.ctx ctx with
  | none => c
  | some x =>
    if x.state == .running && (c.pendingLaunch ctx).isNone && !(c.strands.any fun t => t.2.ctx == ctx) &&
        !(c.allPools.any fun n => n.ctx == ctx) then c.setCtx ctx { x with state := .loaded }
    else c

/-- What a strand leaves behind when it ends: nothing of its asynchronous producers, waiters, requests, or slot loads. -/
def Chip.abandon (c : Chip) (sid : Nat) : Chip :=
  { c with vldas := c.vldas.filter (fun v => v.sid != sid), cellReqs := c.cellReqs.filter (fun r => r.sid != sid),
           waiters := c.waiters.filter (fun w => w.sid != sid), slotLoads := c.slotLoads.filter (fun l => l.sid != sid) }

/-- Take a strand out of the device, and its group with its last strand; `gone` keeps its last state. -/
def Chip.removeStrand (c : Chip) (sid : Nat) (t : Strand) : Chip :=
  let c := { c with strands := Sparse.erase c.strands sid, gone := Sparse.set c.gone sid t }.noteFreed (t.core / Config.coresPerDie)
  let k := c.core t.core
  let c := if k.frozenQ.contains sid then c.setCore t.core { k with frozenQ := k.frozenQ.filter (· != sid) } else c
  if c.strands.any fun x => x.2.gid == t.gid && !x.2.isHandler then c else { c with groups := Sparse.erase c.groups t.gid }

/-- A group whose strands have all exited gives its local store and its pool back, also where its epoch's Commit has still to perform what
they buffered (R108, R321): a buffered access to that local store then has nothing to reach (DEDUCED, log 57). -/
def Chip.endGroup (c : Chip) (gid : Nat) : Chip :=
  if c.strands.all fun x => x.2.gid != gid || x.2.isHandler || x.2.exited then
    c.updGroup gid fun g => { g with grans := 0, pool := [], ret := [] }
  else c

/-- A physical map slot of a strand, by a load that is outstanding into it: one that a logical slot has, or one that waits in the reserve. -/
def Strand.slotOf (t : Strand) (load : Nat) : Nat :=
  match t.slots.find? fun x => x.2.loads.contains load with
  | some x => x.1
  | none => 32 + t.draining.findIdx fun ls => ls.contains load

/-- The loads outstanding into an exiting strand's map slots: each holds its physical slot until it lands into nothing (R134, R147; DEDUCED,
log 97). -/
def Chip.loadsLeft (c : Chip) (sid : Nat) (t : Strand) : List SlotLoad :=
  (c.slotLoads.filter fun l => l.sid == sid).map fun l =>
    { l with held := some { ctx := t.ctx, core := t.core, quarter := t.quarter, slot := t.slotOf l.id } }

/-- A strand that is not the handler ends: its EXIT retires and counts (R56). In a deterministic context it stands, without its registers,
slots and room on its core, until its epoch's Commit has performed what it buffered. -/
def Chip.exitStrand (c : Chip) (sid : Nat) (t : Strand) : Chip :=
  let left := c.loadsLeft sid t
  let c := (c.returnBlocks t.gid t.ctx t.blocks).abandon sid
  let c := { c with slotLoads := c.slotLoads ++ left }
  let u := t.retired' (c.quantumOf t) [] true t.nextPc
  let c :=
    if c.buffers t then
      (c.setStrand sid { u with exited := true, blocks := [], vregs := [], slots := [], draining := [] }).endGroup t.gid
    else c.removeStrand sid u
  ((c.gbarCheck t.gid).claimCheck t.gid t.ctx).maybeIdle t.ctx

/-- The handler's service of its subject ends: what it had in flight is abandoned (R321), and slot 64 is free for the next (R245). -/
def Chip.endService (c : Chip) (sid : Nat) (t : Strand) : Chip :=
  let k := c.core t.core
  ({ c with strands := Sparse.erase c.strands sid }.setCore t.core { k with serving := none }).abandon sid

/-- EXIT of the handler (R245): TRAP_REPORT; the subject stays frozen, held in a deterministic context (R53). -/
def Chip.exitHandler (c : Chip) (sid : Nat) (t : Strand) (subject : Nat) : Chip :=
  let c := c.endService sid t
  match c.strand subject with
  | none => c
  | some u =>
    let c := if c.buffers u then c.setStrand subject { u with held := true } else c
    c.postEvent (u.event evTrapReport (bits u.trapCause 0 8).toNat u.faultVa 0)

/-- EXIT of a strand. -/
def Chip.exitAt (c : Chip) (sid : Nat) (t : Strand) (i : Instr) : Chip :=
  match t.kind with
  | .handler s => c.exitHandler sid t s
  | .evaluator _ => if t.bloomed then c.exitStrand sid t else c.finish sid i [] 0 (.stop (Trap.instr .budUnfilled 0 0))
  | _ => c.exitStrand sid t

def execExit (f : Frame) (s : State) : Host.Outcome State Fault Refusal :=
  match s.chip.strand s.chip.cur with
  | none => .next s
  | some t =>
    match stageA t (controlSpec 0x008 f true) f with
    | some tr => s.onChip (s.chip.finish s.chip.cur (.exit f) [] 0 (.stop tr))
    | none => s.onChip (s.chip.exitAt s.chip.cur t (.exit f))

end Sys2Proof.Machine
end

