-- ==== Sys2Proof/Machine/Keccak.lean ====
section
/-! DEFINITION. KMAC256 and SHA3-512 (25_host_power_ras R444 names the one for cap frames, R448 the other for the attestation report): the
Keccak permutation of 1600 bits, and the encodings and padding that define the functions of those names. -/

namespace Sys2Proof.Machine

/-- The round constants of the permutation. -/
def keccakRC : List W64 :=
  [0x0000000000000001, 0x0000000000008082, 0x800000000000808A, 0x8000000080008000, 0x000000000000808B, 0x0000000080000001,
   0x8000000080008081, 0x8000000000008009, 0x000000000000008A, 0x0000000000000088, 0x0000000080008009, 0x000000008000000A] ++
  [0x000000008000808B, 0x800000000000008B, 0x8000000000008089, 0x8000000000008003, 0x8000000000008002, 0x8000000000000080,
   0x000000000000800A, 0x800000008000000A, 0x8000000080008081, 0x8000000000008080, 0x0000000080000001, 0x8000000080008008]

/-- The rotation of lane `x + 5y`. -/
def keccakRot : List Nat :=
  [0, 1, 62, 28, 27, 36, 44, 6, 55, 20, 3, 10, 43, 25, 39, 41, 45, 15, 21, 8, 18, 2, 61, 56, 14]

/-- Lane `i` of a state. -/
def keccakLane (a : List W64) (i : Nat) : W64 := a.getD i 0

/-- One round: theta, rho and pi, chi, iota. -/
def keccakRound (a : List W64) (rc : W64) : List W64 :=
  let c := (List.range 5).map fun x =>
    keccakLane a x ^^^ keccakLane a (x + 5) ^^^ keccakLane a (x + 10) ^^^ keccakLane a (x + 15) ^^^ keccakLane a (x + 20)
  let d := (List.range 5).map fun x => keccakLane c ((x + 4) % 5) ^^^ (keccakLane c ((x + 1) % 5)).rotateLeft 1
  let t := (List.range 25).map fun i => (keccakLane a i ^^^ keccakLane d (i % 5)).rotateLeft (keccakRot.getD i 0)
  -- lane (X, Y) of the next state comes from lane (X + 3Y, X)
  let b := (List.range 25).map fun i => keccakLane t ((i % 5 + 3 * (i / 5)) % 5 + 5 * (i % 5))
  let e := (List.range 25).map fun i =>
    keccakLane b i ^^^ (~~~(keccakLane b ((i % 5 + 1) % 5 + 5 * (i / 5))) &&& keccakLane b ((i % 5 + 2) % 5 + 5 * (i / 5)))
  match e with
  | [] => []
  | x :: xs => (x ^^^ rc) :: xs

/-- The permutation. -/
def keccakF (a : List W64) : List W64 := keccakRC.foldl keccakRound a

/-- The lanes of a list of bytes. -/
def keccakLanes (n : Nat) (bs : List Byte) : List W64 :=
  (List.range n).map fun i => BitVec.ofNat 64 (leNat ((bs.drop (8 * i)).take 8))

/-- Absorb a message of whole blocks of `8 * rate` bytes. -/
def keccakAbsorb (rate : Nat) (bs : List Byte) : Nat → List W64 → List W64
  | 0, a => a
  | n + 1, a =>
    let block := keccakLanes rate (bs.take (8 * rate)) ++ List.replicate (25 - rate) 0
    keccakAbsorb rate (bs.drop (8 * rate)) n (keccakF (List.zipWith (· ^^^ ·) a block))

/-- The sponge's padding to blocks of `8 * rate` bytes behind a function's suffix. -/
def spongePad (rate : Nat) (suffix : Byte) (x : List Byte) : List Byte :=
  let n := 8 * rate - x.length % (8 * rate)
  if n = 1 then x ++ [suffix ||| 0x80] else x ++ [suffix] ++ List.replicate (n - 2) 0 ++ [0x80]

/-- The first `n` lanes that a sponge gives for a message. -/
def sponge (rate : Nat) (suffix : Byte) (n : Nat) (x : List Byte) : List Byte :=
  let padded := spongePad rate suffix x
  ((keccakAbsorb rate padded (padded.length / (8 * rate)) (List.replicate 25 0)).take n).flatMap fun y => leBytes 8 y.toNat

/-- SHA3-512. -/
def sha3_512 (x : List Byte) : List Byte := sponge 9 0x06 8 x

/-- The bytes of a number, highest first, at least one. -/
def beBytes : Nat → Nat → List Byte
  | 0, _ => []
  | fuel + 1, n => if n < 256 then [BitVec.ofNat 8 n] else beBytes fuel (n / 256) ++ [BitVec.ofNat 8 n]

/-- left_encode and right_encode. -/
def leftEncode (n : Nat) : List Byte := let b := beBytes 8 n; BitVec.ofNat 8 b.length :: b
def rightEncode (n : Nat) : List Byte := let b := beBytes 8 n; b ++ [BitVec.ofNat 8 b.length]

/-- encode_string. -/
def encodeString (s : List Byte) : List Byte := leftEncode (8 * s.length) ++ s

/-- Zero bytes to a multiple of 136. -/
def padBlock (x : List Byte) : List Byte := x ++ List.replicate ((136 - x.length % 136) % 136) 0

/-- bytepad to 136. -/
def bytepad (x : List Byte) : List Byte := padBlock (leftEncode 136 ++ x)

/-- KMAC256 with 256 bits of output (32 bytes); cSHAKE's suffix is the bits 00. -/
def kmac256 (key data custom : List Byte) : List Byte :=
  let name : List Byte := [0x4B, 0x4D, 0x41, 0x43]
  let msg := bytepad (encodeString name ++ encodeString custom) ++ bytepad (encodeString key) ++ data ++ rightEncode 256
  sponge 17 0x04 4 msg

end Sys2Proof.Machine
end

