-- ==== Sys2Proof/Machine/Caps.lean ====
section
/-! DEFINITION. The effective power cap of a partition and CAPCAUSE (25_host_power_ras R442, R443, R445). -/

namespace Sys2Proof.Machine

/-- Partitions of a layout and the dies of one of them (R42). -/
def partCount (layout : W64) : Nat := if layout = 1 then 2 else if layout = 2 then 4 else 1
def partDies (layout : W64) (p : Nat) : List Nat :=
  let n := Config.dies / partCount layout
  if p < partCount layout then (List.range n).map (p * n + ·) else []

/-- A limit with its CAUSE code, where there is one. -/
def limit (cause : Nat) (w : Option Nat) : List (Nat × Nat) := (w.map fun w => (cause, w)).toList

/-- The limits of a partition with their CAUSE codes (R442): 0 is no limit as a cap of the host or of a frame (R441, R444); a thermal or current
limit of 0 W is one. -/
def HubCtl.limits (h : HubCtl) (p : Nat) : List (Nat × Nat) :=
  let cap (w : Nat) : Option Nat := if w = 0 then none else some w
  limit 1 (cap (bits h.capHost (16 * p) 16).toNat) ++ limit 2 (cap (Sparse.getD h.frameCap p 0)) ++
    limit 3 (Sparse.get? h.thermal p) ++ limit 4 (Sparse.get? h.current p)

/-- The binding limit: the least, current before thermal before frame before host where equal (R443). -/
def leastLimit : List (Nat × Nat) → Nat × Nat
  | [] => (0, 0)
  | [x] => x
  | x :: rest => let y := leastLimit rest; if x.2 < y.2 then x else y

/-- The effective cap in whole watts, rounded up, with the floor of 112.5 W a die (R443); 0 when uncapped. -/
def HubCtl.effectiveCap (h : HubCtl) (p : Nat) : Nat :=
  let l := leastLimit (h.limits p)
  if l.1 = 0 then 0 else max l.2 ((225 * (partDies h.partLayout p).length + 1) / 2)

/-- CAPCAUSE of a partition (R442). -/
def HubCtl.capCause (h : HubCtl) (p : Nat) : W64 :=
  BitVec.ofNat 64 (h.effectiveCap p % 2 ^ 16 * 2 ^ 16 + (leastLimit (h.limits p)).1)

end Sys2Proof.Machine
end

