-- ==== Sys2Proof/Machine/Mask.lean ====
section
/-! DEFINITION. Mask instructions (16_isa_control_scalar R323 to R325). -/

namespace Sys2Proof.Machine

/-- A mask source: a k code or 404 (R323). -/
def FieldSpec.maskSrc : FieldSpec := FieldSpec.mask.orZero

/-- A scalar source of format S at a type: an s code, 401 to 403 where it is read at 32 bits, 404 or 510 (R295, R300, R326). -/
def FieldSpec.ssrc (et : ElemType) : FieldSpec :=
  { FieldSpec.scalar with pos := readsPos et, zero := true, imm := true }

/-- Lanes of a half: 64 in a paired strand (R325). -/
def halfLanes (t : Strand) : Nat := if t.paired then 64 else 128

/-- Put a half's bits into a mask. -/
def joinHalf (t : Strand) (h : Nat) (x : W128) : W128 := if t.paired then (x &&& 0xFFFFFFFFFFFFFFFF) <<< (64 * h) else x

/-- A mask made of its halves. -/
def byHalves (t : Strand) (g : Nat → W128) : W128 := t.halves.foldl (fun x h => x ||| joinHalf t h (g h)) 0

/-- A scalar source of format S in a half, as bits at a type (R326). -/
def ssrcBits (t : Strand) (h : Nat) (f : Frame) (et : ElemType) (o : Operand) : W64 := srcBits t o et f.imm (64 * h)

/-- A mask operation on whole masks. -/
def maskOpOut (g : W128 → W128 → W128) (f : Frame) (t : Strand) : Out :=
  .done (putK t f.d (g (kVal t f.a) (kVal t f.b))) t.nextPc false

def maskSpec2 (op : Nat) : OpSpec := { OpSpec.base op with d := .mask, a := .maskSrc, b := .maskSrc }
def maskSpec1 (op : Nat) : OpSpec := { OpSpec.base op with d := .mask, a := .maskSrc }

def execKand (f : Frame) (s : State) : Host.Outcome State Fault Refusal :=
  s.strandOnly (.kand f) (maskSpec2 0x040) f (maskOpOut (fun a b => a &&& b) f)
def execKor (f : Frame) (s : State) : Host.Outcome State Fault Refusal :=
  s.strandOnly (.kor f) (maskSpec2 0x041) f (maskOpOut (fun a b => a ||| b) f)
def execKxor (f : Frame) (s : State) : Host.Outcome State Fault Refusal :=
  s.strandOnly (.kxor f) (maskSpec2 0x042) f (maskOpOut (fun a b => a ^^^ b) f)
def execKandn (f : Frame) (s : State) : Host.Outcome State Fault Refusal :=
  s.strandOnly (.kandn f) (maskSpec2 0x043) f (maskOpOut (fun a b => a &&& ~~~b) f)
def execKnot (f : Frame) (s : State) : Host.Outcome State Fault Refusal :=
  s.strandOnly (.knot f) (maskSpec1 0x044) f (maskOpOut (fun a _ => ~~~a) f)
def execKmov (f : Frame) (s : State) : Host.Outcome State Fault Refusal :=
  s.strandOnly (.kmov f) (maskSpec1 0x045) f (maskOpOut (fun a _ => a) f)

/-- Bits `lo` to `hi - 1` of a mask of `n` lanes (R324). -/
def rangeMask (n lo hi : Nat) : W128 := BitVec.ofNat 128 (2 ^ min hi n - 2 ^ min lo n)

/-- KRANGE. -/
def krangeOut (f : Frame) (t : Strand) : Out :=
  .done (putK t f.d (byHalves t fun h =>
    rangeMask (halfLanes t) (ssrcBits t h f .n32 f.a).toNat (ssrcBits t h f .n32 f.b).toNat)) t.nextPc false

def execKrange (f : Frame) (s : State) : Host.Outcome State Fault Refusal :=
  s.strandOnly (.krange f) { OpSpec.base 0x046 with d := .mask, a := .ssrc .n32, b := .ssrc .n32 } f (krangeOut f)

/-- The number of 1 bits, and the lowest of them, or `n`. -/
def countOnes (x : W128) : Nat := (lanesIn x).length
def lowestOne (n : Nat) (x : W128) : Nat := (lanesIn x).headD n

/-- A scalar result of a mask, for each half. -/
def maskToScalar (g : Strand → Nat → W128 → W64) (f : Frame) (t : Strand) : Out :=
  .done (t.halves.foldl (fun u h => putS u h f.d (g t h (halfMask t h (kVal t f.a)))) t) t.nextPc false

def execKpop (f : Frame) (s : State) : Host.Outcome State Fault Refusal :=
  s.strandOnly (.kpop f) { OpSpec.base 0x047 with d := .scalar, a := .maskSrc } f
    (maskToScalar (fun _ _ x => BitVec.ofNat 64 (countOnes x)) f)
def execKffs (f : Frame) (s : State) : Host.Outcome State Fault Refusal :=
  s.strandOnly (.kffs f) { OpSpec.base 0x048 with d := .scalar, a := .maskSrc } f
    (maskToScalar (fun t _ x => BitVec.ofNat 64 (lowestOne (halfLanes t) x)) f)

/-- A field that holds 510 alone. -/
def FieldSpec.immOnly : FieldSpec := { FieldSpec.unused with used := true, imm := true }

/-- KGET and KPUT with h = 1 in a COMPAT64 strand (R325). -/
def compatHalf (t : Strand) (f : Frame) : Bool := t.compat && f.imm == 1

/-- KGET. -/
def kgetOut (f : Frame) (t : Strand) : Out :=
  if compatHalf t f then .stop (Trap.instr .badOperand 10 0)
  else maskToScalar (fun _ _ x => bits x (64 * f.imm.toNat) 64) f t

/-- KPUT. -/
def kputOut (f : Frame) (t : Strand) : Out :=
  if compatHalf t f then .stop (Trap.instr .badOperand 10 0)
  else
    .done (putK t f.d (byHalves t fun h =>
      putBits (halfMask t h (kVal t f.d)) (64 * f.imm.toNat) (ssrcBits t h f .i64 f.a))) t.nextPc false

def execKget (f : Frame) (s : State) : Host.Outcome State Fault Refusal :=
  s.strandOnly (.kget f) { OpSpec.base 0x049 with d := .scalar, a := .maskSrc, b := .immOnly, other := decide (f.imm.toNat < 2) } f
    (kgetOut f)
def execKput (f : Frame) (s : State) : Host.Outcome State Fault Refusal :=
  s.strandOnly (.kput f) { OpSpec.base 0x04A with d := .mask, a := .ssrc .i64, b := .immOnly, other := decide (f.imm.toNat < 2) } f
    (kputOut f)

end Sys2Proof.Machine
end

