-- ==== Sys2Proof/Machine/Scalar.lean ====
section
/-! DEFINITION. Scalar instructions but SLD and SST (16_isa_control_scalar R326 to R334). -/

namespace Sys2Proof.Machine

/-- Scalar arithmetic (R327): the exact result of `r` on A, B and C as a type reads them, in each half. -/
def scalarValue (f : Frame) (r : Int → Int → Int → Int) (t : Strand) (h : Nat) : W64 × Exc :=
  let get (o : Operand) : Int := f.et.intVal (ssrcBits t h f f.et o).toNat
  let w := f.et.width
  let x := reduceInt f.et.signedInt w f.sat (r (get f.a) (get f.b) (get f.c))
  let v : W64 := BitVec.ofNat 64 x.1
  (if f.et = .i32 then (bits v 0 32 : W32).signExtend 64 else v, x.2)

/-- Write a scalar result in each half, and accrue (R93, R23). -/
def scalarOut (f : Frame) (r : Strand → Nat → W64 × Exc) (t : Strand) : Out :=
  .done (t.halves.foldl (fun u h => (putS u h f.d (r t h).1).accrue (r t h).2) t) t.nextPc false

/-- The checks of a scalar instruction with `n` sources. -/
def scalarSpec (op : Nat) (f : Frame) (n : Nat) (sat : Bool) (types : List ElemType) : OpSpec :=
  let src := FieldSpec.ssrc f.et
  { OpSpec.base op with
    d := .scalar, a := src, b := if n ≥ 2 then src else .unused, c := if n ≥ 3 then src else .unused,
    sat := sat, typed := true, other := types.contains f.et }

def arithTypes : List ElemType := [.i64, .i32, .n32]
def logicTypes : List ElemType := [.i64, .b32]

/-- A scalar instruction of R327. -/
def State.scalar (s : State) (i : Instr) (f : Frame) (op n : Nat) (sat : Bool) (types : List ElemType)
    (r : Int → Int → Int → Int) : Host.Outcome State Fault Refusal :=
  s.strandOnly i (scalarSpec op f n sat types) f (scalarOut f (scalarValue f r))

/-- A bitwise operation on the two's complement of its operands at width w. -/
def bitwiseInt (w : Nat) (g : Nat → Nat → Nat) (a b : Int) : Int := (g (wrapInt w a) (wrapInt w b) : Nat)

def execSadd (f : Frame) (s : State) : Host.Outcome State Fault Refusal :=
  s.scalar (.sadd f) f 0x060 2 true arithTypes fun a b _ => a + b
def execSsub (f : Frame) (s : State) : Host.Outcome State Fault Refusal :=
  s.scalar (.ssub f) f 0x061 2 true arithTypes fun a b _ => a - b
def execSmul (f : Frame) (s : State) : Host.Outcome State Fault Refusal :=
  s.scalar (.smul f) f 0x062 2 true arithTypes fun a b _ => a * b
def execSmulh (f : Frame) (s : State) : Host.Outcome State Fault Refusal :=
  s.scalar (.smulh f) f 0x063 2 false arithTypes fun a b _ => a * b / 2 ^ f.et.width
def execSand (f : Frame) (s : State) : Host.Outcome State Fault Refusal :=
  s.scalar (.sand f) f 0x064 2 false logicTypes fun a b _ => bitwiseInt f.et.width (· &&& ·) a b
def execSor (f : Frame) (s : State) : Host.Outcome State Fault Refusal :=
  s.scalar (.sor f) f 0x065 2 false logicTypes fun a b _ => bitwiseInt f.et.width (· ||| ·) a b
def execSxor (f : Frame) (s : State) : Host.Outcome State Fault Refusal :=
  s.scalar (.sxor f) f 0x066 2 false logicTypes fun a b _ => bitwiseInt f.et.width (· ^^^ ·) a b
def execSshl (f : Frame) (s : State) : Host.Outcome State Fault Refusal :=
  s.scalar (.sshl f) f 0x067 2 false arithTypes fun a b _ => a * 2 ^ shiftBy f.et.width b
def execSshr (f : Frame) (s : State) : Host.Outcome State Fault Refusal :=
  s.scalar (.sshr f) f 0x068 2 false arithTypes fun a b _ => (wrapInt f.et.width a : Int) / 2 ^ shiftBy f.et.width b
def execSsra (f : Frame) (s : State) : Host.Outcome State Fault Refusal :=
  s.scalar (.ssra f) f 0x069 2 false arithTypes fun a b _ => signedOf f.et.width (wrapInt f.et.width a) / 2 ^ shiftBy f.et.width b
def execSmin (f : Frame) (s : State) : Host.Outcome State Fault Refusal :=
  s.scalar (.smin f) f 0x06A 2 false arithTypes fun a b _ => min a b
def execSmax (f : Frame) (s : State) : Host.Outcome State Fault Refusal :=
  s.scalar (.smax f) f 0x06B 2 false arithTypes fun a b _ => max a b
def execSminu (f : Frame) (s : State) : Host.Outcome State Fault Refusal :=
  s.scalar (.sminu f) f 0x06C 2 false arithTypes fun a b _ => (min (wrapInt f.et.width a) (wrapInt f.et.width b) : Nat)
def execSmaxu (f : Frame) (s : State) : Host.Outcome State Fault Refusal :=
  s.scalar (.smaxu f) f 0x06D 2 false arithTypes fun a b _ => (max (wrapInt f.et.width a) (wrapInt f.et.width b) : Nat)
def execSmov (f : Frame) (s : State) : Host.Outcome State Fault Refusal :=
  s.scalar (.smov f) f 0x06E 1 false arithTypes fun a _ _ => a
def execSsel (f : Frame) (s : State) : Host.Outcome State Fault Refusal :=
  s.scalar (.ssel f) f 0x072 3 false logicTypes fun a b c => if a = 0 then c else b

/-- SIMM (R329). -/
def execSimm (f : Frame) (s : State) : Host.Outcome State Fault Refusal :=
  s.strandOnly (.simm f) { OpSpec.base 0x06F with d := .scalar, a := .immOnly, typed := true, other := f.et == .i64 || f.et == .n32 } f
    (scalarOut f fun _ _ => (if f.et = .i64 then f.imm.signExtend 64 else f.imm.setWidth 64, 0))

/-- SIMMH (R329): the low 32 bits stay. -/
def execSimmh (f : Frame) (s : State) : Host.Outcome State Fault Refusal :=
  s.strandOnly (.simmh f) { OpSpec.base 0x070 with d := .scalar, a := .immOnly } f
    (scalarOut f fun t h => (putBits (sVal t h f.d) 32 f.imm, 0))

/-- SCMP (R328). -/
def scmpValue (f : Frame) (t : Strand) (h : Nat) : W64 × Exc :=
  let w := f.et.width
  let a := (ssrcBits t h f f.et f.a).toNat
  let b := (ssrcBits t h f f.et f.b).toNat
  (BitVec.ofNat 64 (b2n (signedOf w a < signedOf w b) + 2 * b2n (a == b) + 4 * b2n (a < b)), 0)

def execScmp (f : Frame) (s : State) : Host.Outcome State Fault Refusal :=
  s.strandOnly (.scmp f) (scalarSpec 0x071 f 2 false arithTypes) f (scalarOut f (scmpValue f))

/-! ### Control registers (R332) -/

/-- ANCESTRY (R114) and QUANTUM (R55). -/
def Strand.ancestry (t : Strand) : W64 :=
  BitVec.ofNat 64 (t.parent % 2 ^ 24 * 2 ^ 40 + t.token % 2 ^ 24 * 2 ^ 16 + t.depth % 16)
def Chip.quantumReg (c : Chip) (t : Strand) : W64 :=
  match c.ctx t.ctx with
  | none => 0
  | some x => t.epoch ++ BitVec.ofNat 32 (32 * b2n x.det + x.qexp % 32)

/-- Whether the strand's context is deterministic. -/
def Chip.detOf (c : Chip) (t : Strand) : Bool := ((c.ctx t.ctx).map fun x => x.det).getD false

/-- The extent of a level (R67): 0 where absent, and in an evaluator and the handler. -/
def Strand.extent (t : Strand) (n : Nat) : Nat :=
  match t.kind with
  | .evaluator _ | .handler _ => 0
  | _ => match t.coords.levels[n]? with
    | none => 0
    | some v => v.extent

/-- A selector that R332 assigns. -/
def selAssigned (sel : Nat) : Bool := sel ≤ 0x0D || (0x10 ≤ sel && sel ≤ 0x1F)

/-- A control register's value for a half; `cap` is CAPCAUSE of the partition and `cycles` what CYCLES reads in a normal context. -/
def Chip.controlReg (c : Chip) (t : Strand) (cap cycles : W64) (h sel : Nat) : W64 :=
  match sel with
  | 0x00 => t.mode
  | 0x01 => t.flags
  | 0x02 => BitVec.ofNat 64 t.regLimit
  | 0x03 => BitVec.ofNat 64 t.mapLimit
  | 0x04 => t.ancestry
  | 0x05 => c.quantumReg t
  | 0x06 => t.retired
  | 0x07 => if c.detOf t then t.retired else cycles
  | 0x08 => t.trapCause
  | 0x09 => t.faultVa
  | 0x0A => bits t.faultMask 0 64
  | 0x0B => bits t.faultMask 64 64
  | 0x0C => t.epc
  | 0x0D => if c.detOf t then 0 else cap
  | n => if n < 0x18 then BitVec.ofNat 64 (t.coord (n - 0x10) (64 * h)) else BitVec.ofNat 64 (t.extent (n - 0x18))

/-- CAPCAUSE of a strand's partition. -/
def State.capOf (s : State) (t : Strand) : W64 := s.hc.capCause (((s.chip.ctx t.ctx).map fun x => x.part).getD 0)

/-- SRDC. A read of CYCLES draws a free word (log 5). -/
def srdcOut (cap : W64) (f : Frame) (c : Chip) (t : Strand) : Chip × Out :=
  let sel := f.imm.toNat
  if !selAssigned sel then (c, .stop (Trap.instr .badOperand 10 0))
  else
    (if sel = 7 then { c with freeCtr := c.freeCtr + 1 } else c,
      .done (t.halves.foldl (fun u h => putS u h f.d (c.controlReg t cap (Config.freeWord c.freeCtr) h sel)) t) t.nextPc false)

def execSrdc (f : Frame) (s : State) : Host.Outcome State Fault Refusal :=
  s.strandInstr (.srdc f) { OpSpec.base 0x075 with d := .scalar } f fun c t => srdcOut (s.capOf t) f c t

/-- SWRC of one value: MODE and FLAGS alone are writable. -/
def swrcOne (sel : Nat) (v : W64) (t : Strand) : Option Strand :=
  if sel = 0 then (if modeOk v then some { t with mode := v } else none)
  else if flagsOk v then some { t with flags := v } else none

/-- SWRC (R332): the low copy's value, then the high copy's (R93). -/
def swrcOut (f : Frame) (t : Strand) : Out :=
  let sel := f.imm.toNat
  if !selAssigned sel then .stop (Trap.instr .badOperand 10 0)
  else if sel > 1 then .stop (Trap.instr .privilege 10 0)
  else
    match t.halves.foldl (fun u h => u.bind (swrcOne sel (sVal t h f.a))) (some t) with
    | some u => .done u t.nextPc false
    | none => .stop (Trap.instr .badOperand 3 0)

def execSwrc (f : Frame) (s : State) : Host.Outcome State Fault Refusal :=
  s.strandOnly (.swrc f) { OpSpec.base 0x076 with a := FieldSpec.scalar.orZero } f (swrcOut f)

end Sys2Proof.Machine
end

