-- ==== Sys2Proof/Machine/Special.lean ====
section
/-! DEFINITION. The special functions of R28 and the functions they approximate. Each is computed as an integer interval that holds
the exact real value and is far narrower than any rounding boundary of FP32 needs (log 30), then rounded once by R20. -/

namespace Sys2Proof.Machine

/-- Fraction bits of the fixed-point work of this file. -/
def fxBits : Nat := 320

/-- `ln 2 × 2^320`, rounded down. -/
def fxLn2 : Nat := 0xb17217f7d1cf79abc9e3b39803f2f6af40f343267298b62d8a0d175b8baafa2be7b876206debac98

/-- `π/2 × 2^512`, rounded down. -/
def fxHalfPi : Nat := 0x1921fb54442d18469898cc51701b839a252049c1114cf98e804177d4c76273644a29410f31c6809bbdf2a33679a748636605614dbe4be286e9fc26adadaa3848b

/-- Horner sum of the exponential series: `1 + x/k (1 + x/(k+1) (…))`, `fuel` terms. -/
def fxExpSeries (x : Nat) : Nat → Nat → Nat
  | _, 0 => 2 ^ fxBits
  | k, fuel + 1 => 2 ^ fxBits + x * fxExpSeries x (k + 1) fuel / 2 ^ fxBits / k

/-- Horner sum of `1/(2k+1) + w (1/(2k+3) + …)`, the series of `atanh z / z` in `w = z²`. -/
def fxAtanhSeries (w : Nat) : Nat → Nat → Nat
  | _, 0 => 0
  | k, fuel + 1 => 2 ^ fxBits / (2 * k + 1) + w * fxAtanhSeries w (k + 1) fuel / 2 ^ fxBits

/-- Horner sum of `1 - w/(k(k+1)) (1 - w/((k+2)(k+3)) (…))`: the cosine series at `k = 1`, the series of `sin r / r` at `k = 2`. -/
def fxTrigSeries (w : Nat) : Nat → Nat → Nat
  | _, 0 => 2 ^ fxBits
  | k, fuel + 1 => 2 ^ fxBits - w * fxTrigSeries w (k + 2) fuel / 2 ^ fxBits / (k * (k + 1))

/-- A fixed-point value with an error below 2^16 of its units, as an exact value with a sticky bit. -/
def fxExact (neg : Bool) (y : Nat) (e : Int) : Exact := .num neg ((y - 2 ^ 16) / 2 ^ 40) (e + 40) true

/-- `2^x` of a finite non-zero `x = ± m × 2^e` (R28: overflow from 128). -/
def exp2Exact (neg : Bool) (m : Nat) (e : Int) : Exact :=
  if e + Nat.log2 m ≥ 8 then
    (if neg then .num false 1 (-400) true else .num false 1 400 false)
  else
    let fx : Nat := if e ≥ -(fxBits : Int) then m * 2 ^ (e + fxBits).toNat else 0
    let sx : Int := if neg then -(fx : Int) else fx
    let n : Int := sx / (2 ^ fxBits : Int)
    let r : Nat := (sx % (2 ^ fxBits : Int)).toNat
    if r = 0 then .num false 1 n false
    else fxExact false (fxExpSeries (r * fxLn2 / 2 ^ fxBits) 1 90) (n - fxBits)

/-- `log2` of a positive finite `m × 2^e`, `m ≠ 0`. -/
def log2Exact (m : Nat) (e : Int) : Exact :=
  let k := Nat.log2 m
  let n : Int := e + k
  let num := m - 2 ^ k
  if num = 0 then Exact.ofInt n
  else
    let z := num * 2 ^ fxBits / (m + 2 ^ k)
    let l := 2 * z * fxAtanhSeries (z * z / 2 ^ fxBits) 0 110 / fxLn2
    let y : Int := n * 2 ^ fxBits + l
    fxExact (decide (y < 0)) y.natAbs (-(fxBits : Int))

/-- Sine or cosine of a finite non-zero `± m × 2^e`. -/
def trigExact (cosine neg : Bool) (m : Nat) (e : Int) : Exact :=
  if e + Nat.log2 m < -24 then
    (if cosine then .num false (2 ^ 40 - 1) (-40) true else .num neg (m * 2 ^ 20 - 1) (e - 20) true)
  else
    let x : Nat := if e ≥ -512 then m * 2 ^ (e + 512).toNat else m / 2 ^ (-(e + 512)).toNat
    let quad := (x / fxHalfPi + (if cosine then 1 else 0)) % 4
    let r := x % fxHalfPi / 2 ^ (512 - fxBits)
    let w := r * r / 2 ^ fxBits
    let v := if quad % 2 = 1 then fxTrigSeries w 1 60 else r * fxTrigSeries w 2 60 / 2 ^ fxBits
    fxExact ((decide (quad ≥ 2)) != (neg && !cosine)) v (-(fxBits : Int))

/-- The reciprocal (R28). -/
def rcpExact (x : FVal) : Exact × Exc :=
  match x with
  | .nan s => (.nan, (FVal.nan s).sig)
  | .inf s => (.num s 0 0 false, 0)
  | .fin s m e => if m = 0 then (.inf s, excDivZero) else (quotient s 1 0 m e 80, 0)

/-- The reciprocal square root (R28). -/
def rsqExact (x : FVal) : Exact × Exc :=
  match x with
  | .nan s => (.nan, (FVal.nan s).sig)
  | .inf true => (.nan, excInvalid)
  | .inf false => (.num false 0 0 false, 0)
  | .fin s m e =>
    if m = 0 then (.inf s, excDivZero)
    else if s then (.nan, excInvalid)
    else
      let p := evenExp m e
      let q := isqrt (2 ^ 200 / p.1)
      (.num false q (-(p.2 / 2) - 100) (p.1 * q * q != 2 ^ 200), 0)

/-- VFEXP2 (R28). -/
def exp2Val (x : FVal) : Exact × Exc :=
  match x with
  | .nan s => (.nan, (FVal.nan s).sig)
  | .inf true => (.num false 0 0 false, 0)
  | .inf false => (.inf false, 0)
  | .fin s m e => if m = 0 then (.num false 1 0 false, 0) else (exp2Exact s m e, 0)

/-- VFLOG2 (R28). -/
def log2Val (x : FVal) : Exact × Exc :=
  match x with
  | .nan s => (.nan, (FVal.nan s).sig)
  | .inf true => (.nan, excInvalid)
  | .inf false => (.inf false, 0)
  | .fin s m e =>
    if m = 0 then (.inf true, excDivZero) else if s then (.nan, excInvalid) else (log2Exact m e, 0)

/-- VFSIN and VFCOS (R28). -/
def trigVal (cosine : Bool) (x : FVal) : Exact × Exc :=
  match x with
  | .nan s => (.nan, (FVal.nan s).sig)
  | .inf _ => (.nan, excInvalid)
  | .fin s m e =>
    if m = 0 then (if cosine then (.num false 1 0 false, 0) else (.num s 0 0 false, 0)) else (trigExact cosine s m e, 0)

end Sys2Proof.Machine
end

