-- ==== Sys2Proof/Machine/VecFloat.lean ====
section
/-! DEFINITION. Vector floating-point instructions (17_isa_vector R348 to R360). -/

namespace Sys2Proof.Machine

/-- The float format of an element type; FP32 for a type that is none. -/
def fmtOf (et : ElemType) : FFmt := et.ffmt.getD .f32

/-- A float instruction with `n` sources of its ET (R348). -/
def fpSpec (op : Nat) (f : Frame) (n : Nat) (sat rounds : Bool) (types : List ElemType) : OpSpec :=
  let src := FieldSpec.src f.et true (f.et == .f32) true
  { OpSpec.base op with
    d := .vec (regsOf f.et), a := src, b := if n ≥ 2 then src else .unused, c := if n ≥ 3 then src else .unused,
    sat := sat, rounds := rounds, typed := true, other := types.contains f.et }

def halfTypes : List ElemType := [.f32, .f16, .bf16]

/-- A float arithmetic instruction (R348): the exact result of `r` on its sources at a rounding mode, rounded once. -/
def fpOp (op : Nat) (f : Frame) (n : Nat) (types : List ElemType) (r : Nat → FFmt → FVal → FVal → FVal → Exact × Exc) : VecOp :=
  { sp := fpSpec op f n true true types
    ctr := 1
    draws := true
    tags := plainTags f.et
    lane := fun e l =>
      let F := fmtOf f.et
      perElement f.et fun j =>
        let b := if n ≥ 2 then e.fp 1 f.et F l j else .fin false 0 0
        let c := if n ≥ 3 then e.fp 2 f.et F l j else .fin false 0 0
        let v := r e.rm F (e.fp 0 f.et F l j) b c
        let w := F.round e.rm f.sat e.t.ftz (e.z l j) v.1
        (w.1, v.2 ||| w.2) }

/-- An exact product as an exact value. -/
def mulExact (a b : FVal) : Exact × Exc :=
  let p := a.mul b
  (p.1.exact, p.2)

/-- Bits of a quotient or root kept before the sticky bit: more than any format has. -/
def divBits : Nat := 96

def execVfadd (f : Frame) (s : State) : Host.Outcome State Fault Refusal :=
  s.vec (.vfadd f) f (fpOp 0x140 f 2 halfTypes fun rm _ a b _ => FVal.add rm a b)
def execVfsub (f : Frame) (s : State) : Host.Outcome State Fault Refusal :=
  s.vec (.vfsub f) f (fpOp 0x141 f 2 halfTypes fun rm _ a b _ => FVal.add rm a b.neg)
def execVfmul (f : Frame) (s : State) : Host.Outcome State Fault Refusal :=
  s.vec (.vfmul f) f (fpOp 0x142 f 2 halfTypes fun _ _ a b _ => mulExact a b)
def execVfma (f : Frame) (s : State) : Host.Outcome State Fault Refusal :=
  s.vec (.vfma f) f (fpOp 0x143 f 3 halfTypes fun rm _ a b c => FVal.fma rm a b c)
def execVfsqrt (f : Frame) (s : State) : Host.Outcome State Fault Refusal :=
  s.vec (.vfsqrt f) f (fpOp 0x14A f 1 halfTypes fun _ _ a _ _ => a.sqrt divBits)
def execVfdiv (f : Frame) (s : State) : Host.Outcome State Fault Refusal :=
  s.vec (.vfdiv f) f (fpOp 0x14B f 2 halfTypes fun _ _ a b _ => a.div b divBits)
def execVdadd (f : Frame) (s : State) : Host.Outcome State Fault Refusal :=
  s.vec (.vdadd f) f (fpOp 0x154 f 2 [.f64] fun rm _ a b _ => FVal.add rm a b)
def execVdmul (f : Frame) (s : State) : Host.Outcome State Fault Refusal :=
  s.vec (.vdmul f) f (fpOp 0x155 f 2 [.f64] fun _ _ a b _ => mulExact a b)
def execVdfma (f : Frame) (s : State) : Host.Outcome State Fault Refusal :=
  s.vec (.vdfma f) f (fpOp 0x156 f 3 [.f64] fun rm _ a b c => FVal.fma rm a b c)

/-- Whether a datum is negative, zeros and infinities by their sign. -/
def FVal.isNeg : FVal → Bool
  | .nan _ => false
  | .inf n => n
  | .fin n _ _ => n

/-- The lesser or the greater of two data that are not NaN, −0 below +0 (R350). -/
def fpChoose (max : Bool) (a b : FVal) : FVal :=
  let c := a.cmp b
  let aFirst := if c = 0 then a.isNeg else decide (c < 0)
  if aFirst != max then a else b

/-- VFMIN and VFMAX on one element (R350), with FTZ on the result (R27). -/
def fpMinMax (F : FFmt) (max ftz : Bool) (a b : FVal) : Nat × Exc :=
  let inv := a.sig ||| b.sig
  if inv != 0 || (a.isNan && b.isNan) then (F.nanBits, inv)
  else F.round rmRne false ftz 0 (if a.isNan then b else if b.isNan then a else fpChoose max a b).exact

/-- VFMIN and VFMAX: maps and modifiers at .f32 alone. -/
def minMaxOp (op : Nat) (f : Frame) (max : Bool) : VecOp :=
  let src := FieldSpec.src f.et true (f.et == .f32) (f.et == .f32)
  { sp := { fpSpec op f 2 false true [.f32, .f16, .bf16, .f64] with a := src, b := src }
    ctr := 1
    draws := false
    tags := plainTags f.et
    lane := fun e l =>
      let F := fmtOf f.et
      perElement f.et fun j => fpMinMax F max e.t.ftz (e.fp 0 f.et F l j) (e.fp 1 f.et F l j) }

def execVfmin (f : Frame) (s : State) : Host.Outcome State Fault Refusal := s.vec (.vfmin f) f (minMaxOp 0x144 f false)
def execVfmax (f : Frame) (s : State) : Host.Outcome State Fault Refusal := s.vec (.vfmax f) f (minMaxOp 0x145 f true)

/-- VFCMP on two data (R351). -/
def fpCompare (cond : Nat) (a b : FVal) : Bool × Exc :=
  if a.isNan || b.isNan then
    (cond == 1 || cond == 6, a.sig ||| b.sig ||| (if 2 ≤ cond && cond ≤ 5 then excInvalid else 0))
  else
    let c := a.cmp b
    (if cond = 6 then false else if cond = 7 then true else condHolds cond (c < 0) (c == 0), 0)

/-- VFCMP. -/
def vfcmpOp (f : Frame) : VecOp :=
  let src := FieldSpec.src f.et false (f.et == .f32) true
  { sp := { OpSpec.base 0x146 with
              d := .mask, a := src, b := src, typed := true, rounds := true,
              other := f.et == .f32 || f.et == .f64, late := decide (f.imm.toNat < 8) }
    ctr := 1
    draws := false
    tags := fun _ => []
    lane := fun e l =>
      let F := fmtOf f.et
      let r := fpCompare f.imm.toNat (e.fp 0 f.et F l 0) (e.fp 1 f.et F l 0)
      (bitWord r.1, r.2) }

def execVfcmp (f : Frame) (s : State) : Host.Outcome State Fault Refusal := s.vecMask (.vfcmp f) f (vfcmpOp f)

/-- The class bit of an encoding (R352). -/
def fpClass (F : FFmt) (x : Nat) : Nat :=
  let field := x / 2 ^ F.fbits % 2 ^ F.ebits
  match F.decode x with
  | .nan true => 8
  | .nan false => 9
  | .inf true => 0
  | .inf false => 7
  | .fin s m _ =>
    if m = 0 then (if s then 3 else 4)
    else if field = 0 then (if s then 2 else 5)
    else (if s then 1 else 6)

/-- VFCLASS. -/
def vfclassOp (f : Frame) : VecOp :=
  { sp := { OpSpec.base 0x147 with
              d := .vec 1, a := FieldSpec.src f.et true false false, typed := true, other := f.et == .f32 || f.et == .f64 }
    ctr := 1
    draws := false
    tags := plainTags .n32
    lane := fun e l => (BitVec.ofNat 64 (2 ^ fpClass (fmtOf f.et) (e.raw 0 f.et l 0)), 0) }

def execVfclass (f : Frame) (s : State) : Host.Outcome State Fault Refusal := s.vec (.vfclass f) f (vfclassOp f)

/-- An approximated function (R28, R353): its exact value, rounded to nearest even. -/
def approxOp (op : Nat) (f : Frame) (r : FVal → Exact × Exc) : VecOp :=
  { sp := fpSpec op f 1 false false [.f32]
    ctr := 1
    draws := false
    tags := plainTags .f32
    lane := fun e l =>
      let v := r (e.fp 0 .f32 .f32 l 0)
      let w := FFmt.f32.round rmRne false e.t.ftz 0 v.1
      (BitVec.ofNat 64 w.1, v.2 ||| w.2) }

def execVfrcp (f : Frame) (s : State) : Host.Outcome State Fault Refusal := s.vec (.vfrcp f) f (approxOp 0x148 f rcpExact)
def execVfrsq (f : Frame) (s : State) : Host.Outcome State Fault Refusal := s.vec (.vfrsq f) f (approxOp 0x149 f rsqExact)
def execVfexp2 (f : Frame) (s : State) : Host.Outcome State Fault Refusal := s.vec (.vfexp2 f) f (approxOp 0x14C f exp2Val)
def execVflog2 (f : Frame) (s : State) : Host.Outcome State Fault Refusal := s.vec (.vflog2 f) f (approxOp 0x14D f log2Val)
def execVfsin (f : Frame) (s : State) : Host.Outcome State Fault Refusal := s.vec (.vfsin f) f (approxOp 0x14E f (trigVal false))
def execVfcos (f : Frame) (s : State) : Host.Outcome State Fault Refusal := s.vec (.vfcos f) f (approxOp 0x14F f (trigVal true))

/-- The integer that rounding `± m × 2^e` gives (R20 with q = 1): its magnitude, and whether it is inexact. -/
def roundInt (rm : Nat) (neg : Bool) (z m : Nat) (e : Int) (sticky : Bool) : Nat × Bool :=
  if 0 ≤ e then
    let n := m * 2 ^ e.toNat
    (n + (if roundsUp rm neg z n 0 0 sticky then 1 else 0), sticky)
  else
    let s := (-e).toNat
    let n := m / 2 ^ s
    let r := m % 2 ^ s
    (n + (if roundsUp rm neg z n r s sticky then 1 else 0), r != 0 || sticky)

/-- VFFRI on one datum (R354). -/
def fpIntegral (F : FFmt) (rm z : Nat) (a : FVal) : Nat × Exc :=
  match a with
  | .nan s => (F.nanBits, (FVal.nan s).sig)
  | .inf n => (F.infBits n, 0)
  | .fin n m e =>
    let r := roundInt rm n z m e false
    ((F.round rmRne false false 0 (.num n r.1 0 false)).1, if r.2 then excInexact else 0)

/-- VFFRI. -/
def vffriOp (f : Frame) : VecOp :=
  { sp := fpSpec 0x152 f 1 false true halfTypes
    ctr := 1
    draws := true
    tags := plainTags f.et
    lane := fun e l =>
      let F := fmtOf f.et
      perElement f.et fun j => fpIntegral F e.rm (e.z l j) (e.fp 0 f.et F l j) }

def execVffri (f : Frame) (s : State) : Host.Outcome State Fault Refusal := s.vec (.vffri f) f (vffriOp f)

/-- VFSCALE (R355): B is read as .i32. -/
def vfscaleOp (f : Frame) : VecOp :=
  { sp := { OpSpec.base 0x153 with
              d := .vec 1, a := FieldSpec.src .f32 true true true, b := FieldSpec.src .i32 true true true, sat := true, rounds := true,
              typed := true, other := f.et == .f32 }
    ctr := 1
    draws := true
    tags := plainTags .f32
    lane := fun e l =>
      let a := e.fp 0 .f32 .f32 l 0
      let w := FFmt.f32.round e.rm f.sat e.t.ftz (e.z l 0) (a.exact.scale2 (e.int 1 .i32 l 0))
      (BitVec.ofNat 64 w.1, a.sig ||| w.2) }

def execVfscale (f : Frame) (s : State) : Host.Outcome State Fault Refusal := s.vec (.vfscale f) f (vfscaleOp f)

/-! ### Conversion (R356 to R359) -/

/-- Fields of the control word (R356). -/
def cvtTs (f : Frame) : ElemType := ElemType.ofCode (bits f.imm 0 4)
def cvtScl (f : Frame) : Nat := (bits f.imm 4 2).toNat
def cvtPart (f : Frame) : Nat := (bits f.imm 8 3).toNat

/-- The number of parts of a conversion. -/
def cvtParts (td ts : ElemType) : Nat :=
  if td.packing > ts.packing then td.packing / ts.packing else ts.packing / td.packing

/-- The checks of VFCVT and VFTOI, with the conditions on Td and on TS; a modifier on a .b32 source is a bad operand (R298),
and so is one on B, which takes none (R356). -/
def cvtSpec (op : Nat) (f : Frame) (sat dst src : Bool) : OpSpec :=
  let ts := cvtTs f
  let scaled := cvtScl f == 1 || cvtScl f == 2
  { OpSpec.base op with
    d := .vec (regsOf f.et)
    a := if ts == .b32 && (f.neg 0 || f.abs 0) then { FieldSpec.unused with used := true, mod := true }
         else FieldSpec.src ts false ((ts == .f32 || intMap ts) && cvtScl f != 3) true
    b := if f.neg 1 || f.abs 1 then { FieldSpec.unused with used := true, mod := true }
         else if scaled then { FieldSpec.vec 1 with s := true, zero := true } else .unused
    sat := sat, rounds := true, typed := true, other := dst, late := src && decide (cvtPart f < cvtParts f.et ts), immRsv := 0xFFFFF8C0 }

/-- The bits of a segment's scale (R358). -/
def cvtScale (e : VEnv) (g : Nat) : W32 :=
  match e.f.b with
  | .v n => (e.t.vreg n.val).lane (32 * g)
  | .s n => bits (e.t.sreg (halfScalar (e.t.half (32 * g)) n.val)) 0 32
  | _ => 0

/-- S(g) of a segment (R358): DAZ applies where it is an element of a vector register (R27). It is one value, which the conversion uses and, under
QUANT, writes (R18). -/
def cvtUsed (e : VEnv) (g : Nat) : W32 :=
  let s := cvtScale e g
  if e.t.daz && e.f.b.isV && bits s 23 8 == (0 : BitVec 8) then s &&& 0x80000000 else s

/-- A segment's scale as a value. -/
def cvtFactor (e : VEnv) (g : Nat) : FVal := FFmt.f32.decode (cvtUsed e g).toNat

/-- A valid scale (R358): finite and above zero. -/
def scaleValid (s : FVal) : Bool :=
  match s with
  | .fin n m _ => !n && m != 0
  | _ => false

/-- The value that Conv rounds (R357), or none where the scale is invalid. -/
def cvtValue (e : VEnv) (l j : Nat) : Option (Exact × Exc) :=
  let ts := cvtTs e.f
  let g := l / 32
  let v : FVal := match ts.ffmt with
    | some F => e.fp 0 ts F l j
    | none =>
      let n := e.int 0 ts l j
      .fin (decide (n < 0)) n.natAbs 0
  let s := cvtFactor e g
  let deq := match e.f.a with
    | .v n => bits (e.t.vreg n.val).side (32 * g) 32
    | _ => one32
  match cvtScl e.f with
  | 0 => some (v.exact, v.sig)
  | 1 => if scaleValid s then some (mulExact v s) else none
  | 2 => if scaleValid s then some (v.div s divBits) else none
  | _ => some (mulExact v (FFmt.f32.decode deq.toNat))

/-- ToInt (R359). -/
def toInt (td : ElemType) (rm z : Nat) (v : Exact) : Nat × Exc :=
  let lo := minInt td.signedInt td.width
  let hi := maxInt td.signedInt td.width
  match v with
  | .nan => (0, excInvalid)
  | .inf n => (wrapInt td.width (if n then lo else hi), excInvalid)
  | .num neg m e sticky =>
    let r := roundInt rm neg z m e sticky
    let n : Int := if neg then -(r.1 : Int) else r.1
    if n < lo ∨ hi < n then (wrapInt td.width (clampInt lo hi n), excInvalid)
    else (wrapInt td.width n, if r.2 then excInexact else 0)

/-- Conv (R357): element `j` of the source, to element `o` of the result. -/
def conv (e : VEnv) (l j o : Nat) : Nat × Exc :=
  let td := e.f.et
  match td.ffmt, cvtValue e l j with
  | some F, some (v, x) =>
    let r := F.round e.rm e.f.sat e.t.ftz (e.z l o) v
    (r.1, x ||| r.2)
  | none, some (v, x) =>
    let r := toInt td e.rm (e.z l o) v
    (r.1, x ||| r.2)
  | some F, none => ((F.round e.rm e.f.sat e.t.ftz 0 .nan).1, excInvalid)
  | none, none => (0, excInvalid)

/-- The pairs of source and destination elements of a conversion (R357). -/
def cvtElems (td ts : ElemType) (part : Nat) : List (Nat × Nat) :=
  if td.packing ≥ ts.packing then (List.range ts.packing).map fun j => (j, part * ts.packing + j)
  else (List.range td.packing).map fun j => (part * td.packing + j, j)

/-- A lane of the destination before the instruction: zero where a register is not full (R338). -/
def oldLane (t : Strand) (d : Operand) (et : ElemType) (l : Nat) : W64 :=
  let get (n : Nat) : W32 := if (t.vreg n).fill = .full then (t.vreg n).lane l else 0
  if et.width = 64 then get (vNum d + 1) ++ get (vNum d) else (get (vNum d)).setWidth 64

/-- A lane of VFCVT or VFTOI. -/
def cvtLane (e : VEnv) (l : Nat) : W64 × Exc :=
  let td := e.f.et
  let old := if td.packing > (cvtTs e.f).packing then oldLane e.t e.f.d td l else 0
  (cvtElems td (cvtTs e.f) (cvtPart e.f)).foldl (fun r x =>
    let y := conv e l x.1 x.2
    (putBits r.1 (td.width * x.2) (BitVec.ofNat td.width y.1), r.2 ||| y.2)) (old, 0)

/-- The sidecar of a conversion's destination (R357). -/
def cvtSide (e : VEnv) : BitVec 128 :=
  if cvtScl e.f = 2 then cvtUsed e 3 ++ cvtUsed e 2 ++ cvtUsed e 1 ++ cvtUsed e 0 else side1

/-- VFCVT and VFTOI. -/
def cvtOp (op : Nat) (f : Frame) (sat dst src : Bool) : VecOp :=
  { sp := cvtSpec op f sat dst src
    ctr := 1
    draws := true
    tags := fun e => List.replicate (regsOf f.et) (f.et, cvtSide e)
    lane := cvtLane }

def execVfcvt (f : Frame) (s : State) : Host.Outcome State Fault Refusal :=
  s.vec (.vfcvt f) f (cvtOp 0x150 f true (ElemType.isFloat f.et) (cvtTs f != .b32))
def execVftoi (f : Frame) (s : State) : Host.Outcome State Fault Refusal :=
  s.vec (.vftoi f) f (cvtOp 0x151 f false f.et.isInt (ElemType.isFloat (cvtTs f)))

/-- VRAND (R360). -/
def vrandOp (f : Frame) : VecOp :=
  { sp := { OpSpec.base 0x157 with
              d := .vec (regsOf f.et), typed := true, other := [ElemType.b32, .n32, .f32, .i64].contains f.et }
    ctr := 0
    draws := true
    tags := plainTags f.et
    lane := fun e l =>
      let b := e.t.drawBlock e.seed 0 l 0
      let x0 : W32 := bits b 0 32
      (match f.et with
        | .i64 => bits b 0 64
        | .f32 => BitVec.ofNat 64 (FFmt.f32.round rmRne false false 0 (.num false (x0.toNat / 256) (-24) false)).1
        | _ => x0.setWidth 64, 0) }

def execVrand (f : Frame) (s : State) : Host.Outcome State Fault Refusal := s.vec (.vrand f) f (vrandOp f)

end Sys2Proof.Machine
end

