-- ==== Sys2Proof/Machine/Layout.lean ====
section
/-! DEFINITION. Layouts, copy requests and their checks, the elements that a copy visits, and the values that it writes (09_layout R188 to
R203). -/

namespace Sys2Proof.Machine

/-- Bits `[lo + w - 1 : lo]` of a record read as a number. -/
def fld (x lo w : Nat) : Nat := x / 2 ^ lo % 2 ^ w

/-! ### Layouts -/

/-- The bytes of an element; a 4-bit element takes one. -/
def elemBytes (et : ElemType) : Nat := max (et.width / 8) 1

/-- The layout in 128 bytes (R188). -/
def Layout.ofNat (x : Nat) : Layout :=
  { base := BitVec.ofNat 64 (fld x 64 64), fmt := ElemType.ofCode (BitVec.ofNat 4 (fld x 0 4)), swu := fld x 7 3, swr := fld x 10 2,
    dims := (List.range (fld x 4 3)).map fun d =>
      { extent := fld x (128 + 128 * d) 32, stride := signedOf 48 (fld x (160 + 128 * d) 48) } }

/-- The reserved bits of a layout are zero, entries at or above NDIM included. -/
def layoutClean (x : Nat) : Bool :=
  fld x 12 52 == 0 &&
  (List.range 7).all fun d => if d < fld x 4 3 then fld x (208 + 128 * d) 48 == 0 else fld x (128 + 128 * d) 128 == 0

/-- The element offset of coordinates (R189). -/
def Layout.offset (l : Layout) (c : List Int) : Int := ((l.dims.zip c).map fun x => x.2 * x.1.stride).sum

/-- Where an element's bytes lie (R189, R190): pieces of consecutive bytes in order; a rotated layout's byte by byte. -/
def Layout.pieces (l : Layout) (o : Int) : List (W64 × Nat) :=
  let n := elemBytes l.fmt
  let va := l.base + BitVec.ofInt 64 ((o * l.fmt.width).ediv 8)
  if l.swu = 0 then [(va, n)]
  else
    let row := 128 * 2 ^ l.swr
    let unit := 2 ^ (l.swu + 1)
    (List.range n).map fun i =>
      let a := vaOff (va + BitVec.ofNat 64 i)
      let r := a / row
      let u := a % row / unit
      (putBits (va + BitVec.ofNat 64 i) 0 (BitVec.ofNat 48 (r * row + (u + r) % (row / unit) * unit + a % unit)), 1)

/-- Whether an element takes the high nibble of its byte (R189). -/
def highNibble (et : ElemType) (o : Int) : Bool := et.width == 4 && o % 2 == 1

/-- The range of a layout over intervals of its coordinates, as offsets from its owner's first byte (R203). -/
def Layout.range (l : Layout) (iv : List (Int × Int)) : Int × Int :=
  let ends := (l.dims.zip iv).map fun x => (x.2.1 * x.1.stride, x.2.2 * x.1.stride)
  let omin := (ends.map fun x => min x.1 x.2).sum
  let omax := (ends.map fun x => max x.1 x.2).sum
  let lo := (vaOff l.base : Int) + (omin * l.fmt.width).ediv 8
  let hi := (vaOff l.base : Int) + (omax * l.fmt.width).ediv 8 + elemBytes l.fmt
  if l.swu = 0 then (lo, hi)
  else
    let row : Int := 128 * 2 ^ l.swr
    (lo.ediv row * row, (hi + row - 1).ediv row * row)

/-! ### The copy request -/

/-- NDIM of a request's layouts. -/
def CopyReq.nd (r : CopyReq) : Nat := r.src.dims.length

/-- A reduction's code (R191). -/
def redOf (n : Nat) : Red :=
  match n with
  | 1 => .add | 2 => .min | 3 => .max | 4 => .and | 5 => .or | 6 => .xor | _ => .none

/-- The reserved fields of a request are zero, and the fields that it does not use: those of dimensions at or above NDIM, ORIGIN and PERM among
them (R191, R193 step 4; DEDUCED, log 103). -/
def requestClean (x nd : Nat) : Bool :=
  fld x 992 32 == 0 && fld x 736 32 == 0 && fld x 480 32 == 0 && fld x 224 32 == 0 && fld x 155 1 == 0 && fld x 149 3 == 0 &&
  fld x 122 6 == 0 && fld x 117 4 == 0 && fld x 82 14 == 0 && fld x 50 14 == 0 && fld x 18 14 == 0 &&
  (List.range 7).all fun d => decide (d < nd) ||
    (fld x (880 + 16 * d) 16 == 0 && fld x (768 + 16 * d) 16 == 0 && fld x (512 + 32 * d) 32 == 0 && fld x (256 + 32 * d) 32 == 0 &&
      fld x (128 + 3 * d) 3 == 0)

/-- A request as its bytes give it, with its layouts, block list, MODE.RND and first register (R191). -/
def CopyReq.ofNat (x : Nat) (src dst : Layout) (list : List (List Int)) (rnd d : Nat) : CopyReq :=
  let dims := List.range src.dims.length
  let box := dims.map fun d => fld x (512 + 32 * d) 32
  { src := src, dst := dst, box := box, origin := dims.map fun d => signedOf 32 (fld x (256 + 32 * d) 32),
    blk := dims.map fun d => let b := fld x (880 + 16 * d) 16; if b = 0 then box.getD d 1 else b,
    padLo := dims.map fun d => fld x (768 + 16 * d) 8, padHi := dims.map fun d => fld x (776 + 16 * d) 8,
    perm := dims.map fun d => fld x (128 + 3 * d) 3, padVal := BitVec.ofNat 32 (fld x 192 32), scale := BitVec.ofNat 32 (fld x 160 32),
    sat := fld x 159 1 == 1, rm := if fld x 156 3 = 0 then rnd else fld x 156 3, red := redOf (fld x 152 3), gs := fld x 112 2,
    list := list, reg := if fld x 121 1 = 1 then some (d, fld x 114 3 + 1) else none }

/-- Blocks of the grid in each dimension. -/
def CopyReq.grid (r : CopyReq) : List Nat := (r.box.zip r.blk).map fun x => x.1 / x.2

/-- A product of extents. -/
def prod (xs : List Nat) : Nat := xs.foldl (· * ·) 1

/-- Whether a request pads. -/
def CopyReq.pads (r : CopyReq) : Bool := r.padLo.any (· != 0) || r.padHi.any (· != 0)

/-- Extents of the padded box. -/
def CopyReq.padded (r : CopyReq) : List Nat := (r.box.zip (r.padLo.zip r.padHi)).map fun x => x.1 + x.2.1 + x.2.2

/-- How many elements a request visits (R194). -/
def CopyReq.count (r : CopyReq) : Nat := if r.gs = 0 then prod r.padded else r.list.length * prod r.blk

/-- The byte count of an operation (R173). -/
def CopyReq.bytes (r : CopyReq) : Nat := r.count * r.dst.fmt.width / 8

/-- The greatest grid coordinate of each dimension among the first `k` blocks, `k` at least 1. -/
def gridTop (k : Nat) : List Nat → List Nat
  | [] => []
  | g :: gs => min (k - 1) (g - 1) :: gridTop ((k - 1) / g + 1) gs

/-- The greatest coordinate of each dimension on the side that a list does not give: the padded box without a list, the blocks that are
filled or sent with one. -/
def CopyReq.top (r : CopyReq) : List Nat :=
  if r.gs = 0 then r.padded.map (· - 1)
  else ((gridTop r.list.length r.grid).zip r.blk).map fun x => x.1 * x.2 + x.2 - 1

/-- The reachable interval of each source dimension (R203). -/
def CopyReq.srcIv (r : CopyReq) : List (Int × Int) :=
  let up := if r.gs = 2 then r.top else r.box.map (· - 1)
  (r.src.dims.zip (r.origin.zip up)).map fun x =>
    let z : Int := (x.1.extent : Int) - 1
    if r.gs = 1 then (0, z) else (min (max x.2.1 0) z, min (max (x.2.1 + x.2.2) 0) z)

/-- The reachable interval of each destination dimension (R203). -/
def CopyReq.dstIv (r : CopyReq) : List (Int × Int) :=
  (r.dst.dims.zip r.perm).map fun x =>
    let z : Int := (x.1.extent : Int) - 1
    if r.gs = 2 then (0, z) else (0, min (r.top.getD x.2 0) z)

/-- The interval of canonical addresses of a layout's range. -/
def Layout.span (l : Layout) (die : Nat) (iv : List (Int × Int)) : Nat × Nat :=
  let b := (canonical die l.base).toNat - vaOff l.base
  let r := l.range iv
  (b + r.1.toNat, b + r.2.toNat)

/-- Whether some element of a request goes to an element of the destination; only a scatter's list can miss it whole (R203). -/
def CopyReq.lands (r : CopyReq) : Bool :=
  r.gs != 2 || r.list.any fun b => (r.dst.dims.zip r.perm).all fun x =>
    let n := r.blk.getD x.2 1
    let lo := b.getD x.2 0 * n
    decide (0 < lo + n) && decide (lo < x.1.extent)

/-- The interval of canonical addresses of a request's destination range (R203). -/
def CopyReq.dstSpan (r : CopyReq) (die : Nat) : Nat × Nat := if r.lands then r.dst.span die r.dstIv else (0, 0)

/-- Formats, reduction and pad value go together (R193 step 7, R198 to R200). -/
def CopyReq.typesOk (r : CopyReq) : Bool :=
  let fs := r.src.fmt
  let fd := r.dst.fmt
  let one := r.scale == one32
  (if fs = .b32 || fd = .b32 then fs == fd && one && (r.red == .none || r.red == .and || r.red == .or || r.red == .xor)
    else match r.red with
      | .none => true
      | .add => fs.isFloat == fd.isFloat && (fd.isFloat || one)
      | .min | .max => fs.isFloat == fd.isFloat
      | _ => !fs.isFloat && !fd.isFloat) &&
  (decide (32 ≤ fd.width) || decide (r.padVal.toNat < 2 ^ fd.width)) && !(r.reg.isSome && (fd == .f64 || fd == .i64))

/-- A list of numbers below its length that holds each once. -/
def isPerm (xs : List Nat) : Bool := (List.range xs.length).all fun i => xs.contains i

/-- The address of an offset of the group's local store. -/
def localVa (off : Nat) : W64 := BitVec.ofNat 64 (5 * 2 ^ 54 + off)

/-- Bytes of the group's local store as a strand sees them, its buffered stores included (R192, R237). -/
def Chip.localBytes (c : Chip) (t : Strand) (off n : Nat) : List Byte :=
  match c.localRun (c.localGid t) with
  | none => []
  | some (core, first, _) => t.overlay (localVa off) (c.readPhys (.core core) (first + off) n)

/-- An instruction record of a request's check (R401): FIELD 11. -/
def reqTrap (cause : Cause) (va : W64) : Trap := Trap.instr cause 11 va

/-- The first trap of a list of conditions that holds. -/
def firstTrap : List (Bool × Trap) → Option Trap
  | [] => none
  | (b, t) :: rest => if b then some t else firstTrap rest

/-- The block list entries in a list of bytes; the coordinates of an entry at or above NDIM are not looked at (DEDUCED, log 103). -/
def blockList (nd : Nat) (bs : List Byte) (n : Nat) : List (List Int) :=
  (List.range n).map fun i =>
    let x := leNat ((bs.drop (16 * i)).take 16)
    (List.range nd).map fun d => signedOf 16 (fld x (16 * d) 16)

/-- Steps 1 to 3 of R193: where a request, its layouts and its list lie, the source before the destination and the list last. For a request
outside the allocation, step 2 judges the fields that local store holds past the run (DESIGN CHOICE, log 98). -/
def requestPlace (who : Who) (va : W64) (x len : Nat) : Option Trap :=
  let off := vaOff va
  let s := fld x 0 18
  let d := fld x 32 18
  let l := fld x 64 18
  firstTrap
    [(va.toNat % 128 != 0, reqTrap .misaligned va), (s % 64 != 0, reqTrap .misaligned (localVa s)),
     (d % 64 != 0, reqTrap .misaligned (localVa d)), (l % 16 != 0, reqTrap .misaligned (localVa l)),
     (who.local?.isNone || decide (len < off + 128), reqTrap .protection va), (decide (len < s + 128), reqTrap .protection (localVa s)),
     (decide (len < d + 128), reqTrap .protection (localVa d)),
     (fld x 96 16 != 0 && decide (len < l + 16 * fld x 96 16), reqTrap .protection (localVa l))]

/-- Steps 4 to 6 of R193 on the raw records, within a step the source before the destination (DESIGN CHOICE, log 98). Owner (R205) comes before step 5 looks at the owner of a swizzled BASE (DEDUCED, log 98); a window's
BASE is no address (R202). -/
def requestFields (who : Who) (va : W64) (x sx dx : Nat) (list : List Byte) (reduces : Bool) (rnd : Nat) : Option Trap :=
  let s := localVa (fld x 0 18)
  let d := localVa (fld x 32 18)
  let l := fld x 64 18
  let nd := fld sx 4 3
  let sl := Layout.ofNat sx
  let dl := Layout.ofNat dx
  let badRow (y : Nat) : Bool := decide (5 < fld y 7 3) || (fld y 7 3 != 0 && vaOwn (Layout.ofNat y).base != 5)
  let unowned (y : Nat) : Bool := fld y 7 3 != 0 && (owner who.dies who.die (Layout.ofNat y).base).isNone
  let zeroExt (y : Layout) : Bool := y.dims.any fun e => e.extent == 0
  let entry := (List.range (fld x 96 16)).any fun i => fld (leNat ((list.drop (16 * i)).take 16)) 112 16 != 0
  let scaleField := fld x 183 8
  firstTrap
    [(!requestClean x nd, reqTrap .badOperand va), (!layoutClean sx, reqTrap .badOperand s), (!layoutClean dx, reqTrap .badOperand d),
     (entry, reqTrap .badOperand (localVa l)),
     (fld dx 4 3 != nd, reqTrap .badOperand va), (nd == 0, reqTrap .badOperand s),
     (!isPerm ((List.range nd).map fun e => fld x (128 + 3 * e) 3), reqTrap .badOperand va),
     (zeroExt sl, reqTrap .badOperand s), (zeroExt dl, reqTrap .badOperand d),
     ((List.range nd).any fun e => fld x (512 + 32 * e) 32 == 0, reqTrap .badOperand va),
     (unowned sx, reqTrap .protection s), (badRow sx, reqTrap .badOperand s),
     (fld x 121 1 == 0 && unowned dx, reqTrap .protection d), (badRow dx, reqTrap .badOperand d),
     (fld x 121 1 == 1 && (dl.base != 0 || dl.swu != 0), reqTrap .badOperand d),
     (fld x 152 3 == 7 || (fld x 152 3 != 0) != reduces || decide (6 ≤ fld x 156 3) || (fld x 156 3 == 0 && rnd == rmSr) ||
        fld x 112 2 == 3 || scaleField == 255 || (fld x 121 1 == 1 && fld x 152 3 != 0) || (fld x 121 1 == 0 && fld x 114 3 != 0),
      reqTrap .badOperand va)]

/-- Steps 7 to 13 of R193, with the window rules of R202. A check of several records together names the request, Owner of a BASE that
step 5 has not looked at comes at step 11, before its alignment, and within a step the source is judged whole before the destination: in step 12
where the source leaves its owner, then its allocation, then the destination's (DESIGN CHOICE, log 98). -/
def CopyReq.check (r : CopyReq) (who : Who) (len nlist lst : Nat) (va s d : W64) : Option Trap :=
  let sr := r.src.range r.srcIv
  let dr := r.dst.range r.dstIv
  let mem := r.reg.isNone
  let lands := r.lands
  let owns (y : Layout) : Bool := (owner who.dies who.die y.base).isSome
  let leaves (x : Int × Int) : Bool := decide (x.1 < 0) || decide ((2 : Int) ^ 48 < x.2)
  let outside (y : Layout) (x : Int × Int) : Bool := vaOwn y.base == 5 && decide ((len : Int) < x.2)
  let a := r.src.span who.die r.srcIv
  let b := r.dstSpan who.die
  let misaligned (y : Layout) : Bool := y.base.toNat % elemBytes y.fmt != 0
  firstTrap
    [(!r.typesOk, reqTrap .badOperand va),
     (if r.gs = 0 then nlist != 0 || lst != 0 else r.pads || nlist == 0 || decide (prod r.grid < nlist), reqTrap .badOperand va),
     ((r.box.zip r.blk).any fun x => x.1 % x.2 != 0, reqTrap .badOperand va),
     (decide (2 ^ 40 < r.count) || (r.dst.fmt.width == 4 && r.count % 2 != 0), reqTrap .badOperand va),
     (!owns r.src, reqTrap .protection s), (misaligned r.src, reqTrap .misaligned s),
     (mem && !owns r.dst, reqTrap .protection d), (misaligned r.dst, reqTrap .misaligned d),
     (leaves sr, reqTrap .badOperand s), (outside r.src sr, reqTrap .protection s),
     (mem && lands && leaves dr, reqTrap .badOperand d), (mem && lands && outside r.dst dr, reqTrap .protection d),
     (!mem && lands && (decide (dr.1 < 0) || decide ((512 * ((r.reg.map fun x => x.2).getD 0) : Int) < dr.2)), reqTrap .badOperand d),
     (mem && decide (a.1 < b.2) && decide (b.1 < a.2), reqTrap .badOperand va)]

/-- The checks of R193 in their order, at issue: the request, or the trap. `dest` is the D field's register (R202), which is looked at last
(DESIGN CHOICE, log 105). -/
def Chip.copyRequest (c : Chip) (t : Strand) (va : W64) (reduces : Bool) (dest : Operand) : CopyReq ⊕ Trap :=
  let who := c.who t
  match owner who.dies who.die va with
  | none => .inr (reqTrap .protection va)
  | some o =>
    if o != 5 then .inr (reqTrap .badOperand va)
    else
      let len := (who.local?.map fun x => x.2.2).getD 0
      let x := leNat (c.localBytes t (vaOff va) 128)
      match requestPlace who va x len with
      | some tr => .inr tr
      | none =>
        let s := fld x 0 18
        let d := fld x 32 18
        let l := fld x 64 18
        let n := fld x 96 16
        let sx := leNat (c.localBytes t s 128)
        let dx := leNat (c.localBytes t d 128)
        let lb := c.localBytes t l (16 * n)
        match requestFields who va x sx dx lb reduces t.rnd with
        | some tr => .inr tr
        | none =>
          let first := match dest with
            | .v m => m.val
            | _ => 0
          let r := CopyReq.ofNat x (Layout.ofNat sx) (Layout.ofNat dx) (blockList (fld sx 4 3) lb n) t.rnd first
          match r.check who len n l va (localVa s) (localVa d) with
          | some tr => .inr tr
          | none =>
            if r.reg.isSome != dest.isV || (r.reg.map fun y => decide (t.regLimit < y.1 + y.2)).getD false then
              .inr (Trap.instr .badOperand 2 0)
            else .inl r

/-! ### Which elements are visited (R194) -/

/-- A visited element: source coordinates, coordinates in the padded box, and whether it is padding. -/
structure Visited where
  s   : List Int
  q   : List Int
  pad : Bool
  deriving DecidableEq, Repr

/-- The digits of a number in mixed radix, the first the fastest. -/
def digits : List Nat → Nat → List Nat
  | [], _ => []
  | n :: ns, i => i % n :: digits ns (i / n)

/-- Coordinates of a box from its block and the place in it, per dimension. -/
def boxCoord (b : List Int) (blk e : List Nat) : List Int := (b.zip (blk.zip e)).map fun x => x.1 * x.2.1 + x.2.2

/-- The `i`-th element of a request. -/
def CopyReq.visit (r : CopyReq) (i : Nat) : Visited :=
  let shift (xs : List Int) : List Int := (r.origin.zip xs).map fun x => x.1 + x.2
  if r.gs = 0 && r.pads then
    let x := digits r.padded i
    let c : List Int := (x.zip r.padLo).map fun y => (y.1 : Int) - y.2
    { s := shift c, q := x.map Int.ofNat, pad := (c.zip r.box).any fun y => decide (y.1 < 0) || decide ((y.2 : Int) ≤ y.1) }
  else
    let n := prod r.blk
    let e := digits r.blk (i % n)
    let g := (digits r.grid (i / n)).map Int.ofNat
    let b := if r.gs = 0 then g else r.list.getD (i / n) []
    { s := shift (boxCoord (if r.gs = 1 then b else g) r.blk e), q := boxCoord (if r.gs = 2 then b else g) r.blk e, pad := false }

/-- The destination element that an element goes to, as its element offset; none where its write is discarded (R195). -/
def CopyReq.target (r : CopyReq) (v : Visited) : Option Int :=
  let t := r.perm.map fun p => v.q.getD p 0
  if (t.zip r.dst.dims).all fun x => decide (0 ≤ x.1) && decide (x.1 < x.2.extent) then some (r.dst.offset t) else none

/-- The source element that a data element reads, clamped to the edge (R195). -/
def CopyReq.source (r : CopyReq) (v : Visited) : Int :=
  r.src.offset ((v.s.zip r.src.dims).map fun x => min (max x.1 0) ((x.2.extent : Int) - 1))

/-- Whether some data element of a request goes to a destination element (R198), be it one that a failing element before it keeps from being
visited (R182; DESIGN CHOICE, log 99). -/
def CopyReq.dataAt (r : CopyReq) (o : Int) : Bool :=
  (List.range r.count).any fun i => let v := r.visit i; !v.pad && r.target v == some o

/-! ### Values in flight (R198 to R201) -/

/-- The datum of an element's bits. -/
def elemVal (et : ElemType) (x : Nat) : FVal :=
  match et.ffmt with
  | some F => F.decode x
  | none => let n := et.intVal x; .fin (decide (n < 0)) n.natAbs 0

/-- An integer of a type from an exact datum (R199): rounded, and clamped or taken modulo 2^w; `wide` asks for the clamp. -/
def intOf (et : ElemType) (rm : Nat) (wide : Bool) (v : FVal) : Nat :=
  let lo := minInt et.signedInt et.width
  let hi := maxInt et.signedInt et.width
  match v with
  | .nan _ => 0
  | .inf n => wrapInt et.width (if n then lo else hi)
  | .fin s m e =>
    let k : Int := (roundInt rm s 0 m e false).1
    (reduceInt et.signedInt et.width wide (if s then -k else k)).1

/-- Convert of R199 on an element's bits. A zero product has the sign of its factors, an integer's 0 counting as +0 (R26; DESIGN CHOICE,
log 100). -/
def CopyReq.convert (r : CopyReq) (x : Nat) : Nat :=
  let fs := r.src.fmt
  let fd := r.dst.fmt
  if fs = fd && r.scale = one32 then x
  else
    let v := ((elemVal fs x).mul (FFmt.f32.decode r.scale.toNat)).1
    match fd.ffmt with
    | some F => (F.round r.rm r.sat false 0 v.exact).1
    | none => intOf fd r.rm (fs.isFloat || r.sat) v

/-- The pad value in the destination format (R198). -/
def CopyReq.padBits (r : CopyReq) : Nat :=
  match r.dst.fmt with
  | .f64 => widen32 r.padVal.toNat
  | .i64 => (r.padVal.signExtend 64).toNat
  | et => r.padVal.toNat % 2 ^ et.width

/-- Whether the element to be converted times SCALE is NaN (R199, R200): E2M1 has no NaN that the converted element could show. -/
def CopyReq.nanAt (r : CopyReq) (x : Nat) (pad : Bool) : Bool :=
  !pad && ((elemVal r.src.fmt x).mul (FFmt.f32.decode r.scale.toNat)).1.isNan

/-- The lesser or greater of two elements (R200): a NaN in either (`nan` for one that the conversion met) gives the canonical NaN, which
for E2M1 is +0. -/
def redMinMax (et : ElemType) (mx nan : Bool) (d y : Nat) : Nat :=
  match et.ffmt with
  | some F =>
    let a := F.decode d
    let b := F.decode y
    if nan || a.isNan || b.isNan then F.nanBits else (F.round rmRne false false 0 (fpChoose mx a b).exact).1
  | none => if (decide (et.intVal y < et.intVal d)) != mx then y else d

/-- What TRED writes over `d` for a source element or the pad value `x` (R200). -/
def CopyReq.reduce (r : CopyReq) (d x : Nat) (pad : Bool) : Nat :=
  let fd := r.dst.fmt
  let y := if pad then x else r.convert x
  match r.red with
  | .none => y
  | .add =>
    match fd.ffmt with
    | some F =>
      let v := if pad then F.decode x else ((elemVal r.src.fmt x).mul (FFmt.f32.decode r.scale.toNat)).1
      (F.round r.rm r.sat false 0 (FVal.add r.rm (F.decode d) v).1).1
    | none => (reduceInt fd.signedInt fd.width r.sat (fd.intVal d + (if pad then fd else r.src.fmt).intVal x)).1
  | .min => redMinMax fd false (r.nanAt x pad) d y
  | .max => redMinMax fd true (r.nanAt x pad) d y
  | .and => d &&& y
  | .or => d ||| y
  | .xor => d ^^^ y

end Sys2Proof.Machine
end

