-- ==== Sys2Proof/Machine/Engine.lean ====
section
/-! DEFINITION. Engine operations: registration, range locks, charge and count-down (08_barrier R173 to R182, 19 R400 to R403), and the copy
engine (09_layout R195 to R202). -/

namespace Sys2Proof.Machine

/-! ### Registration -/

/-- The accessor that an engine operation is. -/
def Chip.engineWho (c : Chip) (o : EngineOp) : Who :=
  { ctx := o.ctx, dies := ((c.ctx o.ctx).map fun x => x.dies).getD [], die := o.core / Config.coresPerDie, local? := c.localRun o.gid }

/-- A lock of an operation on an interval of canonical addresses under an owner; local store is the group's own. -/
def EngineOp.lock (o : EngineOp) (own : Nat) (lo hi : Nat) (source : Bool) : Lock :=
  { ctx := o.ctx, gid := if own = 5 then some o.gid else none, lo := lo, hi := hi, source := source, op := o.id }

/-- The locks that an operation registers (R179, R202, R266). -/
def EngineOp.locks (o : EngineOp) : List Lock :=
  let die := o.core / Config.coresPerDie
  let lockAt (va : W64) (n : Nat) (source : Bool) : Lock :=
    let a := (canonical die va).toNat
    o.lock (vaOwn va) a (a + n) source
  match o.kind with
  | .copy r _ _ _ =>
    let a := r.src.span die r.srcIv
    let b := r.dstSpan die
    o.lock (vaOwn r.src.base) a.1 a.2 true :: (if r.reg.isSome then [] else [o.lock (vaOwn r.dst.base) b.1 b.2 false])
  | .lsend q _ _ _ _ => [lockAt q.src q.count true]
  | .lred q .. =>
    let w := q.fmt.width / 8
    [lockAt q.src (q.count * (if q.resid.isSome then 4 else w)) true, lockAt q.dst (q.count * w) false] ++
      (match q.resid with
        | some off => [lockAt (localVa off) (4 * q.count) false]
        | none => [])

/-- Whether a core's range-lock table has room for an operation (R402). -/
def Chip.lockRoom (c : Chip) (o : EngineOp) : Bool := decide ((c.core o.core).locks.length + o.locks.length ≤ Config.lockEntries)

/-- Replace an operation in flight. -/
def Chip.setEngine (c : Chip) (o : EngineOp) : Chip := { c with engines := c.engines.map fun x => if x.id = o.id then o else x }

/-- Count `n` bytes of an operation down (R173, R174): with the last byte its register window fills (R202); its locks go with its
object's phase, or at once if the object's group has gone. -/
def Chip.countDown (c : Chip) (o : EngineOp) (n : Nat) : Chip :=
  let o := { o with counted := o.counted + n }
  let c := c.setEngine o
  let c := match o.prod with
    | some p => if o.finished then c.updStrand o.sid fun t => t.fillFor p else c
    | none => c
  if (c.barPlace o.gid o.obj).isNone && o.finished then c.releaseOp o else c.engineBar o.gid o.obj (-(n : Int))

/-- Whether the failure at `pos` of an operation's iteration order replaces the address in its object's FVA: that of an operation registered
later, or of a later place of its own, which failed first (R182). -/
def Chip.ousts (c : Chip) (o : EngineOp) (pos : Nat) : Bool :=
  let later := (c.engines.dropWhile fun p => p.id != o.id).drop 1
  c.fvaOps.any fun m => m.gid == o.gid && m.obj == o.obj &&
    (if m.op = o.id then decide (pos < m.pos) else later.any fun p => p.id == m.op)

/-- Whether FAULT of an object is clear. -/
def Chip.faultClear (c : Chip) (gid : Nat) (obj : W64) : Bool :=
  match c.barPlace gid obj with
  | none => false
  | some (core, pa) => !bit (c.readBar core pa).status 2

/-- Set flags of an operation's object, for a failure at `pos` of its iteration order; FVA is the first failing address since FAULT was last
clear, in registration order and within one operation in its iteration order (R171, R182). -/
def Chip.engineFlag (c : Chip) (o : EngineOp) (flag : W64) (va : W64) (pos : Nat := 0) : Chip :=
  let takes := bit flag 2 && (c.ousts o pos || c.faultClear o.gid o.obj)
  let d := c.barStatus o.gid o.obj flag va (c.ousts o pos)
  if takes then
    { d with fvaOps := { gid := o.gid, obj := o.obj, op := o.id, pos := pos } :: d.fvaOps.filter fun m => !(m.gid == o.gid && m.obj == o.obj) }
  else d

/-- The STATUS bits that a link operation of a deterministic context has still to take to its object, with more of them: the address is the
first in iteration order (R182). -/
def EngineOp.flagged (o : EngineOp) (flags fva : W64) (pos : Nat) : EngineOp :=
  let first := bit flags 2 && (!bit o.flags 2 || decide (pos < o.fpos))
  { o with flags := o.flags ||| flags, fva := if first then fva else o.fva, fpos := if first then pos else o.fpos }

/-- Bytes of a link operation land, with STATUS bits, and where in its iteration order it failed: they are counted down, in a deterministic
context at the next epoch end (R269). -/
def Chip.linkLand (c : Chip) (o : EngineOp) (n : Nat) (flags fva : W64) (pos : Nat := 0) : Chip :=
  let o := { o with landed := min o.bytes (o.landed + n) }
  if c.isDet o.ctx then c.setEngine (o.flagged flags fva pos)
  else (if flags = 0 then c else c.engineFlag o flags fva pos).countDown o (o.landed - o.counted)

/-- Whether a link operation of a deterministic context has landed what its next epoch end will take to its object. -/
def EngineOp.unsettled (o : EngineOp) : Bool := decide (o.counted < o.landed) || o.flags != 0

/-- What has landed of a deterministic context's link operation is counted down (R269). -/
def Chip.linkSettle (c : Chip) (o : EngineOp) : Chip :=
  let c := if o.flags = 0 then c else c.engineFlag o o.flags o.fva o.fpos
  c.countDown { o with flags := 0, fva := 0, fpos := 0 } (o.landed - o.counted)

/-- Every byte of a link operation that has not landed is lost (R259, R266). -/
def Chip.loseOp (c : Chip) (o : EngineOp) : Chip := c.linkLand { o with started := true } o.bytes statusLinkfail 0

/-- The communicator slot, CID and GEN of a link operation. -/
def EngineOp.comm (o : EngineOp) : Option (Nat × BitVec 32 × BitVec 32) :=
  match o.kind with
  | .copy _ _ _ _ => none
  | .lsend q cid gen _ _ => some (q.slot, cid, gen)
  | .lred q cid gen .. => some (q.slot, cid, gen)

/-- Whether an operation is one of a slot's communicator as it is installed now: a later installation is another, with the same CID and GEN
too (R262). -/
def EngineOp.on (o : EngineOp) (slot : Nat) (m : Comm) : Bool := o.comm == some (slot, m.cid, m.gen) && o.inst == m.inst

/-- Whether a link operation's communicator is still the valid one of its slot. -/
def Chip.commStands (c : Chip) (o : EngineOp) : Bool :=
  match o.comm with
  | none => true
  | some (slot, _, _) =>
    match Sparse.get? c.comms slot with
    | none => false
    | some m => m.valid && o.on slot m

/-- The next collective of its communicator, with what has reached it (R265, R436). -/
def Chip.numbered (c : Chip) (o : EngineOp) : Chip × EngineOp :=
  match o.kind with
  | .lred q cid gen _ size rank own got order result next ended =>
    match Sparse.get? c.comms q.slot with
    | none => (c, o)
    | some m =>
      if c.commStands o then
        let mine := m.early.filter fun x => x.coll == m.coll
        let c := { c with comms := Sparse.set c.comms q.slot { m with coll := m.coll + 1, early := m.early.filter fun x => x.coll != m.coll } }
        (c, { o with kind := .lred q cid gen m.coll size rank own (got ++ mine.map fun x => (x.rank, x.vals))
                                   (order ++ (mine.map fun x => x.rank) ++ [rank]) result next ended })
      else (c, o)
  | _ => (c, o)

/-- Register an operation (R173, R177, R402): older writes of its core are performed, dirty lines of its ranges are written back, its locks
stand, and its charge is made. A link operation whose communicator no longer stands is lost. -/
def Chip.registerEngine (c : Chip) (o : EngineOp) : Chip :=
  let (c, o) := c.numbered o
  let c := c.drainIf fun p => p.core == o.core
  let c := o.locks.foldl (fun c k => c.flushRange o.core o.ctx k.lo k.hi false) c
  let k := c.core o.core
  let c := { c.setCore o.core { k with locks := k.locks ++ o.locks } with engines := c.engines ++ [o] }
  let c := c.engineBar o.gid o.obj o.bytes
  if c.commStands o then c else c.loseOp o

/-- The register window of a copy (R202): empty, with the copy as producer. -/
def Strand.openWindow (t : Strand) (o : EngineOp) : Strand :=
  match o.kind with
  | .copy r _ _ _ =>
    match r.reg with
    | some (d, n) => foldUpTo (fun j (u : Strand) =>
        u.setVreg (d + j) { lanes := 0, tag := r.dst.fmt, side := side1, fill := .inflight .engine o.id }) n t
    | none => t
  | _ => t

/-- An engine instruction whose checks have passed (R402, R403): it is buffered, registers, or waits for room, with its request as it was
read when it issued (R192). -/
def Chip.engineIssue (c : Chip) (t : Strand) (i : Instr) (o : EngineOp) : Chip × Out :=
  let next (c : Chip) : Chip := { c with nextId := c.nextId + 1 }
  if c.buffers t then (next c, .done ((t.openWindow o).bufferOp i 0 (.engine o)) t.nextPc false)
  else if c.lockRoom o then ((next c).registerEngine o, retires (t.openWindow o))
  else (c, .wait { t with issued := some o } .barrier)

/-- The operation of an engine instruction: the one that has issued and waits for room, under a number of its own, or the one that its
request gives now. One that has not retired when its communicator becomes invalid traps LINK_DOWN at its request `va` (R259, R263). -/
def Chip.engineOut (c : Chip) (t : Strand) (i : Instr) (va : W64) (read : EngineOp ⊕ Trap) : Chip × Out :=
  match t.issued with
  | some o =>
    if !c.commStands o then (c, .stop (reqTrap .linkDown va))
    else c.engineIssue t i { o with id := c.nextId, prod := o.prod.map fun _ => c.nextId }
  | none =>
    match read with
    | .inl o => c.engineIssue t i o
    | .inr tr => (c, .stop tr)

/-- A new operation of the executing strand. -/
def Chip.newEngine (c : Chip) (t : Strand) (obj : W64) (kind : EngineKind) (bytes : Nat) (prod : Bool) : EngineOp :=
  { id := c.nextId, sid := c.cur, gid := c.localGid t, core := t.core, ctx := t.ctx, obj := obj, kind := kind, bytes := bytes,
    counted := 0, landed := 0, flags := 0, fva := 0, started := false, prod := if prod then some c.nextId else none }

/-! ### TCOPY and TRED -/

/-- The fields of an engine instruction (R400). -/
def engineSpec (op : Nat) (d : FieldSpec) : OpSpec := { OpSpec.base op with a := .scalar, b := .scalar, d := d, imm0 := true }

/-- The operation of a TCOPY or TRED as its request stands now (R401). -/
def Chip.copyOp (c : Chip) (f : Frame) (reduces : Bool) (t : Strand) : EngineOp ⊕ Trap :=
  let obj := sVal t 0 f.b
  match c.objectAt t obj 4 with
  | .inr tr => .inr tr
  | .inl _ =>
    match c.copyRequest t (sVal t 0 f.a) reduces f.d with
    | .inr tr => .inr tr
    | .inl r => .inl (c.newEngine t obj (.copy r 0 false []) r.bytes r.reg.isSome)

/-- TCOPY and TRED (R401). The engine instructions of a paired strand execute once, with the low half's scalars: R93 and R392 give them to
neither half (DESIGN CHOICE, log 80). -/
def copyOut (f : Frame) (i : Instr) (reduces : Bool) (c : Chip) (t : Strand) : Chip × Out := c.engineOut t i (sVal t 0 f.a) (c.copyOp f reduces t)

def execTcopy (f : Frame) (s : State) : Host.Outcome State Fault Refusal :=
  s.strandInstr (.tcopy f) (engineSpec 0x2C0 (FieldSpec.vec 1).orNone) f (copyOut f (.tcopy f) false)
def execTred (f : Frame) (s : State) : Host.Outcome State Fault Refusal :=
  s.strandInstr (.tred f) (engineSpec 0x2C1 .unused) f (copyOut f (.tred f) true)

/-- Whether two operations overlap (R181): a destination range of one meets a range of the other. -/
def EngineOp.overlaps (a b : EngineOp) : Bool :=
  a.ctx == b.ctx && a.locks.any fun x => b.locks.any fun y =>
    (!x.source || !y.source) && x.gid == y.gid && decide (x.lo < y.hi) && decide (y.lo < x.hi)

/-- Whether an operation's last byte has landed: a link operation of a deterministic context counts it down at the next epoch end (R269). -/
def EngineOp.allLanded (o : EngineOp) : Bool :=
  match o.kind with
  | .copy .. => o.finished
  | _ => o.started && o.landed == o.bytes

/-- Whether every earlier overlapping operation of the core has landed (R181). -/
def Chip.mayStart (c : Chip) (o : EngineOp) : Bool :=
  (c.engines.takeWhile fun x => x.id != o.id).all fun x => x.core != o.core || x.allLanded || !x.overlaps o

/-! ### The copy engine -/

/-- The translations of the pieces of an element, or the address that fails. A peer window whose route is down fails. -/
def Chip.enginePieces (c : Chip) (who : Who) (k : Access) : List (W64 × Nat) → Chip × (List (Xl × Nat) ⊕ W64)
  | [] => (c, .inl [])
  | (va, n) :: rest =>
    match c.translate who k 1 va n with
    | .trap _ => (c, .inr va)
    | .absent p pa => (c.absent p pa, .inr va)
    | .ok x =>
      if x.down then (c, .inr va)
      else
        match c.enginePieces who k rest with
        | (c, .inl xs) => (c, .inl ((x, n) :: xs))
        | y => y

/-- Read pieces at their owners, after the writes of the core that are on their way there. -/
def Chip.readPieces (c : Chip) (core : Nat) : List (Xl × Nat) → Chip × List Byte
  | [] => (c, [])
  | (x, n) :: rest =>
    let a := (c.drainFor core x.place x.pa n).readXl x n
    let b := a.1.readPieces core rest
    (b.1, a.2 ++ b.2)

/-- Write pieces at their owners. -/
def Chip.writePieces (c : Chip) (core : Nat) : List (Xl × Nat) → List Byte → Chip
  | [], _ => c
  | (x, n) :: rest, bs => ((c.drainFor core x.place x.pa n).writeXl x (bs.take n)).writePieces core rest (bs.drop n)

/-- An element's bits in the bytes that hold it. -/
def bitsIn (et : ElemType) (high : Bool) (bs : List Byte) : Nat :=
  let x := leNat bs
  if et.width = 4 then (if high then x / 16 else x % 16) else x

/-- Bytes that hold an element with the element replaced. -/
def bitsOut (et : ElemType) (high : Bool) (bs : List Byte) (v : Nat) : List Byte :=
  if et.width = 4 then
    let x := leNat bs
    leBytes 1 (if high then x % 16 + 16 * v else x / 16 * 16 + v)
  else leBytes (et.width / 8) v

/-- Read a source element. -/
def Chip.readElement (c : Chip) (who : Who) (core : Nat) (l : Layout) (o : Int) : Chip × (Nat ⊕ W64) :=
  match c.enginePieces who .engineRead (l.pieces o) with
  | (c, .inr va) => (c, .inr va)
  | (c, .inl xs) =>
    let r := c.readPieces core xs
    (r.1, .inl (bitsIn l.fmt (highNibble l.fmt o) r.2))

/-- Whether a write meets a cell that is not VALUE (R155). -/
def Chip.cellSkips (c : Chip) (xs : List (Xl × Nat)) : Chip × Bool :=
  let c := xs.foldl (fun c x => if x.1.cell then c.pull x.1.mig x.2 else c) c
  (c, xs.any fun x => x.1.cell && c.tagOf x.1 != tagValue)

/-- Put a value into a destination element: `new` gives what is written over what was there. The result says whether the write was skipped
at a cell, or the address that fails. What a TRED reads there needs W alone (R211; DEDUCED, log 104). -/
def Chip.writeElement (c : Chip) (who : Who) (core : Nat) (l : Layout) (o : Int) (new : Nat → Nat) : Chip × (Bool ⊕ W64) :=
  match c.enginePieces who .engineWrite (l.pieces o) with
  | (c, .inr va) => (c, .inr va)
  | (c, .inl xs) =>
    match c.cellSkips xs with
    | (c, true) => (c, .inl true)
    | (c, false) =>
      let r := c.readPieces core xs
      let h := highNibble l.fmt o
      (r.1.writePieces core xs (bitsOut l.fmt h r.2 (new (bitsIn l.fmt h r.2))), .inl false)

/-- Land an element of a register window (R202): where its register still waits for the copy. -/
def Strand.landWindow (t : Strand) (op d : Nat) (et : ElemType) (o : Int) (v : Nat) : Strand :=
  let b := ((o * et.width).ediv 8).toNat
  (leBytes (elemBytes et) v).zipIdx.foldl (fun t x =>
    let k := b + x.2
    let n := d + k / 512
    let r := t.vreg n
    if r.fill.awaits op then
      let at_ := 8 * (k % 512)
      let lanes := if et.width = 4 then
          putBits r.lanes (at_ + if o % 2 = 1 then 4 else 0) (BitVec.ofNat 4 v)
        else putBits r.lanes at_ x.1
      t.setVreg n { r with lanes := lanes }
    else t) t

/-- Treat one visited element of a copy (R195, R198): the address that fails, if one does, and the destination elements met. -/
def Chip.copyElement (c : Chip) (o : EngineOp) (r : CopyReq) (i : Nat) (met : List (Nat × Bool)) : Chip × Option W64 × List (Nat × Bool) :=
  let v := r.visit i
  match r.target v with
  | none => (c, none, met)
  | some k =>
    let key := ((vaOff r.dst.base : Int) * 8 + k * r.dst.fmt.width).toNat
    let seen := met.any fun m => m.1 == key
    let c := if seen then c.engineFlag o statusCollide 0 else c
    let met := (key, !v.pad) :: met
    if v.pad && (seen || r.dataAt k) then (c, none, met)
    else
      let who := c.engineWho o
      let x := if v.pad then (c, Sum.inl r.padBits) else c.readElement who o.core r.src (r.source v)
      match x.2 with
      | .inr va => (x.1, some va, met)
      | .inl y =>
        match r.reg with
        | some (d, _) =>
          (x.1.updStrand o.sid fun t => t.landWindow o.id d r.dst.fmt k (if v.pad then y else r.convert y), none, met)
        | none =>
          let z := x.1.writeElement who o.core r.dst k fun old =>
            if r.red = .none then (if v.pad then y else r.convert y) else r.reduce old y v.pad
          match z.2 with
          | .inr va => (z.1, some va, met)
          | .inl skipped => (if skipped then z.1.engineFlag o statusCellskip 0 else z.1, none, met)

/-- Treat `n` elements from the `i`-th on, until one fails (R182). -/
def Chip.copyRun (c : Chip) (o : EngineOp) (r : CopyReq) : Nat → Nat → List (Nat × Bool) → Chip × Bool × List (Nat × Bool)
  | 0, _, met => (c, false, met)
  | n + 1, i, met =>
    match c.copyElement o r i met with
    | (c, some va, met) => (c.engineFlag o statusFault va i, true, met)
    | (c, none, met) => c.copyRun o r n (i + 1) met

/-- Land and count down as many whole elements as the next `n` bytes of a copy hold, or as are left (R173). -/
def Chip.copyCountDown (c : Chip) (o : EngineOp) (r : CopyReq) (next : Nat) (ended : Bool) (met : List (Nat × Bool)) (n : Nat) : Chip :=
  let goal := min o.bytes (o.counted + n)
  let upTo := max next (8 * goal / r.dst.fmt.width)
  let x := if ended then (c, true, met) else c.copyRun o r (upTo - next) next met
  x.1.countDown { o with kind := .copy r upTo x.2.1 x.2.2 } (upTo * r.dst.fmt.width / 8 - o.counted)

end Sys2Proof.Machine
end

