-- ==== Sys2Proof/Machine/Links.lean ====
section
/-! DEFINITION. Communicators and link operations (13_link R262 to R269, R436 of 24_program_multichip_dot), and the steps of the engines.
What leaves the device goes to the outbox; what arrives is an event of the opcode table. -/

namespace Sys2Proof.Machine

/-! ### The link request (R264, R265) -/

/-- A link request as its bytes give it. -/
def LinkReq.ofNat (x rnd : Nat) (det : Bool) : LinkReq :=
  { slot := fld x 24 8, src := BitVec.ofNat 64 (fld x 256 64), dst := BitVec.ofNat 64 (fld x 320 64), count := fld x 216 40,
    fmt := ElemType.ofCode (BitVec.ofNat 4 (fld x 20 4)), rm := if fld x 17 3 = 0 then rnd else fld x 17 3, sat := fld x 16 1 == 1,
    arrival := fld x 15 1 == 1 && !det, red := redOf (fld x 12 3), peer := fld x 8 4, sigaddr := BitVec.ofNat 64 (fld x 384 64),
    sigval := BitVec.ofNat 64 (fld x 448 64), resid := if fld x 210 1 = 1 then some (fld x 192 18) else none }

/-- Reserved fields are zero, those that the instruction does not use included (R264). -/
def linkClean (x : Nat) (lred : Bool) : Bool :=
  fld x 211 5 == 0 && fld x 32 160 == 0 && fld x 0 8 == 0 &&
  (if lred then fld x 384 128 == 0 && fld x 8 4 == 0 else fld x 192 19 == 0 && fld x 12 12 == 0)

/-- Permitted formats of a reduction (R267). -/
def lredTypes (fmt : ElemType) (red : Red) : Bool :=
  let both := fmt == .i32 || fmt == .n32 || fmt == .i64
  match red with
  | .none => false
  | .add | .min | .max => both || (fmt.isFloat && fmt != .e2m1)
  | .and | .or | .xor => both || fmt == .b32

/-- Bytes of an element of a link operation's source and destination. -/
def LinkReq.dstBytes (q : LinkReq) (lred : Bool) : Nat := if lred then elemBytes q.fmt else 1
def LinkReq.srcBytes (q : LinkReq) (lred : Bool) : Nat := if q.resid.isSome then 4 else q.dstBytes lred

/-- Steps 4 to 7 of R265. -/
def LinkReq.check (q : LinkReq) (who : Who) (len : Nat) (lred : Bool) (rmField rnd : Nat) (m : Comm) (va : W64) : Option Trap :=
  let n := q.dstBytes lred
  let k := q.srcBytes lred
  let off := q.resid.getD 0
  let within (a : W64) (bytes : Nat) : Bool := (owner who.dies who.die a).isSome && decide (vaOff a + bytes ≤ 2 ^ 48)
  let to4 (a : W64) : Bool := decide (vaOwn a ≤ 4)
  let resOk := q.resid.isNone || (q.red == .add && (q.fmt == .f16 || q.fmt == .bf16 || q.fmt == .e4m3 || q.fmt == .e5m2) &&
    decide (off + 4 * q.count ≤ len))
  firstTrap
    [(lred && (!lredTypes q.fmt q.red || decide (6 ≤ rmField) || (rmField == 0 && rnd == rmSr) || !resOk), reqTrap .badOperand va),
     (!vaClean q.src || !vaClean q.dst || !vaClean q.sigaddr, reqTrap .protection va),
     (q.src.toNat % k != 0 || q.dst.toNat % n != 0 || q.sigaddr.toNat % 8 != 0 || off % 16 != 0, reqTrap .misaligned va),
     (!within q.src (q.count * k) || (if lred then !within q.dst (q.count * n) else !to4 q.dst || !to4 q.sigaddr),
      reqTrap .badOperand va),
     (!m.valid, reqTrap .linkDown va)]

/-- The checks of R265 in their order: the request with its communicator, or the trap. -/
def Chip.linkRequest (c : Chip) (t : Strand) (va : W64) (lred : Bool) : (LinkReq × Comm) ⊕ Trap :=
  let who := c.who t
  let len := (who.local?.map fun x => x.2.2).getD 0
  match owner who.dies who.die va with
  | none => .inr (reqTrap .protection va)
  | some o =>
    if o != 5 then .inr (reqTrap .badOperand va)
    else if va.toNat % 64 != 0 then .inr (reqTrap .misaligned va)
    else if len < vaOff va + 64 then .inr (reqTrap .protection va)
    else
      let x := leNat (c.localBytes t (vaOff va) 64)
      let q := LinkReq.ofNat x t.rnd (c.isDet t.ctx)
      if !linkClean x lred || q.count = 0 then .inr (reqTrap .badOperand va)
      else
        match Sparse.get? c.comms q.slot with
        | none => .inr (reqTrap .badOperand va)
        | some m =>
          if m.ctx != t.ctx || (!lred && (decide (m.members.length ≤ q.peer) || q.peer == m.rank)) then .inr (reqTrap .badOperand va)
          else
            match q.check who len lred (fld x 17 3) t.rnd m va with
            | some tr => .inr tr
            | none => .inl (q, m)

/-- The operation of an LSEND or LRED as its request stands now (R401). -/
def Chip.linkOp (c : Chip) (f : Frame) (lred : Bool) (t : Strand) : EngineOp ⊕ Trap :=
  let obj := sVal t 0 f.b
  match c.objectAt t obj 4 with
  | .inr tr => .inr tr
  | .inl _ =>
    match c.linkRequest t (sVal t 0 f.a) lred with
    | .inr tr => .inr tr
    | .inl (q, m) =>
      let kind : EngineKind :=
        if lred then .lred q m.cid m.gen 0 m.members.length m.rank [] [] [] none 0 false else .lsend q m.cid m.gen 0 false
      .inl { c.newEngine t obj kind (q.count * q.dstBytes lred) false with inst := m.inst }

/-- LSEND and LRED (R401). -/
def linkOut (f : Frame) (i : Instr) (lred : Bool) (c : Chip) (t : Strand) : Chip × Out := c.engineOut t i (sVal t 0 f.a) (c.linkOp f lred t)

def execLsend (f : Frame) (s : State) : Host.Outcome State Fault Refusal :=
  s.strandInstr (.lsend f) (engineSpec 0x2C2 .unused) f (linkOut f (.lsend f) false)
def execLred (f : Frame) (s : State) : Host.Outcome State Fault Refusal :=
  s.strandInstr (.lred f) (engineSpec 0x2C3 .unused) f (linkOut f (.lred f) true)

/-! ### Communicators -/

/-- Something leaves the device. -/
def Chip.send (c : Chip) (m : OutMsg) : Chip := { c with outbox := c.outbox ++ [m] }

/-- The valid slot whose record holds a CID and GEN (R262); of several the lowest (DESIGN CHOICE, log 109). -/
def Chip.commOf (c : Chip) (cid gen : BitVec 32) : Option (Nat × Comm) :=
  c.comms.find? fun x => x.2.valid && x.2.cid == cid && x.2.gen == gen

/-- The first hop to a member. -/
def Comm.linkTo (m : Comm) (rank : Nat) : Nat := (m.members.getD rank default).link

/-- The other members' ranks. -/
def Comm.others (m : Comm) : List Nat := (List.range m.members.length).filter (· != m.rank)

/-- Whether a device link is up. -/
def Chip.linkUp (c : Chip) (l : Nat) : Bool := (Sparse.getD c.links l Link.reset).state == .up

/-- Operations on a communicator that have not counted every byte. -/
def Chip.commOps (c : Chip) (slot : Nat) (m : Comm) : List EngineOp :=
  c.engines.filter fun o => o.on slot m && decide (o.landed < o.bytes)

/-- Whether an operation is an LRED. -/
def EngineOp.isLred (o : EngineOp) : Bool :=
  match o.kind with
  | .lred .. => true
  | _ => false

/-- Whether an operation is the LRED of a collective of a slot's communicator. -/
def EngineOp.isColl (o : EngineOp) (slot : Nat) (m : Comm) (coll : Nat) : Bool :=
  o.on slot m && (match o.kind with
    | .lred _ _ _ k .. => k == coll
    | _ => false)

/-- Lose operations, as they now stand. -/
def Chip.loseOps (c : Chip) (os : List EngineOp) : Chip :=
  os.foldl (fun c o => match c.engines.find? fun x => x.id == o.id with
    | some x => c.loseOp x
    | none => c) c

/-- A communicator becomes invalid (R259): aborts leave for the members that can be reached if an LRED is in progress, and the bytes of its
operations are lost. -/
def Chip.markInvalid (c : Chip) (slot : Nat) : Chip :=
  match Sparse.get? c.comms slot with
  | none => c
  | some m =>
    if !m.valid then c
    else
      let ops := c.commOps slot m
      let c := { c with comms := Sparse.set c.comms slot { m with valid := false, early := [], roots := [] }, sentOps := c.sentOps.filter fun x => x.2.1 != slot }
      let c := if ops.any EngineOp.isLred then
          (m.others.filter fun r => c.linkUp (m.linkTo r)).foldl (fun c r => c.send (.abort (m.linkTo r) m.cid m.gen m.rank)) c
        else c
      c.loseOps ops

/-! ### LSEND -/

/-- The bytes of [va, va + n) up to the next 64-byte boundary. -/
def chunkLen (va : W64) (n : Nat) : Nat := min n (64 - va.toNat % 64)

/-- Read bytes from an address on by an engine, until one fails: the bytes read and the address that fails. -/
def Chip.readRun (c : Chip) (who : Who) (core : Nat) : Nat → W64 → Nat → Chip × List Byte × Option W64
  | 0, _, _ => (c, [], none)
  | fuel + 1, va, n =>
    if n = 0 then (c, [], none)
    else
      let k := chunkLen va n
      match c.enginePieces who .engineRead [(va, k)] with
      | (c, .inr bad) => (c, [], some bad)
      | (c, .inl xs) =>
        let r := c.readPieces core xs
        let more := r.1.readRun who core fuel (va + BitVec.ofNat 64 k) (n - k)
        (more.1, r.2 ++ more.2.1, more.2.2)

/-- LSEND sends its next `n` bytes (R266): where its source fails, it ends, and the bytes that it has not sent are counted. -/
def Chip.sendNext (c : Chip) (o : EngineOp) (q : LinkReq) (cid gen : BitVec 32) (sent n : Nat) : Chip :=
  let n := min n (q.count - sent)
  let r := c.readRun (c.engineWho o) o.core (n + 1) (q.src + BitVec.ofNat 64 sent) n
  let bs := r.2.1
  let done := sent + bs.length
  let c := match Sparse.get? r.1.comms q.slot with
    | none => r.1
    | some m =>
      if bs.isEmpty then r.1
      else
        let last := if done = q.count && q.sigaddr != 0 then some (q.sigaddr, q.sigval) else none
        r.1.send (.data (m.linkTo q.peer) { dev := (m.members.getD q.peer default).dev, cid := cid, gen := gen, rank := m.rank,
                                            payload := .data o.id (q.dst + BitVec.ofNat 64 sent) bs last })
  match r.2.2 with
  | none => c.setEngine { o with kind := .lsend q cid gen done false }
  | some bad => c.linkLand { o with kind := .lsend q cid gen done true } (q.count - done) statusFault bad done

/-- LSEND_ACK (R266): bytes that the receiver has performed are counted; a failure there ends the operation. -/
def Chip.lsendAck (c : Chip) (op n : Nat) (r : AckResult) : Chip :=
  match c.engines.find? fun o => o.id == op with
  | none => c
  | some o =>
    match o.kind with
    | .lsend q cid gen sent ended =>
      if o.bytes ≤ o.landed then c
      else
        match r with
        | .ok =>
          let unsent := if ended then 0 else q.count - sent
          let n := min n (o.bytes - o.landed - unsent)
          if n = 0 then c else c.linkLand o n 0 0
        | .fault va =>
          c.linkLand { o with kind := .lsend q cid gen sent true } o.bytes statusFault va (min q.count (va.toNat - q.dst.toNat))
    | _ => c

/-! ### LRED -/

/-- The format of a node (R37). -/
def nodeFmt (fmt : ElemType) : FFmt := if fmt = .f64 then .f64 else .f32

/-- Whether a reduction acts on bits. -/
def Red.bitwise : Red → Bool
  | .and | .or | .xor => true
  | _ => false

/-- An element's bits as a leaf (R267): a float widened exactly, an integer's value, or bits for a bitwise reduction. -/
def LinkReq.leaf (q : LinkReq) (x : Nat) : NodeVal :=
  match q.fmt.ffmt with
  | some F => .fp (BitVec.ofNat 64 ((nodeFmt q.fmt).round rmRne false false 0 (F.decode x).exact).1)
  | none => if q.red.bitwise then .int (x : Int) else .int (q.fmt.intVal x)

/-- A node of two children, the left one first (R37, R267, R436). -/
def LinkReq.node (q : LinkReq) (a b : NodeVal) : NodeVal :=
  match a, b with
  | .absent, y => y
  | x, .absent => x
  | .fp x, .fp y =>
    let F := nodeFmt q.fmt
    let u := F.decode x.toNat
    let v := F.decode y.toNat
    match q.red with
    | .add => .fp (BitVec.ofNat 64 (F.round q.rm false false 0 (FVal.add q.rm u v).1).1)
    | r => .fp (BitVec.ofNat 64 (if u.isNan || v.isNan then F.nanBits
                                 else (F.round rmRne false false 0 (fpChoose (r == .max) u v).exact).1))
  | .int x, .int y =>
    match q.red with
    | .add => .int (x + y)
    | .min => .int (min x y)
    | .max => .int (max x y)
    | .and => .int ((x.toNat &&& y.toNat : Nat) : Int)
    | .or => .int ((x.toNat ||| y.toNat : Nat) : Int)
    | _ => .int ((x.toNat ^^^ y.toNat : Nat) : Int)
  | x, _ => x

/-- The root converted once to the buffer's format (R267), as bits. An element to which no member contributed is +0 (R26, R266). -/
def LinkReq.root (q : LinkReq) (v : NodeVal) : NodeVal :=
  let w := q.fmt.width
  match v with
  | .absent => .int 0
  | .fp x =>
    match q.fmt.ffmt with
    | some F => .int ((F.round q.rm q.sat false 0 ((nodeFmt q.fmt).decode x.toNat).exact).1 : Nat)
    | none => .int (x.toNat % 2 ^ w : Nat)
  | .int n => .int (if q.red = .add then (reduceInt q.fmt.signedInt w q.sat n).1 else wrapInt w n : Nat)

/-- Whether a member's values suit an operation: one for each element, of its kind. Others show that the members disagree (R265). -/
def LinkReq.suits (q : LinkReq) (vals : List NodeVal) : Bool :=
  vals.length == q.count && vals.all fun v => match v with
    | .absent => true
    | .fp _ => q.fmt.ffmt.isSome
    | .int _ => q.fmt.ffmt.isNone

/-- The root's bits as a member takes them from the tree: an element that is no datum of its format is one that the members' disagreement
leaves unspecified (R265), a free value (log 36). -/
def LinkReq.taken (q : LinkReq) (ctr : Nat) (vals : List NodeVal) : List NodeVal :=
  (List.range q.count).map fun e =>
    let free : NodeVal := .int ((Config.freeWord (ctr + e)).toNat % 2 ^ q.fmt.width : Nat)
    match vals.getD e .absent with
    | .int k => if 0 ≤ k ∧ k < 2 ^ q.fmt.width then .int k else free
    | _ => free

/-- A contribution with a residual (R268): its leaf, and the new residual. -/
def LinkReq.contribution (q : LinkReq) (x res : Nat) : NodeVal × Nat :=
  let a := FFmt.f32.decode x
  let b := FFmt.f32.decode res
  match q.fmt.ffmt with
  | none => (.absent, 0)
  | some F =>
    let y := (F.round q.rm q.sat false 0 (FVal.add q.rm a b).1).1
    let v := F.decode y
    (q.leaf y, match v with
      | .fin _ _ _ => (FFmt.f32.round rmRne false false 0 ((((Acc.zero.add a).add b).add v.neg).sum rmRne).1).1
      | _ => 0)

/-- The layout of a run of `n` elements. -/
def runLayout (base : W64) (fmt : ElemType) (n : Nat) : Layout :=
  { base := base, fmt := fmt, swu := 0, swr := 0, dims := [{ extent := n, stride := 1 }] }

/-- A member's contribution from element `e` on, until a read fails: its leaves, and the address that fails. An element whose residual cannot be
read contributes its source bits as they stand (DESIGN CHOICE, log 110). -/
def Chip.contribute (c : Chip) (o : EngineOp) (q : LinkReq) : Nat → Nat → Chip × List NodeVal × Option W64
  | 0, _ => (c, [], none)
  | n + 1, e =>
    let who := c.engineWho o
    let l := runLayout q.src (if q.resid.isSome then .f32 else q.fmt) q.count
    match c.readElement who o.core l e with
    | (c, .inr va) => (c, [], some va)
    | (c, .inl x) =>
      let leaf : Chip × NodeVal := match q.resid with
        | none => (c, q.leaf x)
        | some off =>
          let rl := runLayout (localVa off) .f32 q.count
          match c.readElement who o.core rl e with
          | (c, .inr _) => (c, q.leaf x)
          | (c, .inl r) =>
            let y := q.contribution x r
            ((c.writeElement who o.core rl e fun _ => y.2).1, y.1)
      let more := leaf.1.contribute o q n (e + 1)
      (more.1, leaf.2 :: more.2.1, more.2.2)

/-- The width of the subtree that a rank roots: the greatest power of two that divides it; 16 for rank 0. -/
def subtree (rank : Nat) : Nat := if rank = 0 then 16 else if rank % 2 = 1 then 1 else if rank % 4 = 2 then 2 else if rank % 8 = 4 then 4 else 8

/-- The ranks of a member's children in a tree of `size` members, in the order that its nodes are computed. -/
def treeChildren (size rank : Nat) : List Nat :=
  (([1, 2, 4, 8] : List Nat).filter fun s => s < subtree rank && rank + s < size).map (rank + ·)

/-- The ranks whose contributions or nodes a member takes. -/
def LinkReq.takes (q : LinkReq) (size rank : Nat) : List Nat :=
  if q.arrival then (if rank = 0 then (List.range size).filter (· != 0) else []) else treeChildren size rank

/-- The rank that a member's node goes to. -/
def LinkReq.parent (q : LinkReq) (rank : Nat) : Nat := if q.arrival then 0 else rank - subtree rank

/-- The ranks to which a member sends the root on: rank 0 of an ARRIVAL collective to every member, any other down the tree. -/
def LinkReq.below (q : LinkReq) (size rank : Nat) : List Nat :=
  if q.arrival && rank == 0 then (List.range size).filter (· != 0) else treeChildren size rank

/-- The rank that would wait for a member if it disagreed with it about AMODE, and that hears of it (R265). -/
def LinkReq.also (q : LinkReq) (rank : Nat) : List Nat :=
  let p := rank - subtree rank
  if p = 0 then [] else if q.arrival then [p] else [0]

/-- The values that a member holds of a rank: its own, or those received. -/
def valsOf (rank : Nat) (own : List NodeVal) (got : List (Nat × List NodeVal)) (r : Nat) : List NodeVal :=
  if r = rank then own else ((got.find? fun g => g.1 == r).map fun g => g.2).getD []

/-- A member's node (R37, R267, R436): of its own values and those it takes, as the tree orders them, or at rank 0 of an ARRIVAL collective in
their order of arrival. -/
def LinkReq.gather (q : LinkReq) (size rank : Nat) (own : List NodeVal) (got : List (Nat × List NodeVal)) (order : List Nat) : List NodeVal :=
  let ranks := if q.arrival && rank == 0 then order else rank :: q.takes size rank
  (List.range q.count).map fun e => ranks.foldl (fun x r => q.node x ((valsOf rank own got r).getD e .absent)) .absent

/-- Whether nothing that rank 0 took shows that the members disagree (R265). -/
def LinkReq.agrees (q : LinkReq) (size : Nat) (own : List NodeVal) (got : List (Nat × List NodeVal)) : Bool :=
  (q.takes size 0).all fun r => q.suits (valsOf 0 own got r)

/-- Send to members of an operation's communicator. -/
def Chip.sendTo (c : Chip) (slot : Nat) (ranks : List Nat) (mk : Comm → Nat → OutMsg) : Chip :=
  match Sparse.get? c.comms slot with
  | none => c
  | some m => ranks.foldl (fun c r => c.send (mk m (m.linkTo r))) c

/-- A member that has what it takes sends its node on; rank 0 forms the root and sends it to the members (R267, R436). Where what it took
shows that the members disagree, the root's bits are free values; an empty contribution goes to the rank that waits for this member if they
disagree about AMODE, so that the counts complete (R265, log 36). -/
def Chip.lredAdvance (c : Chip) (op : Nat) : Chip :=
  match c.engines.find? fun o => o.id == op with
  | none => c
  | some o =>
    match o.kind with
    | .lred q cid gen coll size rank own got order none next ended =>
      let need := q.takes size rank
      if !o.started || !need.all fun r => got.any fun g => g.1 == r then c
      else
        let node := q.gather size rank own got order
        if rank = 0 then
          let agree := q.agrees size own got
          let root := node.mapIdx fun e v =>
            if agree then q.root v else .int ((Config.freeWord (c.freeCtr + e)).toNat % 2 ^ q.fmt.width : Nat)
          let c := { c with freeCtr := c.freeCtr + q.count }
          let c := c.setEngine { o with kind := .lred q cid gen coll size rank own got order (some root) next ended }
          c.sendTo q.slot (q.below size rank) fun m l => .root l cid gen coll m.rank root
        else
          let tell (c : Chip) (rs : List Nat) (vs : List NodeVal) : Chip := c.sendTo q.slot rs fun m l =>
            .contribution l { cid := cid, gen := gen, coll := coll, rank := m.rank, vals := vs }
          tell (tell c [q.parent rank] node) (q.also rank) []
    | _ => c

/-- Write `n` elements of a result from element `e` on until one fails: the STATUS bits, and the element and address that fail. -/
def Chip.writeResult (c : Chip) (o : EngineOp) (q : LinkReq) (vals : List NodeVal) : Nat → Nat → W64 → Chip × W64 × Option (Nat × W64)
  | 0, _, flags => (c, flags, none)
  | n + 1, e, flags =>
    match vals.getD e .absent with
    | .absent => c.writeResult o q vals n (e + 1) flags
    | v =>
      let x : Nat := match v with
        | .int k => k.toNat
        | .fp w => w.toNat
        | .absent => 0
      match c.writeElement (c.engineWho o) o.core (runLayout q.dst q.fmt q.count) e fun _ => x % 2 ^ q.fmt.width with
      | (c, .inr va) => (c, flags ||| statusFault, some (e, va))
      | (c, .inl skipped) => c.writeResult o q vals n (e + 1) (if skipped then flags ||| statusCellskip else flags)

/-- Land as many whole elements as the next `n` bytes of an LRED's result hold, or as are left (R173, R266). In the iteration order an element's
read comes before its write. -/
def Chip.lredLand (c : Chip) (o : EngineOp) (n : Nat) : Chip :=
  match o.kind with
  | .lred q cid gen coll size rank own got order (some vals) next ended =>
    let goal := min o.bytes (o.landed + n)
    let upTo := max next (goal / elemBytes q.fmt)
    let x := if ended then (c, (0 : W64), none) else c.writeResult o q vals (upTo - next) next 0
    x.1.linkLand { o with kind := .lred q cid gen coll size rank own got order (some vals) upTo (ended || x.2.2.isSome) }
      (upTo * elemBytes q.fmt - o.landed) x.2.1 ((x.2.2.map fun y => y.2).getD 0) ((x.2.2.map fun y => 2 * y.1 + 1).getD 0)
  | _ => c

/-- A started LRED that has no result yet takes the root's bits: it sends them on down the tree, writes them and counts them down (R267). Rank 0
takes none: the root is its own. -/
def Chip.lredTake (c : Chip) (o : EngineOp) (x : RootFlit) : Chip :=
  match o.kind with
  | .lred q cid gen coll size rank own got order none next ended =>
    if rank = 0 then c
    else
      let bits := q.taken c.freeCtr x.vals
      let c := { c with freeCtr := c.freeCtr + q.count }
      let o := { o with kind := .lred q cid gen coll size rank own got order (some bits) next ended }
      let c := (c.setEngine o).sendTo q.slot (q.below size rank) fun m l => .root l cid gen coll m.rank bits
      c.lredLand o o.bytes
  | _ => c

/-- An LRED that has started takes the root that came before it did (R265, log 36). -/
def Chip.lredKept (c : Chip) (op : Nat) : Chip :=
  match c.engines.find? fun o => o.id == op with
  | none => c
  | some o =>
    match o.kind with
    | .lred _ cid gen coll .. =>
      match c.commOf cid gen with
      | none => c
      | some (slot, m) =>
        match m.roots.find? fun y => y.1 == coll && o.isColl slot m coll with
        | none => c
        | some y => { c with comms := Sparse.set c.comms slot { m with roots := m.roots.filter fun z => z.1 != coll } }.lredTake o y.2
    | _ => c

/-- An LRED starts: it reads its source (R266, R268), and goes on with what has come for it. -/
def Chip.lredStart (c : Chip) (o : EngineOp) (q : LinkReq) : Chip :=
  let r := c.contribute o q q.count 0
  let own := r.2.1 ++ List.replicate (q.count - r.2.1.length) .absent
  let o := { o with started := true, kind := match o.kind with
    | .lred q cid gen coll size rank _ got order res next ended => .lred q cid gen coll size rank own got order res next ended
    | k => k }
  let c := match r.2.2 with
    | none => r.1.setEngine o
    | some va =>
      let pos := 2 * r.2.1.length
      if r.1.isDet o.ctx then r.1.setEngine (o.flagged statusFault va pos) else (r.1.engineFlag o statusFault va pos).setEngine o
  (c.lredAdvance o.id).lredKept o.id

/-- LRED_CONTRIBUTION (R267, R436): a contribution or node is taken by its collective, or kept for a collective to come. -/
def Chip.lredContribution (c : Chip) (x : Contribution) : Chip :=
  match c.commOf x.cid x.gen with
  | none => c.send (.refusal x.cid x.gen x.rank)
  | some (slot, m) =>
    match c.engines.find? fun o => o.isColl slot m x.coll with
    | some o =>
      match o.kind with
      | .lred q cid gen coll size rank own got order none next ended =>
        if (q.takes size rank).contains x.rank && !got.any fun g => g.1 == x.rank then
          (c.setEngine { o with kind := .lred q cid gen coll size rank own (got ++ [(x.rank, x.vals)]) (order ++ [x.rank]) none next ended }
            ).lredAdvance o.id
        else c
      | _ => c
    | none =>
      if m.coll ≤ x.coll && !m.early.any fun y => y.coll == x.coll && y.rank == x.rank then
        { c with comms := Sparse.set c.comms slot { m with early := m.early ++ [x] } }
      else c

/-- Keep a root for a collective whose LRED has not started here: only members that disagree send one (R265, log 36). -/
def Chip.keepRoot (c : Chip) (slot : Nat) (m : Comm) (coll : Nat) (x : RootFlit) : Chip :=
  if m.roots.any fun y => y.1 == coll then c else { c with comms := Sparse.set c.comms slot { m with roots := m.roots ++ [(coll, x)] } }

/-- LRED_ROOT (R267): the member writes the root's bits, sends them on down the tree, and counts them down. One that comes before the member's
LRED has started is kept for it. One that finds no valid slot is refused (R262). -/
def Chip.lredRoot (c : Chip) (cid gen : BitVec 32) (coll : Nat) (x : RootFlit) : Chip :=
  match c.commOf cid gen with
  | none => c.send (.refusal cid gen x.rank)
  | some (slot, m) =>
    match c.engines.find? fun o => o.isColl slot m coll with
    | none => if m.coll ≤ coll then c.keepRoot slot m coll x else c
    | some o => if o.started then c.lredTake o x else c.keepRoot slot m coll x

/-! ### Steps of the engines -/

/-- ENGINE_START (R181): an operation starts once every earlier overlapping one has landed. -/
def Chip.engineStart (c : Chip) (op : Nat) : Chip :=
  match c.engines.find? fun o => o.id == op with
  | none => c
  | some o =>
    if o.started || !c.mayStart o then c
    else
      match o.kind with
      | .lred q .. => c.lredStart o q
      | _ => c.setEngine { o with started := true }

def execEngineStart (op : Nat) (s : State) : Host.Outcome State Fault Refusal := s.onChip (s.chip.engineStart op)

/-- Whether a registered operation that has not landed is a copy: it runs to its last byte before the next epoch begins (R185). -/
def EngineOp.copyLeft (o : EngineOp) : Bool :=
  !o.finished && (match o.kind with
    | .copy .. => true
    | _ => false)

/-- Whether an operation may count down (R185): in a deterministic context a copy waits for the operations of its context that were registered
before it and have count-downs to take effect first: its copies, and what its link operations have landed since the epoch ended (R269), which the
end takes to their objects as it goes on (`Chip.closeEpoch`). -/
def Chip.inItsOrder (c : Chip) (o : EngineOp) : Bool :=
  !c.isDet o.ctx || !((c.engines.takeWhile fun x => x.id != o.id).any fun x => x.ctx == o.ctx && (x.copyLeft || x.unsettled))

/-- ENGINE_COUNT_DOWN (R174): the engine goes on with `n` more bytes of an operation that has started. -/
def Chip.engineCountDown (c : Chip) (op n : Nat) : Chip :=
  match c.engines.find? fun o => o.id == op with
  | none => c
  | some o =>
    if !o.started || n = 0 then c
    else
      match o.kind with
      | .copy r next ended met => if o.counted < o.bytes && c.inItsOrder o then c.copyCountDown o r next ended met n else c
      | .lsend q cid gen sent ended => if ended || q.count ≤ sent || o.bytes ≤ o.landed then c else c.sendNext o q cid gen sent n
      | .lred .. => if o.landed < o.bytes then c.lredLand o n else c

def execEngineCountDown (op n : Nat) (s : State) : Host.Outcome State Fault Refusal := s.onChip (s.chip.engineCountDown op n)

def execLsendAck (op n : Nat) (r : AckResult) (s : State) : Host.Outcome State Fault Refusal := s.onChip (s.chip.lsendAck op n r)
def execLredContribution (c : Contribution) (s : State) : Host.Outcome State Fault Refusal := s.onChip (s.chip.lredContribution c)
def execLredRoot (cid gen : BitVec 32) (coll : Nat) (vals : RootFlit) (s : State) : Host.Outcome State Fault Refusal :=
  s.onChip (s.chip.lredRoot cid gen coll vals)

end Sys2Proof.Machine
end

