-- ==== Sys2Proof/Machine/LinkHub.lean ====
section
/-! DEFINITION. Device links, flits and communicator slots at the hub (13_link R256 to R262, 10_page R223, 25_host_power_ras R441). -/

namespace Sys2Proof.Machine

/-! ### Link states (R258 to R260) -/

def Chip.link (c : Chip) (l : Nat) : Link := Sparse.getD c.links l Link.reset
def Chip.setLink (c : Chip) (l : Nat) (x : Link) : Chip := { c with links := Sparse.set c.links l x }

/-- Whether a number is a device link's (R5). -/
def linkNumber (l : Nat) : Bool := decide (l < Config.links)

/-- A saturating count of 16 bits (R260). -/
def sat16 (n : Nat) : Nat := min (n + 1) 0xFFFF

/-- LINKCTL's field of a link (R441). -/
def HubCtl.setLinkCtl (h : HubCtl) (l : Nat) (code : BitVec 2) : HubCtl := { h with linkCtl := putBits h.linkCtl (2 * l) code }

/-- What follows when a link leaves the state up (R259): communicators and peer routes through it become invalid. -/
def Chip.linkLost (c : Chip) (l : Nat) : Chip :=
  let names (m : Comm) : Bool := m.valid && m.others.any fun r => m.linkTo r == l
  let c := (c.comms.filter fun x => names x.2).foldl (fun c x => c.markInvalid x.1) c
  { c with peerRoutes := c.peerRoutes.map fun x => if (bits x.2 0 4 : BitVec 4).toNat = l then (x.1, putBits x.2 4 (0 : BitVec 1)) else x }

/-- A link that is up fails (R258, R259). -/
def Chip.linkFails (c : Chip) (l : Nat) : Chip :=
  let x := c.link l
  if x.state = .up then (c.setLink l { x with state := .failed, fails := sat16 x.fails, sends := [] }).linkLost l else c

/-- LINK_ENABLE. -/
def execLinkEnable (l : Nat) (s : State) : Host.Outcome State Fault Refusal :=
  if linkNumber l then
    let x := s.chip.link l
    s.onHub (if x.state = .off then s.chip.setLink l { x with state := .training, sends := [] } else s.chip) (s.hc.setLinkCtl l 1)
  else .next s

/-- LINK_DISABLE: as a failure, if the link was up. -/
def execLinkDisable (l : Nat) (s : State) : Host.Outcome State Fault Refusal :=
  if linkNumber l then
    let x := s.chip.link l
    let c := s.chip.setLink l { x with state := .off, sends := [] }
    s.onHub (if x.state = .up then c.linkLost l else c) (s.hc.setLinkCtl l 0)
  else .next s

/-- LINK_RETRAIN: a failed link trains again. -/
def execLinkRetrain (l : Nat) (s : State) : Host.Outcome State Fault Refusal :=
  if linkNumber l then
    let x := s.chip.link l
    s.onHub (if x.state = .failed then s.chip.setLink l { x with state := .training, sends := [] } else s.chip) (s.hc.setLinkCtl l 2)
  else .next s

/-- LINK_TRAINED. -/
def execLinkTrained (l pdev plink : Nat) (s : State) : Host.Outcome State Fault Refusal :=
  let x := s.chip.link l
  if linkNumber l && x.state == .training then
    s.onChip (s.chip.setLink l { x with state := .up, pdev := pdev % 16, plink := plink % 16, sends := [] })
  else .next s

/-- LINK_TRAIN_TIMEOUT. -/
def execLinkTrainTimeout (l : Nat) (s : State) : Host.Outcome State Fault Refusal :=
  let x := s.chip.link l
  if linkNumber l && x.state == .training then s.onChip (s.chip.setLink l { x with state := .failed, fails := sat16 x.fails })
  else .next s

/-- LINK_FAIL. -/
def execLinkFail (l : Nat) (s : State) : Host.Outcome State Fault Refusal := s.onChip (s.chip.linkFails l)

/-- Add one to a saturating error counter (R449). -/
def Chip.countError (c : Chip) (n : Nat) : Chip :=
  { c with errCounts := Sparse.set c.errCounts n (min (Sparse.getD c.errCounts n 0 + 1) (2 ^ 64 - 1)) }

/-- FLIT_CHECK_FAIL (R257): the flit is sent again and counted, a heartbeat or an abort not in the link status word (R259); its eighth failed
send in a row fails the link. -/
def execFlitCheckFail (l : LinkFlit) (s : State) : Host.Outcome State Fault Refusal :=
  let x := s.chip.link l.link
  if linkNumber l.link && x.state == .up then
    let c := s.chip.countError 48
    let n := Sparse.getD x.sends l.flit 0 + 1
    if 8 ≤ n then s.onChip (c.linkFails l.link)
    else s.onChip ((c.setLink l.link { x with sends := Sparse.set x.sends l.flit n, replays := if l.quiet then x.replays else sat16 x.replays }).send
      (.resend l.link l.flit))
  else .next s

/-! ### Flits (R256, R262, R266) -/

/-- Write bytes from an address on for a receiver, until one fails. A cell that is not VALUE keeps its bytes (R155). -/
def Chip.writeRun (c : Chip) (who : Who) : Nat → W64 → List Byte → Chip × Option W64
  | 0, _, _ => (c, none)
  | fuel + 1, va, bs =>
    if bs.isEmpty then (c, none)
    else
      let k := min (chunkLen va bs.length) (16 - va.toNat % 16)
      match c.enginePieces who .engineWrite [(va, k)] with
      | (c, .inr bad) => (c, some bad)
      | (c, .inl xs) =>
        let y := c.cellSkips xs
        let c := if y.2 then y.1 else match xs with
          | (x, _) :: _ => y.1.writeXl x (bs.take k)
          | [] => y.1
        c.writeRun who fuel (va + BitVec.ofNat 64 k) (bs.drop k)

/-- The accessor that a receiving hub is, for its communicator's context (R262). -/
def Chip.hubWho (c : Chip) (ctx : Nat) : Who :=
  { ctx := ctx, dies := ((c.ctx ctx).map fun x => x.dies).getD [], die := 0, local? := none }

/-- Change 8 bytes at a translated address, as the hub performs an atomic; a cell that is not VALUE keeps its bytes (R155). -/
def Chip.hubAtomic (c : Chip) (x : Xl) (f : W64 → W64) : Chip :=
  let r := c.readXl x 8
  if x.cell && r.1.tagOf x != tagValue then r.1 else r.1.writeXl x (leBytes 8 (f (BitVec.ofNat 64 (leNat r.2))).toNat)

/-- An atomic add of 8 bytes at an address, as the hub performs it: the address that fails, one whose peer route is down among them
(R223). -/
def Chip.hubAdd (c : Chip) (who : Who) (va v : W64) : Chip × Option W64 :=
  match c.translate who .atomic 8 va 8 with
  | .trap _ => (c, some va)
  | .absent p pa => (c.absent p pa, some va)
  | .ok x => if x.down then (c, some va) else (c.hubAtomic x fun old => old + v, none)

/-- The link that leads to a device by this hub's peer routes, if it can be reached (R261). -/
def Chip.routeTo (c : Chip) (dev : Nat) : Option Nat :=
  let e := Sparse.getD c.peerRoutes dev 0
  let l := (bits e 0 4 : BitVec 4).toNat
  if bit e 4 && c.linkUp l then some l else none

/-- A flit for another device leaves by this hub's route to it (R261); where that has failed its source is refused (R259). -/
def Chip.forward (c : Chip) (f : Flit) : Chip :=
  match c.routeTo f.dev with
  | some l => c.send (.data l f)
  | none => c.send (.refusal f.cid f.gen f.rank)

/-- An LSEND's flit at its receiver (R266): its bytes, and with the last of them its signal. An operation that fails here ends: none of its
flits that follow has an effect (R182). -/
def Chip.dataReceive (c : Chip) (slot : Nat) (m : Comm) (f : Flit) (op : Nat) (dst : W64) (bs : List Byte) (last : Option (W64 × W64)) :
    Chip :=
  let who := c.hubWho m.ctx
  let ack (c : Chip) (r : AckResult) : Chip := c.send (.ack f.cid f.gen f.rank op bs.length r)
  let fail (c : Chip) (bad : W64) : Chip :=
    ack { c with comms := Sparse.update c.comms slot fun m => { m with failed := (f.rank, op, bad) :: m.failed } } (.fault bad)
  match m.failed.find? fun x => x.1 == f.rank && x.2.1 == op with
  | some x => ack c (.fault x.2.2)
  | none =>
    match c.writeRun who (bs.length + 1) dst bs with
    | (c, some bad) => fail c bad
    | (c, none) =>
      match last with
      | none => ack c .ok
      | some (sig, v) =>
        match c.hubAdd who sig v with
        | (c, some bad) => fail c bad
        | (c, none) => ack c .ok

/-- FLIT_RECEIVE at device `dev`: forwarded (R261), or performed in the context of the slot that agrees in CID and GEN, or refused (R262),
a heartbeat too (DEDUCED, log 109). -/
def Chip.flitReceive (c : Chip) (dev : Nat) (f : Flit) : Chip :=
  if f.dev ≠ dev then c.forward f
  else
    match c.commOf f.cid f.gen with
    | none => c.send (.refusal f.cid f.gen f.rank)
    | some (slot, m) =>
      match f.payload with
      | .heartbeat | .other => c
      | .data op dst bs last => c.dataReceive slot m f op dst bs last

/-- This device's number (R261). -/
def HubCtl.device (h : HubCtl) : Nat := (bits h.devNum 0 4 : BitVec 4).toNat

def execFlitReceive (f : Flit) (s : State) : Host.Outcome State Fault Refusal := s.onChip (s.chip.flitReceive s.hc.device f)

/-- REFUSAL_RECEIVE (R259). -/
def execRefusalReceive (slot : Nat) (s : State) : Host.Outcome State Fault Refusal := s.onChip (s.chip.markInvalid slot)

/-- ABORT_RECEIVE (R259). -/
def execAbortReceive (cid gen : BitVec 32) (s : State) : Host.Outcome State Fault Refusal :=
  s.onChip (match s.chip.commOf cid gen with
    | none => s.chip
    | some (slot, _) => s.chip.markInvalid slot)

/-- HEARTBEAT_TICK (R259): a heartbeat leaves for every other member of a valid communicator. -/
def Chip.heartbeat (c : Chip) (slot : Nat) : Chip :=
  match Sparse.get? c.comms slot with
  | none => c
  | some m => if m.valid then c.sendTo slot m.others fun m l => .heartbeat l m.cid m.gen m.rank else c

def execHeartbeatTick (slot : Nat) (s : State) : Host.Outcome State Fault Refusal := s.onChip (s.chip.heartbeat slot)

/-- Whether an LRED still waits for a contribution, a node or the root (R259). -/
def EngineOp.awaits (o : EngineOp) : Bool :=
  match o.kind with
  | .lred q _ _ _ size rank _ got _ none _ _ => rank != 0 || (q.takes size rank).any fun r => !got.any fun g => g.1 == r
  | _ => false

/-- HEARTBEAT_TIMEOUT (R259): only a member acts on it at which an LRED still waits for another. -/
def Chip.heartbeatTimeout (c : Chip) (slot : Nat) : Chip :=
  match Sparse.get? c.comms slot with
  | none => c
  | some m => if (c.commOps slot m).any EngineOp.awaits then c.markInvalid slot else c

def execHeartbeatTimeout (slot : Nat) (s : State) : Host.Outcome State Fault Refusal := s.onChip (s.chip.heartbeatTimeout slot)

/-- Whether a link operation has sent a flit that may not have been acknowledged: an LSEND until its last byte is, an LRED once it has sent
its node on, or the root. -/
def EngineOp.hasSent (o : EngineOp) : Bool :=
  match o.kind with
  | .copy .. => false
  | .lsend _ _ _ sent _ => decide (o.landed < o.bytes) && decide (0 < sent)
  | .lred q _ _ _ size rank _ got _ result _ _ =>
    o.started && (if rank = 0 then result.isSome && !(q.below size rank).isEmpty
                  else (q.takes size rank).all fun r => got.any fun g => g.1 == r)

/-- ACK_TIMEOUT (R259): a flit that has not been acknowledged is lost, that of an LRED which has counted its last byte among them. -/
def Chip.ackTimeout (c : Chip) (op : Nat) : Chip :=
  match c.engines.find? fun o => o.id == op with
  | none =>
    match c.sentOps.find? fun x => x.1 == op with
    | none => c
    | some (_, slot, cid, gen) =>
      match Sparse.get? c.comms slot with
      | none => c
      | some m => if m.cid == cid && m.gen == gen then c.markInvalid slot else c
  | some o =>
    match o.comm with
    | some (slot, _, _) => if o.hasSent && c.commStands o then c.markInvalid slot else c
    | none => c

def execAckTimeout (op : Nat) (s : State) : Host.Outcome State Fault Refusal := s.onChip (s.chip.ackTimeout op)

/-! ### Peer windows (R223) -/

/-- The place of a byte of device memory in the numbering that export ranges use: die by die, near, far and die store (log 20). -/
def devicePhys (p : Place) (pa : Nat) : Option Nat :=
  let size := Config.nearBytes + Config.farBytes + Config.storeBytes
  match p with
  | .near d => some (d * size + pa)
  | .far d => some (d * size + Config.nearBytes + pa)
  | .store d => some (d * size + Config.nearBytes + Config.farBytes + pa)
  | _ => none

/-- Whether bytes of this device lie in what its host has exported. -/
def Chip.exportsHere (c : Chip) (p : Place) (pa n : Nat) : Bool :=
  match devicePhys p pa with
  | none => false
  | some a => Place.has p pa n && !c.bankGone p pa n && c.exported 16 a n

/-- Whether some of the bytes lie in a cell that is not VALUE. -/
def Chip.touchesCell (c : Chip) (p : Place) (pa n : Nat) : Bool :=
  (List.range ((pa + n + 15) / 16 - pa / 16)).any fun i => c.tagAt p (16 * (pa / 16 + i)) != tagValue

/-- Write bytes by physical address, but those of a cell that is not VALUE (R155); lines of a migrating page that they touch have
undefined contents (R219). -/
def Chip.writeOutside (c : Chip) (p : Place) (pa : Nat) (bs : List Byte) : Chip :=
  (if c.touchesCell p pa bs.length then
    bs.zipIdx.foldl (fun c x => if c.tagAt p (pa + x.2) = tagValue then c.writePhys p (pa + x.2) [x.1] else c) c
  else c.writePhys p pa bs).spoil (c.spoilt p pa bs.length)

/-- PEER_WINDOW_REQUEST: performed at the owner of the exported memory, or answered as a failure. -/
def Chip.peerWindow (c : Chip) (dev : Nat) (r : PeerRequest) : Chip :=
  let refuse := c.send (.peerReply dev [] false)
  match r with
  | .read p pa n => if c.exportsHere p pa n then c.send (.peerReply dev (c.readPhys p pa n) true) else refuse
  | .write p pa bs => if c.exportsHere p pa bs.length then (c.writeOutside p pa bs).send (.peerReply dev [] true) else refuse
  | .atomic p pa op et rm x =>
    let n := et.width / 8
    if c.exportsHere p pa n then
      let old := c.readPhys p pa n
      (c.writeOutside p pa (leBytes n (atomNew op et rm.toNat 0 n (leNat old) (x.toNat % 2 ^ (8 * n))))).send (.peerReply dev old true)
    else refuse
  | .swap p pa n cmp x =>
    if c.exportsHere p pa n then
      let old := c.readPhys p pa n
      let new := if leNat old = cmp.toNat % 2 ^ (8 * n) then leBytes n (x.toNat % 2 ^ (8 * n)) else old
      (c.writeOutside p pa new).send (.peerReply dev old true)
    else refuse

def execPeerWindowRequest (dev : Nat) (r : PeerRequest) (s : State) : Host.Outcome State Fault Refusal := s.onChip (s.chip.peerWindow dev r)

/-! ### Communicator records (R262) -/

/-- The communicator in a record, if this device accepts it: `dev` is its device number. -/
def commRecord (x dev : Nat) : Option Comm :=
  let n := fld x 8 4 + 1
  let rank := fld x 0 4
  let m (d : Nat) : Nat := fld x (128 + 32 * d) 32
  let ms := (List.range n).map fun d => ({ dev := fld (m d) 0 4, link := fld (m d) 4 4 } : Member)
  let devs := ms.map fun y => y.dev
  let clean := fld x 640 384 == 0 && fld x 30 34 == 0 && fld x 12 12 == 0 && fld x 4 4 == 0 &&
    (List.range 16).all fun d => fld (m d) 9 23 == 0 && (fld (m d) 8 1 == 1) == decide (d < n)
  if clean && decide (rank < n) && devs.eraseDups.length == n && devs.getD rank 16 == dev then
    some { valid := true, cid := BitVec.ofNat 32 (fld x 64 32), gen := BitVec.ofNat 32 (fld x 96 32), ctx := fld x 24 6, rank := rank,
           members := ms, coll := 0, early := [], failed := [] }
  else none

/-- COMM_INSTALL (R262, R441): operations on the slot's earlier communicator are abandoned as lost; a refused record changes nothing. -/
def execCommInstall (v : W64) (s : State) : Host.Outcome State Fault Refusal :=
  let slot := (bits v 0 8).toNat
  let stat (code : Nat) : W64 := BitVec.ofNat 64 (code + 256 * slot)
  match commRecord s.hc.commWin.toNat s.hc.device with
  | none => s.onHub s.chip { s.hc with commStat := stat 2 }
  | some m =>
    let old := Sparse.get? s.chip.comms slot
    let c := match old with
      | none => s.chip
      | some old => s.chip.loseOps (s.chip.commOps slot old)
    let m := { m with inst := (old.map fun x => x.inst + 1).getD 0 }
    s.onHub { c with comms := Sparse.set c.comms slot m, sentOps := c.sentOps.filter fun x => x.2.1 != slot } { s.hc with commStat := stat 1 }

end Sys2Proof.Machine
end

