-- ==== Sys2Proof/Machine/Task.lean ====
section
/-! DEFINITION. Task instructions (19 R404 to R411; 05_group_strand R113, R114): SPAWN, SPAWND, SIGNAL and CAPRD. GIVE and CLAIM are in
Machine/Groups.lean. -/

namespace Sys2Proof.Machine

/-! ### Spawn records -/

/-- The strand that a spawn record describes (R113, R114, R81), without its token. Each of the two children of a paired parent takes the
coordinates of the parent's low half (DESIGN CHOICE, log 73). -/
def Strand.child (t : Strand) (bs : List Byte) : NewStrand :=
  let foot := Foot.ofWord (wordAt bs 0)
  let w2 := wordAt bs 2
  let die := t.core / Config.coresPerDie
  { ctx := t.ctx, kind := .spawned, pc := wordAt bs 3, args := [wordAt bs 4, wordAt bs 5, wordAt bs 6, wordAt bs 7], regs := foot.regs,
    lookahead := foot.look, granules := foot.grans, maps := foot.maps, cls := (bits w2 0 2).toNat, salt := bits w2 32 32,
    stream := t.stream, isarev := t.isarev, blevel := t.blevel, compat := t.compat, token := 0, parent := t.token, chain := t.chain,
    depth := t.depth + 1, maxDepth := t.maxDepth, ident := t.ident ++ [t.ordinal], root := t.root, launch := t.launch, group := t.group,
    coords := t.coords, die := if bits w2 14 2 = (3 : BitVec 2) then (bits w2 12 2).toNat else die,
    anyDie := bits w2 14 2 == (0 : BitVec 2), wantCore := if bits w2 14 2 = (1 : BitVec 2) then some t.core else none, retry := 0,
    tried := none }

/-- The hint of a spawn record. -/
def hintOf (bs : List Byte) : Nat := (bits (wordAt bs 2) 14 2).toNat

/-- The checks of R405 on a spawn record and a depth: the record's bytes, or the trap. -/
def Chip.spawnRecord (c : Chip) (t : Strand) (va : W64) (count : Option W64) : Chip × (List Byte ⊕ Trap) :=
  if t.isHandler then (c, .inr (Trap.instr .badOperand 0 0))
  else
    match c.translate (c.who t) .load 64 va 64 with
    | .trap x => (c, .inr (Trap.instr x 3 va))
    | .absent p pa => (c.absent p pa, .inr (Trap.instr .pageFault 3 va))
    | .ok x =>
      let r := c.readOwner t { va := x.va, n := 64, xl := some x }
      if x.down then (c, .inr (Trap.instr .linkDown 0 va))
      else if !c.spawnRecordOk (c.who t).dies r.2 then (r.1, .inr (Trap.instr .badOperand 11 va))
      else if (count.getD 0).toNat > 65535 then (r.1, .inr (Trap.instr .badOperand 4 0))
      else if t.depth + 1 > t.maxDepth then (r.1, .inr (Trap.instr .spawnDepth 0 0))
      else (r.1, .inl r.2)

/-! ### Creation -/

/-- A strand is created (R114): it takes the lowest free token and enters its die's pool. -/
def Chip.createStrand (c : Chip) (n : NewStrand) : Chip :=
  let token := c.freshToken n.ctx
  c.enterPool { n with token := token, chain := n.chain ++ [token] }

/-- The lowest free node number of a context. -/
def Chip.freshNode (c : Chip) (ctx : Nat) : Nat :=
  let used := (c.nodes.filter fun x => x.2.strand.ctx == ctx).map fun x => x.1 % 2 ^ 18
  leastFree used 0 (used.length + 1) % 2 ^ 18

/-- A node handle (R407). -/
def nodeHandle (ctx gen index : Nat) : W64 := BitVec.ofNat 64 (ctx % 64 * 2 ^ 34 + gen % 2 ^ 16 * 2 ^ 18 + index % 2 ^ 18)

/-- A node is created with its count (R113, R407): its handle. With count 0 it is at once a spawned strand; its handle, which has used its
number, is invalid for ever. -/
def Chip.createNode (c : Chip) (n : NewStrand) (hint count : Nat) : Chip × W64 :=
  let index := c.freshNode n.ctx
  let gen := Sparse.getD c.nodeUses (nodeKey n.ctx index) 0
  let h := nodeHandle n.ctx gen index
  let c := { c with nodeUses := Sparse.set c.nodeUses (nodeKey n.ctx index) (gen + 1) }
  if count = 0 then (c.createStrand n, h)
  else
    ({ c with nodes := Sparse.set c.nodes (nodeKey n.ctx index) { strand := n, hint := hint, count := count, gen := gen % 2 ^ 16 } }, h)

/-- SIGNAL at the hub (R408): one less; at zero the node's strand is created. -/
def Chip.signalNode (c : Chip) (key : Nat) (n : Node) : Chip :=
  if n.count ≤ 1 then { c with nodes := Sparse.erase c.nodes key }.createStrand n.strand
  else { c with nodes := Sparse.set c.nodes key { n with count := n.count - 1 } }

/-! ### The instructions -/

/-- The checks of a task instruction (R404). -/
def taskSpec (op : Nat) : OpSpec := { OpSpec.base op with imm0 := true }

/-- An instruction executed for each half that does not issue unless every half can. -/
def wholeHalves (hs : List Nat) (one : Nat → Chip → Strand → Chip × Out) (c : Chip) (t : Strand) : Chip × Out :=
  match eachHalf hs one c t with
  | (_, .stall) => (c, .stall)
  | x => x

/-- SPAWN of a half (R405, R406). -/
def spawnHalf (f : Frame) (h : Nat) (c : Chip) (t : Strand) : Chip × Out :=
  match c.spawnRecord t (sVal t h f.a) none with
  | (c, .inr tr) => (c, .stop tr)
  | (c, .inl bs) =>
    let n := t.child bs
    if c.atSpawnQ t.ctx || !c.poolRoom n.die then (c, .stall)
    else
      let u := { t with ordinal := t.ordinal + 1 }
      let c := c.release c.cur t.core t.ctx 3
      if c.buffers t then (c, .done (u.bufferOp (.spawn f) 0 (.spawn n (hintOf bs))) t.nextPc true)
      else (c.createStrand n, retires u)

/-- SPAWND of a half (R405 to R407, R409). -/
def spawndHalf (f : Frame) (h : Nat) (c : Chip) (t : Strand) : Chip × Out :=
  let count := sVal t h f.b
  match c.spawnRecord t (sVal t h f.a) (some count) with
  | (c, .inr tr) => (c, .stop tr)
  | (c, .inl bs) =>
    let n := t.child bs
    if c.atSpawnQ t.ctx || !c.poolRoom n.die || (count != 0 && !c.nodeRoom) then (c, .stall)
    else
      let u := { t with ordinal := t.ordinal + 1 }
      let c := c.release c.cur t.core t.ctx 3
      if c.buffers t then
        (c, .done (u.bufferOp (.spawnd f) 0 (.spawnd n count.toNat ((destScalar h f.d).getD 0))) t.nextPc true)
      else
        let r := c.createNode n (hintOf bs) count.toNat
        (r.1, retires (putS u h f.d r.2))

/-- SIGNAL of a half (R408, R409). A SIGNAL that would fill a full pool does not issue (R76). -/
def signalHalf (f : Frame) (h : Nat) (c : Chip) (t : Strand) : Chip × Out :=
  let v := sVal t h f.a
  if c.buffers t then
    if (c.nodeOf t.ctx v).any fun x => decide (x.2.count = c.bufferedSignals t.ctx x.1 + 1) && !c.poolRoom x.2.strand.die then (c, .stall)
    else (c.release c.cur t.core t.ctx 3, .done (t.bufferOp (.signal f) 0 (.signal v)) t.nextPc true)
  else
    match c.nodeOf t.ctx v with
    | none => (c, .stop (Trap.instr .badOperand 3 0))
    | some (key, n) =>
      if n.count ≤ 1 && !c.poolRoom n.strand.die then (c, .stall)
      else ((c.release c.cur t.core t.ctx 3).signalNode key n, retires t)

def execSpawn (f : Frame) (s : State) : Host.Outcome State Fault Refusal :=
  s.strandInstr (.spawn f) { taskSpec 0x2E0 with a := .scalar } f (afterLoads fun c t => wholeHalves t.halves (spawnHalf f) c t)
def execSpawnd (f : Frame) (s : State) : Host.Outcome State Fault Refusal :=
  s.strandInstr (.spawnd f) { taskSpec 0x2E1 with d := .scalar, a := .scalar, b := FieldSpec.scalar.orZero } f
    (afterLoads fun c t => wholeHalves t.halves (spawndHalf f) c t)
def execSignal (f : Frame) (s : State) : Host.Outcome State Fault Refusal :=
  s.strandInstr (.signal f) { taskSpec 0x2E2 with a := .scalar } f (afterLoads fun c t => wholeHalves t.halves (signalHalf f) c t)

/-! ### Facts (R86, R87, R411) -/

/-- The floor level from `b` up, within `fuel` levels: the lowest at which every later erratum's old expansion is carried (R88). -/
def floorFrom (es : List Erratum) : Nat → Nat → Nat
  | b, 0 => b
  | b, fuel + 1 => if es.all fun e => e.fixLevel ≤ b || e.carried then b else floorFrom es (b + 1) fuel

/-- The floor level of an expansion table. -/
def floorLevel (fw : Firmware) : Nat := floorFrom fw.errata 0 fw.level

/-- A pair fact's 64-bit value: rows in the low word. -/
def pairFact (rows cols : Nat) : Nat := rows + cols * 2 ^ 32

/-- The value of a fact in the native view; 0 for a number not in the table and for a string (R86, R87). -/
def factNative (fw : Firmware) (n : Nat) : Nat :=
  match n with
  | 0x0001 => 128 | 0x0002 => 320 | 0x0003 => 256 | 0x0004 => 32 | 0x0005 => 262144 | 0x0006 => 2048
  | 0x0007 => 32 | 0x0008 => 32 | 0x0009 => 1024 | 0x000A => 16 | 0x000B => 8 | 0x000C => 4
  | 0x000D => fw.level | 0x000E => floorLevel fw
  | 0x0010 => pairFact 32 32 | 0x0011 => pairFact 32 64 | 0x0012 => pairFact 32 64 | 0x0013 => pairFact 32 128
  | 0x0014 => pairFact 32 128 | 0x0015 => pairFact 32 256 | 0x0016 => pairFact 32 128 | 0x0017 => pairFact 32 256
  | 0x0020 => 48
  | _ => 0

/-- The facts that count the units of an on-die kind of R449, and so the ones that a retired unit of that kind may lower (R450). A die-store
bank or tag metadata is a part of no core: the cores all remain. -/
def countingFacts : Nat → List Nat
  | 0 => [0x0002, 0x0003, 0x0020]
  | 1 => [0x0007, 0x0020]
  | 2 => [0x0005, 0x0020]
  | 6 => [0x0020]
  | _ => []

/-- The number of on-die units with a lasting fault that a fact counts. -/
def retiredUnits (log : List ErrorReport) (n : Nat) : Nat := (log.filter fun e => e.die.isSome && (countingFacts e.kind).contains n).length

/-- The facts that a reset fixes below R86's table, with the number of retired units behind each. The facts reflect what remains (R450),
by a number that no rule states: a free value up to the fact's value before, drawn when a unit more is retired (log 61). -/
def factsAfter (fw : Firmware) (log : List ErrorReport) (old : Sparse (Nat × Nat)) (ctr : Nat) : Sparse (Nat × Nat) :=
  ([0x0002, 0x0003, 0x0005, 0x0007, 0x0020].zipIdx.filter fun x => retiredUnits log x.1 != 0).map fun x =>
    let was := Sparse.getD old x.1 (factNative fw x.1, 0)
    let k := retiredUnits log x.1
    (x.1, if was.2 = k then was else ((Config.freeWord (ctr + x.2)).toNat % (was.1 + 1), k))

/-- The value of a fact in the view that a strand sees (R86), with the facts that the last reset fixed below the table (R450). -/
def factValue (facts : Sparse (Nat × Nat)) (fw : Firmware) (compat : Bool) (n : Nat) : W64 :=
  BitVec.ofNat 64 (if compat && n == 1 then 64 else if compat && n == 0xC then 3 else (Sparse.getD facts n (factNative fw n, 0)).1)

/-- A subject operand or fact number: bits [31:0] of a scalar, or IMM32 under 510 (R411, R412). -/
def word32 (t : Strand) (h : Nat) (o : Operand) (imm : W32) : Nat :=
  match o with
  | .imm => imm.toNat
  | _ => (bits (sVal t h o) 0 32 : W32).toNat

/-- A field that holds an s code, or 510 with IMM32. -/
def FieldSpec.number : FieldSpec := { FieldSpec.scalar with imm := true }

/-- CAPRD, in each half (R411). -/
def caprdOut (f : Frame) (c : Chip) (t : Strand) : Chip × Out :=
  (c, retires (t.halves.foldl (fun u h => putS u h f.d (factValue c.facts c.firmware t.compat (word32 t h f.a f.imm))) t))

def execCaprd (f : Frame) (s : State) : Host.Outcome State Fault Refusal :=
  s.strandInstr (.caprd f)
    { OpSpec.base 0x2E5 with d := .scalar, a := FieldSpec.number, typed := true, other := f.et == .n32, imm0 := f.a != .imm } f
    (caprdOut f)

end Sys2Proof.Machine
end

