-- ==== Sys2Proof/Machine/System.lean ====
section
/-! DEFINITION. System instructions (19 R412 to R419), the handler strand's start (12_traps R243, R244), host interrupts (R249, R441), and the
patch engine (04_kernel R96, R97). -/

namespace Sys2Proof.Machine

/-! ### The subject -/

/-- The handler's subject (R243). -/
def Chip.subject (c : Chip) (t : Strand) : Option (Nat × Strand) :=
  match t.kind with
  | .handler u => (c.strand u).map fun x => (u, x)
  | _ => none

/-- The checks of a system instruction. -/
def systemSpec (op : Nat) : OpSpec := { OpSpec.base op with imm0 := true }

/-- The checks of an instruction with a subject operand (R412). -/
def subjectSpec (op : Nat) (f : Frame) : OpSpec :=
  { OpSpec.base op with b := FieldSpec.number, typed := true, other := f.et == .n32, imm0 := f.b != .imm }

/-- A system instruction of the handler on its subject. Without a subject, which R244 rules out, it has no effect. -/
def State.onSubject (s : State) (i : Instr) (sp : OpSpec) (f : Frame) (body : Nat → Strand → Chip → Strand → Chip × Out) :
    Host.Outcome State Fault Refusal :=
  s.strandInstr i sp f fun c t =>
    match c.subject t with
    | none => (c, retires t)
    | some (sid, u) => body sid u c t

/-- The subject register that a subject operand names, for codes from `lo` below `hi`: its number. -/
def subjectReg (t : Strand) (f : Frame) (lo hi : Nat) : Nat ⊕ Trap :=
  let n := word32 t 0 f.b f.imm
  if lo ≤ n ∧ n < hi then .inl (n - lo) else .inr (Trap.instr .badOperand 4 0)

/-- A subject vector register: below its REGLIMIT. -/
def subjectVec (t u : Strand) (f : Frame) : Nat ⊕ Trap := subjectReg t f 0 (min 320 u.regLimit)

/-! ### PRDC and PWRC (R413) -/

def prdcOut (cap : Strand → W64) (f : Frame) (u : Strand) (c : Chip) (t : Strand) : Chip × Out :=
  let sel := f.imm.toNat
  if !selAssigned sel then (c, .stop (Trap.instr .badOperand 10 0))
  else
    (if sel = 7 then { c with freeCtr := c.freeCtr + 1 } else c,
      retires (putS t 0 f.d (c.controlReg u (cap u) (Config.freeWord c.freeCtr) 0 sel)))

def execPrdc (f : Frame) (s : State) : Host.Outcome State Fault Refusal :=
  s.onSubject (.prdc f) { OpSpec.base 0x300 with d := .scalar } f fun _ u c t => prdcOut s.capOf f u c t

/-- The subject with a register written, if the value passes its check. -/
def pwrcOne (sel : Nat) (v : W64) (u : Strand) : Option Strand :=
  match sel with
  | 0x00 => if modeOk v then some { u with mode := v } else none
  | 0x01 => if flagsOk v then some { u with flags := v } else none
  | 0x09 => some { u with faultVa := v }
  | 0x0A => some { u with faultMask := putBits u.faultMask 0 (v &&& bits u.faultMask 0 64) }
  | 0x0B => some { u with faultMask := putBits u.faultMask 64 (v &&& bits u.faultMask 64 64) }
  | 0x0C => if bits v 0 4 == (0 : BitVec 4) then some { u with epc := v } else none
  | _ => none

/-- The selectors that PWRC writes. -/
def pwrcWrites (sel : Nat) : Bool := sel ≤ 1 || (9 ≤ sel && sel ≤ 0xC)

def pwrcOut (f : Frame) (sid : Nat) (u : Strand) (c : Chip) (t : Strand) : Chip × Out :=
  let sel := f.imm.toNat
  if !pwrcWrites sel then (c, .stop (Trap.instr .badOperand 10 0))
  else
    match pwrcOne sel (sVal t 0 f.a) u with
    | none => (c, .stop (Trap.instr .badOperand 3 0))
    | some u => (c.setStrand sid u, retires t)

def execPwrc (f : Frame) (s : State) : Host.Outcome State Fault Refusal :=
  s.onSubject (.pwrc f) { OpSpec.base 0x301 with a := FieldSpec.scalar.orZero } f fun sid u c t => pwrcOut f sid u c t

/-! ### TRET (R246, R414) -/

/-- A subject that returns; one that stands past its GBAR in a deterministic context stands there again (R52, R249). -/
def Chip.backFrom (c : Chip) (x : Strand) : Strand :=
  let y := x.returned
  if c.buffers x && y.gbar && y.status == .ready then { y with status := .waiting .barrier } else y

/-- TRET: the subject returns and the service ends. -/
def Chip.tret (c : Chip) (sid : Nat) (t : Strand) : Chip :=
  match c.subject t with
  | none => c.endService sid t
  | some (u, x) =>
    let c := (c.setStrand u (c.backFrom x)).endService sid t
    if c.buffers x then c.gbarCheck x.gid else c

def execTret (f : Frame) (s : State) : Host.Outcome State Fault Refusal :=
  match s.chip.strand s.chip.cur with
  | none => .next s
  | some t =>
    match stageA t (systemSpec 0x302) f with
    | some tr => s.onChip (s.chip.finish s.chip.cur (.tret f) [] 0 (.stop tr))
    | none => s.onChip (s.chip.tret s.chip.cur t)

/-! ### Register H-instructions (R415) -/

def hsavevOut (f : Frame) (u : Strand) (c : Chip) (t : Strand) : Chip × Out :=
  match subjectVec t u f with
  | .inr tr => (c, .stop tr)
  | .inl n =>
    let act := t.active f
    let r := u.vreg n
    let lanes := if r.fill = .full then r.lanes else 0
    if act = 0 then (c, retires t)
    else (c, retires (t.writeLanes (vNum f.d) ((lanesIn act).map fun l => (l, bits lanes (32 * l) 32)) r.tag r.side))

def execHsavev (f : Frame) (s : State) : Host.Outcome State Fault Refusal :=
  s.onSubject (.hsavev f) { subjectSpec 0x303 f with d := .vec 1 } f fun _ u c t => hsavevOut f u c t

def hloadvOut (f : Frame) (sid : Nat) (u : Strand) (c : Chip) (t : Strand) : Chip × Out :=
  match subjectVec t u f with
  | .inr tr => (c, .stop tr)
  | .inl n =>
    let act := t.active f
    if act = 0 then (c, retires t)
    else
      match emptyOut t (srcState t (f.a.regs 1) (bit f.nw 2)) with
      | some o => (c, o)
      | none =>
        let ls := lanesIn (act &&& u.k0)
        let r := t.vreg (vNum f.a)
        if ls.isEmpty then (c, retires t)
        else (c.setStrand sid (u.writeLanes n (ls.map fun l => (l, r.lane l)) r.tag r.side), retires t)

def execHloadv (f : Frame) (s : State) : Host.Outcome State Fault Refusal :=
  s.onSubject (.hloadv f) { subjectSpec 0x304 f with a := .vec 1 } f fun sid u c t => hloadvOut f sid u c t

def hsavesOut (f : Frame) (u : Strand) (c : Chip) (t : Strand) : Chip × Out :=
  match subjectReg t f 320 384 with
  | .inr tr => (c, .stop tr)
  | .inl n => (c, retires (putS t 0 f.d (u.sreg n)))

def execHsaves (f : Frame) (s : State) : Host.Outcome State Fault Refusal :=
  s.onSubject (.hsaves f) { subjectSpec 0x305 f with d := .scalar } f fun _ u c t => hsavesOut f u c t

def hloadsOut (f : Frame) (sid : Nat) (u : Strand) (c : Chip) (t : Strand) : Chip × Out :=
  match subjectReg t f 320 384 with
  | .inr tr => (c, .stop tr)
  | .inl n => (c.setStrand sid (u.setSreg n (sVal t 0 f.a)), retires t)

def execHloads (f : Frame) (s : State) : Host.Outcome State Fault Refusal :=
  s.onSubject (.hloads f) { subjectSpec 0x306 f with a := FieldSpec.scalar.orZero } f fun sid u c t => hloadsOut f sid u c t

def hsavekOut (f : Frame) (u : Strand) (c : Chip) (t : Strand) : Chip × Out :=
  match subjectReg t f 384 400 with
  | .inr tr => (c, .stop tr)
  | .inl n => (c, retires (putK t f.d (u.kreg n)))

def execHsavek (f : Frame) (s : State) : Host.Outcome State Fault Refusal :=
  s.onSubject (.hsavek f) { subjectSpec 0x307 f with d := .mask } f fun _ u c t => hsavekOut f u c t

def hloadkOut (f : Frame) (sid : Nat) (u : Strand) (c : Chip) (t : Strand) : Chip × Out :=
  match subjectReg t f 385 400 with
  | .inr tr => (c, .stop tr)
  | .inl n => (c.setStrand sid (u.setKreg (n + 1) (kVal t f.a)), retires t)

def execHloadk (f : Frame) (s : State) : Host.Outcome State Fault Refusal :=
  s.onSubject (.hloadk f) { subjectSpec 0x308 f with a := FieldSpec.mask.orZero } f fun sid u c t => hloadkOut f sid u c t

/-! ### HLOADM (R416) -/

/-- A slot written whole from the 4672 bytes of R372. -/
def MapSlot.restored (bs : List Byte) : MapSlot :=
  { image := BitVec.ofNat 32768 (leNat (bs.take 4096)), side := BitVec.ofNat 4096 (leNat ((bs.drop 4096).take 512)),
    desc := descBits (wordAt bs 576), v := true, d := true, fz := false, loads := [] }

/-- HLOADM's checks in the order of its entry; SLOT names a slot of the subject, and no MAPLIMIT is looked at (R306). -/
def hloadmOut (f : Frame) (sid : Nat) (u : Strand) (c : Chip) (t : Strand) : Chip × Out :=
  let base := sVal t 0 f.a
  if (c.ownerTrap t 3 base).isSome then (c, .stop (Trap.instr .protection 3 base))
  else if base.toNat % 64 != 0 then (c, .stop (Trap.instr .misaligned 3 base))
  else
    match c.checkBytes (c.who t) t.core (c.localGid t) .load false (pieces base 4672 64) with
    | (c, .bad x va) => (c, .stop (Trap.instr x (c.accessField t x va) va))
    | (c, .ok rs) =>
      let r := c.readOwners t rs
      match Sparse.get? u.slots f.slot with
      | none => (r.1, .stop (Trap.instr .mapUnclaimed 10 0))
      | some m =>
        let x := MapSlot.restored r.2
        if !bindOk u f.slot x.desc then (r.1, .stop (Trap.instr .badOperand 11 base))
        else if !m.loads.isEmpty then (c, .wait t .mapSlot)
        else (r.1.setStrand sid (u.setSlot f.slot x), retires t)

def execHloadm (f : Frame) (s : State) : Host.Outcome State Fault Refusal :=
  s.onSubject (.hloadm f) { systemSpec 0x309 with a := .scalar, slot := true } f fun sid u c t => hloadmOut f sid u c t

/-! ### HROB (R417) -/

/-- The word that HROB reports. -/
def robWord (x : RegFill) : W64 :=
  match x with
  | .full => 1
  | .empty => 0
  | .inflight k _ =>
    2 + 4 * (match k with
      | .vlda => 1
      | .bud => 2
      | .engine => 3
      | .commit => 4)

/-- Abandon the producer of a subject's register; its waiters go once no other register of the strand waits for them. It counts as a write to the
register for its dirty bit (DESIGN CHOICE, log 108). -/
def Chip.abandonReg (c : Chip) (sid : Nat) (u : Strand) (n : Nat) : Chip :=
  match (u.vreg n).fill with
  | .inflight _ p =>
    let u := u.setVreg n { u.vreg n with fill := .empty }
    let c := c.setStrand sid u
    if u.vregs.any fun x => x.2.fill.awaits p then c
    else { c with waiters := c.waiters.filter fun w => !(w.sid == sid && w.prod == p) }
  | _ => c

def hrobOut (f : Frame) (sid : Nat) (u : Strand) (c : Chip) (t : Strand) : Chip × Out :=
  match subjectVec t u f with
  | .inr tr => (c, .stop tr)
  | .inl n =>
    let c := if f.func % 2 = 1 then c.abandonReg sid u n else c
    (c, retires (putS t 0 f.d (robWord (((c.strand sid).getD u).vreg n).fill)))

def execHrob (f : Frame) (s : State) : Host.Outcome State Fault Refusal :=
  s.onSubject (.hrob f) { subjectSpec 0x30A f with d := .scalar, func := 1 } f fun sid u c t => hrobOut f sid u c t

/-! ### PATCH (R418) -/

/-- The pieces of a range of `n` bytes, each within one page of 4 KiB. -/
def pagePieces : Nat → W64 → Nat → List (W64 × Nat)
  | 0, _, _ => []
  | fuel + 1, va, n =>
    if n = 0 then []
    else
      let k := min n (4096 - va.toNat % 4096)
      (va, k) :: pagePieces fuel (va + BitVec.ofNat 64 k) (n - k)

/-- The pieces of a text range. -/
def textPieces (va : W64) (count : Nat) : List (W64 × Nat) := pagePieces (count * 16 / 4096 + 2) va (count * 16)

/-- The first piece of a range that does not translate for an access. -/
def Chip.rangeTrap (c : Chip) (who : Who) (k : Access) : List (W64 × Nat) → Option Trap
  | [] => none
  | (va, n) :: rest =>
    match c.translate who k 1 va n with
    | .ok x => if x.down then some (Trap.instr .linkDown 11 va) else c.rangeTrap who k rest
    | .trap x => some (Trap.instr x 11 va)
    | .absent _ _ => some (Trap.instr .pageFault 11 va)

/-- The patch of a record, or the failure of its checks: Owner's on its addresses come first (R205); a DONEADDR of 0 is none and no
address (R418). The ranges are translated as the record has them, an owner 6 one to die store alone (R206); DONEADDR is when it is added to. -/
def Chip.patchOf (c : Chip) (t : Strand) (va : W64) (bs : List Byte) : Patch ⊕ Trap :=
  let who := c.who t
  let w0 := wordAt bs 0
  let target := wordAt bs 1
  let source := wordAt bs 2
  let done := wordAt bs 3
  let count := (bits w0 0 20).toNat + 1
  let lo := (canonical who.die target).toNat
  let slo := (canonical who.die source).toNat
  let bad := bits w0 20 44 != (0 : BitVec 44) || target.toNat % 16 != 0 || source.toNat % 16 != 0 || done.toNat % 8 != 0 ||
    decide (vaOff target + 16 * count > 2 ^ 48) || decide (vaOff source + 16 * count > 2 ^ 48) ||
    (decide (lo < slo + 16 * count) && decide (slo < lo + 16 * count))
  let unowned := ([target, source] ++ if done = 0 then [] else [done]).find? fun a =>
    (owner who.dies who.die a).isNone
  match unowned with
  | some a => .inr (Trap.instr .protection 11 a)
  | none =>
  if bad then .inr (reqTrap .badOperand va)
  else
    match c.rangeTrap who .fetch (textPieces target count), c.rangeTrap who .load (textPieces source count) with
    | some tr, _ => .inr tr
    | none, some tr => .inr tr
    | none, none =>
      .inl { id := c.nextId, ctx := t.ctx, target := target, source := source, count := count, done := done, core := t.core,
             gid := c.localGid t }

def patchOut (f : Frame) (c : Chip) (t : Strand) : Chip × Out :=
  let va := sVal t 0 f.a
  match c.translate (c.who t) .load 32 va 32 with
  | .trap x => (c, .stop (Trap.instr x 3 va))
  | .absent p pa => (c.absent p pa, .stop (Trap.instr .pageFault 3 va))
  | .ok x =>
    let r := c.readOwner t { va := x.va, n := 32, xl := some x }
    if x.down then (c, .stop (Trap.instr .linkDown 3 va))
    else
    match r.1.patchOf t va r.2 with
    | .inr tr => (r.1, .stop tr)
    | .inl p => ({ r.1 with nextId := r.1.nextId + 1, patches := r.1.patches ++ [p] }, retires t)

def execPatch (f : Frame) (s : State) : Host.Outcome State Fault Refusal :=
  s.onSubject (.patch f) { systemSpec 0x30B with a := .scalar } f fun _ _ c t => patchOut f c t

/-! ### PATCH_APPLY (R96, R97) -/

/-- Whether an instruction of the text that a strand has begun has still to complete: one that waits for cell owners, a replay, a GBAR that has
arrived, or an engine instruction that has issued and waits for room. -/
def Strand.midway (t : Strand) : Bool := t.status != .frozen && (t.load.isSome || t.replay.isSome || t.gbar || t.issued.isSome)

/-- The accessor that the patch engine is. -/
def Chip.patchWho (c : Chip) (p : Patch) : Who :=
  { ctx := p.ctx, dies := ((c.ctx p.ctx).map fun x => x.dies).getD [], die := p.die, local? := c.localRun p.gid }

/-- Copy the new text, a page's piece at a time; a piece that no longer translates stays as it is. -/
def Chip.patchText (c : Chip) (p : Patch) : Chip :=
  let who := c.patchWho p
  (textPieces p.target p.count).foldl (fun c x =>
    let from_ := p.source + (x.1 - p.target)
    match c.translate who .fetch 1 x.1 x.2 with
    | .ok d =>
      if d.down then c
      else
      let r := (pagePieces 2 from_ x.2).foldl (fun (r : Chip × Option (List Byte)) y =>
        match r.2, r.1.translate who .load 1 y.1 y.2 with
        | some bs, .ok s =>
          if s.down then (r.1, none)
          else
          let z := r.1.readXl s y.2
          (z.1, some (bs ++ z.2))
        | _, _ => (r.1, none)) (c, some [])
      match r.2 with
      | some bs => r.1.writeXl d bs
      | none => r.1
    | _ => c) c

/-- Write, invalidate and resume (R96 steps 3 to 5), then count the patch done at DONEADDR. The whole text is written in this one step, so a
patch that CTX_DESTROY abandons leaves the old text whole: of the mixes that R97 allows, that is the model's choice (DESIGN CHOICE, log 75). -/
def Chip.patchDone (c : Chip) (p : Patch) : Chip :=
  let c := c.patchText p
  let lo := p.start
  let c := (coresOf (c.patchWho p).dies).foldl (fun c k => c.dropILines k p.ctx lo (lo + p.bytes)) c
  let mine (t : Strand) : Bool := p.covers t
  let c := (c.strands.filter fun x => mine x.2 && x.2.status == .waiting .claim).foldl (fun c x =>
    (c.leaveClaim x.1).updStrand x.1 fun t => { t with status := .ready }) c
  let c := { c with patches := c.patches.filter fun q => q.id != p.id,
                    strands := c.strands.map fun x =>
                      if mine x.2 then (x.1, { x.2 with issued := none, status := if x.2.status = .parked then .ready else x.2.status }) else x }
  if p.done = 0 then c else (c.hubAdd { c.hubWho p.ctx with die := p.die } p.done 1).1

/-- Whether a patch may act now: it runs, and, but at an epoch end (R97) and where a context fault has
stopped the context's strands, every strand in its text has drained. -/
def Chip.patchReady (c : Chip) (p : Patch) : Bool :=
  c.patchRuns p &&
  (c.isDet p.ctx || ((c.ctx p.ctx).map fun x => x.doomed).getD false || !(c.strands.any fun x => p.covers x.2 && x.2.midway))

/-- PATCH_APPLY: in a deterministic context the patch waits for an epoch end, unless the context is pre-empted (R97). -/
def Chip.patchApply (c : Chip) (n : Nat) : Chip :=
  match c.patches.find? fun p => p.id == n with
  | none => c
  | some p =>
    match c.ctx p.ctx with
    | none => c
    | some x => if (x.det && x.state != .preempted && !x.doomed) || !c.patchReady p then c else c.patchDone p

def execPatchApply (p : Nat) (s : State) : Host.Outcome State Fault Refusal := s.onChip (s.chip.patchApply p)

/-! ### IINV and TINV (R419, R213) -/

/-- The range that IINV and TINV name, in canonical form: the start's reserved bits, then its owner 5 or 7, then its partition (R205, R419). -/
def invRange (dies : List Nat) (die : Nat) (start len : W64) : (Nat × Nat) ⊕ Trap :=
  let va := canonical die start
  if !vaClean start then .inr (Trap.instr .protection 3 start)
  else if vaOwn start == 5 || vaOwn start == 7 then .inr (Trap.instr .badOperand 3 start)
  else if (owner dies die start).isNone then .inr (Trap.instr .protection 3 start)
  else if len.toNat = 0 || len.toNat > 2 ^ 48 || vaOff va + len.toNat > 2 ^ 48 then .inr (Trap.instr .badOperand 4 0)
  else .inl (va.toNat, va.toNat + len.toNat)

def iinvOut (f : Frame) (c : Chip) (t : Strand) : Chip × Out :=
  match invRange (c.who t).dies (t.core / Config.coresPerDie) (sVal t 0 f.a) (sVal t 0 f.b) with
  | .inr tr => (c, .stop tr)
  | .inl (lo, hi) => ((coresOf (c.who t).dies).foldl (fun c k => c.dropILines k t.ctx lo hi) c, retires t)

def execIinv (f : Frame) (s : State) : Host.Outcome State Fault Refusal :=
  s.onSubject (.iinv f) { systemSpec 0x30C with a := .scalar, b := .scalar } f fun _ _ c t => iinvOut f c t

/-- TINV: the context's accesses on their way reach their owners first, under the translation they were checked with; every later one is
translated from the tree as it then stands (R213). -/
def tinvOut (f : Frame) (c : Chip) (t : Strand) : Chip × Out :=
  match invRange (c.who t).dies (t.core / Config.coresPerDie) (sVal t 0 f.a) (sVal t 0 f.b) with
  | .inr tr => (c, .stop tr)
  | .inl (lo, hi) =>
    ((coresOf (c.who t).dies).foldl (fun c k => (c.flushRange k t.ctx lo hi true).dropILines k t.ctx lo hi) (c.drainCtx t.ctx), retires t)

def execTinv (f : Frame) (s : State) : Host.Outcome State Fault Refusal :=
  s.onSubject (.tinv f) { systemSpec 0x30D with a := .scalar, b := .scalar } f fun _ _ c t => tinvOut f c t

/-! ### HANDLER_START (R243, R244) -/

/-- The location word of s5 (R243). -/
def Strand.location (t : Strand) : W64 :=
  BitVec.ofNat 64 (t.core % 2 ^ 16 + t.quarter % 4 * 2 ^ 16 + t.slot % 16 * 2 ^ 18 + t.ctx % 2 ^ 8 * 2 ^ 22)

/-- The handler strand as it starts for a subject (R243, R34). The specification gives a handler no strand identifier and no launch root: its
identifier is empty, so that an evaluator that its load opens has its ordinal alone for one, and its root is launch 0, group 0, strand 0,
which a cell that it opens and its own events name (R51, R57, R75; DESIGN CHOICE, log 71). -/
def Strand.handlerFor (u : Strand) (sid : Nat) (pc : W64) (level : Nat) : Strand :=
  { Strand.blank with
    ctx := u.ctx, kind := .handler sid, core := u.core, quarter := u.quarter, slot := Config.handlerSlot, pc := pc,
    sregs := [(0, u.trapCause), (1, u.epc), (2, u.faultVa), (3, bits u.faultMask 0 64), (4, bits u.faultMask 64 64), (5, u.location),
              (6, u.ancestry)],
    kregs := [(0, BitVec.allOnes 128)], regLimit := 16, isarev := 4, blevel := level, laneBase := 1572864 + 128 * u.core }

/-- Whether the handler may start for a frozen strand: its context runs, and no pre-emption is under way (R48),
but in a deterministic context before the epoch end that it takes effect at (R53). -/
def Chip.servable (c : Chip) (u : Strand) : Bool :=
  u.status == .frozen &&
  (match c.ctx u.ctx with
    | some x => (x.state == .loaded || x.state == .running) && !(x.preempt.isSome && (!x.det || x.saving))
    | none => false)

/-- HANDLER_START: the oldest frozen strand of the core's queue that can be served. -/
def Chip.handlerStart (c : Chip) (core : Nat) : Chip :=
  let k := c.core core
  match k.serving, k.frozenQ.find? fun sid => ((c.strand sid).map c.servable).getD false with
  | none, some sid =>
    match c.strand sid with
    | none => c
    | some u =>
      let pc := ((c.ctx u.ctx).map fun x => x.handler).getD 0
      let c := c.setCore core { k with frozenQ := k.frozenQ.filter (· != sid), serving := some c.nextId }
      { c.setStrand c.nextId (u.handlerFor sid pc c.firmware.level) with nextId := c.nextId + 1 }
  | _, _ => c

def execHandlerStart (core : Nat) (s : State) : Host.Outcome State Fault Refusal := s.onChip (s.chip.handlerStart core)

/-! ### Host interrupts (R441, R249) -/

/-- HOSTINT_WRITE: the strand that the value names takes a pending interrupt. -/
def Chip.hostint (c : Chip) (v : W64) : Chip :=
  let core := (bits v 0 16).toNat
  let named (t : Strand) : Bool :=
    t.core == core && t.quarter == (bits v 16 2).toNat && t.slot == (bits v 18 4).toNat && t.ctx == (bits v 24 6).toNat &&
      !t.isHandler && !t.exited
  { c with strands := c.strands.map fun x => if named x.2 then (x.1, { x.2 with hostInt := true }) else x }

def execHostintWrite (v : W64) (s : State) : Host.Outcome State Fault Refusal := s.onChip (s.chip.hostint v)

/-- Whether a strand may take an interrupt: not before the instruction after TRET and its replay has retired. -/
def Strand.interruptible (t : Strand) : Bool :=
  t.hostInt && !t.spared && t.replay.isNone && !t.exited && t.status != .frozen && t.status != .parked

/-- Whether a strand stands at an instruction boundary: no load of it is in progress, or one that nothing but a bud or the resources of a
cell's owner keeps from its end. A load with a lane on its way to its owner, which waits behind no refused one, completes first (R249, R108). -/
def Chip.atBoundary (c : Chip) (sid : Nat) (t : Strand) : Bool :=
  t.load.isNone || c.cellReqs.all fun r => r.sid != sid || r.refused || !c.inTurn r

/-- The load in progress of a strand goes, with its requests and waiters: it is begun again. -/
def Chip.dropLoad (c : Chip) (sid : Nat) (t : Strand) : Chip :=
  match t.load with
  | none => c
  | some p => { c with cellReqs := c.cellReqs.filter fun r => r.sid != sid,
                       waiters := c.waiters.filter fun w => !(w.sid == sid && p.prod == some w.prod) }

/-- HOST_INTERRUPT: EPC is the oldest unretired instruction, which executes again where it was a load that waited. -/
def Chip.hostInterrupt (c : Chip) (sid : Nat) : Chip :=
  match c.strand sid with
  | none => c
  | some t =>
    match c.ctx t.ctx with
    | none => c
    | some x =>
      if t.interruptible && c.atBoundary sid t && (x.state == .loaded || x.state == .running) then
        (((c.dropLoad sid t).leaveClaim sid).updStrand sid fun t => { t with hostInt := false }).takeTrap sid (Trap.instr .hostInterrupt 0 0) t.pc none
      else c

def execHostInterrupt (sid : Nat) (s : State) : Host.Outcome State Fault Refusal := s.onChip (s.chip.hostInterrupt sid)

end Sys2Proof.Machine
end

