-- ==== Sys2Proof/Machine/Placement.lean ====
section
/-! DEFINITION. Placement: groups of launches (05_group_strand R98 to R104, R115 to R118; 04_kernel R91 to R93), ready pools (03_queue R76,
07_cell R157, R158), and the completion of launches (R69). -/

namespace Sys2Proof.Machine

/-! ### What a launch gives its groups -/

/-- Fields of the kernel header word (R78). -/
def headerRev (w : W64) : Nat := (bits w 56 8).toNat
def headerLevel (w : W64) : Nat := (bits w 52 4).toNat
def headerCompat (w : W64) : Bool := bit w 51
def headerPairSafe (w : W64) : Bool := bit w 50
def headerDetReq (w : W64) : Bool := bit w 49
def headerClass (w : W64) : Nat := (bits w 47 2).toNat
def headerStrands (w : W64) : Nat := (bits w 18 4).toNat + 1
def headerDepth (w : W64) : Nat := (bits w 15 3).toNat

/-- Lanes of a logical strand (R68, R91). -/
def headerWidth (w : W64) : Nat := if headerCompat w then 64 else 128

/-- Logical strands of a group (R99). -/
def logicalCount (w : W64) (lanes : Nat) : Nat := (lanes + headerWidth w - 1) / headerWidth w

/-- The role of a logical strand (R66). -/
def roleOf (roleMap : W64) (s : Nat) : Nat := (bits roleMap (4 * s) 4).toNat

/-- Whether a launch is paired (R92). -/
def pairs (w roleMap : W64) (lanes : Nat) : Bool :=
  headerPairSafe w && (Foot.ofWord w).maps == 0 &&
    (List.range (logicalCount w lanes / 2)).all fun h => roleOf roleMap (2 * h) == roleOf roleMap (2 * h + 1)

/-- Hardware strands of a group (R99). -/
def hardwareCount (w roleMap : W64) (lanes : Nat) : Nat :=
  if pairs w roleMap lanes then (logicalCount w lanes + 1) / 2 else logicalCount w lanes

/-- The extents of levels that are not a pod level, multiplied up to and with the first `n` levels: B(n) of R101. -/
def levelSpan (levels : List Level) (n : Nat) : Nat := (((levels.take n).filter fun x => x.domain != 5).map fun x => x.extent).prod

/-- The lanes of a unit of the highest level of domain die, if there is one (R102, R117). -/
def dieUnit (levels : List Level) : Option Nat :=
  (((List.range levels.length).filter fun n => (levels.getD n default).domain == 3).getLast?).map fun n => levelSpan levels (n + 1)

/-- The dies of some cores, in ascending order. -/
def diesOf (cores : List Nat) : List Nat := (List.range Config.dies).filter fun d => cores.any fun k => k / Config.coresPerDie == d

/-- The cores that may take group `g` (R117). -/
def Launch.coresFor (l : Launch) (g : Nat) : List Nat :=
  match dieUnit l.levels with
  | none => l.cores
  | some b =>
    let ds := diesOf l.cores
    let d := ds.getD (g * l.lanes / b % ds.length) 0
    l.cores.filter fun k => k / Config.coresPerDie == d

/-- The round-robin order of a launch's cores (R117): from the core after the one that took the previous group. -/
def Launch.order (l : Launch) : List Nat :=
  match l.lastC with
  | none => l.cores
  | some k => l.cores.filter (fun x => decide (k < x)) ++ l.cores.filter fun x => decide (x ≤ k)

/-- The mask of `n` lanes from lane `lo`. -/
def laneMask (lo n : Nat) : W128 := (BitVec.allOnes 128 >>> (128 - n)) <<< lo

/-- The launch mask of hardware strand `s` of a group (R68, R91, R92). -/
def launchMask (width lanes : Nat) (paired : Bool) (s : Nat) : W128 :=
  let first := if paired then 2 * s else s
  laneMask 0 (min width (lanes - width * first)) |||
    (if paired then laneMask 64 (min 64 (lanes - 64 * (first + 1))) else 0)

/-- Scalars from a list of words, from register `r` on. -/
def argRegs (r : Nat) (args : List W64) : Sparse W64 := args.zipIdx.map fun x => (r + x.2, x.1)

/-- Strand `s` of group `g` as it starts (R104). -/
def Launch.strand (l : Launch) (gid core q slot g s token : Nat) : Strand :=
  let h := l.header
  let foot := Foot.ofWord h
  let paired := pairs h l.roleMap l.lanes
  let logical := if paired then 2 * s else s
  let role := roleOf l.roleMap logical
  { Strand.blank with
    ctx := l.ctx, gid := gid, kind := .launch, core := core, quarter := q, slot := slot, index := logical, role := role, group := g,
    cls := if l.clsMap = 0 then headerClass h else (bits l.clsMap (2 * role) 2).toNat,
    pc := l.pc + 16, sregs := argRegs 0 l.args ++ (if paired then argRegs 32 l.args else []),
    kregs := [(0, launchMask (headerWidth h) l.lanes paired s)], regLimit := foot.regs, mapLimit := foot.maps, lookahead := foot.look,
    token := token, chain := [token], depth := 1, maxDepth := headerDepth h + 1, salt := BitVec.ofNat 32 g, stream := l.stream,
    laneBase := 8192 * core + 2048 * q + 128 * slot, isarev := headerRev h, blevel := headerLevel h, compat := headerCompat h,
    paired := paired,
    coords := { base := g * l.lanes + headerWidth h * logical, levels := l.levels, pod := ((l.args.getD 7 0).toNat) % 2 ^ 24 },
    ident := [l.seq, g, logical], root := { seq := l.seq, group := g, strand := logical }, blocks := foot.blocks q,
    dirty := BitVec.ofNat 40 (2 ^ (foot.regs / 8) - 1) }

/-- A created strand as it starts (R104, R113, R158). -/
def NewStrand.strand (n : NewStrand) (gid core q slot : Nat) : Strand :=
  let foot : Foot := { regs := n.regs, look := n.lookahead, grans := n.granules, maps := n.maps }
  { Strand.blank with
    ctx := n.ctx, gid := gid, kind := n.kind, core := core, quarter := q, slot := slot, group := n.group, cls := n.cls, pc := n.pc,
    sregs := argRegs 0 n.args, kregs := [(0, if n.compat then laneMask 0 64 else BitVec.allOnes 128)], regLimit := n.regs,
    mapLimit := n.maps, lookahead := n.lookahead, token := n.token, parent := n.parent, chain := n.chain, depth := n.depth,
    maxDepth := n.maxDepth, salt := n.salt, stream := n.stream, laneBase := 8192 * core + 2048 * q + 128 * slot, isarev := n.isarev,
    blevel := n.blevel, compat := n.compat, coords := n.coords, ident := n.ident, root := n.root, launch := n.launch,
    blocks := foot.blocks q, dirty := BitVec.ofNat 40 (2 ^ (n.regs / 8) - 1) }

/-- The lowest free strand slot of a quarter (R118). -/
def Chip.freeSlot (c : Chip) (core q : Nat) : Nat :=
  let used := c.slotsUsed core q
  leastFree used 0 (used.length + 1)

/-- Strands of a context that are resident. -/
def Chip.resident (c : Chip) (ctx : Nat) : Nat := (c.strands.filter fun x => x.2.ctx == ctx && !x.2.isHandler).length

/-- Whether `n` more strands keep a context within STRANDQ (R49). -/
def Chip.quotaRoom (c : Chip) (ctx n : Nat) : Bool :=
  match c.ctx ctx with
  | none => false
  | some x => x.strandQ == 0 || decide (c.resident ctx + n ≤ x.strandQ)

/-- A core's rotation pointer after a placement of `n` strands from quarter `F` (R116). -/
def Chip.rotate (c : Chip) (core F n : Nat) : Chip :=
  let k := c.core core
  c.setCore core { k with rot := (F + n) % 4 }

/-! ### Groups -/

/-- Place group `g` of a launch on a core at a starting quarter and local store run (R109, R116). -/
def Chip.placeGroup (c : Chip) (key : Nat) (l : Launch) (core F first : Nat) : Chip :=
  let g := l.next
  let n := hardwareCount l.header l.roleMap l.lanes
  let gid := c.nextId
  let group : Group := { ctx := l.ctx, launch := some key, index := g, core := core, first := first,
                         grans := (Foot.ofWord l.header).grans, pool := [], ret := [], claims := [], hw := n }
  let c := { c with groups := Sparse.set c.groups gid group, nextId := gid + 1,
                    launches := Sparse.set c.launches key { l with next := g + 1, lastC := some core, holding := false } }
  let c := (List.range n).foldl (fun c s =>
    let q := (F + s) % 4
    let t := { l.strand gid core q (c.freeSlot core q) g s (c.freshToken l.ctx) with launch := some key }
    { c with strands := Sparse.set c.strands c.nextId t, nextId := c.nextId + 1 }) c
  c.rotate core F n

/-- The first core of a list where a group fits, with its starting quarter and local store run. -/
def Chip.firstFit (c : Chip) (n : Nat) (f : Foot) : List Nat → Option (Nat × Nat × Nat)
  | [] => none
  | k :: rest =>
    match c.groupFit k n f with
    | some (F, first) => some (k, F, first)
    | none => c.firstFit n f rest

/-- Try to place the next group of a context on cores in an order. -/
def Chip.tryGroup (c : Chip) (key : Nat) (l : Launch) (cores : List Nat) : Option Chip :=
  let n := hardwareCount l.header l.roleMap l.lanes
  if !c.quotaRoom l.ctx n then none
  else (c.firstFit n (Foot.ofWord l.header) cores).map fun x => c.placeGroup key l x.1 x.2.1 x.2.2

/-- Whether a context's distributors place: it is loaded or running, and no pre-emption has taken effect (R45, R48). -/
def Chip.places (c : Chip) (ctx : Nat) (x : Context) : Bool := (x.state == .loaded || x.state == .running) && c.goesOn ctx x

/-- GROUP_PLACE in a normal context (R117): round robin, or for a group that has been waiting the lowest core where it now fits. -/
def Chip.groupPlace (c : Chip) (ctx : Nat) : Chip :=
  match c.ctx ctx, c.pendingLaunch ctx with
  | some x, some (key, l) =>
    if !c.places ctx x || x.det then c
    else
      let may := l.coresFor l.next
      let cores := (if l.holding then l.cores else l.order).filter fun k => may.contains k
      match c.tryGroup key l cores with
      | some c => c
      | none =>
        if c.quotaRoom ctx (hardwareCount l.header l.roleMap l.lanes) then
          { c with launches := Sparse.set c.launches key { l with holding := true } }
        else c
  | _, _ => c

def execGroupPlace (ctx : Nat) (s : State) : Host.Outcome State Fault Refusal := s.onChip (s.chip.groupPlace ctx)

/-- Place a deterministic context's groups at an epoch end (R118), up to `fuel` of them. -/
def Chip.placeFixed (c : Chip) (ctx : Nat) : Nat → Chip
  | 0 => c
  | fuel + 1 =>
    match c.pendingLaunch ctx with
    | none => c
    | some (key, l) =>
      let may := l.coresFor l.next
      match c.tryGroup key l [may.getD (l.next % may.length) 0] with
      | some c => c.placeFixed ctx fuel
      | none => c

/-! ### Ready pools -/

/-- The cores that may take a created strand now, in the order they are tried (R113, R157). That the lowest core of the die whose pool holds it
comes first, and for HINT 0 then the other dies in rising order, is the model's choice (DESIGN CHOICE, log 84). Any core of the die is open to a
LOADER evaluator whose RETRY passes have failed, in a later pass: `pass` says whether this attempt is one. -/
def NewStrand.cores (n : NewStrand) (pass : Bool) (dies : List Nat) : List Nat :=
  match n.wantCore with
  | some k => k :: (if n.retry = 0 && pass then dieCores n.die else [])
  | none => dieCores n.die ++ (if n.anyDie then coresOf (dies.filter (· != n.die)) else [])

/-- Place a created strand, a group of one. A child begins with an acquire at device scope (R406). -/
def Chip.placeNew (c : Chip) (n : NewStrand) (core F first : Nat) : Chip :=
  let gid := c.nextId
  let group : Group := { ctx := n.ctx, launch := n.launch, index := n.group, core := core, first := first, grans := n.granules, pool := [],
                         ret := [], claims := [], hw := 1 }
  let t := n.strand gid core F (c.freeSlot core F)
  let c := { c with groups := Sparse.set c.groups gid group, strands := Sparse.set c.strands (gid + 1) t, nextId := gid + 2 }
  let c := c.rotate core F 1
  let c := if n.kind = .spawned then c.acquireL1 core n.ctx else c
  match c.ctx n.ctx with
  | some x => if x.state == .loaded then c.setCtx n.ctx { x with state := .running } else c
  | none => c

/-- Whether an attempt to place an entry is a placement pass (R157): the first since it arrived or since resources came free on its die. -/
def Chip.inPass (c : Chip) (n : NewStrand) : Bool := n.tried != some (Sparse.getD c.freed n.die 0)

/-- Where a created strand fits now. -/
def Chip.newFit (c : Chip) (n : NewStrand) : Option (Nat × Nat × Nat) :=
  if c.quotaRoom n.ctx 1 then
    c.firstFit 1 { regs := n.regs, look := n.lookahead, grans := n.granules, maps := n.maps }
      (n.cores (c.inPass n) (((c.ctx n.ctx).map fun x => x.dies).getD []))
  else none

/-- An entry that did not fit: a placement pass that it failed counts against its RETRY (R157, R159); an attempt that its context's STRANDQ
forbids is none (R49). -/
def Chip.failedPass (c : Chip) (n : NewStrand) : NewStrand :=
  if c.quotaRoom n.ctx 1 && c.inPass n then { n with retry := n.retry - 1, tried := some (Sparse.getD c.freed n.die 0) } else n

/-- The opening entry of an evaluator's cell with its RETRY count. -/
def Chip.noteRetry (c : Chip) (n : NewStrand) : Chip :=
  match n.kind with
  | .evaluator cell =>
    { c with openings := c.openings.map fun o => if o.ctx == n.ctx && o.cell == cell then { o with retry := n.retry } else o }
  | _ => c

/-- One pass over a pool's entries in order (R76): the first that fits leaves it; `det` says whether one that does not fit blocks the
rest. Entries that `sel` refuses are passed over. -/
def Chip.poolPass (c : Chip) (sel : NewStrand → Bool) (det : Bool) : List NewStrand → Chip × List NewStrand × Bool
  | [] => (c, [], false)
  | n :: rest =>
    if !sel n then
      let r := c.poolPass sel det rest
      (r.1, n :: r.2.1, r.2.2)
    else
      match c.newFit n with
      | some (core, F, first) => (c.placeNew n core F first, rest, true)
      | none =>
        if det then (c, n :: rest, false)
        else
          let m := c.failedPass n
          let r := (c.noteRetry m).poolPass sel det rest
          (r.1, m :: r.2.1, r.2.2)

/-- A pass over a die's pool; entries in overflow storage take the places that it leaves. -/
def Chip.poolStep (c : Chip) (die : Nat) (sel : NewStrand → Bool) (det : Bool) : Chip × Bool :=
  let kept := Sparse.getD c.overflows die []
  let r := c.poolPass sel det (Sparse.getD c.pools die [])
  (r.1.setPool die (r.2.1 ++ kept), r.2.2)

/-- POOL_PLACE for the entries of normal contexts. -/
def Chip.poolPlace (c : Chip) (die : Nat) : Chip :=
  (c.poolStep die (fun n => match c.ctx n.ctx with
    | some x => c.places n.ctx x && !x.det
    | none => false) false).1

def execPoolPlace (die : Nat) (s : State) : Host.Outcome State Fault Refusal := s.onChip (s.chip.poolPlace die)

/-- Place a deterministic context's entries of a die's pool at an epoch end, up to `fuel` of them. -/
def Chip.poolFixed (c : Chip) (ctx die : Nat) : Nat → Chip
  | 0 => c
  | fuel + 1 =>
    let r := c.poolStep die (fun n => n.ctx == ctx) true
    if r.2 then r.1.poolFixed ctx die fuel else r.1

/-! ### Completion (R69) -/

/-- Give an entry its completion status, if it has none. -/
def Chip.entryStatus (c : Chip) (q n st : Nat) : Chip :=
  { c with queues := Sparse.update c.queues q fun x =>
      { x with ents := x.ents.map fun e => if e.n = n ∧ e.status.isNone then { e with status := some st } else e } }

/-- Whether the saves of pre-empted contexts hold a strand, or a strand to be, of a kind. -/
def Chip.savedHolds (c : Chip) (resident : Strand → Bool) (new : NewStrand → Bool) : Bool :=
  c.saved.any fun x => (x.2.strands.any fun t => resident t.2) || (x.2.pools.any fun p => p.2.any new) || x.2.nodes.any fun n => new n.2.strand

/-- Whether every strand of a launch has been placed and has exited, with its descendants; none is on the device or saved. -/
def Chip.launchOver (c : Chip) (key : Nat) (l : Launch) : Bool :=
  l.next == l.groups && !(c.strands.any fun x => x.2.launch == some key && !x.2.exited) &&
    !(c.allPools.any fun n => n.launch == some key) && !(c.nodes.any fun x => x.2.strand.launch == some key) &&
    !c.savedHolds (fun t => t.launch == some key) (fun n => n.launch == some key)

/-- A context's stores become visible at system scope: what its cores have sent or hold dirty reaches its owners. -/
def Chip.publish (c : Chip) (ctx : Nat) : Chip :=
  let dies := ((c.ctx ctx).map fun x => x.dies).getD []
  (coresOf dies).foldl (fun c k => c.releaseL1 k ctx) (c.drainCtx ctx)

/-- Complete a launch with OK. -/
def Chip.endLaunch (c : Chip) (key : Nat) (l : Launch) : Chip :=
  ({ c.publish l.ctx with launches := Sparse.erase c.launches key }).entryStatus l.queue l.entry 0

/-- Whether a context's determinism domain holds a strand (R71): resident, of a launch not yet placed, in a pool, in the node store, or saved. -/
def Chip.domainHolds (c : Chip) (ctx : Nat) : Bool :=
  (c.strands.any fun x => x.2.ctx == ctx && !x.2.isHandler) || (c.pendingLaunch ctx).isSome || (c.allPools.any fun n => n.ctx == ctx) ||
    (c.nodes.any fun x => x.2.strand.ctx == ctx) || c.savedHolds (fun t => t.ctx == ctx) (fun n => n.ctx == ctx)

/-- LAUNCH_COMPLETE: also while its context is pre-empted, where none of it has been saved (R69). A deterministic context's launches complete at
epoch ends, while its domain holds a strand. -/
def Chip.launchComplete (c : Chip) (key : Nat) : Chip :=
  match Sparse.get? c.launches key with
  | none => c
  | some l =>
    match c.ctx l.ctx with
    | none => c
    | some x =>
      if (x.state == .loaded || x.state == .running || x.state == .preempted) && c.launchOver key l && !(x.det && c.domainHolds l.ctx) then c.endLaunch key l else c

def execLaunchComplete (l : Nat) (s : State) : Host.Outcome State Fault Refusal := s.onChip (s.chip.launchComplete l)

end Sys2Proof.Machine
end

