-- ==== Sys2Proof/Machine/Commit.lean ====
section
/-! DEFINITION. Commit (11_ordering R236): what the buffered work of a deterministic domain does at an epoch end, in strand-identifier
order (02_context R52, 07_cell R169, 08_barrier R185, 19 R403, R409). -/

namespace Sys2Proof.Machine

/-! ### Accesses -/

/-- Whether an instruction's refusal at Commit is an instruction record (R239). -/
def recordsWhole : Instr → Bool
  | .sst _ | .bloom _ | .sld _ => true
  | _ => false

/-- A buffered access at its owner: its page's migration has pulled what it touches. An access that no longer translates is dropped: its
checks were made when it retired (R213). -/
def Chip.commitXl (c : Chip) (who : Who) (k : Access) (va : W64) (n : Nat) : Chip × Option Xl :=
  match c.translate who k 1 va n with
  | .ok x => (c.pull x.mig n, some x)
  | .trap _ => (c, none)
  | .absent p pa => (c.absent p pa, none)

/-- Whether an access meets a cell that is not VALUE. -/
def Chip.meetsCell (c : Chip) (x : Xl) : Bool := x.cell && c.tagOf x != tagValue

/-- What one lane of an entry came to: applied, or the address of FAULTVA where a cell refused it. -/
abbrev LaneDone := Nat × Option W64

/-- The lanes of some writes, in the order in which they first stand. -/
def writeLanesOf (ws : List LaneWrite) : List Nat := (ws.map fun w => w.lane).eraseDups

/-- The translations of a lane's writes, and the address of the first that its cell refuses. -/
def Chip.commitReach (c : Chip) (who : Who) : List LaneWrite → Chip × List (Xl × List Byte) × Option W64
  | [] => (c, [], none)
  | w :: rest =>
    match c.commitXl who .store w.va w.bytes.length with
    | (c, none) => c.commitReach who rest
    | (c, some x) =>
      let r := c.commitReach who rest
      (r.1, (x, w.bytes) :: r.2.1, if c.meetsCell x then some x.va else r.2.2)

/-- Apply the writes of one lane, all of them or none. Those of a VMCAST (`cast`) go to their owners after the dirty bytes of their lines in the
core, whose copies are dropped (R228). -/
def Chip.commitLane (c : Chip) (t : Strand) (cast : Bool) (ws : List LaneWrite) : Chip × Option W64 :=
  match c.commitReach (c.who t) ws with
  | (c, _, some va) => (c, some va)
  | (c, xs, none) =>
    (xs.foldl (fun c x =>
      let c := if cast then c.beforeAtom t.core t.ctx x.1.va else c
      (c.drainFor t.core x.1.place x.1.pa x.2.length).writeXl x.1 x.2) c, none)

/-- Whether an instruction is a VMCAST. -/
def casts : Instr → Bool
  | .vmcast _ => true
  | _ => false

/-- Apply a store's lanes in ascending order (R236), each refused one with its cell's address (R169); an SST's accesses are applied all or none,
as one instruction, with the first faulting byte (R331). -/
def Chip.commitStore (c : Chip) (t : Strand) (i : Instr) (ws : List LaneWrite) : Chip × List LaneDone :=
  if recordsWhole i then
    let r := c.commitLane t false ws
    (r.1, [(0, r.2)])
  else
    (writeLanesOf ws).foldl (fun r l =>
      let x := r.1.commitLane t (casts i) (ws.filter fun w => w.lane == l)
      (x.1, r.2 ++ [(l, x.2.map cellOf)])) (c, [])

/-- Deliver an atomic's old value to its lane of a destination, where the register still waits for it (R237). -/
def Strand.deliver (t : Strand) (dest : Option (Nat × Nat)) (a : LaneAtom) (old : W64) : Strand :=
  match dest with
  | none => t
  | some (reg, prod) => t.landFor prod (.vec reg a.lane a.n false) (leBytes a.n old.toNat)

/-- The translations of the atomics of one lane or destination, and the first cell that refuses one of them. -/
def Chip.atomReach (c : Chip) (who : Who) : List LaneAtom → Chip × List (Xl × LaneAtom) × Option W64
  | [] => (c, [], none)
  | a :: rest =>
    match c.commitXl who .atomic a.va a.n with
    | (c, none) => c.atomReach who rest
    | (c, some x) =>
      let r := c.atomReach who rest
      (r.1, (x, a) :: r.2.1, if c.meetsCell x then some (cellOf x.va) else r.2.2)

/-- Apply one atomic at its owner, after the dirty bytes of its line in the core (R228), all of it but the bytes that a later write of the
first execution wrote (R385); its old value. -/
def Chip.atomCommit (c : Chip) (t : Strand) (wrote : List (Nat × W64 × Nat)) (x : Xl) (a : LaneAtom) : Chip × W64 :=
  let c := ((c.beforeAtom t.core t.ctx x.va).drainFor t.core x.place x.pa a.n).pull x.mig a.n
  let old := leNat (c.readPhys x.place x.pa a.n)
  let free (i : Nat) : Bool := !wrote.any fun w =>
    decide (a.lane < w.1) && decide (w.2.1.toNat ≤ x.va.toNat + i) && decide (x.va.toNat + i < w.2.1.toNat + w.2.2)
  ((keptRuns free 0 0 [] (leBytes a.n (a.value old))).foldl (fun c y => c.writePhys x.place (x.pa + y.1) y.2) c, BitVec.ofNat 64 old)

/-- Apply an atomic's lanes in order (R236); a VMCAST's destinations each whole or not at all (R385). -/
def Chip.commitAtoms (c : Chip) (sid : Nat) (t : Strand) (dest : Option (Nat × Nat)) (wrote : List (Nat × W64 × Nat))
    (xs : List LaneAtom) : Chip × List LaneDone :=
  ((xs.map fun a => a.lane).eraseDups).foldl (fun r l =>
    match r.1.atomReach (r.1.who t) (xs.filter fun a => a.lane == l) with
    | (c, _, some cell) => (c, r.2 ++ [(l, some cell)])
    | (c, ys, none) =>
      (ys.foldl (fun c y =>
        let z := c.atomCommit t wrote y.1 y.2
        z.1.updStrand sid fun t => t.deliver dest y.2 z.2) c, r.2 ++ [(l, none)])) (c, [])

/-- The draws of lanes that Commit refused are taken back: those lanes have not completed (R33). A VMCAST's refused destination gives back
one draw of every active lane whose half has it. -/
def Strand.undraw (t : Strand) (l : Nat) : Strand :=
  let n := t.counter 1 l
  { t with ctr1 := Sparse.set t.ctr1 l (if n = 0 then 2 ^ 64 - 1 else n - 1) }

/-- Whether an atomic's operation drew at its issue (R382, R385). -/
def LaneAtom.drew (a : LaneAtom) : Bool :=
  match a.kind with
  | .op .fadd _ rm _ => rm == rmSr
  | _ => false

/-- The strand with the draws of refused lanes or destinations taken back. -/
def Strand.undrawn (t : Strand) (e : CommitEntry) (xs : List LaneAtom) (bad : List Nat) : Strand :=
  if !xs.any LaneAtom.drew then t
  else
    match e.instr with
    | .vmcast _ =>
      let had (n : Nat) : List Nat := (lanesIn e.active).filter fun l => (castBase t (e.list.getD n []) l).isSome
      bad.foldl (fun t n => (had n).foldl Strand.undraw t) t
    | _ => bad.foldl Strand.undraw t

/-- Plant the buds of a BUDST's lanes (R169). -/
def Chip.commitBudst (c : Chip) (t : Strand) (ws : List LaneWrite) : Chip × List LaneDone :=
  ws.foldl (fun r w =>
    match r.1.commitXl (r.1.who t) .plant w.va 16 with
    | (c, none) => (c, r.2)
    | (c, some x) =>
      match c.budstOne x w.bytes with
      | some c => (c, r.2 ++ [(w.lane, none)])
      | none => (c, r.2 ++ [(w.lane, some (cellOf x.va))])) (c, [])

/-! ### Traps at the next quantum -/

/-- Two lane records of one instruction together: all its refused lanes, with the cause and address of the lowest (R248). -/
def Trap.join (a b : Trap) : Trap :=
  let low := if (lanesIn a.lanes).headD 128 ≤ (lanesIn b.lanes).headD 128 then a else b
  { low with lanes := a.lanes ||| b.lanes }

/-- Whether a strand is to freeze at the instruction of an entry. -/
def Strand.pendsAt (t : Strand) (e : CommitEntry) : Bool := t.pendTrap.any fun x => x.1.pc == e.pc && x.1.instr == e.instr

/-- A strand that is to freeze at the start of its next quantum (R169, R185, R409): its first such trap stands, with the lanes that a
second entry of the same instruction adds. -/
def Strand.pends (t : Strand) (e : CommitEntry) (tr : Trap) : Strand :=
  { t with pendTrap := match t.pendTrap with
                       | some (e0, tr0) =>
                         if tr0.lane && tr.lane && e0.pc == e.pc && e0.instr == e.instr then
                           some ({ e0 with wrote := e0.wrote ++ e.wrote }, tr0.join tr)
                         else some (e0, tr0)
                       | none => some (e, tr) }

/-- The trap of an entry whose lanes a cell refused. -/
def CommitEntry.cellTrap (e : CommitEntry) (bad : List (Nat × W64)) : Option Trap :=
  match sortBy (fun x => x.1) bad with
  | [] => none
  | (_, va) :: _ =>
    some (if recordsWhole e.instr then Trap.instr .cellStore 0 va else Trap.lanesAt .cellStore va (maskOf (bad.map fun x => x.1)))

/-- The entry with what its applied lanes wrote. -/
def CommitEntry.applied (e : CommitEntry) (ls : List LaneDone) : CommitEntry :=
  let good := (ls.filter fun x => x.2.isNone).map fun x => x.1
  match e.op with
  | .store ws | .budst ws =>
    { e with wrote := e.wrote ++ (ws.filter fun w => good.contains w.lane).map fun w => (w.lane, w.va, w.bytes.length) }
  | .atoms xs _ =>
    match e.instr with
    | .vmcast _ => { e with wrote := e.wrote ++ (xs.filter fun a => good.contains a.lane).map fun a => (a.lane, a.va, a.n) }
    | _ => e
  | _ => e

/-- The end of an entry whose lanes have all been applied: its last-read marks take effect (R125), unless an earlier entry of its instruction
was refused; then what it wrote joins the record (R221). -/
def Strand.appliedAll (t : Strand) (e : CommitEntry) : Strand :=
  if t.pendsAt e then { t with pendTrap := t.pendTrap.map fun x => ({ x.1 with wrote := x.1.wrote ++ e.wrote }, x.2) }
  else e.marks.foldl Strand.emptied t

/-- After an entry's lanes: a trap for the refused ones, or its end. -/
def Chip.commitEnd (c : Chip) (sid : Nat) (e : CommitEntry) (ls : List LaneDone) : Chip :=
  let bad := ls.filterMap fun x => x.2.map fun va => (x.1, va)
  c.updStrand sid fun t =>
    match e.cellTrap bad with
    | some tr => t.pends (e.applied ls) tr
    | none => t.appliedAll (e.applied ls)

/-- An entry that is refused whole (R185). -/
def Chip.commitRefused (c : Chip) (sid : Nat) (e : CommitEntry) (cause : Cause) (field : Nat) : Chip :=
  c.updStrand sid fun t => t.pends e (Trap.instr cause field 0)

/-- What an update of R175 or R231 gives: the changed chip, or a refusal. -/
def Chip.commitTry (c : Chip) (sid : Nat) (e : CommitEntry) (r : Option Chip) : Chip :=
  match r with
  | some c => c
  | none => c.commitRefused sid e .badOperand 0

/-! ### Bud reads -/

/-- One read of a cell at Commit (R169), with the answer that its owner gives; an SLD's answer reaches its load in progress. -/
def Chip.commitRead (c : Chip) (sid prod : Nat) (sld : Bool) (read : CellRead) : Chip × CellAns :=
  match c.strand sid with
  | none => (c, .deferred)
  | some t =>
    let r := c.cellLoad true t sid prod read
    let got : List (LoadDest × List Byte) := match r.2 with
      | .bytes bs => [(read.dest, bs)]
      | _ => []
    if sld && r.2 != .refused then (r.1.updLoad sid fun p => { p with pend := p.pend - 1, got := p.got ++ got }, r.2) else r

/-- What the reads of an entry came to: those that their owners refused, which wait for the next epoch end, the faults, and the bytes. -/
structure BudReads where
  stay   : List CellRead := []
  faults : List LaneFault := []
  got    : List (LoadDest × List Byte) := []
  deriving DecidableEq, Repr

/-- The reads of an entry in ascending order of lane, each lane's cells in turn. A lane that has faulted (`bad`) meets no further cell, and
one that was refused (`held`) waits with the cells after it (R160). -/
def Chip.commitReads (c : Chip) (sid prod : Nat) (sld : Bool) (bad held : List Nat) : List CellRead → Chip × BudReads
  | [] => (c, {})
  | r :: rest =>
    if bad.contains r.lane then
      (if sld then c.updLoad sid fun p => { p with pend := p.pend - 1 } else c).commitReads sid prod sld bad held rest
    else if held.contains r.lane then
      let y := c.commitReads sid prod sld bad held rest
      (y.1, { y.2 with stay := r :: y.2.stay })
    else
      match c.commitRead sid prod sld r with
      | (c, .refused) =>
        let y := c.commitReads sid prod sld bad (r.lane :: held) rest
        (y.1, { y.2 with stay := r :: y.2.stay })
      | (c, .bytes bs) =>
        let y := c.commitReads sid prod sld bad held rest
        (y.1, { y.2 with got := (r.dest, bs) :: y.2.got })
      | (c, .deferred) => c.commitReads sid prod sld bad held rest
      | (c, a) =>
        let y := c.commitReads sid prod sld (r.lane :: bad) held rest
        (y.1, { y.2 with faults := (a.laneFault r.lane).toList ++ y.2.faults })

/-- A load whose read an owner refused has not retired (R160): its strand stands at it again, and a host interrupt that froze the strand behind
the load resumes at it (R249). -/
def Strand.standsBack (t : Strand) (e : CommitEntry) : Strand :=
  { t with retired := t.retired - 1, pc := e.pc, epc := if t.status = .frozen && t.record.isNone && t.epc == t.pc then e.pc else t.epc }

/-- Whether a refused load's strand is to stand at it again: the load had retired, and nothing has moved the strand since. -/
def Strand.goesBack (t : Strand) (e : CommitEntry) : Bool := !e.open_ && !e.back && t.pc == e.pc + 16

/-- A load whose lanes have all answered at Commit: a trap for those that failed, or its end; one that stood unretired retires now. -/
def Strand.budEnd (t : Strand) (e : CommitEntry) (faults : List LaneFault) : Strand :=
  match faultTrap faults with
  | some tr => t.pends e tr
  | none =>
    let u := t.appliedAll e
    if e.back && u.pc == e.pc then { u with retired := u.retired + 1, pc := u.nextPc } else u

/-- A bud read at Commit: the entry that stays in the buffer, if some read was refused. An SLD stands until its bytes come, over epoch ends too: it
retires at the Commit that gives them, and the quantum after that goes on past it (DEDUCED, log 119). The strand of a vector load begins no quantum
before every lane has its answer; then the lanes that faulted are recorded, and the bytes of the others land (R123, R160, R375). -/
def Chip.commitBudRead (c : Chip) (sid : Nat) (e : CommitEntry) (rs : List CellRead) (prod : Nat) : Chip × List CommitEntry :=
  let sld := match e.instr with
    | .sld _ => true
    | _ => false
  let x := c.commitReads sid prod sld (e.faults.map fun f => f.lane) [] rs
  let left : CommitEntry := { e with op := .budRead x.2.stay prod }
  if sld then
    let c := (x.1.updLoad sid fun p => { p with faults := p.faults ++ x.2.faults }).tryEndLoad sid
    (c, if x.2.stay.isEmpty then [] else [left])
  else
    let faults := e.faults ++ x.2.faults
    let got := e.got ++ x.2.got
    if x.2.stay.isEmpty then
      let bad := faults.map fun f => f.lane
      let c := (x.1.dropLanes sid prod bad).updStrand sid fun t =>
        ((got.filter fun y => !y.1.inLanes bad).foldl (fun t y => t.landFor prod y.1 y.2) t).budEnd e faults
      (c.settle sid prod, [])
    else
      let back := ((x.1.strand sid).map fun t => t.goesBack e).getD false
      (if back then x.1.updStrand sid fun t => t.standsBack e else x.1,
        [{ left with faults := faults, got := got, back := e.back || back }])

/-! ### Engines -/

/-- Whether a deferred engine operation of a context is waiting (R403). -/
def Chip.hasDeferred (c : Chip) (ctx : Nat) : Bool := c.deferred.any fun o => o.ctx == ctx

/-- Register a committed engine operation, or let it wait behind the earlier ones (R403). -/
def Chip.commitEngine (c : Chip) (o : EngineOp) : Chip :=
  if c.hasDeferred o.ctx || !c.lockRoom o then { c with deferred := c.deferred ++ [o] } else c.registerEngine o

/-- Run a registered operation at an epoch end (R185, R269): a copy to its last byte; what has landed of a link operation is counted. -/
def Chip.runEngine (c : Chip) (id : Nat) : Chip :=
  match c.engines.find? fun o => o.id == id with
  | none => c
  | some o =>
    match o.kind with
    | .copy r next ended met =>
      if o.finished || !c.mayStart o then c else c.copyCountDown { o with started := true } r next ended met o.bytes
    | _ => if o.unsettled then c.linkSettle o else c

/-- Run operations in order, up to the first copy that an earlier overlapping operation holds back (R181): what is counted down, and the phase
completions that it causes, keep to registration order (R185). -/
def Chip.runInOrder (c : Chip) : List Nat → Chip
  | [] => c
  | id :: rest =>
    if c.engines.any fun o => o.id == id && o.copyLeft && !c.mayStart o then c else (c.runEngine id).runInOrder rest

/-- Run the operations of a context in registration order. -/
def Chip.runEngines (c : Chip) (ctx : Nat) : Chip := c.runInOrder ((c.engines.filter fun o => o.ctx == ctx).map fun o => o.id)

/-- Whether a copy of a context that Commit has registered has not landed (R185): an earlier operation that overlaps it has still to land
(R181). -/
def Chip.copiesLeft (c : Chip) (ctx : Nat) : Bool := c.engines.any fun o => o.ctx == ctx && o.copyLeft

/-- Register deferred operations of a context in order while there is room, each running before the next is looked at, up to `fuel`; none
while a copy has still to land, whose phase completion comes first (R403). -/
def Chip.runDeferred (c : Chip) (ctx : Nat) : Nat → Chip
  | 0 => c
  | fuel + 1 =>
    match c.deferred.find? fun o => o.ctx == ctx with
    | none => c
    | some o =>
      if c.lockRoom o && !c.copiesLeft ctx then
        (({ c with deferred := c.deferred.filter fun x => x.id != o.id }.registerEngine o).runEngine o.id).runDeferred ctx fuel
      else c

/-! ### Entries -/

/-- The object of a barrier entry: its core and physical byte. -/
def Chip.commitObject (c : Chip) (t : Strand) (obj : W64) : Option (Nat × Nat) := c.barPlace (c.localGid t) obj

/-- A binder at Commit. -/
def Chip.commitBinder (c : Chip) (t : Strand) (va : W64) : Chip × Option Xl := c.commitXl (c.who t) .atomic va 64

/-- Apply one entry of strand `sid`, giving the entries that stay. -/
def Chip.commitEntry (c : Chip) (sid : Nat) (t : Strand) (e : CommitEntry) : Chip × List CommitEntry :=
  match e.op with
  | .store ws =>
    let r := c.commitStore t e.instr ws
    (r.1.commitEnd sid e r.2, [])
  | .atoms xs dest =>
    let r := c.commitAtoms sid t dest e.wrote xs
    let bad := (r.2.filter fun x => x.2.isSome).map fun x => x.1
    let c := (r.1.commitEnd sid e r.2).updStrand sid fun t => t.undrawn e xs bad
    (match dest with
      | some (_, prod) => c.settle sid prod
      | none => c, [])
  | .budst ws =>
    let r := c.commitBudst t ws
    (r.1.commitEnd sid e r.2, [])
  | .bloom w =>
    match c.commitXl (c.who t) .plant w.va 16 with
    | (c, none) => (c, [])
    | (c, some x) =>
      match c.bloomAt t x w.bytes with
      | some c => (c.updStrand sid fun t => { t with bloomed := true }, [])
      | none => (c.commitEnd sid e [(0, some (cellOf x.va))], [])
  | .budRead rs prod => c.commitBudRead sid e rs prod
  | .bind binder lo hi => (c.commitTry sid e (c.bind t.core t.ctx (c.localGid t) binder lo hi), [])
  | .unbind binder lo hi => (c.commitTry sid e (c.unbind t.core t.ctx (c.localGid t) binder lo hi), [])
  | .acq binder dest =>
    match c.commitBinder t binder with
    | (c, none) => (c, [])
    | (c, some x) =>
      let r := c.acq sid t.core t.ctx x
      (match dest with
        | some d => r.1.updStrand sid fun t => t.setSreg d r.2
        | none => r.1, [])
  | .rel binder =>
    match c.commitBinder t binder with
    | (c, none) => (c, [])
    | (c, some x) => (c.rel sid t.core t.ctx x, [])
  | .boinit obj n =>
    (match c.commitObject t obj with
      | none => c
      | some (core, pa) => c.commitTry sid e (((c.readBar core pa).boinit n).map fun b => c.writePhys (.core core) pa b.bytes), [])
  | .boexp obj n =>
    (match c.commitObject t obj with
      | none => c
      | some (core, pa) =>
        c.commitTry sid e (((c.readBar core pa).boexp n).map fun b => c.settleBar core pa (c.localGid t) obj b), [])
  | .boarr obj a dest =>
    (match c.commitObject t obj with
      | none => c
      | some (core, pa) =>
        let b := c.readBar core pa
        c.commitTry sid e ((b.boarr a).map fun b' =>
          let c := c.settleBar core pa (c.localGid t) obj b'
          match dest with
          | some d => c.updStrand sid fun t => t.setSreg d (BitVec.ofNat 64 (b2n b.phase))
          | none => c), [])
  | .engine op => (c.commitEngine op, [])
  | .spawn n _ => (c.createStrand n, [])
  | .spawnd n count dest =>
    let r := c.createNode n 0 count
    (r.1.updStrand sid fun t => t.setSreg dest r.2, [])
  | .signal h =>
    match c.nodeOf t.ctx h with
    | some (key, n) => (c.signalNode key n, [])
    | none => (c.commitRefused sid e .badOperand 3, [])

/-- Apply the first entry of a strand's buffer; what stays of it goes behind the others. A load that stood unretired, and that a handler has
since moved its strand away from, is abandoned (R56). -/
def Chip.commitNext (c : Chip) (sid : Nat) : Chip :=
  match c.strand sid with
  | none => c
  | some t =>
    match t.buffer with
    | [] => c
    | e :: rest =>
      let u := { t with buffer := rest, solid := t.solid - 1 }
      let c := c.setStrand sid u
      if e.back && t.pc != e.pc then
        match e.prod with
        | some p => c.settle sid p
        | none => c
      else
        let r := c.commitEntry sid u { e with open_ := e.open_ || (t.solid == 0 && !e.back) }
        if r.2.isEmpty then r.1 else r.1.updStrand sid fun t => { t with buffer := t.buffer ++ r.2.map fun x => { x with open_ := e.open_ } }

/-- Apply a strand's buffer in program order. -/
def Chip.commitAll (c : Chip) (sid : Nat) : Chip :=
  match c.strand sid with
  | none => c
  | some t => t.buffer.foldl (fun c _ => c.commitNext sid) c

/-- Whether an entry of a held strand's buffer outlasts a Commit that does not apply it: a bud read. -/
def CommitEntry.isRead (e : CommitEntry) : Bool :=
  match e.op with
  | .budRead _ _ => true
  | _ => false

/-- Commit of one strand. Of a held strand it applies the instructions that have retired (R53): what the trapping one has buffered is
dropped, but for its bud reads, which wait for the context to be resumed (DEDUCED, log 90). -/
def Chip.commitStrand (c : Chip) (sid : Nat) : Chip :=
  match c.strand sid with
  | none => c
  | some t =>
    if t.held then
      let done := (t.buffer.take t.solid).filter fun e => !e.back
      let rest := (t.buffer.take t.solid).filter (fun e => e.back) ++ t.loose
      let c := (c.setStrand sid { t with buffer := done, solid := done.length }).commitAll sid
      let c := c.updStrand sid fun t => { t with buffer := t.buffer ++ rest.filter CommitEntry.isRead }
      (rest.filterMap CommitEntry.prod).foldl (fun c p => c.settle sid p) c
    else c.commitAll sid

/-- The strands of a context's domain that are resident, in strand-identifier order (R51). -/
def Chip.domain (c : Chip) (ctx : Nat) : List Nat :=
  (sortIdent (fun x : Nat × Strand => x.2.ident) (c.strands.filter fun x => x.2.ctx == ctx && !x.2.isHandler)).map fun x => x.1

/-- A context's engine operations that wait for room at an epoch end. -/
def Chip.deferredOf (c : Chip) (ctx : Nat) : Nat := (c.deferred.filter fun o => o.ctx == ctx).length

/-- Every operation of a context runs, and then the first `n` that were deferred have their turn, once every copy has landed; with how many of
those still wait. -/
def Chip.runEpoch (c : Chip) (ctx n : Nat) : Chip × Nat :=
  let c := c.runEngines ctx
  let d := c.runDeferred ctx n
  (d, n - (c.deferredOf ctx - d.deferredOf ctx))

/-- What Commit and the engines wrote is seen by every load of the domain from the next quantum on. -/
def Chip.refreshL1 (c : Chip) (ctx : Nat) : Chip :=
  (coresOf (((c.ctx ctx).map fun x => x.dies).getD [])).foldl (fun c k => c.acquireL1 k ctx) c

/-- COMMIT (R236), with the runs of engine operations that belong to the epoch end (R185, R403), and how many that earlier epochs deferred
still wait. The strands whose work creates others are taken in strand-identifier order, so in that order tokens are assigned (R114: the
order is DESIGN CHOICE, log 84). -/
def Chip.commit (c : Chip) (ctx : Nat) : Chip × Nat :=
  let before := c.deferredOf ctx
  let r := ((c.domain ctx).foldl Chip.commitStrand c).runEpoch ctx before
  (r.1.refreshL1 ctx, r.2)

end Sys2Proof.Machine
end

