-- ==== Sys2Proof/Machine/HubQueue.lean ====
section
/-! DEFINITION. Queues (03_queue R59 to R66, R70 to R73): tails, taking entries, launch records and their checks (R67, R68, R82, R102),
waits, signals, copies, completion, and the queue commands. -/

namespace Sys2Proof.Machine

/-! ### The frame of an entry (R63) -/

def entryType (e : Nat) : Nat := fld e 0 8
def entryBar (e : Nat) : Bool := fld e 8 1 == 1
def entrySig (e : Nat) : W64 := BitVec.ofNat 64 (fld e 320 64)
def entrySigVal (e : Nat) : W64 := BitVec.ofNat 64 (fld e 384 64)
def entryClass (e : Nat) : Nat := fld e 16 8
def entryCode (e : Nat) : Nat := fld e 24 8
def entryOperand (e : Nat) : Nat := fld e 32 32
def entryWord (e i : Nat) : W64 := BitVec.ofNat 64 (fld e (64 * i) 64)

/-- Completion statuses (R65). -/
def stOk : Nat := 0
def stBadCommand : Nat := 1
def stWrongState : Nat := 2
def stBadRecord : Nat := 3
def stBadKernel : Nat := 4
def stDetRequired : Nat := 5
def stErratum : Nat := 6
def stNotPrimary : Nat := 7
def stAbandoned : Nat := 8
def stMemoryFault : Nat := 9
def stSaveOverflow : Nat := 10

/-- The bits that R63 and R70 give no meaning are zero; DONE and STATUS may hold anything. -/
def entryClean (e : Nat) : Bool :=
  fld e 1993 55 == 0 && fld e 9 7 == 0 &&
    (match entryType e with
    | 1 => fld e 1472 512 == 0 && fld e 144 16 == 0 && fld e 16 16 == 0
    | 2 => fld e 448 1536 == 0 && fld e 256 64 == 0 && fld e 19 45 == 0
    | 3 => fld e 448 1536 == 0 && fld e 192 128 == 0 && fld e 18 46 == 0
    | 4 => fld e 448 1536 == 0 && fld e 256 64 == 0 && fld e 16 48 == 0
    | _ => fld e 448 1536 == 0 && fld e 128 192 == 0)

/-- Whether a class and code are assigned (R58, R73). -/
def commandAssigned (cls code : Nat) : Bool :=
  (cls == 0 && 1 ≤ code && code ≤ 6) || (cls == 1 && 1 ≤ code && code ≤ 4) || (cls == 2 && code == 1)

/-- An entry that is taken only after its predecessors have completed (R63, R71, R74). -/
def entryOrdered (e : Nat) : Bool :=
  entryBar e || entryType e == 3 || (entryType e == 5 && entryClass e == 2 && entryCode e == 1)

/-- Whether a WAIT's comparison holds for a counter (R70). -/
def waitHolds (e m : Nat) : Bool :=
  let a := m &&& fld e 192 64
  let v := fld e 128 64
  match fld e 16 3 with
  | 0 => decide (v ≤ a)
  | 1 => a == v
  | 2 => a != v
  | 3 => decide (a < v)
  | _ => false

/-! ### Queues -/

def Chip.queue (c : Chip) (q : Nat) : Option Queue := Sparse.get? c.queues q
def Chip.setQueue (c : Chip) (n : Nat) (q : Queue) : Chip := { c with queues := Sparse.set c.queues n q }
def Chip.updQueue (c : Chip) (n : Nat) (f : Queue → Queue) : Chip := { c with queues := Sparse.update c.queues n f }

/-- The host address of an entry's slot (R61). -/
def Queue.slotAddr (q : Queue) (n : Nat) : Nat := q.base + 256 * (n % 2 ^ q.logn)

/-- The bits of an entry in its slot. -/
def Chip.slotWord (c : Chip) (q : Queue) (n : Nat) : Nat := leNat (c.readPhys .host (q.slotAddr n) 256)

/-- Whether every entry taken has completed. -/
def Queue.drained (q : Queue) : Bool := q.ents.all fun e => e.done

/-- Whether a WAIT is pending. -/
def Queue.waits (q : Queue) : Bool := q.ents.any fun e => entryType e.word == 2 && e.status.isNone

/-- Whether a queue takes entries (R62). -/
def Queue.isOpen (q : Queue) : Bool := q.state == .idle || q.state == .active || q.state == .blocked

/-- The state of a queue's context, if it has one. -/
def Chip.queueState (c : Chip) (q : Queue) : Option CtxState := (q.ctx.bind c.ctx).map fun x => x.state

/-- Whether a queue is the control queue. -/
def Queue.isControl (q : Queue) : Bool := q.kind == 2

/-- A CTX_PREEMPT or a CTX_DESTROY of a context. -/
def stopsContext (e n : Nat) : Bool :=
  entryType e == 5 && entryClass e == 0 && (entryCode e == 4 || entryCode e == 6) && entryOperand e == n

/-- Whether a command waits: a context command until an earlier CTX_PREEMPT or CTX_DESTROY of its context has completed (R48), a queue command for
a QUEUE_DESTROY in progress (log 19). -/
def Chip.commandWaits (c : Chip) (q : Queue) (e : Nat) : Bool :=
  entryType e == 5 &&
  ((entryClass e == 0 && q.ents.any fun a => !a.done && stopsContext a.word (entryOperand e)) ||
   (entryClass e == 1 && ((c.queue (entryOperand e)).map fun q => q.dying.isSome).getD false))

/-- The next entry of a queue, if the hub may take it now (R62, R64, R72). -/
def Chip.takeable (c : Chip) (qn : Nat) : Option (Queue × Nat) :=
  match c.queue qn with
  | none => none
  | some q =>
    let e := c.slotWord q q.taken
    let served := q.isControl || (match c.queueState q with
      | none | some .created | some .destroyed => false
      | _ => true)
    if q.isOpen && decide (q.taken < q.tail) && served && !q.waits && !(entryOrdered e && !q.drained) &&
        !(q.isControl && c.commandWaits q e) then some (q, e)
    else none

/-- Take the next entry, with the status it will complete with if that is known. -/
def Queue.take (q : Queue) (e : Nat) (st : Option Nat) : Queue :=
  { q with ents := q.ents ++ [{ n := q.taken, word := e, status := st, done := false }], taken := q.taken + 1 }

def Chip.takeEntry (c : Chip) (qn e : Nat) (st : Option Nat) : Chip :=
  { c.updQueue qn fun q => q.take e st with lastQueue := qn }

/-- The state of a queue that is open (R62). -/
def Chip.openState (c : Chip) (q : Queue) : QState :=
  if q.head = q.tail then .idle
  else if q.waits || (decide (q.taken < q.tail) && entryOrdered (c.slotWord q q.taken) && !q.drained) then .blocked
  else .active

def Chip.refreshQueue (c : Chip) (qn : Nat) : Chip := c.updQueue qn fun q => if q.isOpen then { q with state := c.openState q } else q

/-- The status of an entry that no event of its own takes: one of an unknown TYPE, or a command that has no meaning (R63, R65, R73). -/
def badEntry (control faulted : Bool) (e : Nat) : Option Nat :=
  let typ := entryType e
  if typ = 0 ∨ 5 < typ then some (if faulted then stAbandoned else stBadRecord)
  else if typ = 5 then
    if !control then some (if faulted then stAbandoned else stBadCommand)
    else if !commandAssigned (entryClass e) (entryCode e) then some stBadCommand
    else none
  else none

/-- The hub takes such entries as it reaches them, up to `fuel` of them. -/
def Chip.takeBads (c : Chip) (qn : Nat) : Nat → Chip
  | 0 => c
  | fuel + 1 =>
    match c.takeable qn with
    | none => c
    | some (q, e) =>
      match badEntry q.isControl (c.queueState q == some .faulted) e with
      | some st => (c.takeEntry qn e (some st)).takeBads qn fuel
      | none => c

/-- What follows every change of a queue. -/
def Chip.settleQueue (c : Chip) (qn : Nat) : Chip :=
  match c.queue qn with
  | none => c
  | some q => (c.takeBads qn (q.tail - q.taken)).refreshQueue qn

/-! ### TAIL_NOTICE (R61) -/

/-- An event about a queue (R75). -/
def queueEvent (code ctx cause qn seq : Nat) : Event :=
  { code := code, ctx := ctx, cause := cause, core := 0xFFFF, quarter := 0, slot := 0, waiting := false, addr := 0, mask := 0, seq := seq,
    group := 0, strand := 0, queue := qn }

/-- Whether a context's event queue is in service (R65). -/
def Chip.serves (c : Chip) (ctx : Nat) : Bool :=
  match c.ctx ctx with
  | none => false
  | some x => x.state == .loaded || x.state == .running || x.state == .preempted

/-- A queue enters state error; the record names no entry count, so SEQ is a free value (R61, log 63). -/
def Chip.queueError (c : Chip) (qn : Nat) (q : Queue) : Chip :=
  let c := c.setQueue qn { q with state := .error }
  match q.ctx with
  | none => c
  | some n =>
    if c.serves n then
      { c with freeCtr := c.freeCtr + 1 }.postEvent (queueEvent evEntryFailed n stBadRecord qn (Config.freeWord c.freeCtr).toNat)
    else c

/-- TAIL_NOTICE: the hub reads the tail line again. A removed queue takes no more notices. -/
def Chip.tailNotice (c : Chip) (qn : Nat) : Chip :=
  match c.queue qn with
  | none => c
  | some q =>
    if q.state == .error || q.dying.isSome then c
    else
      let t := (c.readWord .host q.tailA).toNat
      if t < q.tail ∨ q.head + 2 ^ q.logn < t then c.queueError qn q
      else (c.setQueue qn { q with tail := t }).settleQueue qn

/-- HCSTATUS bit 1 is set while the control queue is in error (R441). -/
def HubCtl.noteError (h : HubCtl) (c : Chip) : HubCtl :=
  { h with status := putBits h.status 1 (BitVec.ofBool (((c.queue 0).map fun q => q.state == .error).getD false)) }

def execTailNotice (q : Nat) (s : State) : Host.Outcome State Fault Refusal :=
  let c := s.chip.tailNotice q
  s.onHub c (s.hc.noteError c)

/-! ### Accesses of the hub for an entry -/

/-- The translation of an access for an entry: physical for the control queue, else at the owner, owners 5, 6 and 7 having none (R63).
A peer that cannot be reached has none either. -/
def Chip.entryXl (c : Chip) (q : Queue) (k : Access) (align : Nat) (va : W64) (n : Nat) : Chip × Option Xl :=
  if q.isControl then
    (c, some { va := va, owner := 4, place := .host, pa := va.toNat, pol := 0, ord := false, cell := false, r := true, w := true, x := false,
               mig := none, down := false })
  else
    match q.ctx with
    | none => (c, none)
    | some ctx =>
      if vaOwn va = 6 then (c, none)
      else
        match c.translate (c.hubWho ctx) k align va n with
        | .ok x => (c, if x.down then none else some x)
        | .trap _ => (c, none)
        | .absent p pa => (c.absent p pa, none)

/-- Whether an address of a work queue's entry fails Owner, or lies under an owner that the hub cannot reach (R63, R205); the addresses of
the control queue are physical. -/
def Chip.ownerFails (c : Chip) (q : Queue) (va : W64) : Bool :=
  !q.isControl && (match q.ctx with
    | none => true
    | some ctx =>
      let who := c.hubWho ctx
      vaOwn va == 5 || vaOwn va == 6 || (owner who.dies who.die va).isNone)

/-! ### Completion (R64) -/

/-- Move the head over the entries that have completed. -/
def Queue.advance (q : Queue) : Queue :=
  let n := (q.ents.takeWhile fun e => e.done).length
  { q with head := q.head + n, ents := q.ents.drop n }

/-- The check of an entry's SIGADDR (R64 step 1): its translation, if it has one that passes. -/
def Chip.signalXl (c : Chip) (q : Queue) (sig : W64) : Chip × Option Xl :=
  if sig = 0 ∨ sig.toNat % 8 ≠ 0 then (c, none) else c.entryXl q .atomic 8 sig 8

/-- A queue that QUEUE_DESTROY removes is gone once its entries have completed; its command then completes OK (R73). -/
def Chip.buryQueue (c : Chip) (qn : Nat) : Chip :=
  match c.queue qn with
  | none => c
  | some q =>
    match q.dying with
    | none => c
    | some e => if q.ents.isEmpty then { c with queues := Sparse.erase c.queues qn }.entryStatus e.1 e.2 stOk else c

/-- The work queue whose QUEUE_CREATE completes as an entry is its context's primary queue from then on, if that has none (R51). -/
def Chip.namePrimary (c : Chip) (qn n : Nat) : Chip :=
  match c.queues.find? fun x => x.2.birth == some (qn, n) with
  | none => c
  | some (k, q) =>
    let c := c.setQueue k { q with birth := none }
    match q.ctx with
    | none => c
    | some ctx => c.updCtx ctx fun x => if x.primary.isNone then { x with primary := some k } else x

/-- The event of a failed entry of a work queue (R65). -/
def Chip.failEvent (c : Chip) (qn : Nat) (q : Queue) (e : EntryState) (st : Nat) : Chip :=
  match q.ctx with
  | none => c
  | some ctx =>
    if st == stOk || q.isControl || !c.serves ctx then c
    else c.postEvent (queueEvent (if entryType e.word = 1 then evLaunchRefused else evEntryFailed) ctx st qn e.n)

/-- STATUS and DONE in an entry's slot (R64 step 2). -/
def Chip.writeDone (c : Chip) (at_ st : Nat) : Chip := c.hubWrite (at_ + 248) (leBytes 1 st ++ [1])

/-- The atomic add at an entry's SIGADDR: at a host physical address for the control queue (R63), which is a physical path of R219. -/
def Chip.signal (c : Chip) (q : Queue) (x : Xl) (v : W64) : Chip :=
  let d := c.hubAtomic x fun old => old + v
  if q.isControl then d.spoil (c.spoilt x.place x.pa 8) else d

/-- Complete an entry with a status (R64): the check of SIGADDR, STATUS and DONE, the atomic add, and then the head. -/
def Chip.completeEntry (c : Chip) (qn : Nat) (e : EntryState) (st : Nat) : Chip :=
  match c.queue qn with
  | none => c
  | some q =>
    let sig := entrySig e.word
    let (c, x) := c.signalXl q sig
    let st := if st = stOk ∧ sig ≠ 0 ∧ x.isNone then stMemoryFault else st
    let c := c.writeDone (q.slotAddr e.n) st
    let c := match x with
      | some x => c.signal q x (entrySigVal e.word)
      | none => c
    let q := ({ q with ents := q.ents.map fun x => if x.n = e.n then { x with done := true, status := some st } else x } : Queue).advance
    let c := (c.setQueue qn q).hubWrite q.headA (leBytes 8 q.head)
    (((c.failEvent qn q e st).namePrimary qn e.n).buryQueue qn).settleQueue qn

/-- ENTRY_COMPLETE: an entry with a status, or any entry of a faulted context (R72). -/
def Chip.entryComplete (c : Chip) (qn n : Nat) : Chip :=
  match c.queue qn with
  | none => c
  | some q =>
    match q.ents.find? fun e => e.n == n && !e.done with
    | none => c
    | some e =>
      if c.queueState q == some .faulted then c.completeEntry qn e stAbandoned
      else
        match e.status with
        | some st => c.completeEntry qn e st
        | none => c

def execEntryComplete (q n : Nat) (s : State) : Host.Outcome State Fault Refusal :=
  let c := s.chip.entryComplete q n
  s.onHub c (s.hc.noteError c)

/-! ### LAUNCH (R66 to R69, R82) -/

/-- The level entries of a launch record that have V, in order (R67). -/
def recordLevels (e : Nat) : List Level :=
  ((List.range 8).filter fun n => fld e (448 + 32 * n + 6) 1 == 1).map fun n =>
    { extent := fld e (448 + 32 * n + 8) 24, scope := fld e (448 + 32 * n + 3) 3, domain := fld e (448 + 32 * n) 3 }

/-- Non-decreasing. -/
def rising : List Nat → Bool
  | a :: b :: rest => decide (a ≤ b) && rising (b :: rest)
  | _ => true

/-- The level rules of R67: no reserved bit, contiguous from level 0, codes in range and not decreasing, extents at least 1. -/
def levelsOk (e : Nat) : Bool :=
  let ls := recordLevels e
  ((List.range 8).all fun n => fld e (448 + 32 * n + 7) 1 == 0 && (fld e (448 + 32 * n + 6) 1 == 1) == decide (n < ls.length)) &&
    (ls.all fun l => 1 ≤ l.extent && l.scope ≤ 4 && l.domain ≤ 5) && rising (ls.map fun l => l.domain)

/-- The level rules of R101 and R102, for strands of `width` lanes, `lanes` lanes a group and `groups` groups. -/
def levelsFit (ls : List Level) (width lanes groups pod : Nat) : Bool :=
  let flat := ls.filter fun l => l.domain != 5
  decide ((ls.filter fun l => l.domain == 5).length ≤ 1) && (flat.isEmpty || levelSpan ls ls.length == groups * lanes) &&
    (List.range ls.length).all fun n =>
      let l := ls.getD n default
      let b := levelSpan ls (n + 1)
      match l.domain with
      | 0 => width % b == 0
      | 1 | 2 => lanes % b == 0
      | 3 => b % lanes == 0
      | 5 => decide (pod < l.extent)
      | _ => true

/-- The core masks of a launch record, die by die. -/
def recordMask (e d : Nat) : Nat := fld e (1216 + 64 * d) 64

/-- The cores that a launch may use (R66), but those that are out of use (R450). -/
def Chip.launchCores (c : Chip) (e : Nat) (dies : List Nat) : List Nat :=
  let named := (List.range Config.dies).any fun d => recordMask e d != 0
  (dies.flatMap fun d => ((List.range Config.coresPerDie).filter fun k => !named || fld (recordMask e d) k 1 == 1).map
    fun k => Config.coresPerDie * d + k).filter c.inUse

/-- Arguments of a launch record. -/
def recordArgs (e : Nat) : List W64 := (List.range 8).map fun i => entryWord e (11 + i)

def recordLanes (e : Nat) : Nat := fld e 128 16
def recordGroups (e : Nat) : Nat := fld e 32 32
def recordKernel (e : Nat) : W64 := entryWord e 1
def recordRoles (e : Nat) : W64 := entryWord e 3

/-- Step 1 of R82, but for the alignment of KERNEL, for strands of `width` lanes. -/
def recordOk (e : Nat) (dies : List Nat) (width : Nat) : Bool :=
  entryClean e && 1 ≤ recordLanes e && recordLanes e ≤ 2048 && 1 ≤ recordGroups e &&
    ((List.range Config.dies).all fun d => fld (recordMask e d) 48 16 == 0 && (recordMask e d == 0 || dies.contains d)) &&
    levelsOk e &&
    levelsFit (recordLevels e) width (recordLanes e) (recordGroups e) (((recordArgs e).getD 7 0).toNat % 2 ^ 24)

/-- Step 3 of R82: the ranges of R78. -/
def headerOk (h : W64) (level : Nat) : Bool :=
  (headerRev h == 3 || headerRev h == 4) && headerCompat h == (headerRev h == 3) && !(headerPairSafe h && !headerCompat h) &&
    (Foot.ofWord h).inRange && bits h 0 15 == (0 : BitVec 15) && decide (headerLevel h ≤ level)

/-- Step 6 of R82: every old expansion that a behaviour level asks for is carried (R88). -/
def errataCarried (fw : Firmware) (b : Nat) : Bool := fw.errata.all fun x => x.fixLevel ≤ b || x.carried

/-- Steps 3 to 7 of R82 for a launch on some cores: the status of the first that fails. -/
def Chip.headerStatus (c : Chip) (cores : List Nat) (det : Bool) (e : Nat) (h : W64) : Nat :=
  if !headerOk h c.firmware.level then stBadKernel
  else if cores.isEmpty || !c.fitsEmpty (hardwareCount h (recordRoles e) (recordLanes e)) (Foot.ofWord h) then stBadKernel
  else if headerStrands h < logicalCount h (recordLanes e) then stBadRecord
  else if !errataCarried c.firmware (headerLevel h) then stErratum
  else if headerDetReq h && !det then stDetRequired
  else stOk

/-- The header word of a launch record's kernel, read once (R77); none where KERNEL has no translation with X (step 2). -/
def Chip.kernelHeader (c : Chip) (q : Queue) (e : Nat) : Chip × Option W64 :=
  if (recordKernel e).toNat % 16 != 0 then (c, none)
  else
    match c.entryXl q .fetch 16 (recordKernel e) 16 with
    | (c, none) => (c, none)
    | (c, some x) =>
      let r := c.readXl x 8
      (r.1, some (BitVec.ofNat 64 (leNat r.2)))

/-- Whether a work queue's address has no valid translation whatever its die: it fails Owner by a reserved bit or a reserved owner, or has an
owner that the hub makes no access under (R63, R205). -/
def unreachable (va : W64) : Bool := !vaClean va || decide (5 ≤ vaOwn va)

/-- The checks of R82 in order, with the header. The lane width of R102 is the header's where there is one. A KERNEL that R63 gives no valid
translation fails with MEMORY_FAULT, and one on a die outside the partition, which has none at its owner, with BAD_KERNEL, before its alignment is
looked at (R82, R205; DEDUCED, log 92). -/
def Chip.launchStatus (c : Chip) (q : Queue) (x : Context) (e : Nat) : Chip × Nat × W64 :=
  let r := c.kernelHeader q e
  let width := match r.2 with
    | some h => headerWidth h
    | none => 128
  if !recordOk e x.dies width then (c, stBadRecord, 0)
  else if unreachable (recordKernel e) then (c, stMemoryFault, 0)
  else if (owner x.dies 0 (recordKernel e)).isNone then (c, stBadKernel, 0)
  else if (recordKernel e).toNat % 16 != 0 then (c, stBadRecord, 0)
  else
    match r.2 with
    | none => (r.1, stBadKernel, 0)
    | some h => (r.1, c.headerStatus (c.launchCores e x.dies) x.det e h, h)

/-- A launch that passed its checks. -/
def launchOf (ctx qn n seq : Nat) (cores : List Nat) (e : Nat) (h : W64) : Launch :=
  { ctx := ctx, seq := seq, queue := qn, entry := n, pc := recordKernel e, header := h, args := recordArgs e, levels := recordLevels e,
    cores := cores, lanes := recordLanes e, groups := recordGroups e, stream := entryWord e 4, roleMap := recordRoles e,
    clsMap := BitVec.ofNat 32 (fld e 160 32), next := 0, lastC := none, holding := false }

/-- Invalidate a context's instruction cache lines in every core of its partition (R83). -/
def Chip.dropText (c : Chip) (ctx : Nat) (dies : List Nat) : Chip :=
  (coresOf dies).foldl (fun c k => c.dropILines k ctx 0 (2 ^ 64)) c

/-- The sequence number of the launch record that a context takes next: of those it has taken since CTX_LOAD (R75), or in a deterministic
context of those taken from its primary queues since CTX_MODE too (R51). -/
def Context.launchSeq (x : Context) : Nat := if x.det then x.seq - x.modeSeq else x.seq

/-- The hub takes a launch record of a context that is loaded, running or pre-empted. One that completes NOT_PRIMARY counts for R75's SEQ, but no
instruction cache line is invalidated for it: R83's "taken" means a record that goes on to the checks of R82 (DEDUCED, log 112). -/
def Chip.takeLaunch (c : Chip) (qn : Nat) (q : Queue) (ctx : Nat) (x : Context) (e : Nat) : Chip :=
  if x.det && x.primary != some qn then
    (c.setCtx ctx { x with seq := x.seq + 1, modeSeq := x.modeSeq + 1 }).takeEntry qn e (some stNotPrimary)
  else
    let seq := x.launchSeq
    let c := (c.setCtx ctx { x with seq := x.seq + 1 }).dropText ctx x.dies
    let (c, st, h) := c.launchStatus q x e
    if st != stOk then c.takeEntry qn e (some st)
    else
      let c := { c with launches := Sparse.set c.launches c.nextId (launchOf ctx qn q.taken seq (c.launchCores e x.dies) e h), nextId := c.nextId + 1 }
      let c := if x.state = .loaded then c.updCtx ctx fun x => { x with state := .running } else c
      c.takeEntry qn e none

/-- Take the next entry of a queue if it has a TYPE, by what its queue and context are. -/
def Chip.takeTyped (c : Chip) (qn typ : Nat) (f : Queue → Nat → Chip) : Chip :=
  match c.takeable qn with
  | none => c
  | some (q, e) =>
    if entryType e != typ then c
    else
      (if q.isControl && (typ == 1 || typ == 4) then c.takeEntry qn e (some stBadCommand)
       else if c.queueState q == some .faulted then c.takeEntry qn e (some stAbandoned)
       else f q e).settleQueue qn

/-- LAUNCH. -/
def Chip.launchEntry (c : Chip) (qn : Nat) : Chip :=
  c.takeTyped qn 1 fun q e =>
    match q.ctx with
    | none => c
    | some ctx =>
      match c.ctx ctx with
      | none => c
      | some x => c.takeLaunch qn q ctx x e

def execLaunch (q : Nat) (s : State) : Host.Outcome State Fault Refusal := s.onChip (s.chip.launchEntry q)

/-! ### WAIT, SIGNAL and COPY (R70, R71) -/

/-- Whether a queue's waits, signals and copies keep to epoch ends (R71). Between the Commit of a pre-empting epoch end and the next epoch
they act at once, as they do while the context is pre-empted (R72). -/
def Chip.epochBound (c : Chip) (q : Queue) : Bool :=
  match q.ctx with
  | none => false
  | some n =>
    match c.ctx n with
    | none => false
    | some x => x.det && (x.state == .loaded || x.state == .running) && !x.saving && c.domainHolds n

/-- Evaluate a WAIT: its status, or none where the comparison does not hold. -/
def Chip.evalWait (c : Chip) (q : Queue) (e : Nat) : Chip × Option Nat :=
  match c.entryXl q .load 8 (entryWord e 1) 8 with
  | (c, none) => (c, some stMemoryFault)
  | (c, some x) =>
    let r := c.readXl x 8
    (r.1, if waitHolds e (leNat r.2) then some stOk else none)

/-- The status with which a record fails before it is acted on: a field, then Owner of its counter's address, then its alignment (R65,
R205). -/
def Chip.recordFails (c : Chip) (q : Queue) (e : Nat) (fields : Bool) : Option Nat :=
  if !entryClean e || !fields then some stBadRecord
  else if c.ownerFails q (entryWord e 1) then some stMemoryFault
  else if (entryWord e 1).toNat % 8 ≠ 0 then some stBadRecord
  else none

/-- WAIT_ENTRY: a WAIT whose comparison holds at once, or that cannot be evaluated, completes; any other blocks its queue. -/
def Chip.waitEntry (c : Chip) (qn : Nat) : Chip :=
  c.takeTyped qn 2 fun q e =>
    match c.recordFails q e (decide (fld e 16 3 ≤ 3)) with
    | some st => c.takeEntry qn e (some st)
    | none =>
      if c.epochBound q then c.takeEntry qn e none
      else
        let r := c.evalWait q e
        r.1.takeEntry qn e r.2

def execWaitEntry (q : Nat) (s : State) : Host.Outcome State Fault Refusal := s.onChip (s.chip.waitEntry q)

/-- Evaluate a queue's pending WAIT. -/
def Chip.recheckWait (c : Chip) (qn : Nat) : Chip :=
  match c.queue qn with
  | none => c
  | some q =>
    match q.ents.find? fun e => entryType e.word == 2 && e.status.isNone with
    | none => c
    | some e =>
      match c.evalWait q e.word with
      | (c, some st) => (c.entryStatus qn e.n st).settleQueue qn
      | (c, none) => c

/-- WAIT_RECHECK, but for a WAIT that is evaluated at epoch ends only. -/
def Chip.waitRecheck (c : Chip) (qn : Nat) : Chip :=
  match c.queue qn with
  | none => c
  | some q => if c.epochBound q then c else c.recheckWait qn

def execWaitRecheck (q : Nat) (s : State) : Host.Outcome State Fault Refusal := s.onChip (s.chip.waitRecheck q)

/-- The atomic of a SIGNAL: its status. -/
def Chip.doSignal (c : Chip) (q : Queue) (e : Nat) : Chip × Nat :=
  match c.entryXl q .atomic 8 (entryWord e 1) 8 with
  | (c, none) => (c, stMemoryFault)
  | (c, some x) =>
    let v := entryWord e 2
    (c.hubAtomic x fun old => if fld e 16 2 = 0 then old + v else v, stOk)

/-- SIGNAL_ENTRY. -/
def Chip.signalEntry (c : Chip) (qn : Nat) : Chip :=
  c.takeTyped qn 3 fun q e =>
    match c.recordFails q e (decide (fld e 16 2 ≤ 1)) with
    | some st => c.takeEntry qn e (some st)
    | none =>
      if c.epochBound q then c.takeEntry qn e none
      else
        let r := c.doSignal q e
        r.1.takeEntry qn e (some r.2)

def execSignalEntry (q : Nat) (s : State) : Host.Outcome State Fault Refusal := s.onChip (s.chip.signalEntry q)

/-- Whether a COPY's record is well formed. -/
def copyOk (e : Nat) : Bool := entryClean e && 1 ≤ fld e 192 64 && decide (fld e 192 64 ≤ 2 ^ 40)

/-- Whether every page of a range translates for a queue's access. -/
def Chip.rangeReach (c : Chip) (q : Queue) (k : Access) : List (W64 × Nat) → Chip × Bool
  | [] => (c, true)
  | (va, n) :: rest =>
    match c.entryXl q k 1 va n with
    | (c, some _) => c.rangeReach q k rest
    | (c, none) => (c, false)

/-- The bytes of a range. -/
def Chip.rangeBytes (c : Chip) (q : Queue) : List (W64 × Nat) → Chip × List Byte
  | [] => (c, [])
  | (va, n) :: rest =>
    match c.entryXl q .engineRead 1 va n with
    | (c, some x) =>
      let r := c.readXl x n
      let y := r.1.rangeBytes q rest
      (y.1, r.2 ++ y.2)
    | (c, none) => (c, [])

/-- Where the bytes of a range lie for a queue's write. -/
def Chip.rangeAt (c : Chip) (q : Queue) : List (W64 × Nat) → List (Place × Nat × Nat)
  | [] => []
  | (va, n) :: rest =>
    match (c.entryXl q .engineWrite 1 va n).2 with
    | some x => (x.place, x.pa, n) :: c.rangeAt q rest
    | none => c.rangeAt q rest

/-- The bytes of a COPY land, but in cells that are not VALUE (R155). An overlap leaves the destination undefined (R71), and so does a
migration the lines of its page that the COPY touches (R219). Where some page does not translate, none of its bytes is copied (DESIGN CHOICE,
log 82). -/
def Chip.doCopy (c : Chip) (q : Queue) (e : Nat) : Chip × Nat :=
  let src := entryWord e 1
  let dst := entryWord e 2
  let n := fld e 192 64
  let sp := pagePieces (n / 4096 + 2) src n
  let (c, okS) := c.rangeReach q .engineRead sp
  let dp := pagePieces (n / 4096 + 2) dst n
  let (c, okD) := c.rangeReach q .engineWrite dp
  if !okS || !okD then (c, stMemoryFault)
  else
    let meets := decide (src.toNat < dst.toNat + n) && decide (dst.toNat < src.toNat + n)
    let (c, bs) := c.rangeBytes q sp
    let (c, bs) := if meets then ({ c with freeCtr := c.freeCtr + (n + 7) / 8 }, freeBytes c.freeCtr n) else (c, bs)
    let spoilt := ((c.rangeAt q dp).flatMap fun x => c.spoilt x.1 x.2.1 x.2.2).eraseDups
    (((c.writeRun (c.hubWho (q.ctx.getD 0)) (n + 1) dst bs).1).spoil spoilt, stOk)

/-- COPY_ENTRY. -/
def Chip.copyEntry (c : Chip) (qn : Nat) : Chip :=
  c.takeTyped qn 4 fun q e =>
    if !copyOk e then c.takeEntry qn e (some stBadRecord)
    else if c.epochBound q then c.takeEntry qn e none
    else
      let r := c.doCopy q e
      r.1.takeEntry qn e (some r.2)

def execCopyEntry (q : Nat) (s : State) : Host.Outcome State Fault Refusal := s.onChip (s.chip.copyEntry q)

/-- At an epoch end, an entry of a queue that waits for one (R71). -/
def Chip.epochEntry (c : Chip) (qn : Nat) (q : Queue) (e : EntryState) : Chip :=
  match entryType e.word with
  | 2 => c.recheckWait qn
  | 3 =>
    let r := c.doSignal q e.word
    r.1.entryStatus qn e.n r.2
  | 4 =>
    let r := c.doCopy q e.word
    r.1.entryStatus qn e.n r.2
  | _ => c

/-- At an epoch end, every such entry of a context's queues. The rule orders them within a queue alone; that they go by queue number, all
signals and copies before all waits, is the model's choice (DESIGN CHOICE, log 76). -/
def Chip.epochEntries (c : Chip) (ctx : Nat) : Chip :=
  let mine := c.queues.filter fun x => x.2.ctx == some ctx
  let pend (q : Queue) (wait : Bool) : List EntryState := q.ents.filter fun e => e.status.isNone && (entryType e.word == 2) == wait
  let go (c : Chip) (wait : Bool) : Chip := mine.foldl (fun c x => (pend x.2 wait).foldl (fun c e => c.epochEntry x.1 x.2 e) c) c
  go (go c false) true

/-! ### Commands -/

/-- A command of the control queue: taken if it is the next entry, and given a status, or none while it is in progress. The operand's
range is the class's (R58, R73). -/
def Chip.command (c : Chip) (cls code : Nat) (f : Nat → Nat → Nat → Chip × Option Nat) : Chip :=
  match c.takeable 0 with
  | none => c
  | some (q, e) =>
    if !(q.isControl && entryType e == 5 && entryClass e == cls && entryCode e == code) then c
    else
      let n := entryOperand e
      let inRange := match cls with
        | 0 => decide (n < Config.contexts)
        | 1 => decide (1 ≤ n ∧ n < Config.queues)
        | _ => true
      let r := if entryClean e && inRange then f n (fld e 64 64) q.taken else (c, some stBadRecord)
      (r.1.takeEntry 0 e r.2).settleQueue 0

/-- A queue descriptor (R60). -/
structure QueueDesc where
  base : Nat
  logn : Nat
  kind : Nat
  ctx  : Nat
  tail : Nat
  head : Nat
  deriving DecidableEq, Repr

/-- The descriptor at a host address, if it is well formed for a kind. -/
def Chip.queueDesc (c : Chip) (pa kind : Nat) : Option QueueDesc :=
  let x := leNat (c.readPhys .host pa 64)
  let d : QueueDesc := { base := fld x 0 64, logn := fld x 64 8, kind := fld x 72 2, ctx := fld x 88 8, tail := fld x 128 64,
                         head := fld x 192 64 }
  if pa % 64 == 0 && fld x 256 256 == 0 && fld x 96 32 == 0 && fld x 74 14 == 0 && d.kind == kind && 4 ≤ d.logn && d.logn ≤ 16 &&
      d.tail % 64 == 0 && d.head % 64 == 0 && d.base % 256 == 0 && (kind != 0 || decide (d.ctx < Config.contexts)) then some d
  else none

/-- A queue as it is created. -/
def QueueDesc.queue (d : QueueDesc) (ctx : Option Nat) : Queue :=
  { state := .idle, kind := d.kind, ctx := ctx, base := d.base, logn := d.logn, headA := d.head, tailA := d.tail, tail := 0, taken := 0,
    head := 0, ents := [], dying := none, bound := d.ctx }

/-- The state of a context number: none where it was never created or is destroyed. -/
def Chip.liveCtx (c : Chip) (n : Nat) : Option Context :=
  match c.ctx n with
  | none => none
  | some x => if x.state = .destroyed then none else some x

/-- QUEUE_CREATE (R51, R73); its completion may make the queue primary. Of a queue that is present it gives WRONG_STATE, whatever the descriptor holds (DESIGN CHOICE, log 82). -/
def Chip.queueCreate (c : Chip) : Chip :=
  c.command 1 1 fun qn addr entry =>
    if (c.queue qn).isSome then (c, some stWrongState)
    else
      match c.queueDesc addr 0 with
      | none => (c, some stBadRecord)
      | some d =>
        match c.liveCtx d.ctx with
        | none => (c, some stWrongState)
        | some _ => (c.setQueue qn { d.queue (some d.ctx) with birth := some (0, entry) }, some stOk)

def execQueueCreate (s : State) : Host.Outcome State Fault Refusal := s.onChip s.chip.queueCreate

/-- QUEUE_STOP. -/
def Chip.queueStop (c : Chip) : Chip :=
  c.command 1 2 fun qn _ _ =>
    match c.queue qn with
    | none => (c, some stWrongState)
    | some q => if q.isOpen then (c.setQueue qn { q with state := .stopped }, some stOk) else (c, some stWrongState)

def execQueueStop (s : State) : Host.Outcome State Fault Refusal := s.onChip s.chip.queueStop

/-- QUEUE_START. -/
def Chip.queueStart (c : Chip) : Chip :=
  c.command 1 3 fun qn _ _ =>
    match c.queue qn with
    | none => (c, some stWrongState)
    | some q =>
      if q.state = .stopped ∧ q.ctx.isSome then ((c.setQueue qn { q with state := .active }).settleQueue qn, some stOk)
      else (c, some stWrongState)

def execQueueStart (s : State) : Host.Outcome State Fault Refusal := s.onChip s.chip.queueStart

/-- The entries of a queue that it has not taken complete with ABANDONED (R73). -/
def Chip.abandonUntaken (c : Chip) (q : Queue) : Queue :=
  (List.range (q.tail - q.taken)).foldl (fun q _ => q.take (c.slotWord q q.taken) (some stAbandoned)) q

/-- A queue that is removed is no context's primary queue (R51). That it ceases to be one when its QUEUE_DESTROY is taken, before the command
has completed, is the model's choice (DESIGN CHOICE, log 77). -/
def Chip.dropPrimary (c : Chip) (qn : Nat) : Chip :=
  { c with ctxs := c.ctxs.map fun x => if x.2.primary = some qn then (x.1, { x.2 with primary := none }) else x }

/-- QUEUE_DESTROY: it completes once the queue's entries have; until then the queue shows the state stopped (DESIGN CHOICE, log 82). -/
def Chip.queueDestroy (c : Chip) : Chip :=
  c.command 1 4 fun qn _ n =>
    match c.queue qn with
    | none => (c, some stWrongState)
    | some q =>
      let q := c.abandonUntaken q
      let c := c.dropPrimary qn
      if q.ents.isEmpty then ({ c with queues := Sparse.erase c.queues qn }, some stOk)
      else (c.setQueue qn { q with state := .stopped, dying := some (0, n), birth := none }, none)

def execQueueDestroy (s : State) : Host.Outcome State Fault Refusal := s.onChip s.chip.queueDestroy

end Sys2Proof.Machine
end

