-- ==== Sys2Proof/Machine/Epoch.lean ====
section
/-! DEFINITION. EPOCH_END (02_context R52, R53): when a deterministic domain's epoch ends, and what follows its Commit (05_group_strand R110,
R118, 07_cell R169, 08_barrier R185, 03_queue R71, 04_kernel R97). -/

namespace Sys2Proof.Machine


/-- Whether the epoch of a context's domain may end. The quantum of an EXIT holds it open until the strand's slot loads have been performed (R369;
DEDUCED, log 97). -/
def Chip.epochReady (c : Chip) (ctx : Nat) (x : Context) : Bool :=
  x.det && (x.state == .loaded || x.state == .running) && x.closing.isNone && !x.saving && c.domainHolds ctx &&
    !(c.slotLoads.any fun l => l.heldIn ctx) && c.strands.all fun y => y.2.ctx != ctx || y.2.isHandler || c.atEpoch y.2 x.preempt.isSome

/-- Groups of a context, by number. -/
def Chip.ctxGroups (c : Chip) (ctx : Nat) : List Nat := (c.groups.filter fun x => x.2.ctx == ctx).map fun x => x.1

/-- Take the strands that have exited out of the device. -/
def Chip.removeExited (c : Chip) (ctx : Nat) : Chip :=
  (c.strands.filter fun x => x.2.ctx == ctx && x.2.exited).foldl (fun c x => c.removeStrand x.1 x.2) c

/-- The order in which a group's CLAIMs are served at an epoch end (R110): those that waited at an earlier one as they stand, then the new
ones by strand identifier. -/
def Chip.claimOrder (c : Chip) (g : Group) : List (Nat × Nat × Bool) :=
  (g.claims.filter fun x => x.2.2) ++
    sortIdent (fun x : Nat × Nat × Bool => ((c.strand x.1).map fun t => t.ident).getD []) (g.claims.filter fun x => !x.2.2)

/-- Serve a group's CLAIMs, up to `fuel` of them. -/
def Chip.serveClaims (c : Chip) (gid : Nat) : Nat → Chip
  | 0 => c
  | fuel + 1 =>
    match c.serveClaim gid with
    | some c => c.serveClaims gid fuel
    | none => c

/-- A group's pool at an epoch end (R110, R112): returned blocks reach it, CLAIMs are served, and a deadlock is raised. -/
def Chip.epochGroup (c : Chip) (gid : Nat) : Chip :=
  match c.group gid with
  | none => c
  | some g =>
    let c := c.updGroup gid fun g => { g with pool := g.pool ++ g.ret, ret := [], claims := c.claimOrder g }
    let c := c.serveClaims gid g.claims.length
    let c := c.updGroup gid fun g => { g with claims := g.claims.map fun x => (x.1, x.2.1, true) }
    c.claimDeadlock gid

/-- Whether the strand has begun an instruction that has not retired: a load in progress, or a record for a replay. -/
def Strand.inInstr (t : Strand) : Bool := t.load.isSome || t.record.isSome

/-- A strand begins a new quantum (R52, R55). A wait at a GBAR, in CLAIM, or of an SLD for its cell goes on; every other looks again. A bud
read that Commit could not answer stays unretired (R160): its strand has ended the new quantum too. -/
def Strand.newQuantum (t : Strand) : Strand :=
  { t with
    epoch := t.epoch + 1
    quantum := 0
    solid := if t.inInstr then 0 else t.buffer.length
    writers := 0
    ended := t.buffer.any fun e => e.back
    status := match t.status with
      | .waiting .quantum =>
        if t.buffer.any fun e => e.back then .waiting .quantum else if t.gbar then .waiting .barrier else .ready
      | .waiting .claim => .waiting .claim
      | .waiting .barrier => if t.gbar then .waiting .barrier else .ready
      | .waiting .bud => if t.load.isSome then .waiting .bud else .ready
      | .waiting _ => .ready
      | x => x }

/-- Every strand of a context's domain begins a new quantum. -/
def Chip.newQuanta (c : Chip) (ctx : Nat) : Chip :=
  { c with strands := c.strands.map fun x => if x.2.ctx = ctx ∧ !x.2.isHandler then (x.1, x.2.newQuantum) else x }

/-- The record of lanes of an entry that Commit refused. -/
def CommitEntry.laneRecord (e : CommitEntry) (lanes : W128) : LaneRecord :=
  { instr := e.instr, pc := e.pc, trapped := lanes, orig := e.active, wrote := e.wrote.filter fun w => !bit lanes w.1, prod := e.prod,
    ends := true, list := e.list }

/-- The lanes that a strand's replay of an entry's instruction has still to take. -/
def Strand.replaysOf (t : Strand) (e : CommitEntry) : W128 :=
  match t.replay, t.record with
  | some m, some r => if r.pc = e.pc ∧ r.instr = e.instr then m else 0
  | _, _ => 0

/-- The trap that Commit left a strand, taken at the start of its new quantum (R169, R185): its instruction has not retired, so RETIRED does
not count it (R56). -/
def Chip.takePending (c : Chip) (sid : Nat) : Chip :=
  match c.strand sid with
  | none => c
  | some t =>
    match t.pendTrap with
    | none => c
    | some (e, tr) =>
      if t.buffer.any fun e => e.back then c
      else
      let tr := if tr.lane then { tr with lanes := tr.lanes ||| t.replaysOf e } else tr
      let rec' : Option LaneRecord := if tr.lane then some (e.laneRecord tr.lanes) else none
      let n : W64 := if e.open_ || e.back then 0 else 1
      (c.setStrand sid { t with pendTrap := none, retired := t.retired - n }).takeTrap sid tr e.pc rec'

/-- Complete every launch of a context that is over. -/
def Chip.endLaunches (c : Chip) (ctx : Nat) : Chip :=
  (c.launches.filter fun x => x.2.ctx == ctx).foldl (fun c x => if c.launchOver x.1 x.2 then c.endLaunch x.1 x.2 else c) c

/-- Apply a context's patches in order (R97). -/
def Chip.epochPatches (c : Chip) (ctx : Nat) : Chip :=
  (c.patches.filter fun p => p.ctx == ctx).foldl (fun c p => if c.patchReady p then c.patchDone p else c) c

/-- Place a context's groups and then its pool entries, die by die (R118). That groups come first, and the dies in rising order, is the
model's choice (DESIGN CHOICE, log 84). -/
def Chip.epochPlace (c : Chip) (ctx : Nat) : Chip :=
  let left := ((c.launches.filter fun x => x.2.ctx == ctx).map fun x => x.2.groups - x.2.next).sum
  (List.range Config.dies).foldl (fun c d => c.poolFixed ctx d (c.poolOf d).length) (c.placeFixed ctx left)

/-- The quarters of a context begin a quantum with their lowest strands (R120; that a new quantum does not go on from the strand that issued
last is DEDUCED, log 74). -/
def Chip.freshQuarters (c : Chip) (ctx : Nat) : Chip :=
  { c with coros := c.coros.filter fun x => x.1 / (4 * Config.cores) != ctx }

/-- What follows Commit at the end of an epoch. Under a pre-emption nothing is placed, and the save may begin (R53). -/
def Chip.nextEpoch (c : Chip) (ctx : Nat) : Chip :=
  let c := (c.removeExited ctx).freshQuarters ctx
  let c := (c.ctxGroups ctx).foldl Chip.epochGroup c
  let c := (c.domain ctx).foldl Chip.takePending (c.newQuanta ctx)
  let c := ((c.endLaunches ctx).epochEntries ctx).epochPatches ctx
  (if ((c.ctx ctx).map fun x => x.preempt.isSome).getD false then c.updCtx ctx fun x => { x with saving := true }
   else c.epochPlace ctx).maybeIdle ctx

/-- The end of an epoch: Commit, and what follows it once every copy that Commit has registered has run to its last byte (R185). -/
def Chip.endEpoch (c : Chip) (ctx : Nat) : Chip :=
  let r := c.commit ctx
  if r.1.copiesLeft ctx then r.1.updCtx ctx fun x => { x with closing := some r.2 } else r.1.nextEpoch ctx

/-- An epoch's end goes on: its operations run as far as they may, `n` that earlier epochs deferred among them (R403), and once its copies
have landed the next epoch begins. -/
def Chip.closeEpoch (c : Chip) (ctx n : Nat) : Chip :=
  let r := c.runEpoch ctx n
  if r.1.copiesLeft ctx then r.1.updCtx ctx fun x => { x with closing := some r.2 }
  else ((r.1.refreshL1 ctx).updCtx ctx fun x => { x with closing := none }).nextEpoch ctx

/-- EPOCH_END. -/
def Chip.epochEnd (c : Chip) (ctx : Nat) : Chip :=
  match c.ctx ctx with
  | none => c
  | some x =>
    match x.closing with
    | some n => c.closeEpoch ctx n
    | none => if c.epochReady ctx x then c.endEpoch ctx else c

def execEpochEnd (ctx : Nat) (s : State) : Host.Outcome State Fault Refusal := s.onChip (s.chip.epochEnd ctx)

end Sys2Proof.Machine
end

