-- ==== Sys2Proof/Machine/HubContext.lean ====
section
/-! DEFINITION. Contexts at the control queue (02_context R39 to R46, R50, R58): creating, loading, changing the mode, destroying. -/

namespace Sys2Proof.Machine

/-! ### The context record (R39 to R41) -/

/-- A root field of a record (R40). -/
def recordRoot (r o : Nat) : Nat := fld r (320 + 64 * o) 64

/-- The rule of R41 on DET and QEXP. -/
def modeRecordOk (r : Nat) : Bool :=
  if fld r 7 1 = 1 then decide (10 ≤ fld r 0 5 ∧ fld r 0 5 ≤ 20) else fld r 0 5 == 0

/-- Whether the save area of a record meets that of another context that is not destroyed. -/
def Chip.areaFree (c : Chip) (n off size : Nat) : Bool :=
  c.ctxs.all fun x => x.1 == n || x.2.state == .destroyed ||
    !(decide (off < x.2.saveOff + x.2.saveSize) && decide (x.2.saveOff < off + size))

/-- The checks of R41 on a record for context `n`. -/
def Chip.ctxRecordOk (c : Chip) (h : HubCtl) (n r : Nat) : Bool :=
  let dies := partDies h.partLayout (fld r 8 3)
  let off := fld r 768 64
  let size := fld r 832 64
  fld r 896 128 == 0 && fld r 240 80 == 0 && fld r 64 64 == 0 && fld r 11 37 == 0 && fld r 5 2 == 0 && modeRecordOk r &&
    decide (fld r 8 3 < partCount h.partLayout) &&
    ((List.range 5).all fun o =>
      let w := recordRoot r o
      fld w 52 12 == 0 && fld w 1 11 == 0 && (fld w 0 1 == 0 || o == 4 || dies.contains o)) &&
    fld r 704 64 % 16 == 0 && decide (fld r 192 16 ≤ 12288) && decide (fld r 224 16 ≤ 4096) && off % 4096 == 0 && size % 4096 == 0 &&
    decide (65536 ≤ size) && decide (off + size ≤ h.saveLen.toNat) && c.areaFree n off size

/-- The record at a host address. -/
def Chip.ctxRecord (c : Chip) (pa : Nat) : Nat := leNat (c.readPhys .host pa 128)

/-- A context with what a record latches (R46). -/
def Context.ofRecord (h : HubCtl) (pa r : Nat) (st : CtxState) : Context :=
  { state := st, part := fld r 8 3, dies := partDies h.partLayout (fld r 8 3), det := fld r 7 1 == 1, qexp := fld r 0 5,
    seed := BitVec.ofNat 64 (fld r 128 64), strandQ := fld r 192 16, spawnQ := fld r 208 16, waitQ := fld r 224 16, wdog := fld r 48 16,
    handler := BitVec.ofNat 64 (fld r 704 64), roots := (List.range 5).map fun o => BitVec.ofNat 64 (recordRoot r o),
    evqAddr := BitVec.ofNat 64 (fld r 640 64), evq := none, saveOff := fld r 768 64, saveSize := fld r 832 64,
    record := BitVec.ofNat 64 pa, seq := 0, primary := none, preempt := none, saving := false, scanned := [],
    overflow := false, doomed := false }

/-! ### CTX_CREATE, CTX_LOAD, CTX_MODE -/

/-- CTX_CREATE. The roots of a context that is only created are not installed (R46). -/
def Chip.ctxCreate (c : Chip) (h : HubCtl) : Chip :=
  c.command 0 1 fun n pa _ =>
    if (c.liveCtx n).isSome then (c, some stWrongState)
    else
      let r := c.ctxRecord pa
      if pa % 64 == 0 && c.ctxRecordOk h n r then
        (c.setCtx n { Context.ofRecord h pa r .created with roots := [] }, some stOk)
      else (c, some stBadRecord)

def execCtxCreate (s : State) : Host.Outcome State Fault Refusal := s.onChip (s.chip.ctxCreate s.hc)

/-- An event queue in service from its descriptor. -/
def QueueDesc.events (d : QueueDesc) : EventQueue := { base := d.base, logn := d.logn, head := d.head, tail := d.tail, cnt := 0 }

/-- Every queue bound to a context looks again at what it may take. -/
def Chip.settleQueues (c : Chip) (ctx : Nat) : Chip :=
  (c.queues.filter fun x => x.2.ctx == some ctx).foldl (fun c x => c.settleQueue x.1) c

/-- CTX_LOAD. -/
def Chip.ctxLoad (c : Chip) (h : HubCtl) : Chip :=
  c.command 0 2 fun n _ _ =>
    match c.ctx n with
    | none => (c, some stWrongState)
    | some x =>
      if x.state != .created then (c, some stWrongState)
      else
        let r := c.ctxRecord x.record.toNat
        match c.queueDesc (fld r 640 64) 1 with
        | none => (c, some stBadRecord)
        | some d =>
          if c.ctxRecordOk h n r then
            let y := Context.ofRecord h x.record.toNat r .loaded
            ((c.setCtx n { y with evq := some d.events, primary := x.primary }).settleQueues n, some stOk)
          else (c, some stBadRecord)

def execCtxLoad (s : State) : Host.Outcome State Fault Refusal := s.onChip (s.chip.ctxLoad s.hc)

/-- CTX_MODE: DET and QEXP of the record that the command names. The launch sequence of a deterministic context restarts (R51), while a normal
context's count goes on from its CTX_LOAD (R75). -/
def Chip.ctxMode (c : Chip) : Chip :=
  c.command 0 3 fun n pa _ =>
    match c.ctx n with
    | none => (c, some stWrongState)
    | some x =>
      if x.state != .loaded then (c, some stWrongState)
      else
        let r := c.ctxRecord pa
        let det := fld r 7 1 == 1
        if pa % 64 == 0 && modeRecordOk r then
          (c.setCtx n { x with det := det, qexp := fld r 0 5, modeSeq := x.seq }, some stOk)
        else (c, some stBadRecord)

def execCtxMode (s : State) : Host.Outcome State Fault Refusal := s.onChip s.chip.ctxMode

/-! ### CTX_DESTROY (R50, R73) -/

/-- Complete with ABANDONED the entries of a queue that have not completed. -/
def Chip.abandonEntries (c : Chip) (qn : Nat) : List EntryState → Chip
  | [] => c
  | e :: rest => (if e.done then c else c.completeEntry qn e stAbandoned).abandonEntries qn rest

/-- A queue of a context that is being destroyed: its entries complete, taken or not, and it is stopped. -/
def Chip.stopQueue (c : Chip) (qn : Nat) : Chip :=
  match c.queue qn with
  | none => c
  | some q =>
    let q := { c.abandonUntaken q with state := .stopped }
    ((c.setQueue qn q).abandonEntries qn q.ents).updQueue qn fun q => { q with ctx := none }

/-- An OPENING cell goes back to BUD (R50 step 4). -/
def Chip.resetCell (c : Chip) (ctx : Nat) (o : Opening) : Chip :=
  match c.translate (c.hubWho ctx) .look 16 o.cell 16 with
  | .ok x =>
    let c := c.pull x.mig 16
    if c.tagOf x = tagOpening then c.setTag x.place (x.pa / 16 * 16) tagBud else c
  | _ => if Sparse.getD c.tags o.key tagValue = tagOpening then { c with tags := Sparse.set c.tags o.key tagBud } else c

/-- A core without anything of a context. -/
def Core.without (k : Core) (ctx : Nat) (mine : Nat → Bool) : Core :=
  { k with l1 := k.l1.filter fun l => l.ctx != ctx, icache := k.icache.filter fun l => l.ctx != ctx,
           locks := k.locks.filter fun l => l.ctx != ctx, binds := k.binds.filter fun b => b.ctx != ctx,
           frozenQ := k.frozenQ.filter fun s => !mine s, serving := k.serving.filter fun s => !mine s }

/-- Take everything of a context out of the device but its memory, cells and record. -/
def Chip.without (c : Chip) (ctx : Nat) : Chip :=
  let mine (sid : Nat) : Bool := ((c.strand sid).map fun t => t.ctx == ctx).getD false
  { c with
    strands := c.strands.filter fun x => x.2.ctx != ctx
    groups := c.groups.filter fun x => x.2.ctx != ctx
    cores := c.cores.map fun x => (x.1, x.2.without ctx mine)
    launches := c.launches.filter fun x => x.2.ctx != ctx
    pools := c.pools.map fun x => (x.1, x.2.filter fun n => n.ctx != ctx)
    overflows := c.overflows.map fun x => (x.1, x.2.filter fun n => n.ctx != ctx)
    nodes := c.nodes.filter fun x => x.2.strand.ctx != ctx
    nodeUses := c.nodeUses.filter fun x => x.1 / Config.nodeEntries != ctx
    openings := c.openings.filter fun o => o.ctx != ctx
    waiters := c.waiters.filter fun w => w.ctx != ctx
    cellReqs := c.cellReqs.filter fun r => !mine r.sid
    vldas := c.vldas.filter fun v => !mine v.sid
    slotLoads := c.slotLoads.filter fun l => !(mine l.sid || l.heldIn ctx)
    engines := c.engines.filter fun o => o.ctx != ctx
    fvaOps := c.fvaOps.filter fun m => !(c.engines.any fun o => o.id == m.op && o.ctx == ctx)
    deferred := c.deferred.filter fun o => o.ctx != ctx
    patches := c.patches.filter fun p => p.ctx != ctx
    coros := c.coros.filter fun x => x.1 / (4 * Config.cores) != ctx
    gone := c.gone.filter fun x => x.2.ctx != ctx
    saved := Sparse.erase c.saved ctx }

/-- Entries in overflow storage take the places that entries which left a pool have freed (R76). -/
def Chip.refillPools (c : Chip) : Chip := (List.range Config.dies).foldl (fun c d => c.setPool d (c.poolOf d)) c

/-- Tear a context down. Its queues' entries complete first, while its event queue may still be in service (R65, R73). DET goes, the partition
and QEXP stay, as its summary entry then shows (R74; DESIGN CHOICE, log 96). -/
def Chip.teardown (c : Chip) (ctx : Nat) : Chip :=
  let qs := (c.queues.filter fun y => y.2.ctx == some ctx).map fun y => y.1
  let c := (qs.foldl Chip.stopQueue c).updCtx ctx fun x => { x with state := .destroyed, primary := none }
  let os := c.openings.filter fun o => o.ctx == ctx
  let c := os.foldl (fun c o => c.resetCell ctx o) (c.drainCtx ctx)
  (((c.without ctx).refillPools).noteFreedAll (((c.ctx ctx).map fun y => y.dies).getD [])).updCtx ctx fun y =>
    { y with roots := [], evq := none, det := false, preempt := none, saving := false, scanned := [], overflow := false,
             doomed := false, closing := none }

/-- CTX_DESTROY. -/
def Chip.ctxDestroy (c : Chip) : Chip :=
  c.command 0 6 fun n _ _ =>
    match c.liveCtx n with
    | none => (c, some stWrongState)
    | some _ => (c.teardown n, some stOk)

def execCtxDestroy (s : State) : Host.Outcome State Fault Refusal := s.onChip s.chip.ctxDestroy

end Sys2Proof.Machine
end

