-- ==== Sys2Proof/Machine/Save.lean ====
section
/-! DEFINITION. Pre-emption, save and restore (12_traps R252 to R255, 02_context R46, R48, R53, 06_map_slot R146, 07_cell R167, 08_barrier
R184, 11_ordering R234). -/

namespace Sys2Proof.Machine

/-! ### CTX_PREEMPT -/

/-- CTX_PREEMPT: from now on the context's strands stop (`Chip.runnable`); the command completes when CTX_SAVE has saved them. -/
def Chip.ctxPreempt (c : Chip) : Chip :=
  c.command 0 4 fun n _ entry =>
    match c.ctx n with
    | none => (c, some stWrongState)
    | some x =>
      if x.state == .loaded || x.state == .running then (c.setCtx n { x with preempt := some (0, entry), saving := false }, none)
      else (c, some stWrongState)

def execCtxPreempt (s : State) : Host.Outcome State Fault Refusal := s.onChip s.chip.ctxPreempt

/-! ### What the save waits for (R252) -/

/-- Whether nothing of a context is left that its save waits for: every strand stands at an instruction boundary (R249), and its producers, engine
operations, slot loads, handlers and patches have ended. A replay that waits on a bud, or for registers, is none of these, and no replay is once a
deterministic context's epoch has ended. -/
def Chip.saveReady (c : Chip) (ctx : Nat) (x : Context) : Bool :=
  let mine (sid : Nat) : Bool := ((c.strand sid).map fun t => t.ctx == ctx).getD false
  !(c.strands.any fun y => y.2.ctx == ctx && (y.2.isHandler || (y.2.replay.isSome && (y.2.status == .ready || y.2.status == .waiting .mapSlot) && !x.doomed && !x.saving) || y.2.status == .parked || !c.atBoundary y.1 y.2)) &&
    !(c.vldas.any fun v => mine v.sid) && !(c.slotLoads.any fun l => mine l.sid || l.heldIn ctx) &&
    (c.engines.all fun o => o.ctx != ctx || o.finished) && !(c.patches.any fun p => p.ctx == ctx) &&
    (!x.det || x.saving || !c.domainHolds ctx)

/-! ### The record (R253) -/

/-- A size in whole pages of 4 KiB. -/
def wholePages (n : Nat) : Nat := (n + 4095) / 4096 * 4096

def strandRecordBytes : Nat := 327680
def groupRecordBytes (grans : Nat) : Nat := wholePages (64 + 2048 * grans + 16384)
def directoryBytes (g t : Nat) : Nat := wholePages (16 + 8 * (g + t))

/-- A context's strands in directory order (R253), and its groups, whose order R253 leaves open: by rising group number (DESIGN CHOICE, log 117). -/
def Chip.savedStrands (c : Chip) (ctx : Nat) : List (Nat × Strand) := (c.domain ctx).filterMap fun sid => (c.strand sid).map fun t => (sid, t)
def Chip.savedGroups (c : Chip) (ctx : Nat) : List (Nat × Group) := c.groups.filter fun x => x.2.ctx == ctx

/-- The offsets of records of given sizes from an offset on. -/
def offsetsFrom : Nat → List Nat → List Nat
  | _, [] => []
  | a, n :: rest => a :: offsetsFrom (a + n) rest

/-- The state and cause codes of a record's first word. -/
def stateCode : Status → Nat
  | .ready => 0
  | .waiting c => 1 + 4 * (match c with
    | .barrier => 1
    | .claim => 2
    | .bud => 3
    | .emptyReg => 4
    | .mapSlot => 5
    | .quantum => 6)
  | .frozen => 2
  | .parked => 0

/-- A strand as it is saved (R252): one not frozen by a trap records PREEMPT at its next unretired instruction, and a load that has lanes
at their owners is begun again, except in a deterministic context, where only an SLD's is left and its waiters stay. -/
def Strand.preempted (t : Strand) (det : Bool) : Strand :=
  if t.status = .frozen then t
  else
    { t with trapCause := (Trap.instr .preempt 0 0).word, faultVa := 0, faultMask := 0, epc := epcBits t.pc,
             issued := none, load := if det then t.load else none }

/-- Bits of 40 bytes, one for each register. -/
def regBits (t : Strand) (f : RegFill → Bool) : Nat :=
  (((List.range 320).filter fun n => n < t.regLimit && f (t.vreg n).fill).map fun n => 2 ^ n).sum

/-- The record's bytes below the blocks. A strand that no trap froze records PREEMPT as its last record (R252). -/
def Chip.strandHead (c : Chip) (t : Strand) : List Byte :=
  let frozen := t.status == .frozen
  let first := 1 + stateCode t.status * 2 ^ 16 + b2n t.gbar * 2 ^ 21 + b2n (!frozen) * 2 ^ 22
  let head := leBytes 8 first ++ leBytes 8 (t.group % 2 ^ 32 + t.index % 16 * 2 ^ 32 + t.laneBase % 2 ^ 21 * 2 ^ 40) ++
    leBytes 8 (if frozen then t.epc else t.pc).toNat ++ leBytes 8 t.salt.toNat ++
    ([t.mode, t.flags, BitVec.ofNat 64 t.regLimit, BitVec.ofNat 64 t.mapLimit, t.ancestry, c.quantumReg t, t.retired, t.trapCause,
      t.faultVa, t.epc].flatMap fun w => leBytes 8 w.toNat) ++
    leBytes 16 t.faultMask.toNat ++ ((List.range 8).flatMap fun i => leBytes 4 (t.chain.getD i 0 % 2 ^ 24))
  let pad (n : Nat) (bs : List Byte) : List Byte := bs ++ List.replicate (n - bs.length) 0
  let sregs := (List.range 64).flatMap fun i => leBytes 8 (t.sreg i).toNat
  let kregs := (List.range 16).flatMap fun i => leBytes 16 (t.kreg i).toNat
  let ctrs := (List.range 128).flatMap fun l => leBytes 8 (t.counter 0 l) ++ leBytes 8 (t.counter 1 l)
  let full := leBytes 40 (regBits t fun f => f == .full)
  let flight := leBytes 40 (regBits t fun f => f != .full && f != .empty)
  pad 0x1000 (pad 0x100 head ++ sregs ++ kregs ++ ctrs ++ full ++ flight)

/-- The 4352 bytes of a block. -/
def Strand.blockBytes (t : Strand) (b : Nat) : List Byte :=
  let rs := (List.range 8).map fun n => t.vreg (8 * b + n)
  (rs.flatMap fun r => leBytes 512 r.lanes.toNat) ++ (rs.flatMap fun r => leBytes 16 r.side.toNat) ++
    leBytes 4 (rs.foldr (fun r x => x * 16 + r.tag.code.toNat) 0) ++ List.replicate 124 0

/-- The 4672 bytes of a slot. -/
def MapSlot.saveBytes (m : MapSlot) : List Byte :=
  leBytes 4096 m.image.toNat ++ leBytes 512 m.side.toNat ++ leBytes 8 m.word.toNat ++ List.replicate 56 0

/-- The parts of a strand's record that a save does not write, with their lengths: its clean blocks (R254), and the claimed slots with D
clear (R146). -/
def Strand.keptParts (t : Strand) : List (Nat × Nat) :=
  (((List.range (t.regLimit / 8)).filter fun b => !bit t.dirty b).map fun b => (0x1000 + 4352 * b, 4352)) ++
    (t.slots.filter fun x => !x.2.d).map fun x => (0x2B800 + 4672 * x.1, 4672)

/-- The images that a strand's record keeps from its last save, with their new addresses, where the record moves to offset `at_` of the save
area. -/
def Chip.keptImages (c : Chip) (base at_ : Nat) (t : Strand) : List (Nat × List Byte) :=
  match t.saveAt with
  | none => []
  | some old => if old = at_ then [] else t.keptParts.map fun x => (base + at_ + x.1, c.readPhys .host (base + old + x.1) x.2)

/-- Write a strand's record: its blocks with the dirty bit (R254), and its slots with D (R146). -/
def Chip.writeStrandRecord (c : Chip) (at_ : Nat) (t : Strand) : Chip :=
  let c := c.hubWrite at_ (c.strandHead t)
  let c := ((List.range (t.regLimit / 8)).filter fun b => bit t.dirty b).foldl (fun c b =>
    c.hubWrite (at_ + 0x1000 + 4352 * b) (t.blockBytes b)) c
  (t.slots.filter fun x => x.2.d).foldl (fun c x => c.hubWrite (at_ + 0x2B800 + 4672 * x.1) x.2.saveBytes) c

/-- The first word of a group record. -/
def groupWord (g : Group) : Nat :=
  let n (cold : Bool) : Nat := (g.pool.filter fun b => b.cold == cold).length
  g.index % 2 ^ 32 + (g.hw - 1) % 16 * 2 ^ 32 + n false % 2 ^ 8 * 2 ^ 40 + n true % 2 ^ 7 * 2 ^ 48 + g.grans % 2 ^ 8 * 2 ^ 56

/-- Write a group's record; the 16 KiB that are private to the hub are free values (log 64). -/
def Chip.writeGroupRecord (c : Chip) (at_ : Nat) (g : Group) : Chip :=
  let img := c.readPhys (.core g.core) (g.first * Config.granuleBytes) (g.grans * Config.granuleBytes)
  { c with freeCtr := c.freeCtr + 2048 }.hubWrite at_
    (leBytes 8 (groupWord g) ++ List.replicate 56 0 ++ img ++ freeBytes c.freeCtr 16384)

/-- The sizes of a context's records, which stand in directory order, groups before strands (DESIGN CHOICE, log 117). -/
def Chip.recordSizes (c : Chip) (ctx : Nat) : List Nat :=
  ((c.savedGroups ctx).map fun x => groupRecordBytes x.2.grans) ++ (c.savedStrands ctx).map fun _ => strandRecordBytes

/-- The size that a save needs. -/
def Chip.saveBytes (c : Chip) (ctx : Nat) : Nat :=
  directoryBytes (c.savedGroups ctx).length (c.savedStrands ctx).length + (c.recordSizes ctx).sum

/-- Where the records of a context stand, from the start of the area. -/
def Chip.recordOffsets (c : Chip) (ctx : Nat) : List Nat :=
  offsetsFrom (directoryBytes (c.savedGroups ctx).length (c.savedStrands ctx).length) (c.recordSizes ctx)

/-- Where the records of a context's strands stand. -/
def Chip.strandOffsets (c : Chip) (ctx : Nat) : List Nat := (c.recordOffsets ctx).drop (c.savedGroups ctx).length

/-- Write the directory and the records, with the images that records keep when they move; `det` says how a strand is saved. -/
def Chip.writeSave (c : Chip) (base ctx : Nat) (det : Bool) : Chip :=
  let gs := c.savedGroups ctx
  let ts := c.savedStrands ctx
  let offs := c.recordOffsets ctx
  let kept := (ts.zip (c.strandOffsets ctx)).flatMap fun x => c.keptImages base x.2 x.1.2
  let dir := leBytes 8 gs.length ++ leBytes 8 ts.length ++ offs.flatMap fun o => leBytes 8 o
  let size := directoryBytes gs.length ts.length
  let c := c.hubWrite base (dir ++ List.replicate (size - dir.length) 0)
  let c := (gs.zip offs).foldl (fun c x => c.writeGroupRecord (base + x.2) x.1.2) c
  let c := kept.foldl (fun c x => c.hubWrite x.1 x.2) c
  (ts.zip (offs.drop gs.length)).foldl (fun c x => c.writeStrandRecord (base + x.2) (x.1.2.preempted det)) c

/-! ### CTX_SAVE -/

/-- A strand as the save leaves it: dirty and D bits clear, with its record at an offset. -/
def Strand.saved (t : Strand) (det : Bool) (at_ : Nat) : Strand :=
  { t.preempted det with dirty := 0, slots := t.slots.map fun x => (x.1, { x.2 with d := false }), saveAt := some at_ }

/-- What a save keeps of a waiter of a strand (R167): of a load in progress, which is begun again, the lanes that an earlier execution has left
deferred, and no other (R124). In a deterministic context only an SLD's load is in progress, and it stays. -/
def Waiter.saved (w : Waiter) (t : Strand) (det : Bool) : Waiter :=
  match t.load with
  | some p =>
    if det || p.prod != some w.prod then w
    else { w with reads := w.reads.filter fun r => p.active != 0 && !bit p.active r.lane }
  | none => w

/-- Everything of a context that its save takes off the device. -/
def Chip.savedOf (c : Chip) (ctx : Nat) (det : Bool) : Saved :=
  let ts := c.savedStrands ctx
  let mine := (c.waiters.filter fun w => w.ctx == ctx).filterMap fun w =>
    (ts.find? fun x => x.1 == w.sid).map fun x => w.saved x.2 det
  { groups := (c.savedGroups ctx).map fun x =>
      let k := c.core x.2.core
      let mine (op : Nat) : Bool := c.engines.any fun o => o.id == op && o.gid == x.1
      { gid := x.1, group := x.2, binds := k.binds.filter fun b => b.gid == x.1, locks := k.locks.filter fun l => mine l.op }
    strands := (ts.zip (c.strandOffsets ctx)).map fun x => (x.1.1, x.1.2.saved det x.2)
    waiters := mine.filter fun w => !w.reads.isEmpty
    pools := (List.range Config.dies).map fun d =>
      (d, ((c.poolOf d).filter fun n => n.ctx == ctx).map fun (n : NewStrand) => { n with tried := none })
    nodes := c.nodes.filter fun x => x.2.strand.ctx == ctx }

/-- Take what is saved off the device. Opening entries stay at their owners (R167), and engine operations that have counted their last
byte keep their locks in the save (R184). Binding entries whose group has ended go with the others (DEDUCED, log 54). -/
def Chip.offDevice (c : Chip) (ctx : Nat) : Chip :=
  let mine (sid : Nat) : Bool := ((c.strand sid).map fun t => t.ctx == ctx).getD false
  let c : Chip := { c with
    strands := c.strands.filter fun x => x.2.ctx != ctx
    groups := c.groups.filter fun x => x.2.ctx != ctx
    cores := c.cores.map fun x =>
      (x.1, { x.2 with locks := x.2.locks.filter (fun l => l.ctx != ctx), binds := x.2.binds.filter (fun b => b.ctx != ctx),
                       frozenQ := x.2.frozenQ.filter fun s => !mine s })
    pools := c.pools.map fun x => (x.1, x.2.filter fun n => n.ctx != ctx)
    overflows := c.overflows.map fun x => (x.1, x.2.filter fun n => n.ctx != ctx)
    nodes := c.nodes.filter fun x => x.2.strand.ctx != ctx
    waiters := c.waiters.filter fun w => w.ctx != ctx
    cellReqs := c.cellReqs.filter fun r => !mine r.sid }
  c.refillPools.noteFreedAll (((c.ctx ctx).map fun x => x.dies).getD [])

/-- Write back and invalidate the L1 lines of a context on every core of its partition (R234). -/
def Chip.retireL1 (c : Chip) (ctx : Nat) (dies : List Nat) : Chip := (coresOf dies).foldl (fun c k => c.acquireL1 k ctx) (c.drainCtx ctx)

/-- CTX_SAVE when nothing is left to wait for: SAVE_OVERFLOW leaves the context as it was; otherwise the records are written, and the command
completes. A context that a fault met meanwhile is saved and then faulted, which its completion reports (R48); one that does not fit
faults where it stands, and its command completes SAVE_OVERFLOW (DESIGN CHOICE, log 95). -/
def Chip.saveNow (c : Chip) (h : HubCtl) (ctx : Nat) (x : Context) (entry : Nat × Nat) : Chip :=
  let y := { x with preempt := none, saving := false, doomed := false }
  if x.saveSize < c.saveBytes ctx then
    let c := (c.setCtx ctx y).entryStatus entry.1 entry.2 stSaveOverflow
    (if x.doomed then c.markFaulted ctx else if x.det && x.saving then c.epochPlace ctx else c).settleQueue entry.1
  else
    let c := c.retireL1 ctx x.dies
    let c := c.writeSave (h.saveBase.toNat + x.saveOff) ctx x.det
    let z := c.savedOf ctx x.det
    let c := { c.offDevice ctx with saved := Sparse.set c.saved ctx z }
    let c := c.setCtx ctx { y with state := if x.doomed then .faulted else .preempted }
    (c.entryStatus entry.1 entry.2 (if x.doomed then stAbandoned else stOk)).settleQueue entry.1

/-- CTX_SAVE. What a deterministic context's engine operations have landed since its epoch ended is counted down first (R184, log 79). A
context that faulted while its pre-emption waited for an epoch end is not saved (log 89). -/
def Chip.ctxSave (c : Chip) (h : HubCtl) (ctx : Nat) : Chip :=
  match c.ctx ctx with
  | none => c
  | some x =>
    match x.preempt with
    | none => c
    | some entry =>
      if x.state = .faulted then
        ((c.setCtx ctx { x with preempt := none, saving := false }).entryStatus entry.1 entry.2 stAbandoned).settleQueue entry.1
      else
      let c := if x.det && x.saving then c.runEngines ctx else c
      if c.saveReady ctx x then c.saveNow h ctx x entry else c

def execCtxSave (ctx : Nat) (s : State) : Host.Outcome State Fault Refusal := s.onChip (s.chip.ctxSave s.hc ctx)

/-! ### CTX_RESUME (R255) -/

/-- A quarter after a turn of `d`. -/
def turnQ (d q : Nat) : Nat := (q + d) % 4

/-- Blocks of a kind that a saved group holds in quarter `q` once turned by `d`, lookahead blocks among the fast ones. -/
def groupBlocks (g : Group) (ts : List Strand) (d q : Nat) (cold : Bool) : Nat :=
  let mine (bs : List Block) : Nat := (bs.filter fun b => b.cold == cold && turnQ d b.quarter == q).length
  mine g.pool + mine g.ret + (ts.map fun t => mine t.blocks).sum +
    (if cold then 0 else ((ts.filter fun t => turnQ d t.quarter == q).map fun t => t.lookahead / 8).sum)

/-- Whether a saved group fits a core once turned by `d`, its locks and its bindings among the core's (R178, R231); in a deterministic context
its strand slots must be free (R255). -/
def Chip.restoreFits (c : Chip) (core d : Nat) (det : Bool) (sg : SavedGroup) (ts : List Strand) : Bool :=
  let g := sg.group
  ((List.range 4).all fun q =>
    let here := ts.filter fun t => turnQ d t.quarter == q
    decide ((c.slotsUsed core q).length + here.length ≤ Config.slotsPerQuarter) &&
      decide (c.blocksUsed core q false + groupBlocks g ts d q false ≤ c.fastCap) &&
      decide (c.blocksUsed core q true + groupBlocks g ts d q true ≤ c.coldCap) &&
      decide (c.mapsUsed core q + (here.map fun t => t.mapLimit).sum ≤ c.mapCap) &&
      (!det || here.all fun t => !((c.slotsUsed core q).contains t.slot))) &&
  c.inUse core && (c.localFit core g.grans).isSome && decide ((c.core core).locks.length + sg.locks.length ≤ Config.lockEntries) &&
    decide ((c.core core).binds.length + sg.binds.length ≤ Config.bindEntries)

/-- The starting quarter that a saved group was placed from (R116). -/
def startQuarter (ts : List Strand) : Nat :=
  match ts with
  | [] => 0
  | t :: _ => (t.quarter + 4 * 16 - (if t.paired then t.index / 2 else t.index)) % 4

/-- The turn with which a saved group fits a core, from its rotation pointer (R116). -/
def Chip.restoreTurn (c : Chip) (core : Nat) (det : Bool) (g : SavedGroup) (ts : List Strand) : Option Nat :=
  if det then (if c.restoreFits core 0 det g ts then some 0 else none)
  else
    let p := (c.core core).rot
    ((List.range 4).map fun i => (p + i + 4 - startQuarter ts) % 4).find? fun d => c.restoreFits core d det g ts

/-- Where a saved group goes: in a deterministic context its own core; else R255 leaves any core of the partition where it fits, and the model takes
the lowest-numbered one (DESIGN CHOICE, log 116). -/
def Chip.restoreAt (c : Chip) (dies : List Nat) (det : Bool) (g : SavedGroup) (ts : List Strand) : Option (Nat × Nat) :=
  (if det then [g.group.core] else coresOf dies).findSome? fun k => (c.restoreTurn k det g ts).map fun d => (k, d)

/-- A register as its record holds it. -/
def VReg.restored (r : VReg) (bs : List Byte) (n : Nat) : VReg :=
  { r with lanes := BitVec.ofNat 4096 (leNat ((bs.drop (512 * n)).take 512)),
           side := BitVec.ofNat 128 (leNat ((bs.drop (4096 + 16 * n)).take 16)),
           tag := ElemType.ofCode (BitVec.ofNat 4 (fld (leNat ((bs.drop 4224).take 4)) (4 * n) 4)) }

/-- A stream counter as its record holds it; one that had produced its last value stays exhausted (log 65). -/
def restoredCounter (old v : Nat) : Nat := if old = 2 ^ 64 ∧ v = 0 then old else v

/-- A strand with what its record holds of it: resumption address, salt, MODE, FLAGS, RETIRED, the trap record, scalars, masks, stream
counters, registers below REGLIMIT, and the slots that hold contents, with their slot words (R146). Reserved bits of a register read as zero,
whatever the host has put there (R8). A claimed slot without contents has no image there and keeps its descriptor (log 78). -/
def Chip.restoredStrand (c : Chip) (at_ : Nat) (t : Strand) : Strand :=
  let w (o : Nat) : W64 := c.readWord .host (at_ + o)
  let wide (o : Nat) : W128 := BitVec.ofNat 128 (leNat (c.readPhys .host (at_ + o) 16))
  let regs := (List.range (t.regLimit / 8)).flatMap fun b =>
    let bs := c.readPhys .host (at_ + 0x1000 + 4352 * b) 4352
    (List.range 8).map fun n => (8 * b + n, (t.vreg (8 * b + n)).restored bs n)
  let ctr (d : Nat) : Sparse Nat := (List.range 128).map fun l =>
    (l, restoredCounter (t.counter d l) (w (0x400 + 16 * l + 8 * d)).toNat)
  { t with
    pc := if t.status = .frozen then t.pc else w 0x10
    salt := bits (w 0x18) 0 32
    mode := modeBits (w 0x20)
    flags := flagsBits (w 0x28)
    retired := w 0x50
    trapCause := causeBits (w 0x58)
    faultVa := w 0x60
    epc := epcBits (w 0x68)
    faultMask := wide 0x70
    sregs := (List.range 64).map fun i => (i, w (0x100 + 8 * i))
    kregs := (List.range 16).map fun i => (i, wide (0x300 + 16 * i))
    ctr0 := ctr 0
    ctr1 := ctr 1
    vregs := regs
    slots := t.slots.map fun x =>
      let bs := c.readPhys .host (at_ + 0x2B800 + 4672 * x.1) 4672
      if x.2.v then (x.1, { MapSlot.restored bs with d := false, fz := bit (wordAt bs 576) 23 }) else x }

/-- A strand on the core where its group is placed. -/
def Strand.moved (t : Strand) (core d slot : Nat) : Strand :=
  { t with core := core, quarter := turnQ d t.quarter, slot := slot, held := false,
           blocks := t.blocks.map fun b => { b with quarter := turnQ d b.quarter } }

/-- Place a saved group with its strands, local store, bindings and locks; `base` is the save area, `offG` and `offs` the offsets of its
record and of its strands' records. -/
def Chip.placeSaved (c : Chip) (base offG : Nat) (det : Bool) (g : SavedGroup) (ts : List (Nat × Strand × Nat)) (core d : Nat) : Chip :=
  let first := (c.localFit core g.group.grans).getD 0
  let turn (bs : List Block) : List Block := bs.map fun b => { b with quarter := turnQ d b.quarter }
  let grp : Group := { g.group with core := core, first := first, pool := turn g.group.pool, ret := turn g.group.ret }
  let img := c.readPhys .host (base + offG + 0x40) (grp.grans * Config.granuleBytes)
  let c := c.writePhys (.core core) (first * Config.granuleBytes) img
  let go (o : EngineOp) : EngineOp := if o.gid = g.gid then { o with core := core } else o
  let c := { c with groups := Sparse.set c.groups g.gid grp, engines := c.engines.map go, deferred := c.deferred.map go }
  let k := c.core core
  let c := c.setCore core { k with binds := k.binds ++ g.binds.map (fun (b : Binding) => { b with seen := none }), locks := k.locks ++ g.locks }
  let c := ts.foldl (fun c x =>
    let t := c.restoredStrand (base + x.2.2) x.2.1
    let slot := if det then t.slot else c.freeSlot core (turnQ d t.quarter)
    c.setStrand x.1 (t.moved core d slot)) c
  if det then c else c.rotate core (turnQ d (startQuarter (ts.map fun x => x.2.1))) grp.hw

/-- Place every saved group in order, if each of them fits now. -/
def Chip.placeAll (c : Chip) (base : Nat) (dies : List Nat) (det : Bool) (ts : List (Nat × Strand × Nat)) :
    List (SavedGroup × Nat) → Option Chip
  | [] => some c
  | (g, off) :: rest =>
    let mine := ts.filter fun x => x.2.1.gid == g.gid
    match c.restoreAt dies det g (mine.map fun x => x.2.1) with
    | none => none
    | some (core, d) => (c.placeSaved base off det g mine core d).placeAll base dies det ts rest

/-- A saved waiter enters its owner's table again, or receives its bytes at once (R167). -/
def Chip.reenter (c : Chip) (w : Waiter) : Chip :=
  match c.translate (c.hubWho w.ctx) .look 16 w.cell 16 with
  | .ok x =>
    let c := c.pull x.mig 16
    if c.tagOf x = tagValue then c.wake w (c.cellBytes x) else { c with waiters := c.waiters ++ [w] }
  | _ => { c with waiters := c.waiters ++ [w] }

/-- Strands frozen by a trap join their cores' queues in strand-identifier order. -/
def Chip.queueFrozen (c : Chip) (ctx : Nat) : Chip :=
  (c.domain ctx).foldl (fun c sid =>
    match c.strand sid with
    | none => c
    | some t =>
      if t.status = .frozen then
        let k := c.core t.core
        c.setCore t.core { k with frozenQ := k.frozenQ ++ [sid] }
      else c) c

/-- The device with a save put back, once its groups are placed. Its pool entries go behind the others, past the room of pool and overflow
storage if need be (DESIGN CHOICE, log 83). The launches that a deterministic context has queued are placed then (R46,
R48); a normal context's GROUP_PLACE places its. -/
def Chip.putBack (c : Chip) (ctx : Nat) (x : Context) (y : Saved) : Chip :=
  let c := { c with saved := Sparse.erase c.saved ctx, nodes := y.nodes.foldl (fun (m : Sparse Node) (n : Nat × Node) => Sparse.set m n.1 n.2) c.nodes }
  let c := y.pools.foldl (fun c p => c.setPool p.1 (c.poolOf p.1 ++ p.2)) c
  let busy := !y.strands.isEmpty || (c.pendingLaunch ctx).isSome || c.allPools.any fun n => n.ctx == ctx
  let c := c.setCtx ctx { x with state := if busy then .running else .loaded }
  let c := y.waiters.foldl Chip.reenter (c.queueFrozen ctx)
  if x.det then c.epochPlace ctx else c

/-- Restore a pre-empted context, if every group of it fits now. -/
def Chip.restore (c : Chip) (base ctx : Nat) (x : Context) : Option Chip :=
  match Sparse.get? c.saved ctx with
  | none => some (c.putBack ctx x { groups := [], strands := [], waiters := [], pools := [], nodes := [] })
  | some y =>
    let sizes := (y.groups.map fun g => groupRecordBytes g.group.grans) ++ y.strands.map fun _ => strandRecordBytes
    let offs := offsetsFrom (directoryBytes y.groups.length y.strands.length) sizes
    let ts := (y.strands.zip (offs.drop y.groups.length)).map fun z => (z.1.1, z.1.2, z.2)
    (c.placeAll base x.dies x.det ts (y.groups.zip offs)).map fun c => c.putBack ctx x y

/-- CTX_RESUME: the hub takes it when the context's groups fit (log 66). -/
def Chip.ctxResume (c : Chip) (h : HubCtl) : Chip :=
  let n := match c.takeable 0 with
    | some (_, e) => entryOperand e
    | none => 0
  let r := match c.ctx n with
    | some x => if x.state == CtxState.preempted then c.restore (h.saveBase.toNat + x.saveOff) n x else some c
    | none => some c
  match r with
  | none => c
  | some d =>
    c.command 0 5 fun n _ _ =>
      match c.ctx n with
      | none => (c, some stWrongState)
      | some x => if x.state == .preempted then (d, some stOk) else (c, some stWrongState)

def execCtxResume (s : State) : Host.Outcome State Fault Refusal := s.onChip (s.chip.ctxResume s.hc)

end Sys2Proof.Machine
end

