-- ==== Sys2Proof/Machine/HubRegs.lean ====
section
/-! DEFINITION. The hub controller (25_host_power_ras R441 to R450): its registers, the control queue's establishment, power caps,
attestation, error counts; RESYNC (03_queue R74); the bud watchdog (02_context R57); host accesses to device memory (07_cell R155); reset. -/

namespace Sys2Proof.Machine

/-! ### CTLQ (R441) -/

/-- The address in a CTLQ write. -/
def ctlqAddr (v : W64) : Nat := v.toNat / 64 * 64

/-- A CTLQ write with bit 0 set. HCSTATUS bit 3 says whether its descriptor was refused. -/
def State.ctlqEstablish (s : State) (v : W64) : Chip × HubCtl :=
  let pa := ctlqAddr v
  if (s.chip.queue 0).isSome then (s.chip, { s.hc with status := putBits s.hc.status 3 (0 : BitVec 1) })
  else
    match s.chip.queueDesc pa 2 with
    | some d =>
      (s.chip.setQueue 0 (d.queue none), { s.hc with ctlq := BitVec.ofNat 64 (pa + 1), status := putBits s.hc.status 3 (0 : BitVec 1) })
    | none => (s.chip, { s.hc with ctlq := BitVec.ofNat 64 pa, status := putBits s.hc.status 3 (1 : BitVec 1) })

def execCtlqEstablish (v : W64) (s : State) : Host.Outcome State Fault Refusal :=
  let r := s.ctlqEstablish v
  s.onHub r.1 r.2

/-- The control queue is removed. One that has taken entries stays until they have completed, under a number above the queues', by which the
commands in progress then go; another may be established meanwhile. -/
def Chip.ctlqRemove (c : Chip) : Chip :=
  match c.queue 0 with
  | none => c
  | some q =>
    let rest := Sparse.erase c.queues 0
    if q.ents.isEmpty then { c with queues := rest }
    else
      let k := Config.queues + c.nextId
      let move (e : Nat × Nat) : Nat × Nat := if e.1 = 0 then (k, e.2) else e
      { c with
        queues := Sparse.set (rest.map fun x => (x.1, { x.2 with dying := x.2.dying.map move, birth := x.2.birth.map move })) k
          { q with state := .stopped, tail := q.taken, dying := some (k, 0) }
        ctxs := c.ctxs.map fun x => (x.1, { x.2 with preempt := x.2.preempt.map move })
        nextId := c.nextId + 1 }

/-- A CTLQ write with bit 0 clear: HCSTATUS bits 1 and 3 clear. -/
def HubCtl.ctlqRemove (h : HubCtl) (v : W64) : HubCtl :=
  { h with ctlq := BitVec.ofNat 64 (ctlqAddr v), status := putBits (putBits h.status 1 (0 : BitVec 1)) 3 (0 : BitVec 1) }

def execCtlqRemove (v : W64) (s : State) : Host.Outcome State Fault Refusal := s.onHub s.chip.ctlqRemove (s.hc.ctlqRemove v)

/-! ### Registers (R42, R441) -/

/-- Whether no context exists but destroyed ones. -/
def Chip.noContext (c : Chip) : Bool := c.ctxs.all fun x => x.2.state == .destroyed

/-- PARTLAYOUT; the value 3 has no layout and is ignored (log 67). -/
def execPartlayoutWrite (v : W64) (s : State) : Host.Outcome State Fault Refusal :=
  let n : BitVec 2 := bits v 0 2
  s.onHub s.chip (if s.chip.noContext && n != 3 then { s.hc with partLayout := n.setWidth 64 } else s.hc)

/-- A value in whole pages: the registers are 4 KiB aligned. -/
def pageAligned (v : W64) : W64 := putBits v 0 (0 : BitVec 12)

def execSavebaseWrite (v : W64) (s : State) : Host.Outcome State Fault Refusal :=
  s.onHub s.chip (if s.chip.noContext then { s.hc with saveBase := pageAligned v } else s.hc)

def execSavelenWrite (v : W64) (s : State) : Host.Outcome State Fault Refusal :=
  s.onHub s.chip (if s.chip.noContext then { s.hc with saveLen := pageAligned v } else s.hc)

def execCaphostWrite (v : W64) (s : State) : Host.Outcome State Fault Refusal := s.onHub s.chip { s.hc with capHost := v }

/-- What a write of a register that only stores leaves. Reserved bits of a register are not stored (log 67). -/
def State.registerWrite (s : State) (r : HubReg) (v : W64) : Chip × HubCtl :=
  let c := s.chip
  let h := s.hc
  match r with
  | .devnum => (c, { h with devNum := v &&& 0xF })
  | .rank => (c, { h with rank := v &&& 0xFF })
  | .peerrt n => (if n < 16 then { c with peerRoutes := Sparse.set c.peerRoutes n (bits v 0 8 &&& 0x1F) } else c, h)
  | .keywin => (c, { h with key := putBits h.key (64 * (h.keyIdx % 8)) v, keyIdx := (h.keyIdx + 1) % 8 })
  | .commwin n => (c, if n < 16 then { h with commWin := putBits h.commWin (64 * n) v } else h)
  | .attestNonce n => (c, if n < 8 then { h with nonce := putBits h.nonce (64 * n) v } else h)
  | .reportAddr => (c, { h with reportAddr := v })
  | .exportBase => ({ c with exports := Sparse.set c.exports 16 (v.toNat, (Sparse.getD c.exports 16 (0, 0)).2) }, h)
  | .exportLen => ({ c with exports := Sparse.set c.exports 16 ((Sparse.getD c.exports 16 (0, 0)).1, v.toNat) }, h)
  | .peerExportBase d => (if d < 16 then { c with exports := Sparse.set c.exports d (v.toNat, (Sparse.getD c.exports d (0, 0)).2) } else c, h)
  | .peerExportLen d => (if d < 16 then { c with exports := Sparse.set c.exports d ((Sparse.getD c.exports d (0, 0)).1, v.toNat) } else c, h)

def execRegisterWrite (r : HubReg) (v : W64) (s : State) : Host.Outcome State Fault Refusal :=
  let x := s.registerWrite r v
  s.onHub x.1 x.2

/-! ### RESYNC (R74, R260) -/

/-- Codes of context and queue states in the summary. -/
def CtxState.code : CtxState → Nat
  | .created => 0 | .loaded => 1 | .running => 2 | .preempted => 3 | .faulted => 4 | .destroyed => 5
def QState.code : QState → Nat
  | .idle => 1 | .active => 2 | .blocked => 3 | .stopped => 4 | .error => 5

/-- The status word of a link (R260); the peer's numbers stand while the link is up. -/
def Link.word (x : Link) : Nat :=
  let st := match x.state with
    | .off => 0
    | .training => 1
    | .up => 2
    | .failed => 3
  st + (if x.state = .up then x.pdev % 16 * 2 ^ 8 + x.plink % 16 * 2 ^ 16 else 0) + x.replays % 2 ^ 16 * 2 ^ 32 + x.fails % 2 ^ 16 * 2 ^ 48

/-- The summary entry of a context; of a destroyed one, what `Chip.teardown` leaves of its fields (DESIGN CHOICE, log 96). -/
def Chip.ctxSummary (c : Chip) (n : Nat) : Nat :=
  match c.ctx n with
  | none => 7
  | some x =>
    let here := (c.strands.filter fun y => y.2.ctx == n && !y.2.isHandler && !y.2.exited).length
    x.state.code + x.part % 4 * 2 ^ 3 + b2n x.det * 2 ^ 5 + x.qexp % 32 * 2 ^ 6 + here * 2 ^ 32

/-- The summary entry of a queue: its two words. The control queue's has context 0 (DESIGN CHOICE, log 96). -/
def Chip.queueSummary (c : Chip) (n : Nat) : Nat × Nat :=
  match c.queue n with
  | none => (0, 0)
  | some q => (q.state.code + q.kind % 4 * 2 ^ 3 + (if q.isControl then 0 else q.bound % 2 ^ 8 * 2 ^ 8), q.head)

/-- The summary entry of a partition. -/
def HubCtl.partSummary (h : HubCtl) (p : Nat) : Nat × Nat :=
  if p < partCount h.partLayout then (h.effectiveCap p % 2 ^ 16 + Sparse.getD h.draw p 0 % 2 ^ 16 * 2 ^ 16, (h.capCause p).toNat) else (0, 0)

/-- The 8 KiB summary. -/
def State.summary (c : Chip) (h : HubCtl) : List Byte :=
  let two (x : Nat × Nat) : List Byte := leBytes 8 x.1 ++ leBytes 8 x.2
  let pad (n : Nat) (bs : List Byte) : List Byte := bs ++ List.replicate (n - bs.length) 0
  let head := pad 0x40 (leBytes 8 (1 + (bits h.partLayout 0 2).toNat * 2 ^ 16))
  let ctxs := (List.range 64).flatMap fun n => leBytes 8 (c.ctxSummary n)
  let qs := (List.range 256).flatMap fun n => two (c.queueSummary n)
  let links := (List.range 16).flatMap fun n => leBytes 8 (c.link n).word
  let parts := (List.range 4).flatMap fun p => two (h.partSummary p)
  let errs := (List.range 64).flatMap fun n => leBytes 8 (Sparse.getD c.errCounts n 0)
  pad 0x2000 (head ++ ctxs ++ qs ++ links ++ parts ++ errs)

/-- RESYNC: REPLAYS clears as it is reported. -/
def Chip.resync (c : Chip) (h : HubCtl) : Chip :=
  c.command 2 1 fun _ pa _ =>
    if pa % 4096 != 0 then (c, some stBadRecord)
    else
      let d := c.hubWrite pa (State.summary c h)
      ({ d with links := d.links.map fun x => (x.1, { x.2 with replays := 0 }) }, some stOk)

def execResync (s : State) : Host.Outcome State Fault Refusal := s.onChip (s.chip.resync s.hc)

/-! ### Power (R443, R444) -/

/-- The customisation string "ATMIR-CAP". -/
def capString : List Byte := [0x41, 0x54, 0x4D, 0x49, 0x52, 0x2D, 0x43, 0x41, 0x50]

/-- Whether a cap frame is accepted (R444). -/
def HubCtl.frameOk (h : HubCtl) (payload : List Byte) : Bool :=
  let x := leNat (payload.take 24)
  decide (56 ≤ payload.length) && fld x 0 32 == 0x50434841 && fld x 32 16 == 1 && fld x 56 8 == 0 &&
    (match h.lastSeq with
      | none => true
      | some n => decide (n < fld x 64 64)) &&
    (payload.drop 24).take 32 == kmac256 (leBytes 64 h.key.toNat) (payload.take 24) capString

/-- The frame caps that an accepted frame sets. -/
def HubCtl.takeFrame (h : HubCtl) (payload : List Byte) : HubCtl :=
  let x := leNat (payload.take 24)
  let caps : Sparse Nat := if fld x 48 8 ≤ h.rank.toNat then
    (List.range (partCount h.partLayout)).map fun p => (p, fld x (128 + 16 * p) 16) else []
  { h with frameCap := caps, lastSeq := some (fld x 64 64) }

def execCapFrame (payload : List Byte) (s : State) : Host.Outcome State Fault Refusal :=
  if s.hc.frameOk payload then s.onHub s.chip (s.hc.takeFrame payload) else s.onChip (s.chip.countError 49)

/-- A limit of a partition as it now stands, or none. -/
def setLimit (m : Sparse Nat) (p : Nat) : Option Nat → Sparse Nat
  | some w => Sparse.set m p w
  | none => m.filter fun x => x.1 != p

/-- LIMIT_CHANGE: thermal and current limits of a partition, in watts, 0 W among them, and its present draw. -/
def HubCtl.limitChange (h : HubCtl) (p : Nat) (thermal current : Option Nat) (draw : Nat) : HubCtl :=
  if p < 4 then
    { h with thermal := setLimit h.thermal p thermal, current := setLimit h.current p current,
             draw := Sparse.set h.draw p draw }
  else h

def execLimitChange (p : Nat) (thermal current : Option Nat) (draw : Nat) (s : State) : Host.Outcome State Fault Refusal :=
  s.onHub s.chip (s.hc.limitChange p thermal current draw)

/-! ### Attestation (R448) -/

/-- ATTEST_START: a write of the control word. -/
def HubCtl.attestStart (h : HubCtl) (v : W64) : HubCtl := if bit v 0 then { h with start := true } else h

def execAttestStart (v : W64) (s : State) : Host.Outcome State Fault Refusal := s.onHub s.chip (s.hc.attestStart v)

/-- The signed part of the report. -/
def State.reportHead (c : Chip) (h : HubCtl) : List Byte :=
  leBytes 4 30064 ++ leBytes 2 1 ++ leBytes 2 0 ++ leBytes 64 h.nonce.toNat ++
    ((List.range 3).flatMap fun n => sha3_512 (Config.imagePart n c.firmware.image)) ++
    leBytes 2 c.firmware.level ++ leBytes 1 (bits h.partLayout 0 2).toNat ++ leBytes 1 h.rank.toNat ++ leBytes 4 0

/-- ATTEST_REPORT. An address that is not aligned gets no report. -/
def execAttestReport (s : State) : Host.Outcome State Fault Refusal :=
  if s.hc.start && s.hc.reportAddr.toNat % 64 != 0 then s.onHub s.chip { s.hc with start := false }
  else if s.hc.start then
    let head := State.reportHead s.chip s.hc
    s.onHub (s.chip.hubWrite s.hc.reportAddr.toNat (head ++ leBytes 29792 (Config.signature head).toNat)) { s.hc with start := false }
  else .next s

/-! ### Errors (R47, R449, R450) -/

/-- The counter of a corrected error. -/
def errorCounter (e : ErrorReport) : Nat :=
  match e.die with
  | some d => 12 * d + e.kind % 8
  | none => 48

/-- Whether two reports name one unit. -/
def sameUnit (a b : ErrorReport) : Bool := a.die == b.die && a.kind == b.kind && a.part == b.part

/-- Whether two reports name one address. -/
def sameAddr (a b : ErrorReport) : Bool := a.die == b.die && a.kind == b.kind && a.addr == b.addr

/-- The lasting faults that an error makes (R450), given the earlier errors and what has been declared since reset: three errors at one
address within 24 hours, and sixteen in one unit within one hour. A fault is declared once between resets (log 61). -/
def lasting (hist : List ErrorReport) (declared : List (Bool × ErrorReport)) (e : ErrorReport) : List (Bool × ErrorReport) :=
  let since (h : ErrorReport) (n : Nat) : Bool := decide (e.stamp ≤ h.stamp + n)
  let here := hist.filter fun h => sameAddr h e && since h 86400
  let unit := hist.filter fun h => sameUnit h e && since h 3600
  (if decide (3 ≤ here.length + 1) && !(declared.any fun x => !x.1 && sameAddr x.2 e) then [(false, e)] else []) ++
    (if decide (16 ≤ unit.length + 1) && !(declared.any fun x => x.1 && sameUnit x.2 e) then [(true, e)] else [])

/-- A unit with a lasting fault is logged once. -/
def logUnit (log : List ErrorReport) (e : ErrorReport) : List ErrorReport :=
  if log.any fun x => sameUnit x e && x.addr == e.addr then log else log ++ [e]

/-- CORRECTED_ERROR of a die of the device, or of the hub. -/
def State.correctedError (s : State) (e : ErrorReport) : Chip × HubCtl :=
  if (e.die.map fun d => decide (d < Config.dies)).getD true then
    let c := s.chip.countError (errorCounter e)
    let c := { c with errHist := c.errHist ++ [e] }
    let new := lasting s.chip.errHist c.declared e
    if new.isEmpty then (c, s.hc)
    else
      let c := { c with faultLog := logUnit c.faultLog e, declared := c.declared ++ new }
      (match e.die with
        | some d => new.foldl (fun c _ => c.countError (12 * d + 9)) c
        | none => c, { s.hc with status := putBits s.hc.status 2 (1 : BitVec 1) })
  else (s.chip, s.hc)

def execCorrectedError (e : ErrorReport) (s : State) : Host.Outcome State Fault Refusal :=
  let r := s.correctedError e
  s.onHub r.1 r.2

/-- The CTX_FAULT of an uncorrectable error: its CAUSE and place are free values (log 63). -/
def faultEvent (ctx ctr : Nat) : Event :=
  let w (i n : Nat) : Nat := (Config.freeWord (ctr + i)).toNat % 2 ^ n
  { code := evCtxFault, ctx := ctx, cause := w 0 16, core := w 1 16, quarter := w 2 2, slot := w 3 8, waiting := false, addr := 0, mask := 0,
    seq := w 4 64, group := w 5 32, strand := w 6 8, queue := 0 }

/-- UNCORRECTABLE_ERROR: counted, and a context fault where it lies in a context's state. -/
def Chip.uncorrectable (c : Chip) (die : Nat) (ctx : Option Nat) : Chip :=
  if die < Config.dies then
    let c := c.countError (12 * die + 8)
    match ctx with
    | none => c
    | some n => { c with freeCtr := c.freeCtr + 7 }.contextFault n (faultEvent n c.freeCtr)
  else c

def execUncorrectableError (die : Nat) (ctx : Option Nat) (s : State) : Host.Outcome State Fault Refusal :=
  s.onChip (s.chip.uncorrectable die ctx)

/-! ### The bud watchdog (R57) -/

/-- Whether a strand is in a bud wait: in an SLD's or a fence's, or for a register whose load has waiters at a cell, a VLDA's too. -/
def Chip.budWaits (c : Chip) (t : Strand) : Bool :=
  match t.status with
  | .waiting .bud => true
  | .waiting .emptyReg => t.waitRegs.any fun r => match (t.vreg r).fill with
    | .inflight _ p => c.waiters.any fun w => w.prod == p
    | _ => false
  | _ => false

/-- The evaluator that a cell's opening made: an earlier one of a cell that was planted again may still run (R165). -/
def Chip.evaluatorFor (c : Chip) (o : Opening) : Option Strand :=
  (c.strands.find? fun x => x.2.ctx == o.ctx && x.2.kind == .evaluator o.cell && x.2.token == o.opener).map fun x => x.2

/-- Whether a scan finds a cell stalled: it has waiters, and its evaluator waits for a bud or is frozen. -/
def Chip.stalled (c : Chip) (o : Opening) : Bool :=
  (c.waiters.any fun w => w.ctx == o.ctx && w.cell == o.cell) &&
    (match c.evaluatorFor o with
      | some t => c.budWaits t || t.status == Status.frozen
      | none => false)

/-- The BUD_STALL event of a cell; its CAUSE is a free value (log 63). -/
def Chip.stallEvent (c : Chip) (o : Opening) : Chip :=
  match c.evaluatorFor o with
  | none => c
  | some t =>
    { c with freeCtr := c.freeCtr + 1 }.postEvent
      { code := evBudStall, ctx := o.ctx, cause := (Config.freeWord c.freeCtr).toNat % 2 ^ 16, core := t.core, quarter := t.quarter,
        slot := t.slot, waiting := t.status != Status.frozen, addr := o.cell, mask := 0, seq := o.root.seq, group := o.root.group,
        strand := o.root.strand, queue := 0 }

/-- BUD_WATCHDOG_SCAN: a cell stalled at this scan and the one before is reported, once for each opening. -/
def Chip.budScan (c : Chip) (ctx : Nat) : Chip :=
  match c.ctx ctx with
  | none => c
  | some x =>
    if x.wdog = 0 || !c.serves ctx then c
    else
      let now := c.openings.filter fun o => o.ctx == ctx && c.stalled o
      let tell := now.filter fun o => !o.told && x.scanned.contains o.cell
      let c := c.setCtx ctx { x with scanned := now.map fun o => o.cell }
      let c := { c with openings := c.openings.map fun o => if tell.contains o then { o with told := true } else o }
      tell.foldl Chip.stallEvent c

def execBudWatchdogScan (ctx : Nat) (s : State) : Host.Outcome State Fault Refusal := s.onChip (s.chip.budScan ctx)

/-! ### CXL.mem (R155, R441) -/

/-- Whether a memory is device-owned and open to the host over CXL.mem. -/
def cxlPlace : Place → Bool
  | .near _ | .far _ | .store _ => true
  | _ => false

/-- CXL_MEM_ACCESS: bytes at the owner, tags neither read nor changed; a write to a cell that is not VALUE is discarded. -/
def Chip.cxlMem (c : Chip) (a : CxlAccess) : Chip :=
  match a with
  | .read p pa n =>
    if !cxlPlace p then c else if Place.has p pa n && !c.bankGone p pa n then c.send (.cxlData (c.readPhys p pa n)) else c.absent p pa
  | .write p pa bs =>
    if !cxlPlace p then c else if Place.has p pa bs.length && !c.bankGone p pa bs.length then c.writeOutside p pa bs else c.absent p pa

def execCxlMemAccess (a : CxlAccess) (s : State) : Host.Outcome State Fault Refusal := s.onChip (s.chip.cxlMem a)

/-! ### DEVICE_RESET (R446) -/

/-- Memory that is not the device's: host memory and peers'. -/
def Memory.outside (m : Memory) : Memory := m.filter fun x => decide (physKey .host 0 ≤ x.1) && decide (x.1 < physKey (.core 0) 0)

/-- The die-store banks that a reset retires: those with a lasting fault in the log (R450), each a die and a bank. -/
def retiredBanks (log : List ErrorReport) : List (Nat × Nat) :=
  log.filterMap fun e => if e.kind = 3 then e.die.map fun d => (d, e.part) else none

/-- The device after a reset: everything at its reset value, with the image that verified; what is not the device's stays (log 68). -/
def Chip.afterReset (c : Chip) (fw : Firmware) : Chip :=
  { Chip.reset with mem := Memory.outside c.mem, firmware := fw, facts := factsAfter fw c.faultLog c.facts c.freeCtr,
                    freeCtr := c.freeCtr + 5, banks := retiredBanks c.faultLog, faultLog := c.faultLog, outbox := c.outbox }

/-- DEVICE_RESET: the boot code verifies the staged image, or the one in place; where a signature fails the last image that verified
stays, and HCSTATUS bit 0 is clear. -/
def execDeviceReset (staged : Option Firmware) (signed : Bool) (s : State) : Host.Outcome State Fault Refusal :=
  let fw := if signed then staged.getD s.chip.firmware else s.chip.firmware
  .next { s with chip := s.chip.afterReset fw, hc := { HubCtl.reset with status := BitVec.ofNat 64 (b2n signed) } }

end Sys2Proof.Machine
end

