-- ==== Sys2Proof/Machine/Dispatch.lean ====
section
/-! DEFINITION. One arm for each constructor of `Instr`. An instruction has the same effect at every BLEVEL: what the older
expansion of an erratum does, the manual leaves open (DESIGN CHOICE, log 14). -/

namespace Sys2Proof.Machine

def exec (i : Instr) (s : State) : Host.Outcome State Fault Refusal :=
  match i with
  | .deviceReset staged signed => Sys2Proof.Machine.execDeviceReset staged signed s
  | .ctxCreate => Sys2Proof.Machine.execCtxCreate s
  | .ctxLoad => Sys2Proof.Machine.execCtxLoad s
  | .ctxMode => Sys2Proof.Machine.execCtxMode s
  | .ctxPreempt => Sys2Proof.Machine.execCtxPreempt s
  | .ctxSave ctx => Sys2Proof.Machine.execCtxSave ctx s
  | .ctxResume => Sys2Proof.Machine.execCtxResume s
  | .ctxDestroy => Sys2Proof.Machine.execCtxDestroy s
  | .queueCreate => Sys2Proof.Machine.execQueueCreate s
  | .queueStop => Sys2Proof.Machine.execQueueStop s
  | .queueStart => Sys2Proof.Machine.execQueueStart s
  | .queueDestroy => Sys2Proof.Machine.execQueueDestroy s
  | .resync => Sys2Proof.Machine.execResync s
  | .tailNotice q => Sys2Proof.Machine.execTailNotice q s
  | .launch q => Sys2Proof.Machine.execLaunch q s
  | .waitEntry q => Sys2Proof.Machine.execWaitEntry q s
  | .waitRecheck q => Sys2Proof.Machine.execWaitRecheck q s
  | .signalEntry q => Sys2Proof.Machine.execSignalEntry q s
  | .copyEntry q => Sys2Proof.Machine.execCopyEntry q s
  | .entryComplete q n => Sys2Proof.Machine.execEntryComplete q n s
  | .launchComplete l => Sys2Proof.Machine.execLaunchComplete l s
  | .groupPlace ctx => Sys2Proof.Machine.execGroupPlace ctx s
  | .poolPlace die => Sys2Proof.Machine.execPoolPlace die s
  | .claimServe g => Sys2Proof.Machine.execClaimServe g s
  | .epochEnd ctx => Sys2Proof.Machine.execEpochEnd ctx s
  | .handlerStart core => Sys2Proof.Machine.execHandlerStart core s
  | .hostintWrite v => Sys2Proof.Machine.execHostintWrite v s
  | .hostInterrupt sid => Sys2Proof.Machine.execHostInterrupt sid s
  | .ownerCellLoad req => Sys2Proof.Machine.execOwnerCellLoad req s
  | .loadReissue req => Sys2Proof.Machine.execLoadReissue req s
  | .vldaLand op => Sys2Proof.Machine.execVldaLand op s
  | .slotLoadLand op => Sys2Proof.Machine.execSlotLoadLand op s
  | .migrationPull ctx va => Sys2Proof.Machine.execMigrationPull ctx va s
  | .engineStart op => Sys2Proof.Machine.execEngineStart op s
  | .engineCountDown op n => Sys2Proof.Machine.execEngineCountDown op n s
  | .patchApply p => Sys2Proof.Machine.execPatchApply p s
  | .budWatchdogScan ctx => Sys2Proof.Machine.execBudWatchdogScan ctx s
  | .ctlqEstablish v => Sys2Proof.Machine.execCtlqEstablish v s
  | .ctlqRemove v => Sys2Proof.Machine.execCtlqRemove v s
  | .partlayoutWrite v => Sys2Proof.Machine.execPartlayoutWrite v s
  | .savebaseWrite v => Sys2Proof.Machine.execSavebaseWrite v s
  | .savelenWrite v => Sys2Proof.Machine.execSavelenWrite v s
  | .caphostWrite v => Sys2Proof.Machine.execCaphostWrite v s
  | .registerWrite r v => Sys2Proof.Machine.execRegisterWrite r v s
  | .linkEnable l => Sys2Proof.Machine.execLinkEnable l s
  | .linkDisable l => Sys2Proof.Machine.execLinkDisable l s
  | .linkRetrain l => Sys2Proof.Machine.execLinkRetrain l s
  | .linkTrained l pdev plink => Sys2Proof.Machine.execLinkTrained l pdev plink s
  | .linkTrainTimeout l => Sys2Proof.Machine.execLinkTrainTimeout l s
  | .linkFail l => Sys2Proof.Machine.execLinkFail l s
  | .flitCheckFail l => Sys2Proof.Machine.execFlitCheckFail l s
  | .flitReceive f => Sys2Proof.Machine.execFlitReceive f s
  | .refusalReceive slot => Sys2Proof.Machine.execRefusalReceive slot s
  | .abortReceive cid gen => Sys2Proof.Machine.execAbortReceive cid gen s
  | .heartbeatTick slot => Sys2Proof.Machine.execHeartbeatTick slot s
  | .heartbeatTimeout slot => Sys2Proof.Machine.execHeartbeatTimeout slot s
  | .ackTimeout op => Sys2Proof.Machine.execAckTimeout op s
  | .lsendAck op n r => Sys2Proof.Machine.execLsendAck op n r s
  | .lredContribution c => Sys2Proof.Machine.execLredContribution c s
  | .lredRoot cid gen coll vals => Sys2Proof.Machine.execLredRoot cid gen coll vals s
  | .peerWindowRequest dev r => Sys2Proof.Machine.execPeerWindowRequest dev r s
  | .commInstall v => Sys2Proof.Machine.execCommInstall v s
  | .capFrame payload => Sys2Proof.Machine.execCapFrame payload s
  | .limitChange part thermal current draw => Sys2Proof.Machine.execLimitChange part thermal current draw s
  | .attestStart v => Sys2Proof.Machine.execAttestStart v s
  | .attestReport => Sys2Proof.Machine.execAttestReport s
  | .cxlMemAccess a => Sys2Proof.Machine.execCxlMemAccess a s
  | .correctedError e => Sys2Proof.Machine.execCorrectedError e s
  | .uncorrectableError die ctx => Sys2Proof.Machine.execUncorrectableError die ctx s
  | .nop f => Sys2Proof.Machine.execNop f s
  | .bra f => Sys2Proof.Machine.execBra f s
  | .brs f => Sys2Proof.Machine.execBrs f s
  | .brk f => Sys2Proof.Machine.execBrk f s
  | .call f => Sys2Proof.Machine.execCall f s
  | .ret f => Sys2Proof.Machine.execRet f s
  | .jmpi f => Sys2Proof.Machine.execJmpi f s
  | .yield f => Sys2Proof.Machine.execYield f s
  | .exit f => Sys2Proof.Machine.execExit f s
  | .trap f => Sys2Proof.Machine.execTrap f s
  | .bkpt f => Sys2Proof.Machine.execBkpt f s
  | .kand f => Sys2Proof.Machine.execKand f s
  | .kor f => Sys2Proof.Machine.execKor f s
  | .kxor f => Sys2Proof.Machine.execKxor f s
  | .kandn f => Sys2Proof.Machine.execKandn f s
  | .knot f => Sys2Proof.Machine.execKnot f s
  | .kmov f => Sys2Proof.Machine.execKmov f s
  | .krange f => Sys2Proof.Machine.execKrange f s
  | .kpop f => Sys2Proof.Machine.execKpop f s
  | .kffs f => Sys2Proof.Machine.execKffs f s
  | .kget f => Sys2Proof.Machine.execKget f s
  | .kput f => Sys2Proof.Machine.execKput f s
  | .sadd f => Sys2Proof.Machine.execSadd f s
  | .ssub f => Sys2Proof.Machine.execSsub f s
  | .smul f => Sys2Proof.Machine.execSmul f s
  | .smulh f => Sys2Proof.Machine.execSmulh f s
  | .sand f => Sys2Proof.Machine.execSand f s
  | .sor f => Sys2Proof.Machine.execSor f s
  | .sxor f => Sys2Proof.Machine.execSxor f s
  | .sshl f => Sys2Proof.Machine.execSshl f s
  | .sshr f => Sys2Proof.Machine.execSshr f s
  | .ssra f => Sys2Proof.Machine.execSsra f s
  | .smin f => Sys2Proof.Machine.execSmin f s
  | .smax f => Sys2Proof.Machine.execSmax f s
  | .sminu f => Sys2Proof.Machine.execSminu f s
  | .smaxu f => Sys2Proof.Machine.execSmaxu f s
  | .smov f => Sys2Proof.Machine.execSmov f s
  | .simm f => Sys2Proof.Machine.execSimm f s
  | .simmh f => Sys2Proof.Machine.execSimmh f s
  | .scmp f => Sys2Proof.Machine.execScmp f s
  | .ssel f => Sys2Proof.Machine.execSsel f s
  | .sld f => Sys2Proof.Machine.execSld f s
  | .sst f => Sys2Proof.Machine.execSst f s
  | .srdc f => Sys2Proof.Machine.execSrdc f s
  | .swrc f => Sys2Proof.Machine.execSwrc f s
  | .viadd f => Sys2Proof.Machine.execViadd f s
  | .visub f => Sys2Proof.Machine.execVisub f s
  | .vimul f => Sys2Proof.Machine.execVimul f s
  | .vimulh f => Sys2Proof.Machine.execVimulh f s
  | .vimad f => Sys2Proof.Machine.execVimad f s
  | .vimin f => Sys2Proof.Machine.execVimin f s
  | .vimax f => Sys2Proof.Machine.execVimax f s
  | .vand f => Sys2Proof.Machine.execVand f s
  | .vor f => Sys2Proof.Machine.execVor f s
  | .vxor f => Sys2Proof.Machine.execVxor f s
  | .vnot f => Sys2Proof.Machine.execVnot f s
  | .vshl f => Sys2Proof.Machine.execVshl f s
  | .vshr f => Sys2Proof.Machine.execVshr f s
  | .vsra f => Sys2Proof.Machine.execVsra f s
  | .vrot f => Sys2Proof.Machine.execVrot f s
  | .vbfe f => Sys2Proof.Machine.execVbfe f s
  | .vbfi f => Sys2Proof.Machine.execVbfi f s
  | .vpopc f => Sys2Proof.Machine.execVpopc f s
  | .vclz f => Sys2Proof.Machine.execVclz f s
  | .vicmp f => Sys2Proof.Machine.execVicmp f s
  | .vsel f => Sys2Proof.Machine.execVsel f s
  | .vmov f => Sys2Proof.Machine.execVmov f s
  | .vidx f => Sys2Proof.Machine.execVidx f s
  | .vfadd f => Sys2Proof.Machine.execVfadd f s
  | .vfsub f => Sys2Proof.Machine.execVfsub f s
  | .vfmul f => Sys2Proof.Machine.execVfmul f s
  | .vfma f => Sys2Proof.Machine.execVfma f s
  | .vfmin f => Sys2Proof.Machine.execVfmin f s
  | .vfmax f => Sys2Proof.Machine.execVfmax f s
  | .vfcmp f => Sys2Proof.Machine.execVfcmp f s
  | .vfclass f => Sys2Proof.Machine.execVfclass f s
  | .vfrcp f => Sys2Proof.Machine.execVfrcp f s
  | .vfrsq f => Sys2Proof.Machine.execVfrsq f s
  | .vfsqrt f => Sys2Proof.Machine.execVfsqrt f s
  | .vfdiv f => Sys2Proof.Machine.execVfdiv f s
  | .vfexp2 f => Sys2Proof.Machine.execVfexp2 f s
  | .vflog2 f => Sys2Proof.Machine.execVflog2 f s
  | .vfsin f => Sys2Proof.Machine.execVfsin f s
  | .vfcos f => Sys2Proof.Machine.execVfcos f s
  | .vfcvt f => Sys2Proof.Machine.execVfcvt f s
  | .vftoi f => Sys2Proof.Machine.execVftoi f s
  | .vffri f => Sys2Proof.Machine.execVffri f s
  | .vfscale f => Sys2Proof.Machine.execVfscale f s
  | .vdadd f => Sys2Proof.Machine.execVdadd f s
  | .vdmul f => Sys2Proof.Machine.execVdmul f s
  | .vdfma f => Sys2Proof.Machine.execVdfma f s
  | .vrand f => Sys2Proof.Machine.execVrand f s
  | .vshfl f => Sys2Proof.Machine.execVshfl f s
  | .vlane f => Sys2Proof.Machine.execVlane f s
  | .vputl f => Sys2Proof.Machine.execVputl f s
  | .mclaim f => Sys2Proof.Machine.execMclaim f s
  | .mfree f => Sys2Proof.Machine.execMfree f s
  | .mbind f => Sys2Proof.Machine.execMbind f s
  | .mload f => Sys2Proof.Machine.execMload f s
  | .mside f => Sys2Proof.Machine.execMside f s
  | .mfill f => Sys2Proof.Machine.execMfill f s
  | .mgen f => Sys2Proof.Machine.execMgen f s
  | .mdrain f => Sys2Proof.Machine.execMdrain f s
  | .mquery f => Sys2Proof.Machine.execMquery f s
  | .vld f => Sys2Proof.Machine.execVld f s
  | .vst f => Sys2Proof.Machine.execVst f s
  | .vldb f => Sys2Proof.Machine.execVldb f s
  | .vstb f => Sys2Proof.Machine.execVstb f s
  | .vlda f => Sys2Proof.Machine.execVlda f s
  | .vatom f => Sys2Proof.Machine.execVatom f s
  | .vatomr f => Sys2Proof.Machine.execVatomr f s
  | .vcas f => Sys2Proof.Machine.execVcas f s
  | .vmcast f => Sys2Proof.Machine.execVmcast f s
  | .vpref f => Sys2Proof.Machine.execVpref f s
  | .budst f => Sys2Proof.Machine.execBudst f s
  | .bloom f => Sys2Proof.Machine.execBloom f s
  | .budq f => Sys2Proof.Machine.execBudq f s
  | .fence f => Sys2Proof.Machine.execFence f s
  | .bind f => Sys2Proof.Machine.execBind f s
  | .unbind f => Sys2Proof.Machine.execUnbind f s
  | .acq f => Sys2Proof.Machine.execAcq f s
  | .rel f => Sys2Proof.Machine.execRel f s
  | .gbar f => Sys2Proof.Machine.execGbar f s
  | .boinit f => Sys2Proof.Machine.execBoinit f s
  | .boexp f => Sys2Proof.Machine.execBoexp f s
  | .boarr f => Sys2Proof.Machine.execBoarr f s
  | .bowait f => Sys2Proof.Machine.execBowait f s
  | .botest f => Sys2Proof.Machine.execBotest f s
  | .qend f => Sys2Proof.Machine.execQend f s
  | .tcopy f => Sys2Proof.Machine.execTcopy f s
  | .tred f => Sys2Proof.Machine.execTred f s
  | .lsend f => Sys2Proof.Machine.execLsend f s
  | .lred f => Sys2Proof.Machine.execLred f s
  | .spawn f => Sys2Proof.Machine.execSpawn f s
  | .spawnd f => Sys2Proof.Machine.execSpawnd f s
  | .signal f => Sys2Proof.Machine.execSignal f s
  | .give f => Sys2Proof.Machine.execGive f s
  | .claim f => Sys2Proof.Machine.execClaim f s
  | .caprd f => Sys2Proof.Machine.execCaprd f s
  | .prdc f => Sys2Proof.Machine.execPrdc f s
  | .pwrc f => Sys2Proof.Machine.execPwrc f s
  | .tret f => Sys2Proof.Machine.execTret f s
  | .hsavev f => Sys2Proof.Machine.execHsavev f s
  | .hloadv f => Sys2Proof.Machine.execHloadv f s
  | .hsaves f => Sys2Proof.Machine.execHsaves f s
  | .hloads f => Sys2Proof.Machine.execHloads f s
  | .hsavek f => Sys2Proof.Machine.execHsavek f s
  | .hloadk f => Sys2Proof.Machine.execHloadk f s
  | .hloadm f => Sys2Proof.Machine.execHloadm f s
  | .hrob f => Sys2Proof.Machine.execHrob f s
  | .patch f => Sys2Proof.Machine.execPatch f s
  | .iinv f => Sys2Proof.Machine.execIinv f s
  | .tinv f => Sys2Proof.Machine.execTinv f s
  | .illegalOpcode op f => Sys2Proof.Machine.execIllegalOpcode op f s
  | .instructionFetchFault => Sys2Proof.Machine.execInstructionFetchFault s
  | .dirtyLineWriteBack core ctx va evict => Sys2Proof.Machine.execDirtyLineWriteBack core ctx va evict s
  | .ownerAccess n => Sys2Proof.Machine.execOwnerAccess n s

end Sys2Proof.Machine
end

