-- ==== Sys2Proof/Machine/Schedule.lean ====
section
/-! DEFINITION. Who moves next (log 32): the head of the agenda, or when it is empty a fixed policy in which every strand that may move and
every step that is due has its turn. -/

namespace Sys2Proof.Machine

/-- The first strand in rising order of its number, from the current one on, that may take a turn. -/
def Chip.laterStrand (c : Chip) : Option Nat := (c.strands.find? fun x => decide (c.cur < x.1) && c.moves x.2).map fun x => x.1

/-- Steps of owners, engines and cores on what is in flight, with what each does. -/
def Chip.flightSteps (c : Chip) : List (Instr × Chip) :=
  (c.posted.map fun p => (.ownerAccess p.id, c.ownerAccess p.id)) ++
    (c.cellReqs.map fun r => (.ownerCellLoad r.id, c.ownerCellLoad r.id)) ++
    (c.vldas.map fun v => (.vldaLand v.id, c.vldaLand v.id)) ++
    (c.slotLoads.map fun l => (.slotLoadLand l.id, c.slotLoadLand l.id)) ++
    (c.engines.map fun o => (.engineStart o.id, c.engineStart o.id)) ++
    (c.engines.map fun o => (.engineCountDown o.id o.bytes, c.engineCountDown o.id o.bytes)) ++
    (c.patches.map fun p => (.patchApply p.id, c.patchApply p.id)) ++
    (c.groups.map fun g => (.claimServe g.1, c.claimServe g.1)) ++
    (c.cores.map fun k => (.handlerStart k.1, c.handlerStart k.1)) ++
    (c.strands.map fun t => (.hostInterrupt t.1, c.hostInterrupt t.1))

/-- The queues in the order in which the hub serves them: the one after the queue it served last comes first (R64). -/
def Chip.rotated (c : Chip) : List (Nat × Queue) :=
  (c.queues.filter fun q => decide (c.lastQueue < q.1)) ++ c.queues.filter fun q => decide (q.1 ≤ c.lastQueue)

/-- The steps that take the next entry of a queue; the commands are those of the control queue. -/
def Chip.takeSteps (c : Chip) (h : HubCtl) (qn : Nat) (q : Queue) : List (Instr × Chip) :=
  [(.launch qn, c.launchEntry qn), (.waitEntry qn, c.waitEntry qn), (.signalEntry qn, c.signalEntry qn), (.copyEntry qn, c.copyEntry qn)] ++
    if q.isControl then
      [(.ctxCreate, c.ctxCreate h), (.ctxLoad, c.ctxLoad h), (.ctxMode, c.ctxMode), (.ctxPreempt, c.ctxPreempt),
       (.ctxResume, c.ctxResume h), (.ctxDestroy, c.ctxDestroy), (.queueCreate, c.queueCreate), (.queueStop, c.queueStop),
       (.queueStart, c.queueStart), (.queueDestroy, c.queueDestroy), (.resync, c.resync h)]
    else []

/-- Steps of the hub on queues, placement, launches and epochs, and last the reissue of refused loads. -/
def State.hubSteps (s : State) : List (Instr × Chip) :=
  let c := s.chip
  let h := s.hc
  (c.queues.flatMap fun q => (q.2.ents.filter fun e => !e.done).map fun e => (.entryComplete q.1 e.n, c.entryComplete q.1 e.n)) ++
    (c.queues.map fun q => (.waitRecheck q.1, c.waitRecheck q.1)) ++
    (c.rotated.flatMap fun q => c.takeSteps h q.1 q.2) ++
    (c.launches.map fun l => (.launchComplete l.1, c.launchComplete l.1)) ++
    (c.ctxs.map fun x => (.groupPlace x.1, c.groupPlace x.1)) ++
    (c.pools.map fun p => (.poolPlace p.1, c.poolPlace p.1)) ++
    (c.ctxs.map fun x => (.epochEnd x.1, c.epochEnd x.1)) ++
    (c.ctxs.map fun x => (.ctxSave x.1, c.ctxSave h x.1)) ++
    (c.cellReqs.map fun r => (.loadReissue r.id, c.loadReissue r.id))

/-- The turn of an empty agenda: the strands in rounds, and at the end of a round every step of what is in flight that changes something,
then one step of the hub. -/
def State.policy (s : State) : Option Turn :=
  match s.chip.laterStrand with
  | some sid => some (.strand sid)
  | none =>
    match s.chip.flightSteps.find? fun x => x.2 != s.chip with
    | some x => some (.event [] x.1)
    | none =>
      match s.hubSteps.find? fun x => x.2 != s.chip with
      | some x => some (.event [] x.1)
      | none => ({ s.chip with cur := 0 } : Chip).laterStrand.map .strand

/-- Whose turn is next, and the state without that turn in its agenda. -/
def State.turn (s : State) : State × Option Turn :=
  match s.agenda with
  | x :: rest => ({ s with agenda := rest }, some x)
  | [] => (s, s.policy)

/-- The state before the next step's instruction, and that instruction; none where the agent whose turn it is does nothing. -/
def State.choose (s : State) : State × Option Instr :=
  match s.turn with
  | (s, some x) => s.take x
  | (s, none) => (s, none)

/-- The state with a word where the next step fetches it. -/
def State.withWord (s : State) (w : Nat) : State :=
  match s.turn.2 with
  | some (.strand sid) => (s.placeWord sid w).getD (s.loadWord w)
  | _ => s.loadWord w

end Sys2Proof.Machine
end

