-- ==== Sys2Proof/Machine/Step.lean ====
section
/-! DEFINITION. One step of the machine: the agent that moves next (Machine/Schedule.lean) executes its instruction or its event. -/

namespace Sys2Proof.Machine

/-- One step. -/
def step (s : State) : Host.Outcome State Fault Refusal :=
  match s.choose with
  | (s', some i) => exec i s'
  | (s', none) => s'.onChip s'.chip

/-- The state with an instruction word where the next step fetches it: at the program counter of the strand whose turn is next, or in a
program loaded for the purpose (log 40). -/
def State.withFetchWord (s : State) (nbits w : Nat) : State := s.withWord (w % 2 ^ nbits)

end Sys2Proof.Machine
end

