-- ==== Sys2Proof/Safety.lean ====
section
/-! DEFINITION. What counts as a safe run, and the words that statements about one step use: which strand executes, what it means that its
instruction issues (12_traps R247 stage A), and the state in which it has retired (02_context R56). -/

namespace Sys2Proof

/-- An instruction's fields with every operand field unused and every other field zero (R294, R310). -/
def Frame.unused : Frame :=
  { d := .none, a := .none, b := .none, c := .none, fs1 := 0, k := 0, kn := false, rm := 0, sat := false, et := .f32, lr := 0, ru := 0,
    nw := 0, fs2 := 0, imm := 0 }

end Sys2Proof

namespace Sys2Proof.Machine

/-- No access has met a frame that the device does not have; the only fault of the model. -/
def Chip.Whole (c : Chip) : Prop := c.halt = none

/-- The canonical form of what the chip stores by address: memory (Machine/State.lean), and the tags of cells, in rising order. -/
def Chip.Canonical (c : Chip) : Prop := c.mem.wf = true ∧ c.tags.Pairwise fun a b => a.1 < b.1

/-- The reserved bits of the hub controller's registers read 0, and the fields with fewer values than their width hold one of them (R42,
R441, log 67). -/
def HubCtl.Reserved (h : HubCtl) : Prop :=
  h.devNum.toNat < 16 ∧ h.rank.toNat < 256 ∧ h.partLayout.toNat ≤ 2 ∧ bits h.saveBase 0 12 = 0 ∧ bits h.saveLen 0 12 = 0 ∧ h.keyIdx < 8 ∧
    bits h.status 4 60 = 0 ∧ bits h.ctlq 1 5 = 0 ∧ bits h.commStat 16 48 = 0 ∧ bits h.linkCtl 32 32 = 0

/-- The reserved bits of PEERRT read 0 (R441). -/
def Chip.RoutesReserved (c : Chip) : Prop := ∀ r ∈ c.peerRoutes, bits r.2 5 3 = (0 : BitVec 3)

/-- The state with another chip and other hub controller registers. -/
def State.withHub (s : State) (c : Chip) (h : HubCtl) : State := { s with chip := c, hc := h }

/-- A step that goes on. -/
def Continues (o : Host.Outcome State Fault Refusal) : Prop := ∃ s, o = .next s

/-- A run of `n` steps is safe: none of them faults or is refused. -/
def SafeRun (n : Nat) (s : State) : Prop := ∃ s', Host.Core.run Sys2Proof.core n s = .next s'

/-- The strand `t` executes now. -/
def State.Executes (s : State) (t : Strand) : Prop := s.chip.Whole ∧ s.chip.strand s.chip.cur = some t

/-- The strand `t` executes an instruction with fields `f` whose entry permits `sp`, stage A of R247 finds nothing
wrong, and no older acquire load holds it back (R227). -/
def State.Issues (s : State) (t : Strand) (sp : OpSpec) (f : Frame) : Prop :=
  s.Executes t ∧ stageA t sp f = none ∧ t.awaitsAcquire sp = false

/-- The strand `t` issues a memory instruction: if it is a release, no older load's deferred lanes hold it back (R164, R227). -/
def State.IssuesMem (s : State) (t : Strand) (sp : OpSpec) (f : Frame) : Prop := s.Issues t sp f ∧ s.chip.releaseWaits t sp f = false

/-- The state with another chip. -/
def State.withChip (s : State) (c : Chip) : State := { s with chip := c }

/-- A chip in which the executing strand has retired its instruction: `u` is the strand with the results, `marks` the registers that
last-read marks empty, and the next instruction is at `pc`. -/
def Chip.retires (c : Chip) (u : Strand) (marks : List Nat) (ends : Bool) (pc : W64) : Chip :=
  c.setStrand c.cur (u.retired' (c.quantumOf u) marks ends pc)

/-- The state in which the executing strand has retired with `u` and goes on at the next word; nothing else has changed. -/
def State.goesOn (s : State) (u : Strand) : State := s.withChip (s.chip.retires u [] false u.nextPc)

/-- The state in which the executing strand has retired with `u` and goes on at `pc`; nothing else has changed. -/
def State.goesTo (s : State) (u : Strand) (pc : W64) : State := s.withChip (s.chip.retires u [] false pc)

/-- The state in which the executing strand has taken a trap at its own program counter (R241). -/
def State.traps (s : State) (t : Strand) (tr : Trap) : State := s.withChip (s.chip.takeTrap s.chip.cur tr t.pc none)

/-- The executing strand is not the handler, and no older atomic still owes it a result: a trap of it freezes it and faults no context. -/
def State.Freezes (s : State) (t : Strand) : Prop := t.isHandler = false ∧ s.chip.owesResult s.chip.cur = false

/-- Taking a trap at the executing strand meets no frame that the device does not have: so it is where the strand freezes and the cause posts
no event. -/
def State.CanTrap (s : State) (t : Strand) (tr : Trap) : Prop :=
  (s.Freezes t ∧ tr.cause ≠ .pageFault) ∨ (s.traps t tr).chip.Whole

/-! ### Rows of instructions of one shape -/

/-- A row of R13's table: fraction bits, the exponent of the smallest normal, the largest finite value as `maxN × 2^maxQ` and as an encoding,
the sign bit, what an overflow gives that is not held at the largest value (R20), and whether FTZ names the format (R27). -/
structure FormatRow where
  fmt   : FFmt
  frac  : Nat
  emin  : Int
  maxN  : Nat
  maxQ  : Int
  sign  : Nat
  max   : Nat
  outer : Nat
  flush : Bool

/-- The seven floating-point formats as R13's table writes them. -/
def formatRows : List FormatRow :=
  [⟨.f64, 52, -1022, 0x1FFFFFFFFFFFFF, 971, 0x8000000000000000, 0x7FEFFFFFFFFFFFFF, 0x7FF0000000000000, true⟩,
   ⟨.f32, 23, -126, 0xFFFFFF, 104, 0x80000000, 0x7F7FFFFF, 0x7F800000, true⟩, ⟨.f16, 10, -14, 0x7FF, 5, 0x8000, 0x7BFF, 0x7C00, true⟩,
   ⟨.bf16, 7, -126, 0xFF, 120, 0x8000, 0x7F7F, 0x7F80, true⟩, ⟨.e4m3, 3, -6, 14, 5, 0x80, 0x7E, 0x7F, false⟩,
   ⟨.e5m2, 2, -14, 7, 13, 0x80, 0x7B, 0x7C, false⟩, ⟨.e2m1, 1, 0, 3, 1, 8, 7, 7, false⟩]

/-- A scalar instruction of R327: its fields' rules and its exact result on the values that A, B and C supply. -/
structure ScalarRow where
  instr  : Frame → Instr
  spec   : Frame → OpSpec
  exact  : Frame → Int → Int → Int → Int

/-- The sixteen scalar instructions of R327. -/
def scalarRows : List ScalarRow :=
  [⟨.sadd, fun f => scalarSpec 0x060 f 2 true arithTypes, fun _ a b _ => a + b⟩,
   ⟨.ssub, fun f => scalarSpec 0x061 f 2 true arithTypes, fun _ a b _ => a - b⟩,
   ⟨.smul, fun f => scalarSpec 0x062 f 2 true arithTypes, fun _ a b _ => a * b⟩,
   ⟨.smulh, fun f => scalarSpec 0x063 f 2 false arithTypes, fun f a b _ => a * b / 2 ^ f.et.width⟩,
   ⟨.sand, fun f => scalarSpec 0x064 f 2 false logicTypes, fun f a b _ => bitwiseInt f.et.width (· &&& ·) a b⟩,
   ⟨.sor, fun f => scalarSpec 0x065 f 2 false logicTypes, fun f a b _ => bitwiseInt f.et.width (· ||| ·) a b⟩,
   ⟨.sxor, fun f => scalarSpec 0x066 f 2 false logicTypes, fun f a b _ => bitwiseInt f.et.width (· ^^^ ·) a b⟩,
   ⟨.sshl, fun f => scalarSpec 0x067 f 2 false arithTypes, fun f a b _ => a * 2 ^ shiftBy f.et.width b⟩] ++
  [⟨.sshr, fun f => scalarSpec 0x068 f 2 false arithTypes, fun f a b _ => (wrapInt f.et.width a : Int) / 2 ^ shiftBy f.et.width b⟩,
   ⟨.ssra, fun f => scalarSpec 0x069 f 2 false arithTypes,
     fun f a b _ => signedOf f.et.width (wrapInt f.et.width a) / 2 ^ shiftBy f.et.width b⟩,
   ⟨.smin, fun f => scalarSpec 0x06A f 2 false arithTypes, fun _ a b _ => min a b⟩,
   ⟨.smax, fun f => scalarSpec 0x06B f 2 false arithTypes, fun _ a b _ => max a b⟩,
   ⟨.sminu, fun f => scalarSpec 0x06C f 2 false arithTypes, fun f a b _ => (min (wrapInt f.et.width a) (wrapInt f.et.width b) : Nat)⟩,
   ⟨.smaxu, fun f => scalarSpec 0x06D f 2 false arithTypes, fun f a b _ => (max (wrapInt f.et.width a) (wrapInt f.et.width b) : Nat)⟩,
   ⟨.smov, fun f => scalarSpec 0x06E f 1 false arithTypes, fun _ a _ _ => a⟩,
   ⟨.ssel, fun f => scalarSpec 0x072 f 3 false logicTypes, fun _ a b c => if a = 0 then c else b⟩]

/-- A mask instruction of R323 on whole masks. -/
structure MaskRow where
  instr : Frame → Instr
  spec  : OpSpec
  value : W128 → W128 → W128

/-- KAND, KOR, KXOR, KANDN, KNOT and KMOV. -/
def maskRows : List MaskRow :=
  [⟨.kand, maskSpec2 0x040, fun a b => a &&& b⟩, ⟨.kor, maskSpec2 0x041, fun a b => a ||| b⟩,
   ⟨.kxor, maskSpec2 0x042, fun a b => a ^^^ b⟩, ⟨.kandn, maskSpec2 0x043, fun a b => a &&& ~~~b⟩,
   ⟨.knot, maskSpec1 0x044, fun a _ => ~~~a⟩, ⟨.kmov, maskSpec1 0x045, fun a _ => a⟩]

/-- A format V instruction: its checks and what each lane computes. -/
structure VecRow where
  instr : Frame → Instr
  op    : Frame → VecOp

/-- The vector integer, bitwise, select, move and index instructions (R342, R343, R345 to R347). -/
def intRows : List VecRow :=
  [⟨.viadd, fun f => intOp 0x0C0 f 2 true intTypes fun a b _ => a + b⟩,
   ⟨.visub, fun f => intOp 0x0C1 f 2 true intTypes fun a b _ => a - b⟩,
   ⟨.vimul, fun f => intOp 0x0C2 f 2 true intTypes fun a b _ => a * b⟩,
   ⟨.vimulh, fun f => intOp 0x0C3 f 2 false mulhTypes fun a b _ => a * b / 2 ^ f.et.width⟩,
   ⟨.vimad, fun f => intOp 0x0C4 f 3 true madTypes fun a b c => a * b + c⟩,
   ⟨.vimin, fun f => intOp 0x0C5 f 2 false intTypes fun a b _ => min a b⟩,
   ⟨.vimax, fun f => intOp 0x0C6 f 2 false intTypes fun a b _ => max a b⟩,
   ⟨.vand, fun f => bitOp 0x0C7 f 2 [.b32] fun a b _ => a &&& b⟩,
   ⟨.vor, fun f => bitOp 0x0C8 f 2 [.b32] fun a b _ => a ||| b⟩,
   ⟨.vxor, fun f => bitOp 0x0C9 f 2 [.b32] fun a b _ => a ^^^ b⟩,
   ⟨.vnot, fun f => bitOp 0x0CA f 1 [.b32] fun a _ _ => ~~~a⟩] ++
  [⟨.vshl, fun f => intOp 0x0CB f 2 true shiftTypes fun a b _ => a * 2 ^ shiftBy f.et.width b⟩,
   ⟨.vshr, fun f => intOp 0x0CC f 2 false shiftTypes fun a b _ => (wrapInt f.et.width a : Int) / 2 ^ shiftBy f.et.width b⟩,
   ⟨.vsra, fun f => intOp 0x0CD f 2 false shiftTypes fun a b _ =>
     signedOf f.et.width (wrapInt f.et.width a) / 2 ^ shiftBy f.et.width b⟩,
   ⟨.vrot, fun f => bitOp 0x0CE f 2 [.b32] fun a b _ => a.rotateLeft (b.toNat % 32)⟩,
   ⟨.vbfe, fun f => bitOp 0x0CF f 3 [.i32, .n32] (bfe (f.et == .i32))⟩,
   ⟨.vbfi, fun f => bitOp 0x0D0 f 3 [.b32] bfi⟩,
   ⟨.vpopc, fun f => bitOp 0x0D1 f 1 [.n32] fun a _ _ => BitVec.ofNat 32 (popCount a)⟩,
   ⟨.vclz, fun f => bitOp 0x0D2 f 1 [.n32] fun a _ _ => BitVec.ofNat 32 (leadingZeros a)⟩,
   ⟨.vsel, vselOp⟩, ⟨.vmov, vmovOp⟩, ⟨.vidx, vidxOp⟩]

/-- The vector floating-point instructions that write vector registers, and VSHFL (R348 to R350, R352 to R361). -/
def floatRows : List VecRow :=
  [⟨.vfadd, fun f => fpOp 0x140 f 2 halfTypes fun rm _ a b _ => FVal.add rm a b⟩,
   ⟨.vfsub, fun f => fpOp 0x141 f 2 halfTypes fun rm _ a b _ => FVal.add rm a b.neg⟩,
   ⟨.vfmul, fun f => fpOp 0x142 f 2 halfTypes fun _ _ a b _ => mulExact a b⟩,
   ⟨.vfma, fun f => fpOp 0x143 f 3 halfTypes fun rm _ a b c => FVal.fma rm a b c⟩,
   ⟨.vfsqrt, fun f => fpOp 0x14A f 1 halfTypes fun _ _ a _ _ => a.sqrt divBits⟩,
   ⟨.vfdiv, fun f => fpOp 0x14B f 2 halfTypes fun _ _ a b _ => a.div b divBits⟩,
   ⟨.vdadd, fun f => fpOp 0x154 f 2 [.f64] fun rm _ a b _ => FVal.add rm a b⟩,
   ⟨.vdmul, fun f => fpOp 0x155 f 2 [.f64] fun _ _ a b _ => mulExact a b⟩,
   ⟨.vdfma, fun f => fpOp 0x156 f 3 [.f64] fun rm _ a b c => FVal.fma rm a b c⟩,
   ⟨.vfmin, fun f => minMaxOp 0x144 f false⟩, ⟨.vfmax, fun f => minMaxOp 0x145 f true⟩, ⟨.vfclass, vfclassOp⟩] ++
  [⟨.vfrcp, fun f => approxOp 0x148 f rcpExact⟩, ⟨.vfrsq, fun f => approxOp 0x149 f rsqExact⟩,
   ⟨.vfexp2, fun f => approxOp 0x14C f exp2Val⟩, ⟨.vflog2, fun f => approxOp 0x14D f log2Val⟩,
   ⟨.vfsin, fun f => approxOp 0x14E f (trigVal false)⟩, ⟨.vfcos, fun f => approxOp 0x14F f (trigVal true)⟩,
   ⟨.vfcvt, fun f => cvtOp 0x150 f true (ElemType.isFloat f.et) (cvtTs f != .b32)⟩,
   ⟨.vftoi, fun f => cvtOp 0x151 f false f.et.isInt (ElemType.isFloat (cvtTs f))⟩,
   ⟨.vffri, vffriOp⟩, ⟨.vfscale, vfscaleOp⟩, ⟨.vrand, vrandOp⟩, ⟨.vshfl, vshflOp⟩]

/-- Every format V instruction that `State.vec` executes. -/
def vecRows : List VecRow := intRows ++ floatRows

/-- VICMP and VFCMP. -/
def compareRows : List VecRow := [⟨.vicmp, vicmpOp⟩, ⟨.vfcmp, vfcmpOp⟩]

/-- The environment in which the executing strand's lanes are computed. -/
def State.env (s : State) (t : Strand) (f : Frame) (o : VecOp) : VEnv := VEnv.make t f o.sp (t.lanesOf f) (s.chip.seed t)

/-- Nothing of stage B stops the instruction, and no lane faults: sources are full, slots ready, tags accepted, no enabled exception is
raised and no stream has run out. -/
def VecOp.Clean (o : VecOp) (e : VEnv) : Prop := e.stageB = none ∧ ∀ x ∈ o.lanes e, x.2.fault e.t.mode = none

end Sys2Proof.Machine

namespace Sys2Proof.Machine

/-- The system instructions of R307, opcodes 0x300 to 0x30D. -/
def systemOpcodes (f : Frame) : List Instr :=
  [.prdc f, .pwrc f, .tret f, .hsavev f, .hloadv f, .hsaves f, .hloads f, .hsavek f, .hloadk f, .hloadm f, .hrob f, .patch f, .iinv f,
   .tinv f]

/-- The ranges of opcodes that no instruction has (R308). -/
def unassignedRanges : List (Nat × Nat) :=
  [(0x00B, 0x03F), (0x04B, 0x05F), (0x077, 0x0BF), (0x0D7, 0x13F), (0x158, 0x1BF), (0x1C3, 0x1DF), (0x1E9, 0x1FF), (0x20A, 0x25F),
   (0x263, 0x27F), (0x28C, 0x2BF), (0x2C4, 0x2DF), (0x2E6, 0x2FF), (0x30E, 0x3FF)]

/-- The instructions that revision 0x04 adds (R90). -/
def revision4Opcodes (f : Frame) : List Instr := [.budst f, .bloom f, .budq f, .qend f]

/-- An instruction that a paired strand executes once for each half, low half first (R93, R392); `after` marks those that perform every
older access first (R232, R233, R406, R408). -/
structure HalfRow where
  instr : Frame → Instr
  spec  : Frame → OpSpec
  half  : Frame → Nat → Chip → Strand → Chip × Out
  after : Bool

/-- The barrier, binder and task instructions that execute by halves. -/
def halfRows : List HalfRow :=
  [⟨.boinit, barSpec 0x286 .scalar .unused, boinitHalf, false⟩, ⟨.boexp, barSpec 0x287 FieldSpec.scalar.orZero .unused, boexpHalf, false⟩,
   ⟨.boarr, barSpec 0x288 FieldSpec.scalar.orZero FieldSpec.scalar.orNone, boarrHalf, false⟩,
   ⟨.bowait, barSpec 0x289 FieldSpec.scalar.orZero .unused, bowaitHalf, false⟩, ⟨.botest, barSpec 0x28A FieldSpec.scalar.orZero .scalar, botestHalf, false⟩,
   ⟨.bind, binderSpec 0x281 true .unused, fun f => bindHalf f false, false⟩, ⟨.unbind, binderSpec 0x282 true .unused, fun f => bindHalf f true, false⟩,
   ⟨.acq, binderSpec 0x283 false FieldSpec.scalar.orNone, acqHalf, true⟩, ⟨.rel, binderSpec 0x284 false .unused, relHalf, true⟩,
   ⟨.spawn, fun _ => { taskSpec 0x2E0 with a := .scalar }, spawnHalf, true⟩,
   ⟨.spawnd, fun _ => { taskSpec 0x2E1 with d := .scalar, a := .scalar, b := FieldSpec.scalar.orZero }, spawndHalf, true⟩,
   ⟨.signal, fun _ => { taskSpec 0x2E2 with a := .scalar }, signalHalf, true⟩]

/-- The hub takes the command `cls`, `code` with operand `n` from the control queue `q` next; `e` is its entry, `pa` its address word. -/
def Chip.Commands (c : Chip) (cls code n pa : Nat) (q : Queue) (e : Nat) : Prop :=
  c.takeable 0 = some (q, e) ∧ q.isControl = true ∧ entryType e = 5 ∧ entryClass e = cls ∧ entryCode e = code ∧ entryClean e = true ∧
    entryOperand e = n ∧ fld e 64 64 = pa

/-- The chip in which the control queue's command has been taken, with its completion status or in progress. -/
def Chip.answered (c : Chip) (e : Nat) (st : Option Nat) : Chip := (c.takeEntry 0 e st).settleQueue 0

/-! ### What an instruction writes -/

/-- A strand in which the scalar destination of a frame holds a value for each half, and only flags may differ besides. -/
def WritesScalar (t u : Strand) (f : Frame) (value : Nat → W64) : Prop :=
  (∀ n h, f.d = .s n → h ∈ t.halves → u.sreg (halfScalar h n.val) = value h) ∧
  (∀ k, (∀ n h, f.d = .s n → h ∈ t.halves → k ≠ halfScalar h n.val) → u.sreg k = t.sreg k) ∧
  (∀ k, u.vreg k = t.vreg k ∧ u.kreg k = t.kreg k) ∧ u.mode = t.mode ∧ u.slots = t.slots ∧ u.ctr0 = t.ctr0 ∧ u.ctr1 = t.ctr1 ∧
  u.regLimit = t.regLimit ∧ u.mapLimit = t.mapLimit ∧ u.trapCause = t.trapCause ∧ u.epc = t.epc

/-- A strand in which one mask register may differ. -/
def WritesMask (t u : Strand) (d : Operand) (v : W128) : Prop :=
  (∀ n, d = .k n → n.val ≠ 0 → u.kreg n.val = v) ∧ (∀ k, (∀ n, d = .k n → k ≠ n.val ∨ k = 0) → u.kreg k = t.kreg k) ∧
  (∀ k, u.vreg k = t.vreg k ∧ u.sreg k = t.sreg k) ∧ u.mode = t.mode ∧ u.flags = t.flags ∧ u.slots = t.slots

end Sys2Proof.Machine
end

