-- ==== Sys2Proof/Certificates/Slice0/Obligations.lean ====
section
/-! DEFINITION. The statements for the provers. Each docstring cites the rules of spec/ that the statement formalises; a clause that rests
on a choice of the model says so and names the log entry. -/

open Sys2Proof Sys2Proof.Machine

/-- R290, R293, R294 and R307 on words that the specification writes out: vld, vfmul, bra.any, sadd.i64, vatomr.add.i32.dev, mload, gbar,
bloom, and an opcode that R308 leaves unassigned. -/
def Obligations.DecodeWords : Prop :=
  decodeWord 0x8000340C87FC04800000000000000000 = .vld { Frame.unused with d := .v 1, a := .s 0, b := .lane, fs1 := 0x480 } ∧
  decodeWord 0x5080401FF7FC00000104000040000000 =
    .vfmul { Frame.unused with d := .v 2, a := .v 1, b := .imm, rm := 1, lr := 4, imm := 0x40000000 } ∧
  decodeWord 0x007FF83FF880000000000000FFFFFFFC = .bra { Frame.unused with a := .k 3, c := Operand.ofCode 32, imm := 0xFFFFFFFC } ∧
  decodeWord 0x1828944FF7FC00000070000000000010 = .sadd { Frame.unused with d := .s 4, a := .s 4, b := .imm, et := .i64, imm := 16 } ∧
  decodeWord 0x8180D440481CC4801030000000000000 =
    .vatomr { Frame.unused with d := .v 6, a := .s 4, b := .v 9, c := .v 7, fs1 := 0xC480, k := 1, et := .i32 } ∧
  decodeWord 0x78FFF4AA5FFC83E00000000000000000 = .mload { Frame.unused with a := .s 10, b := .s 11, fs1 := 0x83E0 } ∧
  decodeWord 0xA17FFFFFF80000000000000000000000 = .gbar { Frame.unused with c := Operand.ofCode 0 } ∧
  decodeWord 0x987FF40FFD3008000078000000000000 =
    .bloom { Frame.unused with a := .s 0, c := .s 12, fs1 := 0x800, et := .b32 } ∧
  decodeWord 0x8280340C87FC04821000000000000000 =
    .illegalOpcode 0x20A { Frame.unused with d := .v 1, a := .s 0, b := .lane, fs1 := 0x482, k := 1 }

/-- Decoding what the encoder writes gives the instruction back: every well-formed instruction word, every operand at every value. -/
def Obligations.DecodeEncode : Prop :=
  ∀ (i : Instr) (w : W128), i.wf = true → encode i = some w → decodeWord w = i

/-- Encoding what the decoder reads gives the word back: no bit of a word is dropped, whatever the word. -/
def Obligations.EncodeDecode : Prop := ∀ w : W128, encode (decodeWord w) = some w

/-- A strand's turn: fetched bytes decode, and the step is `exec` of the instruction they decode to; a replay executes the recorded
instruction (R246), and a fetch that fails is the INSTRUCTION_FETCH_FAULT step. The quarter notes from which strand it issued (R120).
Where the instruction needs results of older atomics that are on their way, the turn goes to those (log 1), and a strand in closed text is
parked unless its instruction there has issued (R96). A turn of the device: `exec` of the step that is due, after what the outside world
wrote. A fetch that the core's instruction cache does not serve reads the sixteen bytes at the translated program counter, lowest byte
first, and changes no memory. -/
def Obligations.StepRunsDecoded : Prop :=
  (∀ (s s1 : State) (sid : Nat) (t : Strand), s.turn = (s1, some (.strand sid)) →
    let s0 := s1.withChip { s1.chip with cur := sid }
    s0.chip.strand sid = some t → s0.chip.moves t = true →
    (∀ m r, t.replay = some m → t.record = some r → step s = exec r.instr (s0.withChip (s0.chip.noteTurn t r.instr))) ∧
    (t.replay = none → s0.chip.closedText t = false ∨ t.issued ≠ none →
      (∀ c w, s0.chip.fetch t = .word c w →
        (c.awaitsResults sid (decodeWord w) = false → step s = exec (decodeWord w) (s0.withChip (c.noteTurn t (decodeWord w)))) ∧
        (c.awaitsResults sid (decodeWord w) = true → step s = (s0.withChip (c.drainStrand sid)).onChip (c.drainStrand sid))) ∧
      (∀ x, s0.chip.fetch t = .fault x → step s = exec .instructionFetchFault s0)) ∧
    (t.replay = none → s0.chip.closedText t = true → t.issued = none → s0.chip.Whole →
      step s = .next (s0.withChip (s0.chip.setStrand sid { t with status := .parked })))) ∧
  (∀ (s s1 : State) (ws : List Host.Cell) (i : Instr), s.turn = (s1, some (.event ws i)) → i.toOpcode = none →
    i ≠ .instructionFetchFault →
    let c := s1.chip.outsideWrites ws
    step s = exec i (s1.withChip (if inFlight i then c else { c with cur := 0 }))) ∧
  (∀ (c : Chip) (t : Strand) (x : Xl), c.translate (c.who t) .fetch 16 t.pc 16 = .ok x →
    (c.core t.core).iline t.ctx (lineOf x.va) = none → x.down = false → c.mem.wf = true → x.mig = none → x.pa % 64 = x.va.toNat % 64 →
    ∃ c', c.fetch t = .word c' (BitVec.ofNat 128 (leNat (c.readPhys x.place x.pa 16))) ∧ c'.mem = c.mem ∧ c'.strands = c.strands)

/-- R239 to R242: what taking a trap leaves in the strand, and that nothing else of it changes. R220, R242 and R244: a trap of a strand
that is not the handler, of any cause, freezes that strand alone and puts it at the end of its core's queue, after the results that its
older atomics still owe it (log 1) have reached it; after a PAGE_FAULT its event is then posted. R45 and R47 (R245): a trap of the handler
strand, of any cause, faults its context, or, while a pre-emption of it is under way, has it faulted once its save is complete (R48): in a
normal context also where the pre-emption still waits and has saved nothing (log 95's choice), while a deterministic one that still waits
for its epoch end (R53) faults at once, since nothing of it is being saved (log 89's reading). -/
def Obligations.TrapTaken : Prop :=
  (∀ (t : Strand) (tr : Trap) (epc : W64) (rec : Option LaneRecord),
    let u := t.trapped tr epc rec
    (tr.field < 16 → bits u.trapCause 0 8 = BitVec.ofNat 8 tr.cause.code ∧ bit u.trapCause 8 = tr.lane ∧ bit u.trapCause 9 = tr.pair ∧
      bits u.trapCause 16 4 = BitVec.ofNat 4 tr.field ∧ bits u.trapCause 32 32 = tr.arg ∧ bits u.trapCause 10 6 = 0 ∧
      bits u.trapCause 20 12 = 0) ∧
    u.faultVa = tr.va ∧ u.faultMask = tr.lanes ∧ bits u.epc 0 4 = 0 ∧ bits u.epc 4 60 = bits epc 4 60 ∧ u.status = .frozen ∧
    (∀ n m, Sparse.get? u.slots n = some m → m.fz = true) ∧
    (∀ n, u.vreg n = t.vreg n ∧ u.sreg n = t.sreg n ∧ u.kreg n = t.kreg n) ∧ u.mode = t.mode ∧ u.flags = t.flags ∧
    u.retired = t.retired ∧ u.pc = t.pc ∧ u.ctr0 = t.ctr0 ∧ u.ctr1 = t.ctr1 ∧ u.regLimit = t.regLimit ∧ u.mapLimit = t.mapLimit) ∧
  (∀ (c0 : Chip) (sid : Nat) (t : Strand) (tr : Trap) (epc : W64) (rec : Option LaneRecord),
    let c := if c0.owesResult sid then c0.drainStrand sid else c0
    c.strand sid = some t → t.isHandler = false →
    ∃ d : Chip, c0.takeTrap sid tr epc rec =
      (if tr.cause = .pageFault then d.postEvent (t.event evPageFault tr.cause.code tr.va tr.lanes) else d) ∧
    d.strand sid = some (t.trapped tr epc rec) ∧ (∀ n, n ≠ sid → d.strand n = c.strand n) ∧
    (d.core t.core).frozenQ = (c.core t.core).frozenQ ++ [sid] ∧ (∀ k, k ≠ t.core → d.core k = c.core k) ∧
    (d.core t.core).serving = (c.core t.core).serving ∧ d.mem = c.mem ∧ d.tags = c.tags ∧ d.groups = c.groups ∧ d.ctxs = c.ctxs ∧
    d.queues = c.queues ∧ d.engines = c.engines) ∧
  (∀ (c : Chip) (sid : Nat) (t : Strand) (x : Context) (tr : Trap) (epc : W64) (rec : Option LaneRecord), c.owesResult sid = false →
    c.strand sid = some t → t.isHandler = true → c.ctx t.ctx = some x → (x.state = .loaded ∨ x.state = .running ∨ x.state = .preempted) →
    ∃ y, (c.takeTrap sid tr epc rec).ctx t.ctx = some y ∧ (x.preempt = none → y.state = .faulted) ∧
      (x.preempt ≠ none → x.det = false ∨ x.saving = true → y.state = x.state ∧ y.doomed = true ∧ y.saving = true) ∧
      (x.preempt ≠ none → x.det = true → x.saving = false → y.state = .faulted))

/-- R308 and R309: an opcode of the unassigned ranges traps ILLEGAL_OPCODE with FIELD 1 in every strand, whatever its other fields hold,
and so do the four cell opcodes at revision 0x03; a system opcode traps PRIVILEGE with FIELD 1 in a strand that is not the handler. -/
def Obligations.OpcodeChecks : Prop :=
  ∀ (s : State) (t : Strand) (f : Frame), s.Executes t →
    let stops := fun (i : Instr) => s.CanTrap t (Trap.instr .illegalOpcode 1 0) →
      exec i s = .next (s.traps t (Trap.instr .illegalOpcode 1 0))
    (∀ r ∈ unassignedRanges, ∀ op : BitVec 10, r.1 ≤ op.toNat → op.toNat ≤ r.2 →
      Instr.ofOpcode op f = .illegalOpcode op f ∧ stops (.illegalOpcode op f)) ∧
    (t.isarev = 3 → ∀ i ∈ revision4Opcodes f, stops i) ∧
    (t.isHandler = false → s.CanTrap t (Trap.instr .privilege 1 0) →
      ∀ i ∈ systemOpcodes f, exec i s = .next (s.traps t (Trap.instr .privilege 1 0)))

/-- R220, R223 (R247 step 1): a fetch that fails the owner, the walk, X or the route to a peer traps at the program counter, with FAULTVA
there (FIELD 0 is the model's, log 46). -/
def Obligations.FetchFaultTraps : Prop :=
  ∀ (s : State) (t : Strand) (x : Cause), s.Executes t →
    (s.chip.translate (s.chip.who t) .fetch 16 t.pc 16 = .trap x ∨
      ∃ y, s.chip.translate (s.chip.who t) .fetch 16 t.pc 16 = .ok y ∧ y.down = true ∧ x = .linkDown) →
    s.CanTrap t (Trap.instr x 0 t.pc) →
    exec .instructionFetchFault s = .next (s.traps t (Trap.instr x 0 t.pc))

/-- R239 and R322: TRAP and BKPT retire and then trap, so that EPC is the address of the next instruction; TRAP's ARG is IMM32. -/
def Obligations.TrapAndBreakpoint : Prop :=
  ∀ (s : State) (t : Strand) (f : Frame), s.Freezes t →
    let u := t.retired' (s.chip.quantumOf t) [] false t.nextPc
    (s.Issues t (controlSpec 0x009 f false) f →
      exec (.trap f) s = .next (s.withChip ((s.chip.setStrand s.chip.cur u).takeTrap s.chip.cur
        { Trap.instr .software 0 0 with arg := f.imm } t.nextPc none))) ∧
    (s.Issues t (controlSpec 0x00A f false) f →
      exec (.bkpt f) s = .next (s.withChip ((s.chip.setStrand s.chip.cur u).takeTrap s.chip.cur
        (Trap.instr .breakpoint 0 0) t.nextPc none)))

/-- R246 (R413): the return from a trap. Each slot's FZ clears; a lane record whose EPC still stands is replayed for the lanes that
trapped and that FAULTMASK still names; every other subject goes on at EPC, and stands no more at a GBAR that its EPC has left (log 72).
That an interrupt waits for the next retirement after a synchronous trap alone, and also where nothing is replayed, is log 9's reading of
R249 (DEDUCED). -/
def Obligations.TrapReturn : Prop :=
  ∀ u : Strand,
    (∀ n m, Sparse.get? u.returned.slots n = some m → m.fz = false) ∧
    (∀ r, u.record = some r → bit u.trapCause 8 = true → u.epc = r.pc →
      u.returned.replay = some (u.faultMask &&& r.trapped) ∧ u.returned.pc = r.pc ∧ u.returned.record = some r) ∧
    ((∀ r, u.record = some r → bit u.trapCause 8 = false ∨ u.epc ≠ r.pc) → u.returned.pc = u.epc ∧ u.returned.record = none) ∧
    (u.returned.status = .ready ∨ u.returned.status = .waiting .quantum) ∧
    u.returned.vregs = u.vregs ∧ u.returned.sregs = u.sregs ∧ u.returned.kregs = u.kregs ∧ u.returned.mode = u.mode ∧
    u.returned.flags = u.flags ∧ u.returned.retired = u.retired ∧ u.returned.gbar = (u.gbar && u.epc == u.pc) ∧
    (u.returned.spared = true ↔ (bits u.trapCause 0 8 : BitVec 8).toNat ≠ Cause.hostInterrupt.code)

/-- R314, R320, R322, R381, R397: NOP, YIELD, QEND and VPREF go on at the next word; YIELD and QEND end the quantum of a deterministic
context and only there. -/
def Obligations.Straightline : Prop :=
  ∀ (s : State) (t : Strand) (f : Frame),
    (s.Issues t (controlSpec 0x000 f true) f → exec (.nop f) s = .next (s.goesOn t)) ∧
    (s.Issues t (controlSpec 0x007 f true) f → exec (.yield f) s = .next (s.withChip (s.chip.retires t [] true t.nextPc))) ∧
    (s.Issues t (controlSpec 0x28B f true) f →
      exec (.qend f) s = .next (s.withChip (s.chip.retires t [] (s.chip.buffers t) t.nextPc))) ∧
    (let sp := { memSpec 0x209 f [0] (f.scope == 0) with typed := false }
     s.Issues t sp f → exec (.vpref f) s = .next (s.withChip (s.chip.retires t (markRegs sp f) false t.nextPc)))

/-- R304, R315 to R318 and R94: BRA, BRS and BRK go to pc + 16 × IMM32 when the test holds in every half that takes part, to the next word
when it holds in none, and trap BAD_OPERAND when the halves of a paired strand differ. BRK removes A's lanes from D. R319: CALL writes the
address of the next word to D in each half and goes to its relative target; RET and JMPI go to the address in A, which is a multiple of 16
and the same in each half that takes part. -/
def Obligations.Branches : Prop :=
  (∀ (s : State) (t : Strand) (f : Frame) (taken : Bool),
    let pc := if taken then t.pc + 16 * f.imm.signExtend 64 else t.nextPc
    (s.Issues t { OpSpec.base 0x001 with a := condField 0 3 false f, other := f.cond ≤ 3 } f →
      let test := fun h => f.cond == 0 || testMask t h f.cond (kVal t f.a)
      ((∀ h ∈ branchHalves t, test h = taken) → exec (.bra f) s = .next (s.goesTo t pc)) ∧
      ((∃ h ∈ branchHalves t, test h ≠ test 0) → s.Freezes t → exec (.bra f) s = .next (s.traps t (divergence t)))) ∧
    (s.Issues t { OpSpec.base 0x002 with a := condField 4 9 true f, other := 4 ≤ f.cond && f.cond ≤ 9 } f →
      let test := fun h => testScalar f.cond (sVal t h f.a)
      ((∀ h ∈ branchHalves t, test h = taken) → exec (.brs f) s = .next (s.goesTo t pc)) ∧
      ((∃ h ∈ branchHalves t, test h ≠ test 0) → s.Freezes t → exec (.brs f) s = .next (s.traps t (divergence t)))) ∧
    (s.Issues t { OpSpec.base 0x003 with d := .mask, a := condField 1 3 false f, other := 1 ≤ f.cond && f.cond ≤ 3 } f →
      let test := fun h => testMask t h f.cond (kVal t f.a)
      ((∀ h ∈ branchHalves t, test h = taken) →
        exec (.brk f) s = .next (s.goesTo (putK t f.d (kVal t f.d &&& ~~~(kVal t f.a))) pc)) ∧
      ((∃ h ∈ branchHalves t, test h ≠ test 0) → s.Freezes t → exec (.brk f) s = .next (s.traps t (divergence t))))) ∧
  (∀ (s : State) (t : Strand) (f : Frame),
    (s.Issues t { controlSpec 0x004 f false with d := .scalar } f →
      ∃ u, exec (.call f) s = .next (s.goesTo u (t.pc + 16 * f.imm.signExtend 64)) ∧
        (∀ n h, f.d = .s n → h ∈ t.halves → u.sreg (halfScalar h n.val) = t.pc + 16) ∧
        (∀ k, (∀ n h, f.d = .s n → h ∈ t.halves → k ≠ halfScalar h n.val) → u.sreg k = t.sreg k) ∧
        (∀ k, u.vreg k = t.vreg k ∧ u.kreg k = t.kreg k) ∧ u.mode = t.mode ∧ u.flags = t.flags) ∧
    (∀ x : W64, (∀ h ∈ branchHalves t, sVal t h f.a = x) →
      (bits x 0 4 = (0 : BitVec 4) →
        (s.Issues t { controlSpec 0x005 f true with a := .scalar } f → exec (.ret f) s = .next (s.goesTo t x)) ∧
        (s.Issues t { controlSpec 0x006 f true with a := .scalar } f → exec (.jmpi f) s = .next (s.goesTo t x))) ∧
      (bits x 0 4 ≠ (0 : BitVec 4) → s.Freezes t →
        (s.Issues t { controlSpec 0x005 f true with a := .scalar } f →
          exec (.ret f) s = .next (s.traps t (Trap.instr .misaligned 3 x))) ∧
        (s.Issues t { controlSpec 0x006 f true with a := .scalar } f →
          exec (.jmpi f) s = .next (s.traps t (Trap.instr .misaligned 3 x))))) ∧
    ((∃ h ∈ branchHalves t, sVal t h f.a ≠ sVal t 0 f.a) → s.Freezes t →
      (s.Issues t { controlSpec 0x005 f true with a := .scalar } f → exec (.ret f) s = .next (s.traps t (divergence t))) ∧
      (s.Issues t { controlSpec 0x006 f true with a := .scalar } f → exec (.jmpi f) s = .next (s.traps t (divergence t)))))

/-- R327 and R93: the sixteen scalar instructions complete, each half from its own registers; D holds the reduced result, exceptions
accrue in FLAGS, and nothing else of the machine changes. R327 at i64 without SAT: the results as 64-bit words. R32, R326 and R327 at the
32-bit types: an i32 result is sign-extended and an n32 result zero-extended into D, and SAT clamps to the type's range and accrues SATD
exactly when it clamps. -/
def Obligations.ScalarArithmetic : Prop :=
  (∀ row ∈ scalarRows, ∀ (s : State) (t : Strand) (f : Frame), s.Issues t (row.spec f) f →
    ∃ u, exec (row.instr f) s = .next (s.goesOn u) ∧ WritesScalar t u f (fun h => (scalarValue f (row.exact f) t h).1) ∧
      u.flags = t.halves.foldl (fun x h => x ||| (scalarValue f (row.exact f) t h).2.setWidth 64) t.flags) ∧
  (∀ (t : Strand) (f : Frame) (h : Nat) (a b c : W64), f.et = .i64 → f.sat = false → ssrcBits t h f .i64 f.a = a →
    ssrcBits t h f .i64 f.b = b → ssrcBits t h f .i64 f.c = c →
    let value := fun (i : Nat) => (scalarRows[i]?.map fun row => scalarValue f (row.exact f) t h)
    value 0 = some (a + b, 0) ∧ value 1 = some (a - b, 0) ∧ value 2 = some (a * b, 0) ∧ 
    value 3 = some (BitVec.ofInt 64 (a.toInt * b.toInt / 2 ^ 64), 0) ∧ value 4 = some (a &&& b, 0) ∧ value 5 = some (a ||| b, 0) ∧
    value 6 = some (a ^^^ b, 0) ∧ value 7 = some (a <<< (b.toNat % 64), 0) ∧ value 8 = some (a >>> (b.toNat % 64), 0) ∧
    value 9 = some (a.sshiftRight (b.toNat % 64), 0) ∧ value 10 = some (if a.toInt ≤ b.toInt then a else b, 0) ∧
    value 11 = some (if a.toInt ≤ b.toInt then b else a, 0) ∧ value 12 = some (if a.toNat ≤ b.toNat then a else b, 0) ∧
    value 13 = some (if a.toNat ≤ b.toNat then b else a, 0) ∧ value 14 = some (a, 0) ∧ value 15 = some (if a = 0 then c else b, 0)) ∧
  (∀ (t : Strand) (f : Frame) (h : Nat) (r : Int → Int → Int → Int),
    let n := r (f.et.intVal (ssrcBits t h f f.et f.a).toNat) (f.et.intVal (ssrcBits t h f f.et f.b).toNat)
      (f.et.intVal (ssrcBits t h f f.et f.c).toNat)
    (f.et = .i32 → f.sat = false → scalarValue f r t h = ((BitVec.ofInt 32 n).signExtend 64, 0)) ∧
    (f.et = .n32 ∨ f.et = .b32 → f.sat = false → scalarValue f r t h = ((BitVec.ofInt 32 n).setWidth 64, 0)) ∧
    (f.et = .i64 → f.sat = true →
      scalarValue f r t h =
        if n < -2 ^ 63 then (0x8000000000000000, excSat) else if 2 ^ 63 - 1 < n then (0x7FFFFFFFFFFFFFFF, excSat)
        else (BitVec.ofInt 64 n, 0)) ∧
    (f.et = .i32 → f.sat = true →
      scalarValue f r t h =
        if n < -2 ^ 31 then (0xFFFFFFFF80000000, excSat) else if 2 ^ 31 - 1 < n then (0x7FFFFFFF, excSat)
        else (BitVec.ofInt 64 n, 0)) ∧
    (f.et = .n32 → f.sat = true →
      scalarValue f r t h =
        if n < 0 then (0, excSat) else if 2 ^ 32 - 1 < n then (0xFFFFFFFF, excSat) else (BitVec.ofInt 64 n, 0)))

/-- R328 and R329: SIMM, SIMMH and SCMP. -/
def Obligations.ScalarMoves : Prop :=
  ∀ (s : State) (t : Strand) (f : Frame),
    (s.Issues t { OpSpec.base 0x06F with d := .scalar, a := .immOnly, typed := true, other := f.et == .i64 || f.et == .n32 } f →
      ∃ u, exec (.simm f) s = .next (s.goesOn u) ∧ u.flags = t.flags ∧
        WritesScalar t u f (fun _ => if f.et = .i64 then f.imm.signExtend 64 else f.imm.setWidth 64)) ∧
    (s.Issues t { OpSpec.base 0x070 with d := .scalar, a := .immOnly } f →
      ∃ u, exec (.simmh f) s = .next (s.goesOn u) ∧ u.flags = t.flags ∧
        WritesScalar t u f (fun h => f.imm ++ bits (sVal t h f.d) 0 32)) ∧
    (s.Issues t (scalarSpec 0x071 f 2 false arithTypes) f →
      ∃ u, exec (.scmp f) s = .next (s.goesOn u) ∧ u.flags = t.flags ∧
        WritesScalar t u f (fun h => (scmpValue f t h).1)) ∧
    (∀ h (a b : W64), f.et = .i64 → ssrcBits t h f .i64 f.a = a → ssrcBits t h f .i64 f.b = b →
      (scmpValue f t h).1 = BitVec.ofNat 64 (b2n (a.slt b) + 2 * b2n (a == b) + 4 * b2n (a.ult b))) ∧
    (∀ h (a b : W32), f.et = .i32 ∨ f.et = .n32 → ssrcBits t h f f.et f.a = a.setWidth 64 → ssrcBits t h f f.et f.b = b.setWidth 64 →
      (scmpValue f t h).1 = BitVec.ofNat 64 (b2n (a.slt b) + 2 * b2n (a == b) + 4 * b2n (a.ult b)))

/-- R332 and R411: SRDC and CAPRD read into D and change nothing else but, for CYCLES, the counter of free words (the model's, log 5). An
unassigned selector is a bad operand. R22, R23 and R332: SWRC writes MODE and FLAGS with values those registers may hold, refuses other
values with FIELD 3, other assigned registers with PRIVILEGE and unassigned selectors with BAD_OPERAND, FIELD 10. In a paired strand the
high half's value stands (the model's, log 60). -/
def Obligations.ControlRegisters : Prop :=
  (∀ (s : State) (t : Strand) (f : Frame),
    (s.Issues t { OpSpec.base 0x075 with d := .scalar } f → selAssigned f.imm.toNat = true →
      ∃ u, exec (.srdc f) s = .next (s.withChip ({ s.chip with freeCtr := s.chip.freeCtr + b2n (f.imm == 7) }.retires u [] false t.nextPc)) ∧
        u.flags = t.flags ∧
        WritesScalar t u f (fun h => s.chip.controlReg t (s.capOf t) (Config.freeWord s.chip.freeCtr) h f.imm.toNat)) ∧
    (s.Issues t { OpSpec.base 0x075 with d := .scalar } f → selAssigned f.imm.toNat = false → s.Freezes t →
      exec (.srdc f) s = .next (s.traps t (Trap.instr .badOperand 10 0))) ∧
    (s.Issues t { OpSpec.base 0x2E5 with d := .scalar, a := FieldSpec.number, typed := true, other := f.et == .n32, imm0 := f.a != .imm } f →
      ∃ u, exec (.caprd f) s = .next (s.goesOn u) ∧ u.flags = t.flags ∧
        WritesScalar t u f (fun h => factValue s.chip.facts s.chip.firmware t.compat (word32 t h f.a f.imm)))) ∧
  (∀ (s : State) (t : Strand) (f : Frame), s.Issues t { OpSpec.base 0x076 with a := FieldSpec.scalar.orZero } f →
    let last := sVal t (if t.paired then 1 else 0) f.a
    (f.imm = 0 → (∀ h ∈ t.halves, modeOk (sVal t h f.a) = true) → exec (.swrc f) s = .next (s.goesOn { t with mode := last })) ∧
    (f.imm = 1 → (∀ h ∈ t.halves, flagsOk (sVal t h f.a) = true) → exec (.swrc f) s = .next (s.goesOn { t with flags := last })) ∧
    (f.imm = 0 → (∃ h ∈ t.halves, modeOk (sVal t h f.a) = false) → s.Freezes t → exec (.swrc f) s = .next (s.traps t (Trap.instr .badOperand 3 0))) ∧
    (f.imm = 1 → (∃ h ∈ t.halves, flagsOk (sVal t h f.a) = false) → s.Freezes t → exec (.swrc f) s = .next (s.traps t (Trap.instr .badOperand 3 0))) ∧
    (2 ≤ f.imm.toNat → selAssigned f.imm.toNat = true → s.Freezes t → exec (.swrc f) s = .next (s.traps t (Trap.instr .privilege 10 0))) ∧
    (selAssigned f.imm.toNat = false → s.Freezes t → exec (.swrc f) s = .next (s.traps t (Trap.instr .badOperand 10 0))))

/-- R105, R323 and R324: the six logical mask instructions work on all 128 bits, write D and nothing else, and never k0. R93, R324 and
R325: KRANGE sets the bits from A up to B, KPOP counts, KFFS finds the lowest lane or gives the number of lanes, and KGET and KPUT move 64
bits; a paired strand does each in each half. -/
def Obligations.MaskInstructions : Prop :=
  (∀ row ∈ maskRows, ∀ (s : State) (t : Strand) (f : Frame), s.Issues t row.spec f →
    ∃ u, exec (row.instr f) s = .next (s.goesOn u) ∧ WritesMask t u f.d (row.value (kVal t f.a) (kVal t f.b))) ∧
  (∀ (s : State) (t : Strand) (f : Frame),
    (s.Issues t { OpSpec.base 0x046 with d := .mask, a := .ssrc .n32, b := .ssrc .n32 } f →
      ∃ u v, exec (.krange f) s = .next (s.goesOn u) ∧ WritesMask t u f.d v ∧
        ∀ h ∈ t.halves, ∀ l, l < halfLanes t →
          (bit (halfMask t h v) l = true ↔ (ssrcBits t h f .n32 f.a).toNat ≤ l ∧ l < (ssrcBits t h f .n32 f.b).toNat)) ∧
    (s.Issues t { OpSpec.base 0x047 with d := .scalar, a := .maskSrc } f →
      ∃ u, exec (.kpop f) s = .next (s.goesOn u) ∧ u.flags = t.flags ∧
        WritesScalar t u f (fun h => BitVec.ofNat 64 ((List.range (halfLanes t)).filter fun l => bit (halfMask t h (kVal t f.a)) l).length)) ∧
    (s.Issues t { OpSpec.base 0x048 with d := .scalar, a := .maskSrc } f →
      ∃ u, ∃ n : Nat → Nat, exec (.kffs f) s = .next (s.goesOn u) ∧ u.flags = t.flags ∧
        WritesScalar t u f (fun h => BitVec.ofNat 64 (n h)) ∧
        ∀ h ∈ t.halves, let x := halfMask t h (kVal t f.a)
          (x = 0 → n h = halfLanes t) ∧ (x ≠ 0 → bit x (n h) = true ∧ ∀ l, l < n h → bit x l = false)) ∧
    (s.Issues t { OpSpec.base 0x049 with d := .scalar, a := .maskSrc, b := .immOnly, other := decide (f.imm.toNat < 2) } f →
      compatHalf t f = false →
      ∃ u, exec (.kget f) s = .next (s.goesOn u) ∧ u.flags = t.flags ∧
        WritesScalar t u f (fun h => bits (halfMask t h (kVal t f.a)) (64 * f.imm.toNat) 64)) ∧
    (compatHalf t f = true → s.Freezes t →
      (s.Issues t { OpSpec.base 0x049 with d := .scalar, a := .maskSrc, b := .immOnly, other := decide (f.imm.toNat < 2) } f →
        exec (.kget f) s = .next (s.traps t (Trap.instr .badOperand 10 0))) ∧
      (s.Issues t { OpSpec.base 0x04A with d := .mask, a := .ssrc .i64, b := .immOnly, other := decide (f.imm.toNat < 2) } f →
        exec (.kput f) s = .next (s.traps t (Trap.instr .badOperand 10 0)))) ∧
    (s.Issues t { OpSpec.base 0x04A with d := .mask, a := .ssrc .i64, b := .immOnly, other := decide (f.imm.toNat < 2) } f →
      compatHalf t f = false → (t.paired = true → f.imm = 0) →
      ∃ u v, exec (.kput f) s = .next (s.goesOn u) ∧ WritesMask t u f.d v ∧
        ∀ h ∈ t.halves, bits (halfMask t h v) (64 * f.imm.toNat) 64 = ssrcBits t h f .i64 f.a ∧
          bits (halfMask t h v) (64 * (1 - f.imm.toNat)) 64 = (bits (halfMask t h (kVal t f.d)) (64 * (1 - f.imm.toNat)) 64 : W64)))

/-- R337, R338, R342 to R361: a format V instruction that nothing stops completes. Every active lane of each destination register holds
the lane's result, every other lane what it held (zero if the register was not full), the register is full with the result's tag and
sidecar, flags accrue, and no other register changes but those its last-read marks empty. R344 and R351: a compare that nothing stops
completes: D's bit is the comparison in an active lane and 0 in every other (a replay keeps the bits of the lanes that it does not
execute). -/
def Obligations.VectorCompletes : Prop :=
  (∀ row ∈ vecRows, ∀ (s : State) (t : Strand) (f : Frame), s.Issues t (row.op f).sp f → t.lanesOf f ≠ 0 →
    let o := row.op f
    let e := s.env t f o
    let act := t.lanesOf f
    let d := vNum f.d
    o.Clean e →
    ∃ u, exec (row.instr f) s = .next (s.withChip (s.chip.retires u (markRegs o.sp f) false t.nextPc)) ∧
      (∀ j, j < (o.tags e).length →
        (∀ l, l < 128 → (u.vreg (d + j)).lane l =
          if bit act l then bits (o.lane e l).1 (32 * j) 32 else if (t.vreg (d + j)).fill = .full then (t.vreg (d + j)).lane l else 0) ∧
        (u.vreg (d + j)).fill = .full ∧
        (t.replay = none → (o.tags e)[j]? = some ((u.vreg (d + j)).tag, (u.vreg (d + j)).side)) ∧
        (t.replay ≠ none → (u.vreg (d + j)).tag = (t.vreg (d + j)).tag ∧ (u.vreg (d + j)).side = (t.vreg (d + j)).side)) ∧
      (∀ k, k < d ∨ d + (o.tags e).length ≤ k → u.vreg k = t.vreg k) ∧ (∀ k, u.sreg k = t.sreg k ∧ u.kreg k = t.kreg k) ∧
      u.flags = t.flags ||| (excAll ((lanesIn act).map fun l => (o.lane e l).2 ||| e.mapExc l)).setWidth 64 ∧ u.mode = t.mode ∧
      u.slots = t.slots) ∧
  (∀ row ∈ compareRows, ∀ (s : State) (t : Strand) (f : Frame), s.Issues t (row.op f).sp f → t.lanesOf f ≠ 0 →
    let o := row.op f
    let e := s.env t f o
    let act := t.lanesOf f
    o.Clean e →
    ∃ u v, exec (row.instr f) s = .next (s.withChip (s.chip.retires u (markRegs o.sp f) false t.nextPc)) ∧
      (∀ n, f.d = .k n → n.val ≠ 0 → u.kreg n.val = v) ∧ (∀ k, (∀ n, f.d = .k n → k ≠ n.val ∨ k = 0) → u.kreg k = t.kreg k) ∧
      (∀ l, l < 128 → bit v l = if bit act l then bit (o.lane e l).1 0 else t.replay.isSome && bit (t.kreg f.d.kNum) l) ∧
      (∀ k, u.vreg k = t.vreg k ∧ u.sreg k = t.sreg k) ∧ u.mode = t.mode ∧
      u.flags = t.flags ||| (excAll ((lanesIn act).map fun l => (o.lane e l).2 ||| e.mapExc l)).setWidth 64)

/-- R250: with an empty Active(k) a vector instruction touches no lane and takes no fault of stages B and C; a compare writes 0 to its
mask (a replay of no lane writes nothing), VLANE writes 0 to its scalar (R362), and VPUTL writes nothing (R363). R100 and R250: a vector
memory instruction with an empty active set reads and writes no memory and no register. BLOOM touches no cell either, and ends its
strand's quantum all the same (R52, R169). VMCAST reads its list of destinations all the same, among its first checks (R385), a replay of
no destination not again. -/
def Obligations.EmptyActiveSet : Prop :=
  (∀ (s : State) (t : Strand) (f : Frame), t.lanesOf f = 0 →
    (∀ row ∈ vecRows, s.Issues t (row.op f).sp f →
      exec (row.instr f) s = .next (s.withChip (s.chip.retires t (markRegs (row.op f).sp f) false t.nextPc))) ∧
    (∀ row ∈ compareRows, s.Issues t (row.op f).sp f →
      exec (row.instr f) s = .next (s.withChip (s.chip.retires (if t.replay.isSome then t else t.setKreg f.d.kNum 0)
        (markRegs (row.op f).sp f) false t.nextPc))) ∧
    (s.Issues t (vlaneSpec f) f →
      ∃ u, exec (.vlane f) s = .next (s.withChip (s.chip.retires u (markRegs (vlaneSpec f) f) false t.nextPc)) ∧ u.flags = t.flags ∧
        WritesScalar t u f fun _ => 0) ∧
    (s.Issues t (vputlSpec f) f → exec (.vputl f) s = .next (s.goesOn t))) ∧
  (∀ (s : State) (t : Strand) (f : Frame), t.lanesOf f = 0 →
    (s.IssuesMem t (bloomSpec f) f →
      (t.loose = [] ∨ s.chip.buffers t = false) → exec (.bloom f) s = .next (s.withChip (s.chip.retires t [] true t.nextPc))) ∧
    (s.IssuesMem t (vmcastSpec f) f → (s.chip.buffers t = false ∨ t.metEnd = false ∨ t.loose = []) →
      (∀ c bases, t.replay = none → s.chip.vmcastLists t f = (c, .inl bases) → c.Whole → exec (.vmcast f) s = .next (s.withChip
        (c.setStrand s.chip.cur (t.retired' (c.quantumOf t) (markRegs (vmcastSpec f) f) false t.nextPc)))) ∧
      (t.replay = some 0 →
        exec (.vmcast f) s = .next (s.withChip (s.chip.retires t (markRegs (vmcastSpec f) f) false t.nextPc)))) ∧
    ∀ x ∈ [(Instr.vld f, (vldForm f).sp), (.vldb f, (vldbForm f).sp), (.vlda f, (vldaForm f).sp), (.vst f, (vstForm f).sp),
           (.vstb f, (vstbForm f).sp), (.vatom f, (vatomForm f).sp), (.vatomr f, (vatomrForm f).sp), (.vcas f, (vcasForm f).sp),
           (.budst f, budstSpec f), (.budq f, budqSpec f)],
      s.IssuesMem t x.2 f →
        ((s.chip.buffers t = false ∨ t.metEnd = false ∨ t.loose = []) →
          exec x.1 s = .next (s.withChip (s.chip.retires t (markRegs x.2 f) false t.nextPc))) ∧
        (s.chip.buffers t = true → t.metEnd = true → t.loose ≠ [] →
          ∃ s' u, exec x.1 s = .next s' ∧ s'.chip.strand s.chip.cur = some u ∧ u.ended = true ∧ u.pc = t.nextPc ∧
            u.retired = t.retired + 1 ∧ u.buffer = markLast (markRegs x.2 f) t.buffer ∧ (∀ k, u.vreg k = t.vreg k) ∧
            s'.chip.mem = s.chip.mem))

/-- R25, R36, R123 and R248: when lanes fault, the strand freezes with a lane record that names exactly them, EPC at the instruction; its
other lanes complete, and the instruction has not retired. -/
def Obligations.VectorLaneRecord : Prop :=
  ∀ row ∈ vecRows, ∀ (s : State) (t : Strand) (f : Frame), s.Issues t (row.op f).sp f → t.lanesOf f ≠ 0 → s.Freezes t →
    let o := row.op f
    let e := s.env t f o
    let bad := fun l => ∃ x, (l, x) ∈ o.lanes e ∧ (x.fault t.mode).isSome = true
    e.stageB = none → (∃ l, bad l) →
    ∃ s' u, exec (row.instr f) s = .next s' ∧ s'.chip.strand s.chip.cur = some u ∧ u.status = .frozen ∧
      (∀ l, l < 128 → (bit u.faultMask l = true ↔ bad l)) ∧ bit u.trapCause 8 = true ∧ bits u.epc 4 60 = bits t.pc 4 60 ∧
      u.pc = t.pc ∧ u.retired = t.retired ∧ s'.chip.mem = s.chip.mem ∧
      (∀ j, j < (o.tags e).length → ∀ l, l < 128 → bit (t.lanesOf f) l = true → ¬ bad l →
        (u.vreg (vNum f.d + j)).lane l = bits (o.lane e l).1 (32 * j) 32)

/-- R342 and R343 at 32 bits without SAT, and R345 and R346 at every type: the results of the integer arithmetic, bitwise, bit-field,
select and move instructions as words, and the tags that VMOV copies or sets. -/
def Obligations.VectorWords : Prop :=
  ∀ (f : Frame) (e : VEnv) (l : Nat) (a b c : W32), f.sat = false →
    let lane := fun (i : Nat) => (intRows[i]?.map fun row => ((row.op f).lane e l).1)
    (f.et = .i32 → e.int 0 .i32 l 0 = a.toInt → e.int 1 .i32 l 0 = b.toInt → e.int 2 .i32 l 0 = c.toInt →
      lane 0 = some ((a + b).setWidth 64) ∧ lane 1 = some ((a - b).setWidth 64) ∧ lane 2 = some ((a * b).setWidth 64) ∧
      lane 3 = some ((BitVec.ofInt 32 (a.toInt * b.toInt / 2 ^ 32)).setWidth 64) ∧ lane 4 = some ((a * b + c).setWidth 64) ∧
      lane 5 = some ((if a.toInt ≤ b.toInt then a else b).setWidth 64) ∧
      lane 6 = some ((if a.toInt ≤ b.toInt then b else a).setWidth 64) ∧
      lane 11 = some ((a <<< (b.toNat % 32)).setWidth 64) ∧ lane 12 = some ((a >>> (b.toNat % 32)).setWidth 64) ∧
      lane 13 = some ((a.sshiftRight (b.toNat % 32)).setWidth 64)) ∧
    (f.et = .n32 → e.int 0 .n32 l 0 = a.toNat → e.int 1 .n32 l 0 = b.toNat → e.int 2 .n32 l 0 = c.toNat →
      lane 0 = some ((a + b).setWidth 64) ∧ lane 1 = some ((a - b).setWidth 64) ∧ lane 2 = some ((a * b).setWidth 64) ∧
      lane 3 = some ((BitVec.ofNat 32 (a.toNat * b.toNat / 2 ^ 32)).setWidth 64) ∧ lane 4 = some ((a * b + c).setWidth 64) ∧
      lane 5 = some ((if a.toNat ≤ b.toNat then a else b).setWidth 64) ∧
      lane 6 = some ((if a.toNat ≤ b.toNat then b else a).setWidth 64) ∧
      lane 11 = some ((a <<< (b.toNat % 32)).setWidth 64) ∧ lane 12 = some ((a >>> (b.toNat % 32)).setWidth 64) ∧
      lane 13 = some ((a.sshiftRight (b.toNat % 32)).setWidth 64)) ∧
    (e.whole 0 .b32 l = a.setWidth 64 → e.whole 1 .b32 l = b.setWidth 64 → e.whole 2 .b32 l = c.setWidth 64 →
      lane 7 = some ((a &&& b).setWidth 64) ∧ lane 8 = some ((a ||| b).setWidth 64) ∧ lane 9 = some ((a ^^^ b).setWidth 64) ∧
      lane 10 = some ((~~~a).setWidth 64) ∧ lane 14 = some ((a.rotateLeft (b.toNat % 32)).setWidth 64) ∧
      lane 17 = some (BitVec.ofNat 64 ((List.range 32).filter fun i => bit a i).length) ∧
      (a = 0 → lane 18 = some 32) ∧
      (∀ n, n < 32 → bit a (31 - n) = true → (∀ m, m < n → bit a (31 - m) = false) → lane 18 = some (BitVec.ofNat 64 n)) ∧
      (let pos := b.toNat % 32
       let wid := min (c.toNat % 64) (32 - pos)
       ∃ r : W32, lane 15 = some (r.setWidth 64) ∧ ∀ i, i < 32 →
         bit r i = if i < wid then bit a (pos + i) else f.et == .i32 && decide (0 < wid) && bit a (pos + wid - 1)) ∧
      (let pos := b.toNat % 32
       let wid := min (b.toNat / 256 % 64) (32 - pos)
       ∃ r : W32, lane 16 = some (r.setWidth 64) ∧ ∀ i, i < 32 →
         bit r i = if pos ≤ i ∧ i < pos + wid then bit a (i - pos) else bit c i)) ∧
    lane 19 = some (if bit (kVal e.t f.c) l then e.whole 0 f.et l else e.whole 1 f.et l) ∧ lane 20 = some (e.whole 0 f.et l) ∧
    (intRows[20]?.map fun row => (row.op f).tags e) = some (
      if f.a.isV = true ∧ (f.et = .b32 ∨ f.et = .i64) then
        (List.range (regsOf f.et)).map fun j => ((e.t.vreg (vNum f.a + j)).tag, (e.t.vreg (vNum f.a + j)).side)
      else List.replicate (regsOf f.et) (f.et, side1))

/-- R20 on the formats of R13: a finite datum that a format holds, a zero of either sign (R26) included, rounds to its own encoding in
every rounding mode, with no exception. R20, R24 and R27: how a value `± m × 2^e` that is not zero is rounded. The integer kept is the
exact one where the format holds that, and else one of the two about it, which the mode names; what is then above the largest finite value
overflows, by SAT and the mode to that value or, without it, to infinity, or E4M3's NaN; every other result is a datum of just that value.
Inexact is raised where a bit is lost, underflow where the exact value is also below the smallest normal, overflow with inexact, and SATD
where SAT changes the result; with FTZ a value below the smallest normal gives a zero of its sign in the formats that FTZ names. -/
def Obligations.FloatExact : Prop :=
  (∀ F ∈ [FFmt.f64, FFmt.f32, FFmt.f16, FFmt.bf16, FFmt.e4m3, FFmt.e5m2, FFmt.e2m1], ∀ (x rm z : Nat) (sat neg : Bool) (m : Nat) (e : Int),
    x < 2 ^ F.width → 1 ≤ rm → rm ≤ 6 → z < 2 ^ 16 → F.decode x = .fin neg m e → F.round rm sat false z (.num neg m e false) = (x, 0)) ∧
  (∀ R ∈ formatRows, ∀ (rm z : Nat) (sat ftz neg : Bool) (m : Nat) (e : Int), m ≠ 0 → 1 ≤ rm → rm ≤ 6 → z < 2 ^ 16 →
    let sign := if neg then R.sign else 0
    let q := max (e + Nat.log2 m) R.emin - R.frac
    let s := (q - e).toNat
    let lo := if q ≤ e then m * 2 ^ (e - q).toNat else m / 2 ^ s
    let r := if q ≤ e then 0 else m % 2 ^ s
    let tiny := e + Nat.log2 m < R.emin
    let got := R.fmt.round rm sat ftz z (.num neg m e false)
    let beyond := fun (c : Bool) => if c = true ∨ rm = 2 ∨ (rm = 4 ∧ neg = false) ∨ (rm = 3 ∧ neg = true) then R.max else R.outer
    (ftz = true → tiny → R.flush = true → got = (sign, excUnderflow ||| excInexact)) ∧
    (¬ (ftz = true ∧ tiny ∧ R.flush = true) → ∃ n,
      (r = 0 → n = lo) ∧
      (r ≠ 0 → (rm = 1 → (2 * r < 2 ^ s → n = lo) ∧ (2 ^ s < 2 * r → n = lo + 1) ∧ (2 * r = 2 ^ s → n % 2 = 0 ∧ (n = lo ∨ n = lo + 1))) ∧
        (rm = 2 → n = lo) ∧ (rm = 3 → n = if neg then lo else lo + 1) ∧ (rm = 4 → n = if neg then lo + 1 else lo) ∧
        (rm = 5 → n = if 2 ^ s ≤ 2 * r then lo + 1 else lo) ∧
        (rm = 6 → n = if 65536 * 2 ^ s ≤ 65536 * r + z * 2 ^ s then lo + 1 else lo)) ∧
      (let exceeds := R.maxN * 2 ^ (R.maxQ - q).toNat < n * 2 ^ (q - R.maxQ).toNat
       (exceeds → got = (sign + beyond sat, excOverflow ||| excInexact ||| if beyond sat = beyond false then 0 else excSat)) ∧
       (¬ exceeds → got.1 < 2 ^ R.fmt.width ∧
         (∃ a b, R.fmt.decode got.1 = .fin neg a b ∧ a * 2 ^ (b - q).toNat = n * 2 ^ (q - b).toNat) ∧
         got.2 = if r = 0 then 0 else if tiny then excInexact ||| excUnderflow else excInexact))) ∧
    R.fmt.decode (sign + R.max) = .fin neg R.maxN R.maxQ)

/-- R362 and R363: VLANE reads the named lane of A where it is active and 0 elsewhere. VPUTL writes the named lane where it is active, and
gives its registers the tag ET and the sidecar 1.0 (a replay keeps both); the other lanes stay, as zero where the register was not full.
Where no named lane is active it writes nothing. -/
def Obligations.LaneMoves : Prop :=
  ∀ (s : State) (t : Strand) (f : Frame),
    (s.Issues t (vlaneSpec f) f → sourcesState t (vlaneSpec f) f = .ok →
      ∃ u, exec (.vlane f) s = .next (s.withChip (s.chip.retires u (markRegs (vlaneSpec f) f) false t.nextPc)) ∧ u.flags = t.flags ∧
        WritesScalar t u f (fun h => if bit (t.lanesOf f) (namedLane t h f) then
          (if f.et = .i32 then (bits (srcBits t f.a f.et 0 (namedLane t h f)) 0 32 : W32).signExtend 64
           else srcBits t f.a f.et 0 (namedLane t h f)) else 0)) ∧
    (s.Issues t (vputlSpec f) f →
      let named := fun l => ∃ h ∈ t.halves, bit (t.lanesOf f) l = true ∧ l = namedLane t h f
      ∃ u, exec (.vputl f) s = .next (s.goesOn u) ∧
        ((∀ l, ¬ named l) → u = t) ∧
        ((∃ l, named l) → ∀ j, j < regsOf f.et →
          let old := t.vreg (vNum f.d + j)
          let new := u.vreg (vNum f.d + j)
          new.fill = .full ∧ (t.replay = none → new.tag = f.et ∧ new.side = side1) ∧
          (t.replay ≠ none → new.tag = old.tag ∧ new.side = old.side) ∧
          (∀ l, named l → new.lane l = bits (srcBits t f.a f.et f.imm l) (32 * j) 32) ∧
          (∀ l, ¬ named l → new.lane l = if old.fill = .full then old.lane l else 0)) ∧
        (∀ k, k < vNum f.d ∨ vNum f.d + regsOf f.et ≤ k → u.vreg k = t.vreg k) ∧ (∀ k, u.sreg k = t.sreg k ∧ u.kreg k = t.kreg k) ∧
        u.flags = t.flags)

/-- R365, R367, R368 and R389 (R130, R131, R147): MCLAIM makes an unclaimed slot below MAPLIMIT claimed and empty, and waits while the
physical slot that it would take, the one freed last (the model's reading, log 29), has a load outstanding from before its MFREE; MFREE
gives it up, MBIND writes its descriptor where R131 accepts it and traps with FIELD 3 otherwise, MQUERY reads its slot word. MCLAIM of a
claimed slot, and every one of the seven on a slot past MAPLIMIT or, but MCLAIM, on an unclaimed slot, traps with FIELD 10. R134, R135,
R150, R370 and R371: MFILL writes rows of the image from A, 128 bytes each and the first lowest, and MGEN writes a pattern; both leave the
slot valid and dirty, and wait while the slot is loading. Rows past 31 and, in MGEN, a sparse slot or a PARAM outside its limits trap with
FIELD 10. -/
def Obligations.SlotLifeAndFills : Prop :=
  (∀ (s : State) (t : Strand) (f : Frame) (m : MapSlot),
    (s.Issues t (mapSpec 0x1E0 0) f → f.slot < t.mapLimit → Sparse.get? t.slots f.slot = none →
      (∀ ls, t.draining.getLast? = some ls → ls = []) →
      exec (.mclaim f) s = .next (s.goesOn ({ t with draining := t.draining.dropLast }.setSlot f.slot MapSlot.claimed))) ∧
    (s.Issues t (mapSpec 0x1E1 0) f → f.slot < t.mapLimit → Sparse.get? t.slots f.slot = some m →
      exec (.mfree f) s = .next (s.goesOn (t.freeSlot f.slot m))) ∧
    (s.Issues t { mapSpec 0x1E2 0 with a := FieldSpec.scalar.orZero } f → f.slot < t.mapLimit → Sparse.get? t.slots f.slot = some m →
      bindOk t f.slot (sVal t 0 f.a) = true →
      exec (.mbind f) s = .next (s.goesOn (t.setSlot f.slot { m with desc := descBits (sVal t 0 f.a) }))) ∧
    (s.Issues t { mapSpec 0x1E8 0 with d := .scalar } f → f.slot < t.mapLimit → Sparse.get? t.slots f.slot = some m →
      exec (.mquery f) s = .next (s.goesOn (putS t 0 f.d m.word))) ∧
    (s.Issues t (mapSpec 0x1E0 0) f → f.slot < t.mapLimit → Sparse.get? t.slots f.slot = none →
      (∃ ls, t.draining.getLast? = some ls ∧ ls ≠ []) →
      exec (.mclaim f) s = .next (s.withChip (s.chip.setStrand s.chip.cur { t with status := .waiting .mapSlot }))) ∧
    (s.Freezes t → f.slot < t.mapLimit → Sparse.get? t.slots f.slot = some m →
      (s.Issues t (mapSpec 0x1E0 0) f → exec (.mclaim f) s = .next (s.traps t (Trap.instr .badOperand 10 0))) ∧
      (s.Issues t { mapSpec 0x1E2 0 with a := FieldSpec.scalar.orZero } f → bindOk t f.slot (sVal t 0 f.a) = false →
        exec (.mbind f) s = .next (s.traps t (Trap.instr .badOperand 3 0)))) ∧
    (s.Freezes t → ∀ x ∈ [(Instr.mfree f, mapSpec 0x1E1 0), (.mbind f, { mapSpec 0x1E2 0 with a := FieldSpec.scalar.orZero }),
        (.mquery f, { mapSpec 0x1E8 0 with d := .scalar }), (.mfill f, { mapSpec 0x1E5 0x7F with a := FieldSpec.vec 1 }),
        (.mgen f, { mapSpec 0x1E6 0x1FF with extra := f.pat == 7 }),
        (.mload f, { mapSpec 0x1E3 0x3FF with a := .scalar, b := FieldSpec.scalar.orNone }),
        (.mside f, { mapSpec 0x1E4 0x3FF with a := .scalar })], s.Issues t x.2 f →
      (f.slot < t.mapLimit → Sparse.get? t.slots f.slot = none → exec x.1 s = .next (s.traps t (Trap.instr .mapUnclaimed 10 0))) ∧
      (t.mapLimit ≤ f.slot → exec x.1 s = .next (s.traps t (Trap.instr .badOperand 10 0)))) ∧
    (s.Freezes t → t.mapLimit ≤ f.slot → s.Issues t (mapSpec 0x1E0 0) f →
      exec (.mclaim f) s = .next (s.traps t (Trap.instr .badOperand 10 0)))) ∧
  (∀ (s : State) (t : Strand) (f : Frame) (m : MapSlot), f.slot < t.mapLimit → Sparse.get? t.slots f.slot = some m →
    (let sp := { mapSpec 0x1E5 0x7F with a := FieldSpec.vec 1 }
     s.Issues t sp f → f.first + f.rows 2 ≤ 32 → sourcesState t sp f = .ok →
      (m.loads = [] →
        ∃ u m', exec (.mfill f) s = .next (s.withChip (s.chip.retires u (markRegs sp f) false t.nextPc)) ∧ u = t.setSlot f.slot m' ∧
          m'.v = true ∧ m'.d = true ∧ m'.desc = m.desc ∧ m'.side = m.side ∧
          (∀ i k, i < 32 → k < 1024 → bit m'.image (1024 * i + k) =
            if f.first ≤ i ∧ i < f.first + f.rows 2 then bit (t.vreg (vNum f.a)).lanes (1024 * (i - f.first) + k)
            else bit m.image (1024 * i + k))) ∧
      (m.loads ≠ [] → exec (.mfill f) s = .next (s.withChip (s.chip.setStrand s.chip.cur { t with status := .waiting .mapSlot })))) ∧
    (s.Issues t { mapSpec 0x1E6 0x1FF with extra := f.pat == 7 } f → m.loads = [] → m.sparse = false →
      patOk f.pat f.patParam m.span = true →
      exec (.mgen f) s = .next (s.goesOn (t.setSlot f.slot
        { m with image := patImage f.pat f.patParam m.span m.fm, v := true, d := true }))) ∧
    (s.Issues t { mapSpec 0x1E6 0x1FF with extra := f.pat == 7 } f →
      (m.loads ≠ [] → exec (.mgen f) s = .next (s.withChip (s.chip.setStrand s.chip.cur { t with status := .waiting .mapSlot }))) ∧
      (m.loads = [] → m.sparse = true ∨ patOk f.pat f.patParam m.span = false → s.Freezes t →
        exec (.mgen f) s = .next (s.traps t (Trap.instr .badOperand 10 0)))) ∧
    (s.Issues t { mapSpec 0x1E5 0x7F with a := FieldSpec.vec 1 } f → 32 < f.first + f.rows 2 → s.Freezes t →
      exec (.mfill f) s = .next (s.traps t (Trap.instr .badOperand 10 0))) ∧
    (∀ pat p span fm i k, fm.width ≤ 32 → span ≤ 32 → i < span → k < span →
      (bits (patImage pat p span fm) (1024 * i + 32 * k) 32 : W32) = if patBit pat p span i k then BitVec.ofNat 32 (laneOnes fm) else 0))

/-- R122, R134 and R369: MLOAD and MSIDE read their rows at their owners in the order of the checks and leave a load outstanding in the
slot, whose bytes land later (that the rows are read in the instruction's own step is the model's, log 33). R134 and R369: an outstanding
load of a slot lands when no older load of its strand is outstanding: its bytes go to the image or the side memory, and with its last load
the slot becomes valid and dirty. One of a strand that has exited lands into nothing and gives its physical slot up (R147, log 97). -/
def Obligations.SlotLoads : Prop :=
  (∀ (s : State) (t : Strand) (f : Frame) (m : MapSlot) (c : Chip) (rs : List Reach) (side : Bool), f.slot < t.mapLimit →
    Sparse.get? t.slots f.slot = some m →
    let sp := if side then { mapSpec 0x1E4 0x3FF with a := .scalar }
      else { mapSpec 0x1E3 0x3FF with a := .scalar, b := FieldSpec.scalar.orNone }
    let size := if side then 16 else 128
    let base := sVal t 0 f.a
    let pitch : W64 := if side then 16 else if f.b = .none then 128 else sVal t 0 f.b
    s.Issues t sp f → f.first + f.rows 5 ≤ 32 → s.chip.ownerTrap t 3 base = none → base.toNat % 16 = 0 → pitch.toNat % 16 = 0 →
    s.chip.checkBytes (s.chip.who t) t.core (s.chip.localGid t) .load false (slotRows base pitch (f.rows 5) size) = (c, .ok rs) →
    let y := c.readOwners t rs
    y.1.Whole →
    exec (if side then .mside f else .mload f) s = .next (s.withChip
      (({ y.1 with nextId := y.1.nextId + 1,
                   slotLoads := y.1.slotLoads ++
                     [{ id := y.1.nextId, sid := y.1.cur, slot := f.slot, side := side, first := f.first * size, bytes := y.2 }] } : Chip).setStrand
        s.chip.cur ((t.setSlot f.slot { m with loads := m.loads ++ [y.1.nextId] }).retired' (y.1.quantumOf t) [] false t.nextPc)))) ∧
  (∀ (s : State) (x : SlotLoad), s.chip.Whole → s.chip.slotLoads.find? (fun y => y.id == x.id) = some x →
    s.chip.slotLoads.find? (fun y => y.sid == x.sid) = some x →
    (∀ h, x.held = some h → s.chip.strand x.sid = none →
      exec (.slotLoadLand x.id) s = .next (s.withChip ({ s.chip with
        slotLoads := s.chip.slotLoads.filter fun y => y.id != x.id }.noteFreed (h.core / Config.coresPerDie)))) ∧
    ∀ (t : Strand) (n : Nat) (m : MapSlot), s.chip.strand x.sid = some t → Sparse.get? t.slots n = some m → x.id ∈ m.loads →
    ∃ s' u m', exec (.slotLoadLand x.id) s = .next s' ∧ s'.chip.strand x.sid = some u ∧ Sparse.get? u.slots n = some m' ∧
      m'.loads = m.loads.filter (· != x.id) ∧ m'.v = (m.v || m'.loads.isEmpty) ∧ m'.d = (m.d || m'.loads.isEmpty) ∧ m'.desc = m.desc ∧
      (x.side = false → m'.image = putBits m.image (8 * x.first) (BitVec.ofNat (8 * x.bytes.length) (leNat x.bytes)) ∧ m'.side = m.side) ∧
      (x.side = true → m'.side = putBits m.side (8 * x.first) (BitVec.ofNat (8 * x.bytes.length) (leNat x.bytes)) ∧ m'.image = m.image) ∧
      s'.chip.mem = s.chip.mem ∧ x ∉ s'.chip.slotLoads)

/-- R372 (R145, R251): MDRAIN stores the 4672 bytes of a slot that is not loading, the subject's slot in the handler, which is not held to
MAPLIMIT (R306): the image and the side memory, or zeros while V is 0, then the slot word and zeros. -/
def Obligations.SlotDrains : Prop :=
  ∀ (s : State) (t : Strand) (f : Frame) (m : MapSlot) (c : Chip) (rs : List Reach),
    s.Issues t { mapSpec 0x1E7 0 with a := .scalar } f →
    let o := s.chip.slotOwner t
    let base := sVal t 0 f.a
    t.isHandler = true ∨ f.slot < o.mapLimit → Sparse.get? o.slots f.slot = some m → m.loads = [] →
    s.chip.ownerTrap t 3 base = none → base.toNat % 64 = 0 →
    s.chip.checkDrain (s.chip.who t) t.core (s.chip.localGid t) (pieces base 4672 64) = (c, .ok rs) →
    let data := rs.zip (chunks 64 73 m.drained)
    (c.buffers t = false →
      let d := data.foldl (fun c x => c.storeBytes c.cur t.core t.ctx 0 x.1 x.2) c
      d.Whole → exec (.mdrain f) s = .next (s.withChip (d.setStrand s.chip.cur (t.retired' (d.quantumOf t) [] false t.nextPc)))) ∧
    (c.buffers t = true → c.Whole →
      ∃ u, exec (.mdrain f) s = .next (s.withChip (c.retires u [] false t.nextPc)) ∧ ∃ e, u = { t with buffer := t.buffer ++ [e] } ∧
        e.op = .store (data.map fun x => { lane := 0, va := x.1.va, bytes := x.2 })) ∧
    m.drained.length = 4672 ∧ wordAt m.drained 576 = m.word ∧
    (m.v = true → leNat (m.drained.take 4096) = m.image.toNat ∧ leNat ((m.drained.drop 4096).take 512) = m.side.toNat) ∧
    (m.v = false → m.drained.take 4608 = List.replicate 4608 0)

/-- R100, R122, R374, R375, R378 and R379: a load of VLD or VLDB whose lanes pass their checks and read no cell completes: the lanes hold
the bytes read, extended to a whole word or laid out over the registers of a pair or a quad (R374), the other lanes what they held, or
zero where the register was not full, and the registers are full with tag ET. -/
def Obligations.VectorLoads : Prop :=
  ∀ (s : State) (t : Strand) (f : Frame) (c : Chip) (ws : List (Nat × Reach × LoadDest)), ∀ o ∈ [vldForm f, vldbForm f],
    s.Issues t o.sp f → t.lanesOf f ≠ 0 → sourcesState t o.sp f = .ok → o.check s.chip t (lanesIn (t.lanesOf f)) = (c, [], ws) →
    (∀ w ∈ ws, c.needsCell (s.chip.buffers t) w.2.1 = false) → t.replay = none → t.metEnd = false →
    let r := c.readLanes (s.chip.buffers t) t f.scope ws
    let d := if ordAcquires f.ord then r.1.acquire t.core t.ctx f.scope else r.1
    d.Whole →
    ∃ u : Strand, exec o.i s = .next (s.withChip (d.setStrand s.chip.cur (u.retired' (d.quantumOf u) (markRegs o.sp f) false t.nextPc))) ∧
      (∀ k, k ∉ o.dests → u.vreg k = t.vreg k) ∧
      (∀ k ∈ o.dests, (u.vreg k).fill = .full ∧ (u.vreg k).tag = f.et ∧ (u.vreg k).side = side1) ∧
      (∀ x ∈ r.2.got, ∀ k l n signed, x.1 = .vec k l n signed → l < 128 →
        (1 ≤ x.2.length → x.2.length ≤ 4 → (u.vreg k).lane l = BitVec.ofNat 32 (extendBytes signed 32 x.2)) ∧
        (∀ j, 4 * j + 4 ≤ x.2.length → (u.vreg (k + j)).lane l = BitVec.ofNat 32 (leNat ((x.2.drop (4 * j)).take 4)))) ∧
      (∀ k ∈ o.dests, ∀ l, l < 128 → (∀ w ∈ ws, w.1 ≠ l) →
        (u.vreg k).lane l = if (t.vreg k).fill = .full then (t.vreg k).lane l else 0) ∧
      (∀ k, u.sreg k = t.sreg k ∧ u.kreg k = t.kreg k) ∧ u.flags = t.flags ∧ u.mode = t.mode

/-- R121 and R380: VLDA reads at once and delivers later: its registers are empty with a producer in flight, and the bytes wait. R121 and
R380: the delivery of a VLDA fills every register that still waits for it. -/
def Obligations.AsyncLoads : Prop :=
  (∀ (s : State) (t : Strand) (f : Frame) (c : Chip) (ws : List (Nat × Reach × LoadDest)),
    let o := vldaForm f
    s.Issues t o.sp f → t.lanesOf f ≠ 0 → sourcesState t o.sp f = .ok → o.check s.chip t (lanesIn (t.lanesOf f)) = (c, [], ws) →
    (∀ w ∈ ws, c.needsCell (s.chip.buffers t) w.2.1 = false) → t.replay = none → t.metEnd = false →
    let r := c.readLanes (s.chip.buffers t) t f.scope ws
    r.1.Whole → r.2.got ≠ [] → t.buffersProd r.1.nextId = false → (∀ w ∈ r.1.waiters, w.prod ≠ r.1.nextId) →
    ∃ s' u, exec (.vlda f) s = .next s' ∧ s'.chip.strand s.chip.cur = some u ∧ u.pc = t.nextPc ∧ u.retired = t.retired + 1 ∧
      (∀ k ∈ o.dests, k ∉ markRegs o.sp f → (u.vreg k).fill = .inflight .vlda r.1.nextId ∧ (u.vreg k).tag = f.et) ∧
      s'.chip.vldas = r.1.vldas ++ [{ id := r.1.nextId, sid := r.1.cur, items := r.2.got }] ∧ s'.chip.mem = r.1.mem) ∧
  (∀ (s : State) (v : VldaOp) (t : Strand), s.chip.Whole → s.chip.vldas.find? (fun x => x.id == v.id) = some v →
    s.chip.strand v.sid = some t → (s.chip.waiters.any fun w => w.prod == v.id) = false → t.buffersProd v.id = false →
    (∀ a, t.acq ≠ some (a, v.id)) →
    ∃ s' u, exec (.vldaLand v.id) s = .next s' ∧ s'.chip.strand v.sid = some u ∧
      (∀ n, (t.vreg n).fill.awaits v.id = true → (u.vreg n).fill = .full) ∧
      (∀ n, (t.vreg n).fill.awaits v.id = false → u.vreg n = t.vreg n) ∧ (∀ x ∈ s'.chip.vldas, x.id ≠ v.id) ∧ s'.chip.mem = s.chip.mem)

/-- R330 and R331: SLD whose accesses pass their checks and read no cell loads one scalar in each half, sign-extended under i64 and
zero-extended under n32, and SST stores one, in a deterministic context into the strand's buffer (R236); a fault of either is an
instruction record with FAULTVA, and with FIELD 3 where the address itself is at fault (R451). -/
def Obligations.ScalarMemory : Prop :=
  ∀ (s : State) (t : Strand) (f : Frame) (c : Chip) (rs : List Reach),
    (s.Issues t (sldSpec f) f → s.chip.checkScalar t .load f false false (scalarAccs t f) = (c, .ok rs) →
      (∀ r ∈ rs, c.needsCell (c.buffers t) r = false) → t.metEnd = false →
      ∀ n, f.d = .s n →
      let r := c.readLanes (c.buffers t) t f.scope
        ((rs.zip (t.halves.map fun h => LoadDest.scalar (halfScalar h n.val) (2 ^ f.size) (signedLoad f.et))).map fun y => (0, y.1, y.2))
      let d := if ordAcquires f.ord then r.1.acquire t.core t.ctx f.scope else r.1
      d.Whole →
      ∃ u, exec (.sld f) s = .next (s.withChip (d.setStrand s.chip.cur (u.retired' (d.quantumOf u) [] false t.nextPc))) ∧
        u = r.2.got.foldl (fun u x => u.land x.1 x.2) t ∧
        (∀ h ∈ t.halves, ∀ bs, (LoadDest.scalar (halfScalar h n.val) (2 ^ f.size) (signedLoad f.et), bs) ∈ r.2.got →
          u.sreg (halfScalar h n.val) =
            if f.et = .i64 then BitVec.ofInt 64 (signedOf (8 * bs.length) (leNat bs)) else BitVec.ofNat 64 (leNat bs)) ∧
        (∀ k, (∀ h ∈ t.halves, k ≠ halfScalar h n.val) → u.sreg k = t.sreg k) ∧
        (∀ k, u.vreg k = t.vreg k ∧ u.kreg k = t.kreg k) ∧ u.flags = t.flags ∧
        (∀ x, t.paired = false → rs = [x] →
          r.2.got = [(.scalar (halfScalar 0 n.val) (2 ^ f.size) (signedLoad f.et), (c.loadReach t f.scope x).2)])) ∧
    (s.IssuesMem t (sstSpec f) f → s.chip.checkScalar t .store f true (!s.chip.buffers t) (scalarAccs t f) = (s.chip, .ok rs) →
      s.chip.buffers t = true → t.metEnd = false → t.replay = none → (∀ r ∈ rs, r.cell = false) →
      let ws := (rs.zip (scalarAccs t f)).map fun x =>
        (x.2.1, x.1, leBytes x.2.2.2 ((sVal t x.2.1 f.c).toNat % 2 ^ (8 * x.2.2.2)))
      ∃ e, exec (.sst f) s = .next (s.withChip (s.chip.retires { t with buffer := t.buffer ++ [e] } [] false t.nextPc)) ∧
        e.pc = t.pc ∧ e.instr = .sst f ∧ e.op = .store (ws.map fun w => { lane := w.1, va := w.2.1.va, bytes := w.2.2 })) ∧
    (s.IssuesMem t (sstSpec f) f → s.chip.checkScalar t .store f true (!s.chip.buffers t) (scalarAccs t f) = (c, .ok rs) →
      s.chip.buffers t = false → c.buffers t = false →
      let ws := (rs.zip (scalarAccs t f)).map fun x =>
        (x.2.1, x.1, leBytes x.2.2.2 ((sVal t x.2.1 f.c).toNat % 2 ^ (8 * x.2.2.2)))
      let d := (if ordReleases f.ord then c.release c.cur t.core t.ctx f.scope else c).storeLanes t f.scope ws
      d.Whole →
      exec (.sst f) s = .next (s.withChip (d.setStrand s.chip.cur (t.retired' (d.quantumOf t) [] false t.nextPc)))) ∧
    (∀ x va, s.Freezes t → x ≠ .pageFault →
      (s.Issues t (sldSpec f) f → s.chip.checkScalar t .load f false false (scalarAccs t f) = (s.chip, .bad x va) →
        exec (.sld f) s = .next (s.traps t (Trap.instr x (s.chip.accessField t x va) va))) ∧
      (s.IssuesMem t (sstSpec f) f → s.chip.checkScalar t .store f true (!s.chip.buffers t) (scalarAccs t f) = (s.chip, .bad x va) →
        exec (.sst f) s = .next (s.traps t (Trap.instr x (s.chip.accessField t x va) va))))

/-- R225, R226, R375, R376, R378, R379 and R227: VST and VSTB whose lanes pass their checks store in rising order of lane, the highest
lane's write alone where several meet at one address, after the release that ORD asks for, and change no register. R236: in a
deterministic context the stores of VST and VSTB go to the strand's buffer, and memory does not change. Log 7's reading (DEDUCED) of what
R215, R225 and R226 bound by order alone: the bytes of a store to local store, an ORDERED page or a CELL page stand at once, and one that
bypasses L1 is on its way to its owner with its bytes. Its bytes go where its address is translated, in near, far, host or die store
memory, and every other byte reads as before (R205). A store of SCOPE 0 or 1 that its core's line takes stands in that line (R225). -/
def Obligations.VectorStores : Prop :=
  ((∀ (c : Chip) (t : Strand) (scope : Nat) (xs ys zs : List (Nat × Reach × List Byte)) (v w : Nat × Reach × List Byte),
    v.2.1.va = w.2.1.va → c.storeLanes t scope (xs ++ v :: (ys ++ w :: zs)) = c.storeLanes t scope (xs ++ (ys ++ w :: zs))) ∧
  (∀ (c : Chip) (t : Strand) (scope : Nat) (v w : Nat × Reach × List Byte) (x : Xl), v.2.1.va = w.2.1.va → t.replay = none →
    w.2.1.xl = some x → x.owner = 5 → x.cell = false → x.mig = none → ¬ (x.cacheable = true ∧ scope ≤ 1) → c.mem.wf = true → c.posted = [] →
    Place.has x.place x.pa w.2.2.length = true → (c.storeLanes t scope [v, w]).readPhys x.place x.pa w.2.2.length = w.2.2) ∧
  ∀ (s : State) (t : Strand) (f : Frame) (c : Chip) (ws : List (Nat × Reach × List Byte)), ∀ o ∈ [vstForm f, vstbForm f],
    s.IssuesMem t o.sp f → t.lanesOf f ≠ 0 → sourcesState t o.sp f = .ok → o.check s.chip t (lanesIn (t.lanesOf f)) = (c, [], ws) →
    s.chip.buffers t = false →
    let d := (if ordReleases f.ord then c.release c.cur t.core t.ctx f.scope else c).storeLanes t f.scope ws
    d.Whole →
    exec o.i s = .next (s.withChip (d.setStrand s.chip.cur (t.retired' (d.quantumOf t) (markRegs o.sp f) false t.nextPc)))) ∧
  (∀ (s : State) (t : Strand) (f : Frame) (ws : List (Nat × Reach × List Byte)), ∀ o ∈ [vstForm f, vstbForm f],
    s.IssuesMem t o.sp f → t.lanesOf f ≠ 0 → sourcesState t o.sp f = .ok →
    o.check s.chip t (lanesIn (t.lanesOf f)) = (s.chip, [], ws) → (∀ w ∈ ws, w.2.1.cell = false) → s.chip.buffers t = true → t.replay = none →
    ∃ s' u, exec o.i s = .next s' ∧ s'.chip.mem = s.chip.mem ∧ s'.chip.posted = s.chip.posted ∧ s'.chip.strand s.chip.cur = some u ∧
      u.buffer.length = t.buffer.length + 1 ∧ u.pc = t.nextPc ∧ u.retired = t.retired + 1 ∧
      (∃ e, u.buffer.getLast? = some e ∧ e.pc = t.pc ∧ e.instr = o.i ∧
        e.op = .store (ws.map fun w => { lane := w.1, va := w.2.1.va, bytes := w.2.2 }))) ∧
  (∀ (c : Chip) (sid core ctx scope : Nat) (r : Reach) (bs : List Byte),
    let d := c.storeBytes sid core ctx scope r bs
    (∀ x, r.xl = some x → (x.owner = 5 ∨ x.ord = true ∨ x.cell = true) → x.mig = none → c.mem.wf = true → c.posted = [] →
      Place.has x.place x.pa bs.length = true →
      d.readPhys x.place x.pa bs.length = bs ∧
      (∀ a, (a < physKey x.place x.pa ∨ physKey x.place x.pa + bs.length ≤ a) → d.mem.byte a = c.mem.byte a) ∧ d.halt = c.halt ∧
      d.strands = c.strands) ∧
    (∀ x, r.xl = some x → x.owner ≠ 5 → x.ord = false → x.cell = false → (x.pol = 1 ∨ 2 ≤ scope) →
      d.mem = c.mem ∧ d.strands = c.strands ∧ d.halt = c.halt ∧
      ∃ p, d.posted = c.posted ++ [p] ∧ p.sid = sid ∧ p.core = core ∧ p.place = x.place ∧ p.pa = x.pa ∧ p.work = .inl bs ∧ p.dest = none) ∧
    (∀ l, r.xl = none → findLine (c.core core).l1 ctx (lineOf r.va) = some l → bs.length ≤ 64 - r.va.toNat % 64 → bs ≠ [] →
      d.mem = c.mem ∧ d.posted = c.posted ∧ d.halt = c.halt ∧ d.strands = c.strands ∧
      ∃ m, findLine (d.core core).l1 ctx (lineOf r.va) = some m ∧ m.bytes (r.va.toNat % 64) bs.length = bs ∧ m.place = l.place ∧ m.pa = l.pa))

/-- R226, R228 and R382 to R384: VATOM, VATOMR and VCAS whose lanes pass their checks send each lane to its owner, or perform it at once
where nothing may overtake it, between the release and the acquire that ORD asks for; the old values of lanes performed at once stand in
the destination of VATOMR and VCAS, and no other register changes but by older atomics' results (in which order atomics overtake is the
model's, log 1). R302, R382 and R384: what each atomic writes, at 32 bits. R228: an atomic at its owner is one read and one write: it
answers the old value, the location holds the new one, and no other byte changes. One that was on its way does so when it arrives, and its
old value lands in its strand's destination. -/
def Obligations.Atomics : Prop :=
  (∀ (s : State) (t : Strand) (f : Frame) (c : Chip) (ws : List (Nat × Reach)), ∀ o ∈ [vatomForm f, vatomrForm f, vcasForm f],
    s.IssuesMem t o.sp f → t.lanesOf f ≠ 0 → o.sources t = .ok → o.check s.chip t (lanesIn (t.lanesOf f)) = (c, [], ws) →
    s.chip.buffers t = false →
    let atoms := ws.map fun x => (o.lane (s.chip.seed t) t x.1 x.2.va, x.2)
    let acq := ordAcquires f.ord && f.scope != 0
    let r := (if ordReleases f.ord then c.release c.cur t.core t.ctx f.scope else c).atomLanes t
      (if o.dest then some (vNum f.d) else none) acq atoms
    let d := if acq then r.1.acquire t.core t.ctx f.scope else r.1
    d.Whole →
    let b := (d.strand d.cur).getD t
    ∃ u : Strand, exec o.i s = .next (s.withChip (d.setStrand s.chip.cur (u.retired' (d.quantumOf u) (markRegs o.sp f) false t.nextPc))) ∧
      (∀ k, (o.dest = true → k ∉ f.d.regs (dataRegs f.size)) → u.vreg k = b.vreg k) ∧
      (∀ k, u.sreg k = b.sreg k ∧ u.kreg k = b.kreg k) ∧ u.flags = b.flags ∧
      (o.dest = true → f.size = 2 → b.replay = none → ∀ n, f.d = .v n → ∀ x ∈ r.2, (r.2.map fun y => y.1).Nodup →
        x.1 < 128 → (u.vreg n.val).lane x.1 = bits x.2 0 32)) ∧
  (∀ (old x y : W32) (et : ElemType) (rm z : Nat),
    let new := fun o => atomNew o et rm z 4 old.toNat x.toNat
    new .add = (old + x).toNat ∧ new .and = (old &&& x).toNat ∧ new .or = (old ||| x).toNat ∧ new .xor = (old ^^^ x).toNat ∧
    new .xchg = x.toNat ∧ new .min = (if old.toInt ≤ x.toInt then old else x).toNat ∧
    new .max = (if x.toInt ≤ old.toInt then old else x).toNat ∧ new .minu = min old.toNat x.toNat ∧ new .maxu = max old.toNat x.toNat ∧
    (∀ l va, (({ lane := l, va := va, n := 4, kind := .cas (y.setWidth 64), x := x.setWidth 64 } : LaneAtom).value old.toNat) =
      if old = y then x.toNat else old.toNat)) ∧
  (∀ (c : Chip) (p : Place) (pa : Nat) (a : LaneAtom), c.mem.wf = true → Place.has p pa a.n = true → a.n = 4 ∨ a.n = 8 →
    let old := leNat (c.readPhys p pa a.n)
    let r := c.applyAtom p pa none a
    r.2 = BitVec.ofNat 64 old ∧ r.1.readPhys p pa a.n = leBytes a.n (a.value old) ∧ r.1.halt = c.halt ∧
    (∀ k, (k < physKey p pa ∨ physKey p pa + a.n ≤ k) → r.1.mem.byte k = c.mem.byte k) ∧
    (∀ (w : Posted) (t : Strand), w.work = .inr a → w.place = p → w.pa = pa → w.mig = none → c.strand w.sid = some t →
      (c.perform w).mem = r.1.mem ∧
      (∀ g l, w.dest = some (.vec g l a.n false) → a.n = 4 → l < 128 →
        ∃ u, (c.perform w).strand w.sid = some u ∧ (u.vreg g).lane l = BitVec.ofNat 32 old)))

/-- R385: VMCAST whose lists and lanes pass their checks performs its destinations in order of the list, each lane at its owner: active
lane `l` of destination `n` has its datum at base(n) + 2^SIZE × `l`, a paired strand's high half by its own list. There the lane's data
stand afterwards, or with ROP the sum of them and what stood there, and no other byte changes (the draws of an ROP are the model's, log
53). -/
def Obligations.Multicast : Prop :=
  (∀ (s : State) (t : Strand) (f : Frame) (c c' : Chip) (bases done : List CastBases) (ok : List (Nat × CastLane)),
    s.IssuesMem t (vmcastSpec f) f → s.chip.vmcastLists t f = (c, .inl bases) → t.active f ≠ 0 → t.replay = none →
    sourcesState t (vmcastSpec f) f = .ok → s.chip.buffers t = false → c.buffers t = false →
    let draws := f.aux == 2 && atomDraws t f
    c.castDests t f (lanesIn (t.active f)) draws [] (bases.zipIdx.map fun x => (x.2, x.1)) = (c', [], ok, done) →
    let v := if draws then (lanesIn (t.active f)).foldl (fun u l => u.advance 1 l (castDraws t bases l)) t else t
    let u := { v with record := some { instr := .vmcast f, pc := t.pc, trapped := 0, orig := t.active f, wrote := [], prod := none, list := bases } }
    let e := if ordReleases f.ord then c'.release c'.cur t.core t.ctx f.scope else c'
    let e := ok.foldl (fun c x => c.castOne t f draws x.1 x.2) e
    let e := if ordAcquires f.ord then e.acquire t.core t.ctx f.scope else e
    e.Whole →
    exec (.vmcast f) s = .next (s.withChip (e.setStrand s.chip.cur
        (u.retired' (e.quantumOf u) (markRegs (vmcastSpec f) f) false u.nextPc))) ∧
      (∀ y ∈ ok, ∃ base, castBase t (bases.getD y.2.n []) y.2.l = some base ∧ bit (t.active f) y.2.l = true ∧ y.2.r.n = 2 ^ f.size ∧
        y.2.r.va = canonical (c.who t).die (base + BitVec.ofNat 64 (2 ^ f.size * halfLane t y.2.l))) ∧
      (∀ n l base, n < bases.length → l < 128 → bit (t.active f) l = true → castBase t (bases.getD n []) l = some base →
        ∃ y ∈ ok, y.2.n = n ∧ y.2.l = l)) ∧
  (∀ (c : Chip) (t : Strand) (f : Frame) (draws : Bool) (j : Nat) (y : CastLane) (x : Xl), y.r.xl = some x → x.mig = none →
    t.replay = none → y.r.n = 2 ^ f.size → f.size = 2 ∨ f.size = 3 → c.mem.wf = true → c.posted = [] → (c.core t.core).l1 = [] →
    Place.has x.place x.pa y.r.n = true →
    let d := c.castOne t f draws j y
    d.readPhys x.place x.pa y.r.n =
      (if f.aux = 0 then dataBytes t f.c (2 ^ f.size) y.l
       else leBytes y.r.n ((castAtom (c.seed t) t f draws j y).value (leNat (c.readPhys x.place x.pa y.r.n)))) ∧
    (∀ a, (a < physKey x.place x.pa ∨ physKey x.place x.pa + y.r.n ≤ a) → d.mem.byte a = c.mem.byte a) ∧ d.halt = c.halt)

/-- R386 to R388: BUDST plants its lanes' buds, BLOOM turns the cell VALUE where the strand is its opener and traps CELL_STORE where it is
not, and BUDQ writes the tags of its lanes' cells; in a deterministic context BUDST and BLOOM are buffered and end the quantum. A replayed
lane of BUDST plants nothing where higher lanes have written all of its cell at the first execution (R221, R376). -/
def Obligations.CellInstructions : Prop :=
  ∀ (s : State) (t : Strand) (f : Frame), t.lanesOf f ≠ 0 →
    (∀ c ws, s.IssuesMem t (budstSpec f) f → sourcesState t (budstSpec f) f = .ok →
      (∀ l ∈ lanesIn (t.lanesOf f), recordAddrOk (wordAt (dataBytes t f.c 16 l) 0) = true) →
      checkBudst f s.chip t (lanesIn (t.lanesOf f)) = (c, [], ws) →
      (∀ l r, t.plants f l r = true ↔ ∃ i, i < 16 ∧ t.taken l (r.va.toNat + i) = false) ∧
      (s.chip.buffers t = false →
        let d := (ws.filter fun x => t.plants f x.1 x.2).foldl (fun c x => match x.2.xl with
            | none => c
            | some y => (c.budstOne y (dataBytes t f.c 16 x.1)).getD c)
          (if ordReleases f.ord then c.release c.cur t.core t.ctx f.scope else c)
        d.Whole →
        exec (.budst f) s = .next (s.withChip (d.setStrand s.chip.cur
          (t.retired' (d.quantumOf t) (markRegs (budstSpec f) f) false t.nextPc)))) ∧
      (s.chip.buffers t = true → c.Whole → ws ≠ [] →
        ∃ s' u, exec (.budst f) s = .next s' ∧ s'.chip.strand s.chip.cur = some u ∧ s'.chip.mem = c.mem ∧ s'.chip.tags = c.tags ∧
          u.ended = true ∧ u.pc = t.nextPc ∧ u.buffer.length = t.buffer.length + 1)) ∧
    (∀ c r x, s.IssuesMem t (bloomSpec f) f →
      s.chip.checkLane (s.chip.who t) t.core (s.chip.localGid t) .plant 3 16 true false [(addressOperand t 0 f, 16)] = (c, .ok [r]) →
      r.xl = some x →
      (s.chip.buffers t = false →
        (∀ d, (c.release c.cur t.core t.ctx 3).bloomAt t x (dataBytes t f.c 16 0) = some d → d.Whole →
          exec (.bloom f) s = .next (s.withChip (d.setStrand s.chip.cur
            (({ t with bloomed := true } : Strand).retired' (d.quantumOf t) (markRegs (bloomSpec f) f) false t.nextPc)))) ∧
        ((c.release c.cur t.core t.ctx 3).bloomAt t x (dataBytes t f.c 16 0) = none →
          (c.takeTrap s.chip.cur (Trap.instr .cellStore 0 (cellOf x.va)) t.pc none).Whole →
          exec (.bloom f) s = .next (s.withChip (c.takeTrap s.chip.cur (Trap.instr .cellStore 0 (cellOf x.va)) t.pc none)))) ∧
      (s.chip.buffers t = true → c.Whole →
        ∃ s' u, exec (.bloom f) s = .next s' ∧ s'.chip.strand s.chip.cur = some u ∧ s'.chip.mem = c.mem ∧ s'.chip.tags = c.tags ∧
          u.ended = true ∧ u.pc = t.nextPc ∧ u.buffer.length = t.buffer.length + 1)) ∧
    (∀ c ws, s.IssuesMem t (budqSpec f) f → sourcesState t (budqSpec f) f = .ok → (s.chip.buffers t = false ∨ t.metEnd = false) →
      checkBudq f s.chip t (lanesIn (t.lanesOf f)) = (c, [], ws) →
      let d := if ordAcquires f.ord then c.acquire t.core t.ctx f.scope else c
      d.Whole →
      ∃ u : Strand,
        exec (.budq f) s = .next (s.withChip (d.setStrand s.chip.cur
          (u.retired' (d.quantumOf u) (markRegs (budqSpec f) f) false t.nextPc))) ∧
        (∀ w ∈ ws, ∀ x, w.2.xl = some x → (ws.map fun y => y.1).Nodup → w.1 < 128 →
          (u.vreg (vNum f.d)).lane w.1 = if x.cell then (c.tagOf x).setWidth 32 else 0) ∧
        (∀ k, k ≠ vNum f.d → u.vreg k = t.vreg k) ∧ (∀ k, u.sreg k = t.sreg k ∧ u.kreg k = t.kreg k) ∧ u.flags = t.flags ∧
        u.mode = t.mode)

/-- R153, R161 and R162: planting turns a VALUE or BUD cell into BUD with its bytes and is refused by OPENING; a BLOOM of the opener turns
the cell VALUE with its bytes, ends the opening and leaves no waiter of it; no other cell's tag and no other byte changes. R160, R161 and
R163: what the owner of a cell answers a load lane. A VALUE cell gives its bytes; a BUD cell whose record is accepted becomes OPENING with
an opening entry, an evaluator in its die's pool and the lane's waiter; an OPENING cell makes the lane wait, faults its own opener, and
refuses it while the wait table is full. FAULTVA of a lane that the cell refuses is the cell's address, and the byte's for SLD (R248,
R331). An ill-formed record gives the cell's address too (log 88), and one that cannot be read its own (R248). The record is read at the
cell's owner, whose die owner 6 of its address names (log 106); an opening is found by where its cell lies (log 50). An owner 6 lane is
checked by its short form at the owner too (R206). R160 and R161: OWNER_CELL_LOAD gives the owner's answer to the lane whose request has
arrived, and takes the request off; a refused lane stays with its request, and LOAD_REISSUE sends it again. A lane takes its cells in
turn, lanes of ORDERED pages take theirs in the order of lanes (R215; log 94), and one that has faulted takes no more. A request whose
turn has not come leaves the state as it was (log 4). -/
def Obligations.CellOwners : Prop :=
  (∀ (c : Chip) (x : Xl) (bs : List Byte), c.Canonical → x.mig = none → x.pa % 16 = 0 →
    Place.has x.place x.pa 16 = true → bs.length = 16 →
    (c.tagOf x ≠ tagOpening →
      ∃ d, c.budstOne x bs = some d ∧ d.tagOf x = tagBud ∧ d.readPhys x.place x.pa 16 = bs ∧
        (∀ k, k ≠ physKey x.place x.pa / 16 → Sparse.getD d.tags k tagValue = Sparse.getD c.tags k tagValue) ∧
        (∀ k, k < physKey x.place x.pa ∨ physKey x.place x.pa + 16 ≤ k → d.mem.byte k = c.mem.byte k) ∧ d.openings = c.openings) ∧
    (c.tagOf x = tagOpening → c.budstOne x bs = none) ∧
    (∀ t e, c.opening t.ctx x.va (physKey x.place x.pa / 16) = some e → c.tagOf x = tagOpening →
      (e.ctx = t.ctx → e.opener = t.token → (c.waiters.all fun w => w.ctx != e.ctx || w.cell != e.cell) = true →
        ∃ d, c.bloomAt t x bs = some d ∧ d.tagOf x = tagValue ∧ d.readPhys x.place x.pa 16 = bs ∧
          (∀ k, k ≠ physKey x.place x.pa / 16 → Sparse.getD d.tags k tagValue = Sparse.getD c.tags k tagValue) ∧
          (∀ k, k < physKey x.place x.pa ∨ physKey x.place x.pa + 16 ≤ k → d.mem.byte k = c.mem.byte k) ∧
          (∀ o ∈ d.openings, ¬ (o.ctx = e.ctx ∧ o.cell = e.cell)) ∧ d.waiters = c.waiters) ∧
      (e.ctx ≠ t.ctx ∨ e.opener ≠ t.token → c.bloomAt t x bs = none)) ∧
    (∀ t, c.tagOf x ≠ tagOpening → c.bloomAt t x bs = none)) ∧
  (∀ (c : Chip) (det : Bool) (t : Strand) (sid prod : Nat) (read : CellRead) (x : Xl),
    let va := read.cell + BitVec.ofNat 64 read.off
    read.va = (if read.short then vaWithOwn va 6 else va) ∧
    (∀ reg lane n sg, read.dest = .vec reg lane n sg → read.len = n ∧ read.faultVa = read.cell) ∧
    (∀ reg n sg, read.dest = .scalar reg n sg → read.len = n ∧ read.faultVa = va) ∧
    (∀ cause, c.translate (c.who t) .load read.len read.va read.len = .trap cause →
      c.cellLoad det t sid prod read = (c, .fault cause read.va)) ∧
    (c.translate (c.who t) .load read.len read.va read.len = .ok x → x.cell = true → x.mig = none →
    let r := c.cellLoad det t sid prod read
    (c.tagOf x = tagValue → r = (c, .bytes (c.readPhys x.place x.pa read.len))) ∧
    (c.tagOf x = tagBud →
      let w := c.cellBytes x
      let at_ := c.translate { ctx := t.ctx, dies := ((c.ctx t.ctx).map fun z => z.dies).getD [], die := x.owner, local? := none } .load 64
        (wordAt w 0) 64
      (∀ cause, at_ = .trap cause → r = (c, .badRecord cause (wordAt w 0))) ∧
      (∀ y, at_ = .ok y → y.mig = none →
      (y.down = true → r = (c, .badRecord .linkDown (wordAt w 0))) ∧
      (y.down = false →
      let b := c.readPhys y.place y.pa 64
      let e := evaluatorOf c.firmware.level det t x.owner read.cell (wordAt w 0) (wordAt w 1) b (c.freshToken t.ctx)
      (c.budRecordOk b = false → r = (c, .badRecord .badOperand read.faultVa)) ∧
      (c.budRecordOk b = true → (c.waitRoom x.owner t.ctx 2 = false ∨ c.atSpawnQ t.ctx = true ∨ c.poolRoom e.die = false) →
        r = (c, .refused)) ∧
      (c.budRecordOk b = true → c.waitRoom x.owner t.ctx 2 = true → c.atSpawnQ t.ctx = false → c.poolRoom e.die = true →
        r.2 = .deferred ∧ r.1.tagOf x = tagOpening ∧ r.1.mem = c.mem ∧ r.1.halt = c.halt ∧
        (∃ o, r.1.openings = c.openings ++ [o] ∧ o.die = x.owner ∧ o.ctx = t.ctx ∧ o.cell = read.cell ∧ o.opener = e.token) ∧
        e ∈ r.1.poolOf e.die ∧ e.kind = .evaluator read.cell ∧ e.args = [read.cell, wordAt w 1, wordAt w 0] ∧ e.pc = wordAt b 3 ∧
        (∃ v ∈ r.1.waiters, v.ctx = t.ctx ∧ v.cell = read.cell ∧ v.sid = sid ∧ v.prod = prod ∧ read ∈ v.reads))))) ∧
    (c.tagOf x = tagOpening → c.opening t.ctx read.cell (physKey x.place x.pa / 16) = none →
      r = (c, .fault .protection read.faultVa)) ∧
    (∀ e, c.tagOf x = tagOpening → c.opening t.ctx read.cell (physKey x.place x.pa / 16) = some e →
      (e.ctx ≠ t.ctx → r = (c, .fault .protection read.faultVa)) ∧
      (e.ctx = t.ctx → e.opener ∈ t.chain → r = (c, .fault .selfDependence read.faultVa)) ∧
      (e.ctx = t.ctx → e.opener ∉ t.chain → c.needsEntry t.ctx e.cell sid prod = true → c.waitRoom x.owner t.ctx 1 = false →
        r = (c, .refused)) ∧
      (e.ctx = t.ctx → e.opener ∉ t.chain → c.waitRoom x.owner t.ctx 1 = true →
        r.2 = .deferred ∧ r.1.tags = c.tags ∧ r.1.mem = c.mem ∧ r.1.openings = c.openings ∧
        (∃ v ∈ r.1.waiters, v.ctx = t.ctx ∧ v.cell = e.cell ∧ v.sid = sid ∧ v.prod = prod ∧ read ∈ v.reads))))) ∧
  (∀ (s : State) (q : CellReq), s.chip.Whole → (s.chip.cellReqs.map fun r => r.id).Nodup → q ∈ s.chip.cellReqs →
    (∀ t p d a, q.refused = false → s.chip.loadOf q.sid = some (t, p) → p.prod = none →
      s.chip.inTurn q = true → (∀ x ∈ p.faults, x.lane ≠ q.read.lane) →
      ({ s.chip with nextId := s.chip.nextId + 1 } : Chip).cellLoad (s.chip.isDet t.ctx) t q.sid s.chip.nextId q.read = (d, a) →
      (d.answer q s.chip.nextId a).Whole →
      exec (.ownerCellLoad q.id) s = .next (s.withChip (d.answer q s.chip.nextId a)) ∧
      (∀ r ∈ (d.answer q s.chip.nextId a).cellReqs, r.id = q.id → a = .refused ∧ r = { q with refused := true })) ∧
    (∀ t p, s.chip.loadOf q.sid = some (t, p) → s.chip.inTurn q = false → exec (.ownerCellLoad q.id) s = .next s) ∧
    exec (.loadReissue q.id) s = .next (s.withChip { s.chip with
      cellReqs := s.chip.cellReqs.map fun r => if r.id = q.id then { r with refused := false } else r }))

/-- R170, R175, R176, R398 and R399: the five barrier instructions on an object in the group's local store, in a strand that is not paired
and works at once. BOINIT writes it, BOEXP and BOARR settle it, BOARR and BOTEST give the phase, and BOWAIT passes once the phase differs
from its operand and waits until then. BOWAIT and BOTEST are updates too: each writes the object as it reads it, its reserved bits as zero
(R172, log 24), and no Settle follows (log 86). R171, R172 and R174: the settle of an object, whose reserved STATUS bits read and are
written as 0. Where both counts are zero the phase changes, the arrivals start again, and the operations of the object that have counted
every byte release their locks; otherwise the object holds what it is given. -/
def Obligations.BarrierObjects : Prop :=
  (∀ (s : State) (t : Strand) (f : Frame) (core pa : Nat), t.paired = false → s.chip.buffers t = false →
    s.chip.objectAt t (addressOperand t 0 f) 3 = .inl (core, pa) →
    let b := s.chip.readBar core pa
    let va := addressOperand t 0 f
    let gid := s.chip.localGid t
    (s.Issues t (barSpec 0x286 .scalar .unused f) f → Place.has (.core core) pa 32 = true →
      let n := (sVal t 0 f.c).toNat
      (b.pend = 0 → 1 ≤ n → n ≤ 65535 →
        exec (.boinit f) s = .next ((s.withChip (s.chip.writePhys (.core core) pa
          ({ status := 0, pend := 0, init := n, arr := n, phase := false } : Bar).bytes)).goesOn t)) ∧
      (s.Freezes t → b.pend ≠ 0 → 1 ≤ n → n ≤ 65535 → exec (.boinit f) s = .next (s.traps t (Trap.instr .badOperand 0 0))) ∧
      (s.Freezes t → n = 0 ∨ 65535 < n → exec (.boinit f) s = .next (s.traps t (Trap.instr .badOperand 5 0)))) ∧
    (s.Issues t (barSpec 0x287 FieldSpec.scalar.orZero .unused f) f →
      let v := b.pend + (sVal t 0 f.c).toInt
      (pendMin ≤ v → v ≤ pendMax → (s.chip.settleBar core pa gid va { b with pend := v }).Whole →
        exec (.boexp f) s = .next ((s.withChip (s.chip.settleBar core pa gid va { b with pend := v })).goesOn t)) ∧
      (s.Freezes t → v < pendMin ∨ pendMax < v → exec (.boexp f) s = .next (s.traps t (Trap.instr .badOperand 0 0)))) ∧
    (s.Issues t (barSpec 0x288 FieldSpec.scalar.orZero FieldSpec.scalar.orNone f) f →
      let a := arrivals t 0 f.c
      (1 ≤ a → a ≤ 65535 → a ≤ b.arr → (s.chip.settleBar core pa gid va { b with arr := b.arr - a }).Whole →
        exec (.boarr f) s = .next ((s.withChip (s.chip.settleBar core pa gid va { b with arr := b.arr - a })).goesOn
          (putS t 0 f.d (if b.phase then 1 else 0)))) ∧
      (s.Freezes t → 1 ≤ a → a ≤ 65535 → b.arr < a → exec (.boarr f) s = .next (s.traps t (Trap.instr .badOperand 0 0)))) ∧
    (Place.has (.core core) pa 32 = true →
      let d := s.chip.touchBar t core pa
      (s.Issues t (barSpec 0x289 FieldSpec.scalar.orZero .unused f) f →
        (b.phase ≠ bit (sVal t 0 f.c) 0 → exec (.bowait f) s = .next ((s.withChip d).goesOn t)) ∧
        (b.phase = bit (sVal t 0 f.c) 0 →
          exec (.bowait f) s = .next (s.withChip (d.setStrand s.chip.cur { t with status := .waiting .barrier })))) ∧
      (s.Issues t (barSpec 0x28A FieldSpec.scalar.orZero .scalar f) f →
        exec (.botest f) s = .next ((s.withChip d).goesOn (putS t 0 f.d (if b.phase = bit (sVal t 0 f.c) 0 then 0 else 1)))) ∧
      (s.chip.mem.wf = true → d.readBar core pa = b ∧ d.readPhys (.core core) pa 32 = b.bytes ∧
        ∀ a, (a < physKey (.core core) pa ∨ physKey (.core core) pa + 32 ≤ a) → d.mem.byte a = s.chip.mem.byte a))) ∧
  (∀ (c : Chip) (core pa gid : Nat) (obj : W64) (b : Bar), c.mem.wf = true → Place.has (.core core) pa 32 = true → b.init < 65536 →
    b.arr < 65536 → pendMin ≤ b.pend → b.pend ≤ pendMax → bits b.status 5 2 = 0 →
    let d := c.settleBar core pa gid obj b
    (b.arr = 0 → b.pend = 0 →
      d.readBar core pa = { b with phase := !b.phase, arr := b.init } ∧
      (∀ o ∈ d.engines, ¬ (o.gid = gid ∧ o.obj = obj ∧ o.finished = true)) ∧
      (∀ o ∈ c.engines, ¬ (o.gid = gid ∧ o.obj = obj ∧ o.finished = true) → (∀ p ∈ c.engines, p.id = o.id → p = o) → o ∈ d.engines) ∧
      (∀ o ∈ c.engines, o.gid = gid → o.obj = obj → o.finished = true → ∀ k ∈ (d.core o.core).locks, k.op ≠ o.id)) ∧
    (b.arr ≠ 0 ∨ b.pend ≠ 0 → d.readBar core pa = b ∧ d.engines = c.engines ∧ d.cores = c.cores))

/-- R93 and R392: a barrier, binder or task instruction executes once in a strand that is not paired and once for each half of a paired
one, low half first; a trap in the high half leaves the low half's effect (that one half's wait holds both back is the model's, log 60).
ACQ, REL, SPAWN, SPAWND and SIGNAL first wait until older loads have their lanes, in a deterministic context too (R232, R233, R406, R408).
-/
def Obligations.Halves : Prop :=
  ∀ row ∈ halfRows, ∀ (s : State) (t : Strand) (f : Frame), s.Issues t (row.spec f) f →
    (row.after = true → s.chip.owesLoads t = true →
      exec (row.instr f) s = .next (s.withChip (s.chip.setStrand s.chip.cur { t with status := .waiting .bud }))) ∧
    ((row.after = true → s.chip.owesLoads t = false) →
    (∀ c u pc ends, t.paired = false → row.half f 0 s.chip t = (c, .done u pc ends) → c.Whole →
      exec (row.instr f) s = .next (s.withChip (c.setStrand s.chip.cur (u.retired' (c.quantumOf u) [] ends pc)))) ∧
    (∀ c d u v pc pd e1 e2, t.paired = true → row.half f 0 s.chip t = (c, .done u pc e1) → row.half f 1 (c.setStrand c.cur u) u = (d, .done v pd e2) →
      d.Whole → exec (row.instr f) s = .next (s.withChip (d.setStrand s.chip.cur (v.retired' (d.quantumOf v) [] (e1 || e2) pd)))) ∧
    (∀ c d u pc e1 tr, t.paired = true → row.half f 0 s.chip t = (c, .done u pc e1) → row.half f 1 (c.setStrand c.cur u) u = (d, .stop tr) → d.Whole →
      d.strand s.chip.cur = some u → u.isHandler = false → d.owesResult s.chip.cur = false → tr.cause ≠ .pageFault →
      exec (row.instr f) s = .next (s.withChip (d.takeTrap s.chip.cur tr u.pc none))) ∧
    (∀ tr, row.half f 0 s.chip t = (s.chip, .stop tr) → s.Freezes t → tr.cause ≠ .pageFault →
      exec (row.instr f) s = .next (s.traps t tr)))

/-- R229, R231 to R233, R393 to R396: FENCE, BIND, UNBIND, ACQ and REL in a strand that is not paired and works at once. FENCE, ACQ and
REL wait while an older load has lanes that have not landed, but not a FENCE of SCOPE strand that is release alone. ACQ and REL of a
binder behind a failed peer route trap LINK_DOWN (R223). In a deterministic context FENCE ends the quantum. R232 and R233: REL adds 1 to
the version of its binder; ACQ reads it, and leaves every binding of its binder on the core with that version seen. -/
def Obligations.FencesAndBinders : Prop :=
  (∀ (s : State) (t : Strand) (f : Frame),
    (s.Issues t { OpSpec.base 0x280 with imm0 := true } f →
      (s.chip.owesLoads t = false ∨ (f.ord = 2 ∧ f.scope = 0) →
        let c := if fenceReleases f.ord then s.chip.release s.chip.cur t.core t.ctx f.scope else s.chip
        let d := if fenceAcquires f.ord then c.acquire t.core t.ctx f.scope else c
        d.Whole →
        exec (.fence f) s = .next (s.withChip (d.setStrand s.chip.cur (t.retired' (d.quantumOf t) [] (s.chip.buffers t) t.nextPc)))) ∧
      (s.chip.owesLoads t = true → f.ord ≠ 2 ∨ f.scope ≠ 0 →
        exec (.fence f) s = .next (s.withChip (s.chip.setStrand s.chip.cur { t with status := .waiting .bud }))) ∧
      (s.chip.defersLoad s.chip.cur = true ∨ (∃ e ∈ t.buffer, ∃ rs p, e.op = .budRead rs p) → s.chip.owesLoads t = true)) ∧
    (∀ x, t.paired = false → s.chip.buffers t = false → s.chip.binderAt t (addressOperand t 0 f) = (s.chip, .inl x) →
      (∀ lo hi, s.chip.region t (sVal t 0 f.b) (sVal t 0 f.c) = .inl (lo, hi) →
        let here := (s.chip.core t.core).binds
        let mine := fun (e : Binding) => e.ctx = t.ctx ∧ e.gid = s.chip.localGid t ∧ e.binder = x.va ∧ e.lo = lo ∧ e.hi = hi
        (s.Issues t (binderSpec 0x281 true .unused f) f → (∃ e ∈ here, mine e) ∨ here.length < Config.bindEntries →
          ∃ d : Chip, exec (.bind f) s = .next ((s.withChip d).goesOn t) ∧ d = s.chip.setBinds t.core (d.core t.core).binds ∧
            (∃ e ∈ (d.core t.core).binds, mine e) ∧
            ((∀ e ∈ here, ¬ mine e) → (d.core t.core).binds =
              here ++ [{ ctx := t.ctx, gid := s.chip.localGid t, binder := x.va, lo := lo, hi := hi, seen := none, uses := 1 }])) ∧
        (s.Issues t (binderSpec 0x281 true .unused f) f → (∀ e ∈ here, ¬ mine e) → Config.bindEntries ≤ here.length →
          s.Freezes t → exec (.bind f) s = .next (s.traps t (Trap.instr .badOperand 0 0))) ∧
        (s.Issues t (binderSpec 0x282 true .unused f) f →
          ((∃ e ∈ here, mine e) →
            ∃ d : Chip, exec (.unbind f) s = .next ((s.withChip d).goesOn t) ∧ d = s.chip.setBinds t.core (d.core t.core).binds ∧
              (∀ e ∈ here, ¬ mine e → e.uses ≠ 0 → e ∈ (d.core t.core).binds) ∧
              (∀ e ∈ here, mine e → 2 ≤ e.uses → { e with uses := e.uses - 1 } ∈ (d.core t.core).binds) ∧
              (∀ e ∈ (d.core t.core).binds, e.uses ≠ 0)) ∧
          ((∀ e ∈ here, ¬ mine e) → s.Freezes t → exec (.unbind f) s = .next (s.traps t (Trap.instr .badOperand 0 0))))) ∧
      (s.Issues t (binderSpec 0x283 false FieldSpec.scalar.orNone f) f →
        let r := s.chip.acq s.chip.cur t.core t.ctx x
        s.chip.owesLoads t = false → x.down = false → r.1.Whole → exec (.acq f) s = .next ((s.withChip r.1).goesOn (putS t 0 f.d r.2))) ∧
      (s.Issues t (binderSpec 0x284 false .unused f) f →
        let d := s.chip.rel s.chip.cur t.core t.ctx x
        s.chip.owesLoads t = false → x.down = false → d.Whole → exec (.rel f) s = .next ((s.withChip d).goesOn t)) ∧
      (s.chip.owesLoads t = false → x.down = true → s.CanTrap t (Trap.instr .linkDown 3 (addressOperand t 0 f)) →
        (s.Issues t (binderSpec 0x283 false FieldSpec.scalar.orNone f) f →
          exec (.acq f) s = .next (s.traps t (Trap.instr .linkDown 3 (addressOperand t 0 f)))) ∧
        (s.Issues t (binderSpec 0x284 false .unused f) f →
          exec (.rel f) s = .next (s.traps t (Trap.instr .linkDown 3 (addressOperand t 0 f))))))) ∧
  (∀ (c : Chip) (sid core ctx : Nat) (x : Xl), c.mem.wf = true → x.mig = none → Place.has x.place x.pa 8 = true → c.posted = [] →
    (c.core core).l1 = [] →
    let old := c.readWord x.place x.pa
    (c.rel sid core ctx x).readWord x.place x.pa = old + 1 ∧ (c.rel sid core ctx x).halt = c.halt ∧
    (c.acq sid core ctx x).2 = old ∧ (c.acq sid core ctx x).1.mem = c.mem ∧
    (∀ e ∈ ((c.acq sid core ctx x).1.core core).binds, e.ctx = ctx → e.binder = x.va → e.seen = some old) ∧
    ((c.core core).binds.length = ((c.acq sid core ctx x).1.core core).binds.length))

/-- R186, R397 and R52: the group's last GBAR retires, in a normal context with every other GBAR of the group; an earlier one waits there,
where the group is not deadlocked (log 27), and in a deterministic context retires, ends its quantum, and stands at the barrier until the
group's last has arrived (log 24); the handler has none. R109 to R112 and R410: GIVE returns the strand's last n blocks to its group;
CLAIM takes n blocks in the pool's order where no older CLAIM waits and the pool can serve it, and else waits in order, where the group is
not deadlocked (log 27); CLAIM_SERVE serves the oldest; both refuse counts out of range, and the handler. R108, R134, R147, R245, R321 and
R56: EXIT ends a strand, and counts as retired. A normal context's strand is gone with what it had in flight, but for the loads of its map
slots, each of which holds its physical slot until it lands (log 97); its blocks are its group's, its group goes with its last strand, and
its context is loaded when that was its last, where no launch has a group to place (R46); a deterministic one stands without registers
until its Commit, its blocks return to the group at the epoch end, and the last of a group gives the group's local store and pool back; an
evaluator that has not bloomed traps; the handler's EXIT leaves its subject frozen and ends the service. -/
def Obligations.GroupResources : Prop :=
  (∀ (s : State) (t : Strand) (f : Frame), s.Issues t (controlSpec 0x285 f true) f →
    let here := s.chip.setStrand s.chip.cur { t with gbar := true, status := .ready }
    (t.isHandler = true → (s.chip.takeTrap s.chip.cur (Trap.instr .badOperand 0 0) t.pc none).Whole →
      exec (.gbar f) s = .next (s.traps t (Trap.instr .badOperand 0 0))) ∧
    (t.isHandler = false → here.gbarDone t.gid = true →
      ∃ s' u, exec (.gbar f) s = .next s' ∧ s'.chip.strand s.chip.cur = some u ∧ u.pc = t.nextPc ∧ u.gbar = false ∧
        u.retired = t.retired + 1 ∧ s'.chip.mem = s.chip.mem ∧
        (∀ n v, n ≠ s.chip.cur → (n, v) ∈ s.chip.live t.gid → (s.chip.strands.map fun x => x.1).Pairwise (· < ·) →
          ∃ w, s'.chip.strand n = some w ∧ w.gbar = false ∧
            (s.chip.isDet v.ctx = false → w.pc = v.nextPc ∧ w.retired = v.retired + 1) ∧
            (s.chip.isDet v.ctx = true → w.pc = v.pc ∧ w.retired = v.retired))) ∧
    (t.isHandler = false → here.gbarDone t.gid = false → s.chip.isDet t.ctx = true →
      exec (.gbar f) s = .next (s.withChip (s.chip.retires { t with gbar := true, status := .ready } [] true t.nextPc))) ∧
    (t.isHandler = false → here.gbarDone t.gid = false → s.chip.isDet t.ctx = false →
      (s.chip.setStrand s.chip.cur { t with gbar := true, status := .waiting .barrier }).deadlocked t.gid = none →
      exec (.gbar f) s = .next (s.withChip (s.chip.setStrand s.chip.cur { t with gbar := true, status := .waiting .barrier })))) ∧
  ((∀ (s : State) (t : Strand) (f : Frame), t.isHandler = true → (s.traps t (Trap.instr .badOperand 0 0)).chip.Whole →
    (s.Issues t (blocksSpec 0x2E3) f → exec (.give f) s = .next (s.traps t (Trap.instr .badOperand 0 0))) ∧
    (s.Issues t (blocksSpec 0x2E4) f → exec (.claim f) s = .next (s.traps t (Trap.instr .badOperand 0 0)))) ∧
  (∀ (s : State) (t : Strand) (f : Frame) (g : Group), t.isHandler = false → s.chip.group t.gid = some g →
    let n := f.func
    (s.Issues t (blocksSpec 0x2E3) f →
      (1 ≤ n → n ≤ 40 → 8 * n + 8 ≤ t.regLimit →
        ∃ s' u g', exec (.give f) s = .next s' ∧ s'.chip.strand s.chip.cur = some u ∧ s'.chip.group t.gid = some g' ∧
          u.regLimit = t.regLimit - 8 * n ∧ u.blocks ++ t.blocks.drop (t.blocks.length - n) = t.blocks ∧
          (s.chip.isDet t.ctx = false → g'.pool = g.pool ++ t.blocks.drop (t.blocks.length - n) ∧ g'.ret = g.ret) ∧
          (s.chip.isDet t.ctx = true → g'.ret = g.ret ++ t.blocks.drop (t.blocks.length - n) ∧ g'.pool = g.pool) ∧
          u.pc = t.nextPc ∧ s'.chip.mem = s.chip.mem) ∧
      (n = 0 ∨ 40 < n ∨ t.regLimit < 8 * n + 8 → s.Freezes t →
        exec (.give f) s = .next (s.traps t (Trap.instr .badOperand 10 0)))) ∧
    (s.Issues t (blocksSpec 0x2E4) f →
      (n = 0 ∨ 40 < n ∨ 320 < t.regLimit + 8 * n → s.Freezes t →
        exec (.claim f) s = .next (s.traps t (Trap.instr .badOperand 10 0))) ∧
      (∀ bs pool, 1 ≤ n → n ≤ 40 → t.regLimit + 8 * n ≤ 320 → s.chip.buffers t = false → g.claims = [] →
        claimBlocks g.pool (t.claimNeed n) = some (bs, pool) →
        ∃ s' u g', exec (.claim f) s = .next s' ∧ s'.chip.strand s.chip.cur = some u ∧ s'.chip.group t.gid = some g' ∧ g'.pool = pool ∧
          u.regLimit = t.regLimit + 8 * n ∧ u.blocks = t.blocks ++ bs ∧ u.pc = t.nextPc ∧
          (∀ k, t.regLimit ≤ k → k < t.regLimit + 8 * n → (u.vreg k).fill = .empty) ∧ (∀ k, k < t.regLimit → u.vreg k = t.vreg k)) ∧
      (let u : Strand := { t with status := .waiting .claim }
       let d := (s.chip.setStrand s.chip.cur u).updGroup t.gid fun g => { g with claims := g.claims ++ [(s.chip.cur, n, false)] }
       1 ≤ n → n ≤ 40 → t.regLimit + 8 * n ≤ 320 →
       s.chip.buffers t = true ∨ ((g.claims ≠ [] ∨ claimBlocks g.pool (t.claimNeed n) = none) ∧ d.deadlocked t.gid = none) →
       exec (.claim f) s = .next (s.withChip d))) ∧
    (∀ sid m e rest u x bs pool, s.chip.Whole → g.claims = (sid, m, e) :: rest → s.chip.strand sid = some u → u.status = .waiting .claim →
      s.chip.ctx g.ctx = some x → u.ctx = g.ctx → (x.state = .running ∨ x.state = .loaded) → x.det = false → claimBlocks g.pool (u.claimNeed m) = some (bs, pool) →
      ∃ s' v g', exec (.claimServe t.gid) s = .next s' ∧ s'.chip.strand sid = some v ∧ v.pc = u.nextPc ∧ v.status = .ready ∧
        v.regLimit = u.regLimit + 8 * bs.length ∧ v.blocks = u.blocks ++ bs ∧
        s'.chip.group t.gid = some g' ∧ g'.pool = pool ∧ g'.claims = rest))) ∧
  (∀ (s : State) (t : Strand) (f : Frame), s.Issues t (controlSpec 0x008 f true) f →
    (s.chip.strands.map fun x => x.1).Pairwise (· < ·) → (s.chip.groups.map fun x => x.1).Pairwise (· < ·) →
    let mate := fun (x : Nat × Strand) => x.1 ≠ s.chip.cur ∧ x.2.gid = t.gid ∧ x.2.isHandler = false
    let idle := fun (c : Chip) => (∀ v ∈ c.vldas, v.sid ≠ s.chip.cur) ∧ (∀ r ∈ c.cellReqs, r.sid ≠ s.chip.cur) ∧
      (∀ w ∈ c.waiters, w.sid ≠ s.chip.cur)
    let holds := fun (c : Chip) => ∀ l, (l ∈ c.slotLoads ∧ l.sid = s.chip.cur) ↔ ∃ k ∈ s.chip.slotLoads, k.sid = s.chip.cur ∧
      l = { k with held := some { ctx := t.ctx, core := t.core, quarter := t.quarter, slot := t.slotOf k.id } }
    ((∀ cell, t.kind = .evaluator cell → t.bloomed = true) → t.isHandler = false → s.chip.buffers t = false →
      (∀ p ∈ s.chip.posted, p.dest = none) →
      ∃ s', exec (.exit f) s = .next s' ∧ s'.chip.strand s.chip.cur = none ∧ s'.chip.mem = s.chip.mem ∧ idle s'.chip ∧ holds s'.chip ∧
        (∃ u, Sparse.get? s'.chip.gone s.chip.cur = some u ∧ u.retired = t.retired + 1) ∧
        (∀ g, s.chip.group t.gid = some g → (∃ x ∈ s.chip.strands, mate x) →
          ∃ g', s'.chip.group t.gid = some g' ∧ g'.pool = g.pool ++ t.blocks) ∧
        ((∀ x ∈ s.chip.strands, ¬ mate x) → s'.chip.group t.gid = none) ∧
        (∀ x, s.chip.ctx t.ctx = some x → x.state = .running → (∀ y ∈ s.chip.strands, y.1 ≠ s.chip.cur → y.2.ctx ≠ t.ctx) →
          (∀ n ∈ s.chip.allPools, n.ctx ≠ t.ctx) → s.chip.pendingLaunch t.ctx = none →
          s'.chip.ctx t.ctx = some { x with state := .loaded })) ∧
    ((∀ cell, t.kind = .evaluator cell → t.bloomed = true) → t.isHandler = false → s.chip.buffers t = true →
      ∃ s' u, exec (.exit f) s = .next s' ∧ s'.chip.strand s.chip.cur = some u ∧ u.exited = true ∧ u.buffer = t.buffer ∧
        u.slots = [] ∧ u.blocks = [] ∧ u.vregs = [] ∧ u.retired = t.retired + 1 ∧ s'.chip.mem = s.chip.mem ∧ idle s'.chip ∧
        holds s'.chip ∧
        (∀ g, s.chip.group t.gid = some g →
          ((∃ x ∈ s.chip.strands, mate x ∧ x.2.exited = false) →
            ∃ g', s'.chip.group t.gid = some g' ∧ g'.pool = g.pool ∧ g'.ret = g.ret ++ t.blocks) ∧
          (t.buffer = [] → (∀ x ∈ s.chip.strands, mate x → x.2.exited = true ∧ x.2.buffer = []) →
            ∃ g', s'.chip.group t.gid = some g' ∧ g'.pool = [] ∧ g'.grans = 0))) ∧
    (∀ cell, t.kind = .evaluator cell → t.bloomed = false → s.chip.owesResult s.chip.cur = false →
      exec (.exit f) s = .next (s.traps t (Trap.instr .budUnfilled 0 0))) ∧
    (∀ n u, t.kind = .handler n → n ≠ s.chip.cur → s.chip.strand n = some u → u.isHandler = false →
      u.status = .frozen → (s.chip.exitHandler s.chip.cur t n).Whole →
        ∃ s' v, exec (.exit f) s = .next s' ∧ s'.chip.strand s.chip.cur = none ∧ (s'.chip.core t.core).serving = none ∧
          idle s'.chip ∧ (∀ l ∈ s'.chip.slotLoads, l.sid ≠ s.chip.cur) ∧ s'.chip.strand n = some v ∧ v.status = .frozen ∧ v.held = (u.held || s.chip.buffers u) ∧ v.trapCause = u.trapCause ∧ v.epc = u.epc))

/-- R173, R177, R192, R202 and R400 to R403: TCOPY, TRED, LSEND and LRED whose object and request pass their checks retire with their
operation registered, buffered in a deterministic context, or wait while the core's range-lock table has no room; one that waits has read
its request, and registers that operation once there is room; one whose communicator has become invalid, or been installed again, by then
traps LINK_DOWN at its request (R259, R262, R263). A paired strand issues one operation, with the scalars of its low half (log 80's
choice). -/
def Obligations.EngineIssue : Prop :=
  ∀ (s : State) (t : Strand) (f : Frame),
    let req := sVal t 0 f.a
    let obj := sVal t 0 f.b
    let issues := fun (i : Instr) (o : EngineOp) =>
      (s.chip.buffers t = false → s.chip.lockRoom o = true →
        let d := ({ s.chip with nextId := s.chip.nextId + 1 } : Chip).registerEngine o
        d.Whole → exec i s = .next (s.withChip (d.setStrand s.chip.cur ((t.openWindow o).retired' (d.quantumOf t) [] false t.nextPc)))) ∧
      (s.chip.buffers t = false → s.chip.lockRoom o = false →
        exec i s = .next (s.withChip (s.chip.setStrand s.chip.cur { t with issued := some o, status := .waiting .barrier }))) ∧
      (s.chip.buffers t = true →
        ∃ s' u e, exec i s = .next s' ∧ s'.chip.strand s.chip.cur = some u ∧ u.pc = t.nextPc ∧ u.retired = t.retired + 1 ∧
          u.vregs = (t.openWindow o).vregs ∧ u.buffer = t.buffer ++ [e] ∧ e.op = .engine o ∧ e.pc = t.pc ∧ e.instr = i ∧
          s'.chip.mem = s.chip.mem ∧ s'.chip.engines = s.chip.engines)
    (∀ place, t.issued = none → s.chip.objectAt t obj 4 = .inl place →
      (∀ r, s.chip.copyRequest t req false f.d = .inl r → s.Issues t (engineSpec 0x2C0 (FieldSpec.vec 1).orNone) f →
        issues (.tcopy f) (s.chip.newEngine t obj (.copy r 0 false []) r.bytes r.reg.isSome)) ∧
      (∀ r, s.chip.copyRequest t req true f.d = .inl r → s.Issues t (engineSpec 0x2C1 .unused) f →
        issues (.tred f) (s.chip.newEngine t obj (.copy r 0 false []) r.bytes r.reg.isSome)) ∧
      (∀ q m, s.chip.linkRequest t req false = .inl (q, m) → s.Issues t (engineSpec 0x2C2 .unused) f →
        issues (.lsend f) { s.chip.newEngine t obj (.lsend q m.cid m.gen 0 false) (q.count * q.dstBytes false) false with inst := m.inst }) ∧
      (∀ q m, s.chip.linkRequest t req true = .inl (q, m) → s.Issues t (engineSpec 0x2C3 .unused) f →
        issues (.lred f) { s.chip.newEngine t obj (.lred q m.cid m.gen 0 m.members.length m.rank [] [] [] none 0 false)
          (q.count * q.dstBytes true) false with inst := m.inst })) ∧
    (∀ o, t.issued = some o →
      let p := { o with id := s.chip.nextId, prod := o.prod.map fun _ => s.chip.nextId }
      (s.chip.commStands o = true →
        (s.Issues t (engineSpec 0x2C0 (FieldSpec.vec 1).orNone) f → issues (.tcopy f) p) ∧
        (s.Issues t (engineSpec 0x2C1 .unused) f → issues (.tred f) p) ∧
        (s.Issues t (engineSpec 0x2C2 .unused) f → issues (.lsend f) p) ∧
        (s.Issues t (engineSpec 0x2C3 .unused) f → issues (.lred f) p)) ∧
      (s.chip.commStands o = false → s.Freezes t →
        (s.Issues t (engineSpec 0x2C2 .unused) f → exec (.lsend f) s = .next (s.traps t (Trap.instr .linkDown 11 req))) ∧
        (s.Issues t (engineSpec 0x2C3 .unused) f → exec (.lred f) s = .next (s.traps t (Trap.instr .linkDown 11 req)))))

/-- R173, R178 and R179: registering a copy charges its bytes to the PENDBYTES of its object, up to the field's range, holds a lock on its
source and on its destination, and puts the operation behind the core's earlier ones, not started. R173, R174, R181, R182, R185 and R266:
an operation starts when every earlier overlapping one of its core has landed its bytes; a started copy, in a deterministic context when
every copy registered before it has landed and the epoch end has counted what the link operations before it had landed, and an LRED that
has its result, land and count down the whole elements that the bytes they are given hold, or those that are left, and a started LSEND
sends the next bytes of its source, or where that fails ends and counts those that it has not sent. That a step of an engine names its
operation and its bytes, and has no effect where the operation may not take it, is log 4's; that an element is read as it lands is log
33's. -/
def Obligations.EngineSteps : Prop :=
  (∀ (c : Chip) (o : EngineOp) (r : CopyReq) (core pa : Nat), o.kind = .copy r 0 false [] → r.reg = none →
    c.barPlace o.gid o.obj = some (core, pa) → Place.has (.core core) pa 32 = true → c.mem.wf = true → c.posted = [] →
    (c.core o.core).l1 = [] → (c.readBar core pa).arr ≠ 0 → 0 < o.bytes →
    let b := c.readBar core pa
    let d := c.registerEngine o
    (b.pend + o.bytes ≤ pendMax → (d.readBar core pa).pend = b.pend + o.bytes ∧
      (d.readBar core pa).status = b.status) ∧
    (pendMax < b.pend + o.bytes → (d.readBar core pa).pend = pendMax ∧ bit (d.readBar core pa).status 3 = true) ∧
    d.engines = c.engines ++ [o] ∧ (d.core o.core).locks = (c.core o.core).locks ++ o.locks ∧ o.locks.length = 2 ∧
    (∀ k ∈ o.locks, k.op = o.id ∧ k.ctx = o.ctx)) ∧
  (∀ (s : State) (o : EngineOp), s.chip.Whole → s.chip.engines.find? (fun x => x.id == o.id) = some o →
    (o.started = false → s.chip.mayStart o = true → o.isLred = false →
      exec (.engineStart o.id) s = .next (s.withChip (s.chip.setEngine { o with started := true }))) ∧
    (∀ q cid gen coll size rank own got order res next ended,
      o.kind = .lred q cid gen coll size rank own got order res next ended → o.started = false → s.chip.mayStart o = true →
      (s.chip.lredStart o q).Whole → exec (.engineStart o.id) s = .next (s.withChip (s.chip.lredStart o q))) ∧
    (o.started = true ∨ s.chip.mayStart o = false → exec (.engineStart o.id) s = .next s) ∧
    (∀ n r next ended met, o.kind = .copy r next ended met → s.chip.isDet o.ctx = true →
      (∃ before k after, s.chip.engines = before ++ k :: after ∧ (∀ y ∈ before, y.id ≠ o.id) ∧ k.id ≠ o.id ∧ k.ctx = o.ctx ∧
        (k.copyLeft = true ∨ k.counted < k.landed ∨ k.flags ≠ 0)) →
      exec (.engineCountDown o.id n) s = .next s) ∧
    (∀ n r next ended met, o.kind = .copy r next ended met → o.started = true → n ≠ 0 → o.counted < o.bytes → s.chip.inItsOrder o = true →
      let goal := min o.bytes (o.counted + n)
      let upTo := max next (8 * goal / r.dst.fmt.width)
      let x := if ended then (s.chip, true, met) else s.chip.copyRun o r (upTo - next) next met
      let d := x.1.countDown { o with kind := .copy r upTo x.2.1 x.2.2 } (upTo * r.dst.fmt.width / 8 - o.counted)
      d.Whole → exec (.engineCountDown o.id n) s = .next (s.withChip d)) ∧
    (∀ n q cid gen sent, o.kind = .lsend q cid gen sent false → o.started = true → n ≠ 0 → sent < q.count → o.landed < o.bytes →
      let k := min n (q.count - sent)
      ∀ c m bs bad, s.chip.readRun (s.chip.engineWho o) o.core (k + 1) (q.src + BitVec.ofNat 64 sent) k = (c, bs, bad) →
        Sparse.get? c.comms q.slot = some m →
        let goal := sent + bs.length
        let d := if bs = [] then c else c.send (.data (m.linkTo q.peer)
          { dev := (m.members.getD q.peer default).dev, cid := cid, gen := gen, rank := m.rank,
            payload := .data o.id (q.dst + BitVec.ofNat 64 sent) bs
              (if goal = q.count ∧ q.sigaddr ≠ 0 then some (q.sigaddr, q.sigval) else none) })
        (bad = none → c.Whole → exec (.engineCountDown o.id n) s = .next (s.withChip
          (d.setEngine { o with kind := .lsend q cid gen goal false }))) ∧
        (∀ va, bad = some va →
          let e := d.linkLand { o with kind := .lsend q cid gen goal true } (q.count - goal) statusFault va goal
          e.Whole → exec (.engineCountDown o.id n) s = .next (s.withChip e))) ∧
    (∀ n q cid gen sent ended, o.kind = .lsend q cid gen sent ended → ended = true ∨ q.count ≤ sent ∨ o.bytes ≤ o.landed →
      exec (.engineCountDown o.id n) s = .next s) ∧
    (∀ n q cid gen coll size rank own got order vals next ended,
      o.kind = .lred q cid gen coll size rank own got order (some vals) next ended → o.started = true → n ≠ 0 → o.landed < o.bytes →
      let upTo := max next (min o.bytes (o.landed + n) / elemBytes q.fmt)
      let x := if ended then (s.chip, (0 : W64), none) else s.chip.writeResult o q vals (upTo - next) next 0
      let d := x.1.linkLand { o with kind := .lred q cid gen coll size rank own got order (some vals) upTo (ended || x.2.2.isSome) }
        (upTo * elemBytes q.fmt - o.landed) x.2.1 ((x.2.2.map fun y => y.2).getD 0) ((x.2.2.map fun y => 2 * y.1 + 1).getD 0)
      d.Whole → exec (.engineCountDown o.id n) s = .next (s.withChip d)) ∧
    (∀ n q cid gen coll size rank own got order next ended, o.kind = .lred q cid gen coll size rank own got order none next ended →
      exec (.engineCountDown o.id n) s = .next s) ∧
    (∀ n, o.started = false → exec (.engineCountDown o.id n) s = .next s))

/-- R76, R113, R114, R405 to R408: what SPAWN, SPAWND and SIGNAL do in a strand that is not paired and works at once. SPAWN puts the
record's strand last into its die's pool with the lowest free token; SPAWND with a count above 0 makes a node, which its handle names, and
with count 0 does as SPAWN; SIGNAL counts a node down and creates its strand at zero, and traps on a handle that names no node. Each is a
release at device scope, waits while an older load has lanes that have not landed, and does not issue where the context is at SPAWNQ
(SPAWN and SPAWND), where the die's pool and overflow storage are full, or where the node store is full and SPAWND needs a node. -/
def Obligations.Tasks : Prop :=
  ∀ (s : State) (t : Strand) (f : Frame), t.paired = false → s.chip.buffers t = false →
    let done := fun (d : Chip) (u : Strand) => s.withChip (d.setStrand s.chip.cur (u.retired' (d.quantumOf u) [] false t.nextPc))
    let stalls := fun (i : Instr) => exec i s = .next (s.withChip (s.chip.setStrand s.chip.cur { t with status := .ready }))
    let created := fun (c d : Chip) (n : NewStrand) => ∃ e, d.poolOf n.die = c.poolOf n.die ++ [e] ∧
      e = { n with token := e.token, chain := n.chain ++ [e.token] } ∧ e.token ∉ c.tokens n.ctx ∧ 1 ≤ e.token ∧
      (∀ k, 1 ≤ k → k < e.token → k ∈ c.tokens n.ctx)
    let spawn := { taskSpec 0x2E0 with a := .scalar }
    let spawnd := { taskSpec 0x2E1 with d := .scalar, a := .scalar, b := FieldSpec.scalar.orZero }
    let signal := { taskSpec 0x2E2 with a := .scalar }
    (s.chip.owesLoads t = true →
      let waits := fun (i : Instr) => exec i s = .next (s.withChip (s.chip.setStrand s.chip.cur { t with status := .waiting .bud }))
      (s.Issues t spawn f → waits (.spawn f)) ∧ (s.Issues t spawnd f → waits (.spawnd f)) ∧ (s.Issues t signal f → waits (.signal f))) ∧
    (s.chip.owesLoads t = false →
      (∀ c bs, s.Issues t spawn f → s.chip.spawnRecord t (sVal t 0 f.a) none = (c, .inl bs) →
        let n := t.child bs
        let r := c.release c.cur t.core t.ctx 3
        let d := r.createStrand n
        (n.pc = wordAt bs 3 ∧ n.args = [wordAt bs 4, wordAt bs 5, wordAt bs 6, wordAt bs 7] ∧ n.kind = .spawned ∧ n.parent = t.token ∧
          n.chain = t.chain ∧ n.depth = t.depth + 1 ∧ n.ident = t.ident ++ [t.ordinal] ∧ n.ctx = t.ctx) ∧
        (c.atSpawnQ t.ctx = false → c.poolRoom n.die = true → d.Whole →
          exec (.spawn f) s = .next (done d { t with ordinal := t.ordinal + 1 }) ∧ created r d n) ∧
        (c.atSpawnQ t.ctx = true ∨ c.poolRoom n.die = false → stalls (.spawn f))) ∧
      (∀ c bs, s.Issues t spawnd f → s.chip.spawnRecord t (sVal t 0 f.a) (some (sVal t 0 f.b)) = (c, .inl bs) →
        let n := t.child bs
        let count := sVal t 0 f.b
        let r := c.release c.cur t.core t.ctx 3
        let d := r.createNode n (hintOf bs) count.toNat
        (c.atSpawnQ t.ctx = false → c.poolRoom n.die = true → (count ≠ 0 → c.nodeRoom = true) → d.1.Whole →
          exec (.spawnd f) s = .next (done d.1 (putS { t with ordinal := t.ordinal + 1 } 0 f.d d.2)) ∧
          (count = 0 → created r d.1 n ∧ d.1.nodes = r.nodes) ∧
          (count ≠ 0 → t.ctx < 64 → d.1.pools = r.pools ∧ ∃ k m, d.1.nodeOf t.ctx d.2 = some (k, m) ∧ m.count = count.toNat ∧ m.strand = n ∧
            ∀ j, j ≠ k → Sparse.get? d.1.nodes j = Sparse.get? r.nodes j)) ∧
        (c.atSpawnQ t.ctx = true ∨ c.poolRoom n.die = false ∨ (count ≠ 0 ∧ c.nodeRoom = false) → stalls (.spawnd f))) ∧
      (s.Issues t signal f →
        (∀ k n, s.chip.nodeOf t.ctx (sVal t 0 f.a) = some (k, n) →
          let r := s.chip.release s.chip.cur t.core t.ctx 3
          let d := r.signalNode k n
          (2 ≤ n.count ∨ s.chip.poolRoom n.strand.die = true → d.Whole →
            exec (.signal f) s = .next (done d t) ∧
            (2 ≤ n.count → d = { r with nodes := Sparse.set r.nodes k { n with count := n.count - 1 } }) ∧
            (n.count ≤ 1 → s.chip.isDet n.strand.ctx = false → d.nodes = Sparse.erase r.nodes k ∧ created r d n.strand)) ∧
          (n.count ≤ 1 → s.chip.poolRoom n.strand.die = false → stalls (.signal f))) ∧
        (s.chip.nodeOf t.ctx (sVal t 0 f.a) = none → s.Freezes t →
          exec (.signal f) s = .next (s.traps t (Trap.instr .badOperand 3 0)))))

/-- R412, R413, R415 and R417: the handler's instructions on its subject's registers. PRDC, HSAVEV, HSAVES, HSAVEK and HROB read the
subject into the handler and leave it as it is, but for a register that HROB abandons; PWRC, HLOADV, HLOADS and HLOADK write one register
of the subject from the handler. For each of them a register outside the subject's own is a bad operand, and so is a selector that PRDC
does not read or PWRC does not write. What PRDC reads of CYCLES is a free value of the model (log 5). R416 and R372: HLOADM writes a
claimed slot of the subject whole from the 4672 bytes of a drain, valid and dirty. SLOT is not held to MAPLIMIT (R306). -/
def Obligations.SubjectState : Prop :=
  (∀ (s : State) (t u : Strand) (f : Frame) (sid : Nat), s.chip.subject t = some (sid, u) → sid ≠ s.chip.cur →
    let n := word32 t 0 f.b f.imm
    let reads := fun (i : Instr) (x : Strand) => exec i s = .next (s.goesOn x)
    let writes := fun (i : Instr) (y : Strand) => exec i s = .next ((s.withChip (s.chip.setStrand sid y)).goesOn t)
    let fails := fun (i : Instr) (field : Nat) => (s.traps t (Trap.instr .badOperand field 0)).chip.Whole →
      exec i s = .next (s.traps t (Trap.instr .badOperand field 0))
    (s.Issues t { OpSpec.base 0x300 with d := .scalar } f → selAssigned f.imm.toNat = true →
      exec (.prdc f) s = .next ((s.withChip { s.chip with freeCtr := s.chip.freeCtr + b2n (f.imm == 7) }).goesOn
        (putS t 0 f.d (s.chip.controlReg u (s.capOf u) (Config.freeWord s.chip.freeCtr) 0 f.imm.toNat)))) ∧
    (s.Issues t { OpSpec.base 0x301 with a := FieldSpec.scalar.orZero } f → ∀ v, pwrcWrites f.imm.toNat = true →
      pwrcOne f.imm.toNat (sVal t 0 f.a) u = some v → writes (.pwrc f) v) ∧
    (s.Issues t { OpSpec.base 0x300 with d := .scalar } f → selAssigned f.imm.toNat = false → fails (.prdc f) 10) ∧
    (s.Issues t { OpSpec.base 0x301 with a := FieldSpec.scalar.orZero } f →
      (pwrcWrites f.imm.toNat = false → fails (.pwrc f) 10) ∧
      (pwrcWrites f.imm.toNat = true → pwrcOne f.imm.toNat (sVal t 0 f.a) u = none → fails (.pwrc f) 3)) ∧
    (s.Issues t { subjectSpec 0x303 f with d := .vec 1 } f → n < 320 → n < u.regLimit → t.active f ≠ 0 → t.replay = none →
      ∃ x : Strand, reads (.hsavev f) x ∧ (x.vreg (vNum f.d)).tag = (u.vreg n).tag ∧ (x.vreg (vNum f.d)).side = (u.vreg n).side ∧
        (∀ l, l < 128 → bit (t.active f) l = true →
          (x.vreg (vNum f.d)).lane l = if (u.vreg n).fill = .full then (u.vreg n).lane l else 0)) ∧
    (s.Issues t { subjectSpec 0x303 f with d := .vec 1 } f →
      (n < 320 → n < u.regLimit → t.active f = 0 → reads (.hsavev f) t) ∧ (320 ≤ n ∨ u.regLimit ≤ n → fails (.hsavev f) 4)) ∧
    (s.Issues t { subjectSpec 0x304 f with a := .vec 1 } f → n < 320 → n < u.regLimit → u.replay = none →
      srcState t (f.a.regs 1) (bit f.nw 2) = .ok → bit f.lr 2 = false → t.active f &&& u.k0 ≠ 0 →
      ∃ v : Strand, writes (.hloadv f) v ∧ (v.vreg n).fill = .full ∧
        (v.vreg n).tag = (t.vreg (vNum f.a)).tag ∧ (v.vreg n).side = (t.vreg (vNum f.a)).side ∧ (∀ k, k ≠ n → v.vreg k = u.vreg k) ∧
        (∀ l, l < 128 → bit (t.active f &&& u.k0) l = true → (v.vreg n).lane l = (t.vreg (vNum f.a)).lane l)) ∧
    (s.Issues t { subjectSpec 0x304 f with a := .vec 1 } f →
      (n < 320 → n < u.regLimit → t.active f = 0 → reads (.hloadv f) t) ∧ (320 ≤ n ∨ u.regLimit ≤ n → fails (.hloadv f) 4)) ∧
    (s.Issues t { subjectSpec 0x305 f with d := .scalar } f → 320 ≤ n → n < 384 → reads (.hsaves f) (putS t 0 f.d (u.sreg (n - 320)))) ∧
    (s.Issues t { subjectSpec 0x306 f with a := FieldSpec.scalar.orZero } f → 320 ≤ n → n < 384 →
      writes (.hloads f) (u.setSreg (n - 320) (sVal t 0 f.a))) ∧
    (s.Issues t { subjectSpec 0x307 f with d := .mask } f → 384 ≤ n → n < 400 → reads (.hsavek f) (putK t f.d (u.kreg (n - 384)))) ∧
    (s.Issues t { subjectSpec 0x308 f with a := FieldSpec.mask.orZero } f → 385 ≤ n → n < 400 →
      writes (.hloadk f) (u.setKreg (n - 384) (kVal t f.a))) ∧
    (s.Issues t { subjectSpec 0x30A f with d := .scalar, func := 1 } f → n < 320 → n < u.regLimit →
      (f.func % 2 = 0 → reads (.hrob f) (putS t 0 f.d (robWord (u.vreg n).fill))) ∧
      (f.func % 2 = 1 → ∀ k p, (u.vreg n).fill = .inflight k p →
        ∃ s' x v, exec (.hrob f) s = .next s' ∧ s'.chip.strand s.chip.cur = some x ∧ x.pc = t.nextPc ∧ s'.chip.strand sid = some v ∧
          (v.vreg n).fill = .empty ∧ (∀ m, m ≠ n → v.vreg m = u.vreg m) ∧ (∀ m, f.d = .s m → x.sreg m.val = 0)) ∧
      (f.func % 2 = 1 → (∀ k p, (u.vreg n).fill ≠ .inflight k p) → reads (.hrob f) (putS t 0 f.d (robWord (u.vreg n).fill)))) ∧
    (s.Issues t { subjectSpec 0x305 f with d := .scalar } f → n < 320 ∨ 384 ≤ n → fails (.hsaves f) 4) ∧
    (s.Issues t { subjectSpec 0x306 f with a := FieldSpec.scalar.orZero } f → n < 320 ∨ 384 ≤ n → fails (.hloads f) 4) ∧
    (s.Issues t { subjectSpec 0x307 f with d := .mask } f → n < 384 ∨ 400 ≤ n → fails (.hsavek f) 4) ∧
    (s.Issues t { subjectSpec 0x308 f with a := FieldSpec.mask.orZero } f → n < 385 ∨ 400 ≤ n → fails (.hloadk f) 4) ∧
    (s.Issues t { subjectSpec 0x30A f with d := .scalar, func := 1 } f → 320 ≤ n ∨ u.regLimit ≤ n → fails (.hrob f) 4)) ∧
  (∀ (s : State) (t u : Strand) (f : Frame) (sid : Nat) (m : MapSlot) (c : Chip) (rs : List Reach),
    s.Issues t { systemSpec 0x309 with a := .scalar, slot := true } f → s.chip.subject t = some (sid, u) →
    Sparse.get? u.slots f.slot = some m → m.loads = [] →
    let base := sVal t 0 f.a
    s.chip.ownerTrap t 3 base = none → base.toNat % 64 = 0 →
    s.chip.checkBytes (s.chip.who t) t.core (s.chip.localGid t) .load false (pieces base 4672 64) = (c, .ok rs) →
    let r := c.readOwners t rs
    let x := MapSlot.restored r.2
    bindOk u f.slot x.desc = true → r.1.Whole →
    exec (.hloadm f) s = .next ((s.withChip (r.1.setStrand sid (u.setSlot f.slot x))).goesOn t) ∧ x.v = true ∧ x.d = true ∧
      x.image = BitVec.ofNat 32768 (leNat (r.2.take 4096)) ∧ x.side = BitVec.ofNat 4096 (leNat ((r.2.drop 4096).take 512)) ∧
      x.desc = descBits (wordAt r.2 576))

/-- R243, R244, R246 and R414: the handler strand starts for the oldest strand of its core's queue that it can serve (which a pre-emption
under way shuts out, but in a deterministic context before the epoch end that it takes effect at), at the context's HANDLER, with the
subject's trap record in s0 to s4, its location in s5 and its ANCESTRY in s6; TRET returns the subject, ends the service, which leaves the
core free for the next, and erases the handler. A subject that stands past its GBAR in a deterministic context stands there again (log
24). -/
def Obligations.HandlerService : Prop :=
  ∀ (s : State),
    (∀ core before sid after u x, s.chip.Whole → (s.chip.core core).serving = none → (s.chip.core core).frozenQ = before ++ sid :: after →
      (∀ y ∈ before, ∀ v, s.chip.strand y = some v → s.chip.servable v = false) → sid ∉ before →
      s.chip.strand sid = some u → u.status = .frozen → s.chip.ctx u.ctx = some x → x.state = .loaded ∨ x.state = .running →
      x.preempt = none ∨ (x.det = true ∧ x.saving = false) → sid ≠ s.chip.nextId →
      ∃ s' h, exec (.handlerStart core) s = .next s' ∧ (s'.chip.core core).serving = some s.chip.nextId ∧
        (s'.chip.core core).frozenQ = before ++ after.filter (· != sid) ∧ s'.chip.strand s.chip.nextId = some h ∧
        s'.chip.strand sid = some u ∧ s'.chip.mem = s.chip.mem ∧ h.pc = x.handler ∧ h.isarev = 4 ∧ h.compat = false ∧ h.regLimit = 16 ∧
        h.mapLimit = 0 ∧ h.kind = .handler sid ∧ h.ctx = u.ctx ∧ h.core = u.core ∧ h.sreg 0 = u.trapCause ∧ h.sreg 1 = u.epc ∧
        h.sreg 2 = u.faultVa ∧ h.sreg 3 = bits u.faultMask 0 64 ∧ h.sreg 4 = bits u.faultMask 64 64 ∧
        bits (h.sreg 5) 0 16 = BitVec.ofNat 16 u.core ∧ bits (h.sreg 5) 16 2 = BitVec.ofNat 2 u.quarter ∧
        bits (h.sreg 5) 18 4 = BitVec.ofNat 4 u.slot ∧ bits (h.sreg 5) 22 8 = BitVec.ofNat 8 u.ctx ∧ bits (h.sreg 5) 30 34 = (0 : BitVec 34) ∧
        bits (h.sreg 6) 40 24 = BitVec.ofNat 24 u.parent ∧ bits (h.sreg 6) 16 24 = BitVec.ofNat 24 u.token ∧
        bits (h.sreg 6) 0 4 = BitVec.ofNat 4 u.depth ∧ (∀ k, 7 ≤ k → h.sreg k = 0) ∧ h.kreg 0 = BitVec.allOnes 128 ∧
        (∀ k, (h.vreg k).fill = .full ∧ (h.vreg k).lanes = 0) ∧ h.status = .ready) ∧
    (∀ t f sid u, s.Issues t (systemSpec 0x302) f → s.chip.subject t = some (sid, u) → sid ≠ s.chip.cur →
      (s.chip.strands.map fun x => x.1).Pairwise (· < ·) →
      let d := (s.chip.setStrand sid (s.chip.backFrom u)).endService s.chip.cur t
      exec (.tret f) s = .next (s.withChip (if s.chip.buffers u then d.gbarCheck u.gid else d)) ∧
      d.strand sid = some (s.chip.backFrom u) ∧ d.strand s.chip.cur = none ∧ (d.core t.core).serving = none ∧ d.mem = s.chip.mem ∧
      (s.chip.buffers u = false ∨ u.gbar = false → s.chip.backFrom u = u.returned) ∧
      (s.chip.buffers u = true → (u.gbar && u.epc == u.pc && !u.ended) = true →
        (s.chip.backFrom u).status = .waiting .barrier))

/-- R96, R213, R418 and R419: PATCH whose record passes its checks queues a patch, and traps where one fails; PATCH_APPLY of a patch that
may act copies the text, drops its instruction cache lines on every core of the partition and resumes the strands that it parked, and one
that may not act yet, as one does behind an older one of a range that meets its own (R97), changes nothing (log 4); IINV and TINV drop the
lines of their range on every core of the partition, and TINV first lets the context's accesses on their way reach their owners. What the
copy leaves is stated for a patch whose text and whose source each lie in one page of 4 KiB: the text holds the source's bytes, and no
other byte has changed. -/
def Obligations.Patches : Prop :=
  ∀ (s : State) (t u : Strand) (f : Frame) (sid : Nat),
    let dies := (s.chip.who t).dies
    (s.chip.subject t = some (sid, u) →
      (∀ x, s.Issues t { systemSpec 0x30B with a := .scalar } f →
        let va := sVal t 0 f.a
        s.chip.translate (s.chip.who t) .load 32 va 32 = .ok x → x.down = false →
        let r := s.chip.readOwner t { va := x.va, n := 32, xl := some x }
        (∀ p, r.1.patchOf t va r.2 = .inl p → r.1.Whole →
          exec (.patch f) s = .next ((s.withChip { r.1 with nextId := r.1.nextId + 1, patches := r.1.patches ++ [p] }).goesOn t)) ∧
        (∀ tr, r.1.patchOf t va r.2 = .inr tr → (r.1.takeTrap s.chip.cur tr t.pc none).Whole → r.1.strand s.chip.cur = some t →
          exec (.patch f) s = .next (s.withChip (r.1.takeTrap s.chip.cur tr t.pc none)))) ∧
      (∀ lo hi, invRange dies (t.core / Config.coresPerDie) (sVal t 0 f.a) (sVal t 0 f.b) = .inl (lo, hi) →
        (s.Issues t { systemSpec 0x30C with a := .scalar, b := .scalar } f →
          let d := (coresOf dies).foldl (fun c k => c.dropILines k t.ctx lo hi) s.chip
          exec (.iinv f) s = .next ((s.withChip d).goesOn t) ∧ d.mem = s.chip.mem ∧
            (∀ k ∈ coresOf dies, ∀ l ∈ (d.core k).icache, ¬ (l.ctx = t.ctx ∧ l.va < hi ∧ lo < l.va + 64))) ∧
        (s.Issues t { systemSpec 0x30D with a := .scalar, b := .scalar } f →
          let d := (coresOf dies).foldl
            (fun c k => (c.flushRange k t.ctx lo hi true).dropILines k t.ctx lo hi) (s.chip.drainCtx t.ctx)
          d.Whole → exec (.tinv f) s = .next ((s.withChip d).goesOn t) ∧
            (∀ k ∈ coresOf dies, ∀ l ∈ (d.core k).l1, ¬ (l.ctx = t.ctx ∧ l.va < hi ∧ lo < l.va + 64)) ∧
            (∀ k ∈ coresOf dies, ∀ l ∈ (d.core k).icache, ¬ (l.ctx = t.ctx ∧ l.va < hi ∧ lo < l.va + 64)))) ∧
      (∀ tr, invRange dies (t.core / Config.coresPerDie) (sVal t 0 f.a) (sVal t 0 f.b) = .inr tr → (s.traps t tr).chip.Whole →
        (s.Issues t { systemSpec 0x30C with a := .scalar, b := .scalar } f → exec (.iinv f) s = .next (s.traps t tr)) ∧
        (s.Issues t { systemSpec 0x30D with a := .scalar, b := .scalar } f → exec (.tinv f) s = .next (s.traps t tr)))) ∧
    (∀ p x, s.chip.Whole → s.chip.patches.find? (fun q => q.id == p.id) = some p → s.chip.ctx p.ctx = some x →
      let d := s.chip.patchDone p
      (x.det = false ∨ x.state = .preempted ∨ x.doomed = true → s.chip.patchReady p = true → d.Whole →
        exec (.patchApply p.id) s = .next (s.withChip d) ∧
        (∀ q ∈ d.patches, q.id ≠ p.id) ∧
        (∀ y ∈ d.strands, y.2.ctx = p.ctx → p.covers y.2 = true → y.2.status ≠ .parked) ∧
        (∀ k ∈ coresOf x.dies, ∀ l ∈ (d.core k).icache,
          ¬ (l.ctx = p.ctx ∧ l.va < p.start + 16 * p.count ∧ p.start < l.va + 64))) ∧
      ((x.det = true ∧ x.state ≠ .preempted ∧ x.doomed = false) ∨ s.chip.patchReady p = false → exec (.patchApply p.id) s = .next s) ∧
      (∀ q older newer, s.chip.patches = older ++ q :: newer → (∀ r ∈ older, r.id ≠ p.id) → q.id ≠ p.id → q.ctx = p.ctx →
        q.start < p.start + 16 * p.count → p.start < q.start + 16 * q.count → s.chip.patchReady p = false)) ∧
    (∀ (p : Patch) (y z : Xl), 1 ≤ p.count → p.target.toNat % 4096 + 16 * p.count ≤ 4096 → p.source.toNat % 4096 + 16 * p.count ≤ 4096 →
      s.chip.translate (s.chip.patchWho p) .fetch 1 p.target (16 * p.count) = .ok y → y.mig = none → y.down = false →
      s.chip.translate (s.chip.patchWho p) .load 1 p.source (16 * p.count) = .ok z → z.mig = none → z.down = false →
      Place.has y.place y.pa (16 * p.count) = true →
      let d := s.chip.patchText p
      d.readPhys y.place y.pa (16 * p.count) = s.chip.readPhys z.place z.pa (16 * p.count) ∧
      (∀ k, k < physKey y.place y.pa ∨ physKey y.place y.pa + 16 * p.count ≤ k → d.mem.byte k = s.chip.mem.byte k) ∧
      (p.done = 0 → (s.chip.patchDone p).mem = d.mem))

/-- R39 to R46, R48, R50, R75 and R255: the commands of contexts, each with the state it needs, the state it leaves and its completion
status; a context in another state answers WRONG_STATE, and a record that is not accepted BAD_RECORD. CTX_CREATE installs no roots:
CTX_LOAD does (R46). That CTX_RESUME is taken once every saved group fits and until then leaves the state as it was, and how CTX_DESTROY
completes the context's entries, are the model's readings (logs 66, 4 and 21). R48, R65 and R252 to R254: CTX_SAVE of a context that is
pre-empted and drained takes its strands and groups off the device, keeps them with the save, and leaves the context PREEMPTED, or FAULTED
where a context fault came meanwhile; where the records do not fit the area, the context goes on and the command answers SAVE_OVERFLOW.
What a deterministic context's engines have landed since its epoch ended is counted first, as its save begins (log 79); a deterministic
context that faulted before the epoch end that its pre-emption waited for is not saved, and the command answers ABANDONED (log 89); which
parts of a strand the hub keeps is log 23's, and that a save which is not ready does nothing more is log 4's. -/
def Obligations.Contexts : Prop :=
  (∀ (s : State) (q : Queue) (e n pa : Nat), s.chip.Whole → n < Config.contexts →
    let c := s.chip
    let takes := fun (i : Instr) (d : Chip) (st : Option Nat) => exec i s = .next (s.withChip (d.answered e st))
    (c.Commands 0 1 n pa q e →
      (c.liveCtx n = none → pa % 64 = 0 → c.ctxRecordOk s.hc n (c.ctxRecord pa) = true →
        takes .ctxCreate (c.setCtx n { Context.ofRecord s.hc pa (c.ctxRecord pa) .created with roots := [] }) (some stOk)) ∧
      (c.liveCtx n = none → pa % 64 ≠ 0 ∨ c.ctxRecordOk s.hc n (c.ctxRecord pa) = false → takes .ctxCreate c (some stBadRecord)) ∧
      (c.liveCtx n ≠ none → takes .ctxCreate c (some stWrongState))) ∧
    (∀ x, c.ctx n = some x →
      (c.Commands 0 2 n pa q e →
        let r := c.ctxRecord x.record.toNat
        (∀ d, x.state = .created → c.queueDesc (fld r 640 64) 1 = some d → c.ctxRecordOk s.hc n r = true →
          takes .ctxLoad ((c.setCtx n { Context.ofRecord s.hc x.record.toNat r .loaded with
            evq := some d.events, primary := x.primary }).settleQueues n) (some stOk)) ∧
        (x.state = .created → c.queueDesc (fld r 640 64) 1 = none ∨ c.ctxRecordOk s.hc n r = false →
          takes .ctxLoad c (some stBadRecord)) ∧
        (x.state ≠ .created → takes .ctxLoad c (some stWrongState))) ∧
      (c.Commands 0 3 n pa q e →
        (x.state = .loaded → pa % 64 = 0 → modeRecordOk (c.ctxRecord pa) = true →
          takes .ctxMode (c.setCtx n { x with
            det := fld (c.ctxRecord pa) 7 1 == 1, qexp := fld (c.ctxRecord pa) 0 5,
            modeSeq := x.seq }) (some stOk)) ∧
        (x.state = .loaded → pa % 64 ≠ 0 ∨ modeRecordOk (c.ctxRecord pa) = false → takes .ctxMode c (some stBadRecord)) ∧
        (x.state ≠ .loaded → takes .ctxMode c (some stWrongState))) ∧
      (c.Commands 0 4 n pa q e →
        (x.state = .loaded ∨ x.state = .running →
          takes .ctxPreempt (c.setCtx n { x with preempt := some (0, q.taken), saving := false }) none) ∧
        (x.state ≠ .loaded → x.state ≠ .running → takes .ctxPreempt c (some stWrongState))) ∧
      (c.Commands 0 5 n pa q e →
        (∀ d, x.state = .preempted → c.restore (s.hc.saveBase.toNat + x.saveOff) n x = some d → d.Whole →
          takes .ctxResume d (some stOk)) ∧
        (x.state = .preempted → c.restore (s.hc.saveBase.toNat + x.saveOff) n x = none → exec .ctxResume s = .next s) ∧
        (x.state ≠ .preempted → takes .ctxResume c (some stWrongState))) ∧
      (c.Commands 0 6 n pa q e →
        (x.state ≠ .destroyed → (c.teardown n).Whole →
          takes .ctxDestroy (c.teardown n) (some stOk) ∧ (∀ y ∈ (c.teardown n).strands, y.2.ctx ≠ n) ∧
          ∃ y, (c.teardown n).ctx n = some y ∧ y.state = .destroyed) ∧
        (x.state = .destroyed → takes .ctxDestroy c (some stWrongState))))) ∧
  (∀ (s : State) (n : Nat) (entry : Nat × Nat) (x : Context), s.chip.Whole → s.chip.ctx n = some x → x.preempt = some entry →
    let c := if x.det = true ∧ x.saving = true then s.chip.runEngines n else s.chip
    (x.state = .faulted → exec (.ctxSave n) s = .next (s.withChip
      (((s.chip.setCtx n { x with preempt := none, saving := false }).entryStatus entry.1 entry.2 stAbandoned).settleQueue entry.1))) ∧
    (x.state ≠ .faulted → c.saveReady n x = false → c.Whole → exec (.ctxSave n) s = .next (s.withChip c)) ∧
    (x.state ≠ .faulted → c.saveReady n x = true → c.saveBytes n ≤ x.saveSize → (s.chip.ctxSave s.hc n).Whole →
      ∃ s' y, exec (.ctxSave n) s = .next s' ∧ s'.chip.ctx n = some y ∧ y.state = (if x.doomed then .faulted else .preempted) ∧
        y.preempt = none ∧ (∀ t ∈ s'.chip.strands, t.2.ctx ≠ n) ∧ (∀ g ∈ s'.chip.groups, g.2.ctx ≠ n) ∧ (∀ w ∈ s'.chip.waiters, w.ctx ≠ n) ∧
        s'.chip.openings = c.openings ∧
        ∃ z, Sparse.get? s'.chip.saved n = some z ∧
          z.strands.map (fun t => t.1) = (c.savedStrands n).map (fun t => t.1) ∧
          z.groups.map (fun g => g.gid) = (c.savedGroups n).map (fun g => g.1)) ∧
    (x.state ≠ .faulted → c.saveReady n x = true → x.saveSize < c.saveBytes n → x.det = false → x.doomed = false →
      exec (.ctxSave n) s = .next (s.withChip
        (((s.chip.setCtx n { x with preempt := none, saving := false }).entryStatus entry.1 entry.2 stSaveOverflow).settleQueue entry.1))))

/-- R51, R60, R61, R62, R73 and R74: the commands of queues, RESYNC and TAIL_NOTICE. A queue that is absent, or whose context is not live,
answers WRONG_STATE, and an operand that is no work queue's BAD_RECORD. A queue becomes its context's primary queue when its QUEUE_CREATE
completes, of which the created queue keeps the place (see EntryCompletion); that QUEUE_DESTROY drops the primacy as it is taken is the
model's choice (log 77), and so are WRONG_STATE of a present queue before its descriptor is read and the state stopped of a queue that is
being destroyed (log 82). -/
def Obligations.QueueCommands : Prop :=
  ∀ (s : State) (q : Queue) (e n pa : Nat), s.chip.Whole →
    let c := s.chip
    let takes := fun (i : Instr) (d : Chip) (st : Option Nat) => exec i s = .next (s.withChip (d.answered e st))
    (c.Commands 1 1 n pa q e → 1 ≤ n → n < Config.queues →
      (∀ d x, c.queue n = none → c.queueDesc pa 0 = some d → c.liveCtx d.ctx = some x →
        takes .queueCreate (c.setQueue n { d.queue (some d.ctx) with birth := some (0, q.taken) }) (some stOk)) ∧
      (∀ d, c.queue n = none → c.queueDesc pa 0 = some d → c.liveCtx d.ctx = none → takes .queueCreate c (some stWrongState)) ∧
      (∀ m, c.liveCtx m = none ↔ ∀ x, c.ctx m = some x → x.state = .destroyed) ∧
      (c.queue n = none → c.queueDesc pa 0 = none → takes .queueCreate c (some stBadRecord)) ∧
      (c.queue n ≠ none → takes .queueCreate c (some stWrongState))) ∧
    (∀ w, c.queue n = some w → 1 ≤ n → n < Config.queues →
      (c.Commands 1 2 n pa q e →
        (w.isOpen = true → takes .queueStop (c.setQueue n { w with state := .stopped }) (some stOk)) ∧
        (w.isOpen = false → takes .queueStop c (some stWrongState))) ∧
      (c.Commands 1 3 n pa q e →
        (w.state = .stopped → w.ctx ≠ none → takes .queueStart ((c.setQueue n { w with state := .active }).settleQueue n) (some stOk)) ∧
        (w.state ≠ .stopped ∨ w.ctx = none → takes .queueStart c (some stWrongState))) ∧
      (c.Commands 1 4 n pa q e →
        let w' := c.abandonUntaken w
        (w'.ents = [] → takes .queueDestroy { c.dropPrimary n with queues := Sparse.erase c.queues n } (some stOk)) ∧
        (w'.ents ≠ [] → takes .queueDestroy ((c.dropPrimary n).setQueue n { w' with state := .stopped, dying := some (0, q.taken), birth := none }) none))) ∧
    (c.queue n = none → 1 ≤ n → n < Config.queues →
      (c.Commands 1 2 n pa q e → takes .queueStop c (some stWrongState)) ∧
      (c.Commands 1 3 n pa q e → takes .queueStart c (some stWrongState)) ∧
      (c.Commands 1 4 n pa q e → takes .queueDestroy c (some stWrongState))) ∧
    (n = 0 ∨ Config.queues ≤ n →
      (c.Commands 1 1 n pa q e → takes .queueCreate c (some stBadRecord)) ∧
      (c.Commands 1 2 n pa q e → takes .queueStop c (some stBadRecord)) ∧
      (c.Commands 1 3 n pa q e → takes .queueStart c (some stBadRecord)) ∧
      (c.Commands 1 4 n pa q e → takes .queueDestroy c (some stBadRecord))) ∧
    (c.Commands 2 1 n pa q e →
      (pa % 4096 = 0 → c.mem.wf = true → Place.has .host pa 8192 = true →
        let d := c.hubWrite pa (State.summary c s.hc)
        takes .resync { d with links := d.links.map fun x => (x.1, { x.2 with replays := 0 }) } (some stOk) ∧
        (State.summary c s.hc).length = 8192 ∧
        (c.spoilt .host pa 8192 = [] → d.readPhys .host pa 8192 = State.summary c s.hc)) ∧
      (pa % 4096 ≠ 0 → takes .resync c (some stBadRecord))) ∧
    (∀ w, c.queue n = some w → w.state ≠ .error → w.dying = none →
      let t := (c.readWord .host w.tailA).toNat
      (w.tail ≤ t → t ≤ w.head + 2 ^ w.logn →
        let d := (c.setQueue n { w with tail := t }).settleQueue n
        exec (.tailNotice n) s = .next { s with chip := d, hc := s.hc.noteError d }) ∧
      (t < w.tail ∨ w.head + 2 ^ w.logn < t → (c.queueError n w).Whole →
        exec (.tailNotice n) s = .next { s with chip := c.queueError n w, hc := s.hc.noteError (c.queueError n w) } ∧
        ∃ v, (c.queueError n w).queue n = some v ∧ v.state = .error))

/-- R63, R65 to R67, R70 to R72 and R82: the entries of a work queue that the hub takes. A launch whose checks pass becomes a launch with
the next sequence number; one whose checks fail, and a WAIT, SIGNAL or COPY, is taken with its status; a WAIT that does not hold blocks.
In a deterministic context that runs, WAIT, SIGNAL and COPY keep to epoch ends. The hub reads an entry whole as it takes it (log 11), a
WAIT that does not hold counts as taken (log 10), the lane width of a launch's checks is its header's (log 16), and bits of an entry that
no rule names are reserved (log 18). A KERNEL with a reserved address bit or under an owner that the hub makes no access under fails
MEMORY_FAULT, and one on a die outside the partition BAD_KERNEL, before its alignment is looked at (R63, R82, R205; log 92's reading). R64
and R70 to R72: a pending WAIT is evaluated again; an entry that has its status completes: STATUS and DONE stand in its slot and the head
moves past it. The completion of a QUEUE_CREATE makes the created queue its context's primary queue, if that has none (R51). -/
def Obligations.QueueEntries : Prop :=
  (∀ (s : State) (q : Queue) (qn e n : Nat) (x : Context), s.chip.Whole → s.chip.takeable qn = some (q, e) → q.isControl = false →
    q.ctx = some n → s.chip.ctx n = some x → x.state ≠ .faulted →
    let c := s.chip
    let takes := fun (i : Instr) (d : Chip) (st : Option Nat) => exec i s = .next (s.withChip ((d.takeEntry qn e st).settleQueue qn))
    (entryType e = 1 →
      (x.det = true → x.primary ≠ some qn →
        takes (.launch qn) (c.setCtx n { x with seq := x.seq + 1, modeSeq := x.modeSeq + 1 }) (some stNotPrimary)) ∧
      (∀ d, d = (c.setCtx n { x with seq := x.seq + 1 }).dropText n x.dies → x.det = false ∨ x.primary = some qn →
        recordOk e x.dies (((d.kernelHeader q e).2.map headerWidth).getD 128) = true →
        (vaClean (recordKernel e) = false ∨ 5 ≤ vaOwn (recordKernel e) → takes (.launch qn) d (some stMemoryFault)) ∧
        (vaClean (recordKernel e) = true → vaOwn (recordKernel e) ≤ 3 → vaOwn (recordKernel e) ∉ x.dies →
          takes (.launch qn) d (some stBadKernel))) ∧
      (∀ d st h, x.det = false ∨ x.primary = some qn →
        ((c.setCtx n { x with seq := x.seq + 1 }).dropText n x.dies).launchStatus q x e = (d, st, h) → d.Whole →
        (st ≠ stOk → takes (.launch qn) d (some st)) ∧
        (st = stOk → ∃ s' y, exec (.launch qn) s = .next s' ∧
          Sparse.get? s'.chip.launches d.nextId = some (launchOf n qn q.taken x.launchSeq (d.launchCores e x.dies) e h) ∧
          s'.chip.ctx n = some y ∧ y.seq = x.seq + 1 ∧ y.modeSeq = x.modeSeq ∧ y.state = if x.state = .loaded then .running else x.state))) ∧
    let word := entryWord e 1
    let clean := fun (fields : Prop) => entryClean e = true ∧ fields
    let answers := fun (i : Instr) (fields : Prop) =>
      (¬ clean fields → takes i c (some stBadRecord)) ∧ (clean fields → c.ownerFails q word = true → takes i c (some stMemoryFault)) ∧
      (clean fields → c.ownerFails q word = false → word.toNat % 8 ≠ 0 → takes i c (some stBadRecord))
    let good := fun (fields : Prop) => clean fields ∧ c.ownerFails q word = false ∧ word.toNat % 8 = 0
    (entryType e = 2 →
      answers (.waitEntry qn) (fld e 16 3 ≤ 3) ∧
      (good (fld e 16 3 ≤ 3) → c.epochBound q = true → takes (.waitEntry qn) c none) ∧
      (∀ z, good (fld e 16 3 ≤ 3) → c.epochBound q = false → c.entryXl q .load 8 word 8 = (c, some z) → z.mig = none →
        takes (.waitEntry qn) c (if waitHolds e (leNat (c.readPhys z.place z.pa 8)) then some stOk else none)) ∧
      (good (fld e 16 3 ≤ 3) → c.epochBound q = false → c.entryXl q .load 8 word 8 = (c, none) →
        takes (.waitEntry qn) c (some stMemoryFault))) ∧
    (entryType e = 3 →
      answers (.signalEntry qn) (fld e 16 2 ≤ 1) ∧
      (good (fld e 16 2 ≤ 1) → c.epochBound q = true → takes (.signalEntry qn) c none) ∧
      (∀ z, good (fld e 16 2 ≤ 1) → c.epochBound q = false → c.entryXl q .atomic 8 word 8 = (c, some z) →
        let d := c.hubAtomic z fun old => if fld e 16 2 = 0 then old + entryWord e 2 else entryWord e 2
        d.Whole → takes (.signalEntry qn) d (some stOk)) ∧
      (good (fld e 16 2 ≤ 1) → c.epochBound q = false → c.entryXl q .atomic 8 word 8 = (c, none) →
        takes (.signalEntry qn) c (some stMemoryFault))) ∧
    (entryType e = 4 →
      (copyOk e = false → takes (.copyEntry qn) c (some stBadRecord)) ∧
      (copyOk e = true → c.epochBound q = true → takes (.copyEntry qn) c none) ∧
      (copyOk e = true → c.epochBound q = false → (c.doCopy q e).1.Whole →
        takes (.copyEntry qn) (c.doCopy q e).1 (some (c.doCopy q e).2)))) ∧
  (∀ (s : State) (q : Queue) (qn : Nat) (a : EntryState), s.chip.Whole → s.chip.queue qn = some q →
    (q.ents.find? (fun e => entryType e.word == 2 && e.status.isNone) = some a → s.chip.epochBound q = false →
      ∀ z, s.chip.entryXl q .load 8 (entryWord a.word 1) 8 = (s.chip, some z) → z.mig = none →
      exec (.waitRecheck qn) s = .next (s.withChip (
        if waitHolds a.word (leNat (s.chip.readPhys z.place z.pa 8)) then (s.chip.entryStatus qn a.n stOk).settleQueue qn else s.chip))) ∧
    (∀ st, q.ents.find? (fun e => e.n == a.n && !e.done) = some a → a.status = some st → s.chip.queueState q ≠ some .faulted →
      let d := s.chip.completeEntry qn a st
      d.Whole →
      exec (.entryComplete qn a.n) s = .next { s with chip := d, hc := s.hc.noteError d } ∧
      (st = stOk → entrySig a.word = 0 → s.chip.mem.wf = true → q.dying = none →
        (q.headA + 8 ≤ q.slotAddr a.n ∨ q.slotAddr a.n + 256 ≤ q.headA) → q.ents = [a] → a.n = q.head →
        s.chip.spoilt .host (q.slotAddr a.n + 248) 2 = [] →
        (s.chip.writePhys .host (q.slotAddr a.n + 248) [0, 1]).spoilt .host q.headA 8 = [] →
        d.readPhys .host (q.slotAddr a.n + 248) 2 = [0, 1] ∧ d.readWord .host q.headA = BitVec.ofNat 64 (q.head + 1)) ∧
      (∀ k w n x, q.isControl = true → q.birth = none → q.dying = none →
        s.chip.queues.find? (fun y => y.2.birth == some (qn, a.n)) = some (k, w) → w.ctx = some n → s.chip.ctx n = some x →
        d.ctx n = some (if x.primary.isNone then { x with primary := some k } else x))))

/-- R69, R76, R98, R104, R116 and R117: GROUP_PLACE places the next group of a normal context's first launch where it fits, with its
strands in the quarters from the starting one on, each at the word after the kernel's header; POOL_PLACE places the first entry of a pool
that fits; LAUNCH_COMPLETE ends a launch whose strands have gone, also while its context is pre-empted. The lowest local store run and
strand slot that fit are the model's choice (log 35). R52, R53, R55 and R185: an epoch ends when every strand of its domain stands at the
end of its quantum, and then its end is carried out; until then the step does nothing (log 4). Where a copy that Commit registered has
still to run to its last byte, the domain's strands stand until it has (log 91's reading). Each strand that stays begins a new quantum in
the next epoch, but for one whose bud read Commit could not answer, which stays at it, or which stands past its GBAR until its group's
last has arrived (log 24). R120: of the strands of one quarter of a deterministic context, at most one strand identifier issues: the one
that issued last until it switches away, ends its quantum, waits or freezes; then the least identifier above it, or the least of all. -/
def Obligations.PlacementAndEpochs : Prop :=
  (∀ (s : State), s.chip.Whole →
    (∀ n x key l core F first, s.chip.ctx n = some x → s.chip.places n x = true → x.det = false → s.chip.pendingLaunch n = some (key, l) →
      let k := hardwareCount l.header l.roleMap l.lanes
      let cores := (if l.holding then l.cores else l.order).filter fun j => (l.coresFor l.next).contains j
      s.chip.quotaRoom l.ctx k = true → s.chip.firstFit k (Foot.ofWord l.header) cores = some (core, F, first) →
      exec (.groupPlace n) s = .next (s.withChip (s.chip.placeGroup key l core F first)) ∧
      (∀ i, i < k → ∃ t, (s.chip.placeGroup key l core F first).strand (s.chip.nextId + 1 + i) = some t ∧ t.pc = l.pc + 16 ∧
        t.gid = s.chip.nextId ∧ t.core = core ∧ t.quarter = (F + i) % 4 ∧ t.group = l.next ∧ t.launch = some key ∧ t.status = .ready)) ∧
    (∀ die n rest core F first x, Sparse.getD s.chip.pools die [] = n :: rest → s.chip.ctx n.ctx = some x →
      s.chip.places n.ctx x = true → x.det = false → s.chip.newFit n = some (core, F, first) → (s.chip.placeNew n core F first).Whole →
      exec (.poolPlace die) s = .next (s.withChip ((s.chip.placeNew n core F first).setPool die
        (rest ++ Sparse.getD s.chip.overflows die []))) ∧
      ∃ t, (s.chip.placeNew n core F first).strand (s.chip.nextId + 1) = some t ∧ t.pc = n.pc ∧ t.kind = n.kind ∧ t.core = core ∧
        t.quarter = F ∧ t.token = n.token ∧ t.ident = n.ident) ∧
    (∀ key l x, Sparse.get? s.chip.launches key = some l → s.chip.ctx l.ctx = some x → (x.state = .loaded ∨ x.state = .running ∨ x.state = .preempted) →
      s.chip.launchOver key l = true → (x.det = true → s.chip.domainHolds l.ctx = false) → (s.chip.endLaunch key l).Whole →
      exec (.launchComplete key) s = .next (s.withChip (s.chip.endLaunch key l)))) ∧
  (∀ (s : State) (n : Nat) (x : Context), s.chip.Whole → s.chip.ctx n = some x →
    (s.chip.epochReady n x = true → (s.chip.endEpoch n).Whole → exec (.epochEnd n) s = .next (s.withChip (s.chip.endEpoch n))) ∧
    (x.closing = none → s.chip.epochReady n x = false → exec (.epochEnd n) s = .next s) ∧
    (∀ k, x.closing = some k → (s.chip.closeEpoch n k).Whole → exec (.epochEnd n) s = .next (s.withChip (s.chip.closeEpoch n k))) ∧
    (∀ k, x.closing = some k → ∀ y ∈ s.chip.strands, y.2.ctx = n → y.2.isHandler = false → s.chip.runnable y.2 = false) ∧
    (s.chip.epochReady n x = true → ∀ y ∈ s.chip.strands, y.2.ctx = n → y.2.isHandler = false → y.2.status ≠ .ready ∨ y.2.exited = true) ∧
    (∀ y ∈ s.chip.strands, y.2.ctx = n → y.2.isHandler = false →
      ∃ t, (y.1, t) ∈ (s.chip.newQuanta n).strands ∧ t.epoch = y.2.epoch + 1 ∧ t.quantum = 0 ∧ t.writers = 0 ∧ t.pc = y.2.pc ∧
        t.buffer = y.2.buffer ∧
        ((∀ e ∈ y.2.buffer, e.back = false) → t.ended = false ∧
          (y.2.status = .waiting .quantum → t.status = if y.2.gbar then .waiting .barrier else .ready)) ∧
        ((∃ e ∈ y.2.buffer, e.back = true) → t.ended = true ∧ (y.2.status = .waiting .quantum → t.status = .waiting .quantum)) ∧
        (y.2.status = .frozen → t.status = .frozen))) ∧
  (∀ (c : Chip) (x y : Nat × Strand), x ∈ c.strands → y ∈ c.strands → c.buffers x.2 = true → c.buffers y.2 = true →
    x.2.quarterKey = y.2.quarterKey → c.moves x.2 = true → c.runnable y.2 = true →
    (c.moves y.2 = true → x.2.ident = y.2.ident) ∧
    (Sparse.get? c.coros x.2.quarterKey = none → identLt y.2.ident x.2.ident = false) ∧
    (∀ last away, Sparse.get? c.coros x.2.quarterKey = some (last, away) →
      (away = false → y.2.ident = last → c.atEpoch y.2 false = false → x.2.ident = last) ∧
      (away = true → identLt last y.2.ident = true →
        identLt last x.2.ident = true ∧ identLt y.2.ident x.2.ident = false)))

/-- R441: a write of HOSTINT requests the interrupt for the strand that stands at the core, quarter and slot that it names, of the context
that it names, and changes nothing else. R46, R249 and R57: HOST_INTERRUPT of a strand at an instruction boundary traps at its next
instruction and clears the request; the bud watchdog reports a cell that two scans in a row find stalled, once. The boundaries at which an
interrupt is taken after TRET are log 9's reading, that a load which only a bud or its resources keep from its end is no hindrance, and is
begun again, is log 102's, what counts as a bud wait is log 62's, and a step that may not act has no effect (log 4). -/
def Obligations.InterruptsAndWatchdog : Prop :=
  (∀ (s : State) (v : W64), s.chip.Whole → ∃ s', exec (.hostintWrite v) s = .next s' ∧ s'.hc = s.hc ∧ s'.chip.mem = s.chip.mem ∧
    s'.chip.tags = s.chip.tags ∧ s'.chip.cores = s.chip.cores ∧
    ∀ sid, s'.chip.strand sid = (s.chip.strand sid).map fun t =>
      if t.core = v.toNat % 2 ^ 16 ∧ t.quarter = v.toNat / 2 ^ 16 % 4 ∧ t.slot = v.toNat / 2 ^ 18 % 16 ∧ t.ctx = v.toNat / 2 ^ 24 % 64 ∧
          t.isHandler = false ∧ t.exited = false then { t with hostInt := true } else t) ∧
  (∀ (s : State) (n : Nat) (x : Context), s.chip.Whole → s.chip.ctx n = some x →
      let c := s.chip
      (∀ sid t, c.strand sid = some t → t.ctx = n → t.isHandler = false →
        (t.interruptible = true → c.atBoundary sid t = true → x.state = .loaded ∨ x.state = .running → c.owesResult sid = false →
          ∃ s' u, exec (.hostInterrupt sid) s = .next s' ∧ s'.chip.strand sid = some u ∧ u.status = .frozen ∧ u.hostInt = false ∧
            u.pc = t.pc ∧ bits u.epc 4 60 = bits t.pc 4 60 ∧ bits u.trapCause 0 8 = 0x1B ∧ u.vregs = t.vregs ∧ u.sregs = t.sregs ∧
            u.retired = t.retired ∧ u.load = none ∧ (t.load ≠ none → ∀ q ∈ s'.chip.cellReqs, q.sid ≠ sid) ∧
            (s'.chip.core t.core).frozenQ = (c.core t.core).frozenQ ++ [sid] ∧ s'.chip.mem = c.mem ∧
            ∀ k, k ≠ sid → s'.chip.strand k = c.strand k) ∧
        (t.interruptible = false ∨ c.atBoundary sid t = false → exec (.hostInterrupt sid) s = .next s)) ∧
      (x.wdog = 0 → exec (.budWatchdogScan n) s = .next s) ∧
      (x.wdog ≠ 0 → c.serves n = true →
        let now := c.openings.filter fun o => o.ctx == n && c.stalled o
        let tell := now.filter fun o => !o.told && x.scanned.contains o.cell
        let d := tell.foldl Chip.stallEvent
          { c.setCtx n { x with scanned := now.map fun o => o.cell } with
            openings := c.openings.map fun o => if tell.contains o then { o with told := true } else o }
        (d.Whole → exec (.budWatchdogScan n) s = .next (s.withChip d)) ∧
        (x.scanned = [] → exec (.budWatchdogScan n) s = .next (s.withChip (c.setCtx n { x with scanned := now.map fun o => o.cell })))))

/-- R442 to R444: a cap frame that is accepted sets the frame caps where RANK is at least THRESH and lifts them otherwise, and its SEQ
must rise; one that is refused is counted; the effective cap is the least limit, never below the floor, and CAPCAUSE names the latest
equal limit. A host cap or a frame cap of 0 is none; a thermal or current limit holds whatever its watts, 0 among them. That one last SEQ
serves all keys and that reset leaves none is log 12's; that the floor is applied after the least limit is chosen is log 48's. -/
def Obligations.PowerCaps : Prop :=
  ∀ s : State, s.chip.Whole →
    (∀ p, s.hc.frameOk p = true →
      exec (.capFrame p) s = .next { s with hc := s.hc.takeFrame p } ∧
      let x := leNat (p.take 24)
      let h := s.hc.takeFrame p
      h.lastSeq = some (fld x 64 64) ∧ (∀ n, s.hc.lastSeq = some n → n < fld x 64 64) ∧
      (∀ k, k < partCount s.hc.partLayout →
        Sparse.getD h.frameCap k 0 = if fld x 48 8 ≤ s.hc.rank.toNat then fld x (128 + 16 * k) 16 else 0)) ∧
    (∀ p, (p.length < 56 ∨ fld (leNat (p.take 24)) 0 32 ≠ 0x50434841 ∨ fld (leNat (p.take 24)) 32 16 ≠ 1 ∨
        fld (leNat (p.take 24)) 56 8 ≠ 0 ∨ (∃ n, s.hc.lastSeq = some n ∧ fld (leNat (p.take 24)) 64 64 ≤ n) ∨
        (p.drop 24).take 32 ≠ kmac256 (leBytes 64 s.hc.key.toNat) (p.take 24) capString) →
      exec (.capFrame p) s = .next (s.withChip (s.chip.countError 49))) ∧
    (∀ v, exec (.caphostWrite v) s = .next { s with hc := { s.hc with capHost := v } }) ∧
    (∀ p th cu dr, p < 4 → ∃ s', exec (.limitChange p th cu dr) s = .next s' ∧ s'.chip = s.chip ∧
      Sparse.get? s'.hc.thermal p = th ∧ Sparse.get? s'.hc.current p = cu ∧ Sparse.getD s'.hc.draw p 0 = dr ∧
      ((s.hc.thermal.map fun y => y.1).Pairwise (· < ·) → (s.hc.current.map fun y => y.1).Pairwise (· < ·) → ∀ k, k ≠ p →
        Sparse.get? s'.hc.thermal k = Sparse.get? s.hc.thermal k ∧ Sparse.get? s'.hc.current k = Sparse.get? s.hc.current k) ∧
      s'.hc.frameCap = s.hc.frameCap ∧ s'.hc.capHost = s.hc.capHost) ∧
    (∀ p w, ((1, w) ∈ s.hc.limits p ↔ w = (bits s.hc.capHost (16 * p) 16).toNat ∧ w ≠ 0) ∧
      ((2, w) ∈ s.hc.limits p ↔ w = Sparse.getD s.hc.frameCap p 0 ∧ w ≠ 0) ∧
      ((3, w) ∈ s.hc.limits p ↔ Sparse.get? s.hc.thermal p = some w) ∧ ((4, w) ∈ s.hc.limits p ↔ Sparse.get? s.hc.current p = some w) ∧
      ∀ y ∈ s.hc.limits p, 1 ≤ y.1 ∧ y.1 ≤ 4) ∧
    (∀ p, let l := leastLimit (s.hc.limits p)
      (s.hc.limits p = [] → s.hc.effectiveCap p = 0 ∧ s.hc.capCause p = 0) ∧
      (s.hc.limits p ≠ [] → l ∈ s.hc.limits p ∧ (∀ y ∈ s.hc.limits p, l.2 ≤ y.2 ∧ (y.2 = l.2 → y.1 ≤ l.1)) ∧
        s.hc.effectiveCap p = max l.2 ((225 * (partDies s.hc.partLayout p).length + 1) / 2) ∧
        bits (s.hc.capCause p) 0 16 = BitVec.ofNat 16 l.1 ∧ bits (s.hc.capCause p) 16 16 = BitVec.ofNat 16 (s.hc.effectiveCap p)))

/-- R47, R48, R449 and R450: a corrected error of a die or of the hub is counted once, in the counter of its kind and in no other, and has
no further effect unless it makes a fault lasting (three at one address in 24 hours, sixteen in one unit in one hour), which HCSTATUS bit
2 and the log show; an uncorrectable error is counted, and faults the context in whose state it lies, once its save has completed where
one is under way. That a fault is declared once between resets is log 61's, that the counters begin at 0 is log 13's. That a deterministic
context whose pre-emption still waits for its epoch end faults at once is log 89's reading of R48 and R53; that a normal one whose
pre-emption waits completes its save first is log 95's choice. A report that names no die of the device has no effect (log 4), and one of
a context that is not loaded, running or pre-empted faults nothing (R46). The event's fields that no rule states are free values (log 63).
-/
def Obligations.ErrorReports : Prop :=
  ∀ s : State, s.chip.Whole →
    (∀ e : ErrorReport, (∀ d, e.die = some d → d < Config.dies ∧ e.kind < 8) →
      let own := match e.die with
        | some d => 12 * d + e.kind
        | none => 48
      let more (c : Sparse Nat) (n by_ : Nat) : Nat := min (Sparse.getD c n 0 + by_) (2 ^ 64 - 1)
      let new := lasting s.chip.errHist s.chip.declared e
      ∃ s', exec (.correctedError e) s = .next s' ∧ Sparse.getD s'.chip.errCounts own 0 = more s.chip.errCounts own 1 ∧
        (∀ n, n ≠ own → (∀ d, e.die = some d → n ≠ 12 * d + 9) → Sparse.getD s'.chip.errCounts n 0 = Sparse.getD s.chip.errCounts n 0) ∧
        (∀ d, e.die = some d → Sparse.getD s'.chip.errCounts (12 * d + 9) 0 =
          if new = [] then Sparse.getD s.chip.errCounts (12 * d + 9) 0 else more s.chip.errCounts (12 * d + 9) new.length) ∧
        s'.chip.errHist = s.chip.errHist ++ [e] ∧ s'.chip.mem = s.chip.mem ∧ s'.chip.tags = s.chip.tags ∧
        s'.chip.strands = s.chip.strands ∧ s'.chip.ctxs = s.chip.ctxs ∧ s'.chip.cores = s.chip.cores ∧
        (new = [] → s'.hc = s.hc ∧ s'.chip.faultLog = s.chip.faultLog ∧ s'.chip.declared = s.chip.declared) ∧
        (new ≠ [] → s'.hc = { s.hc with status := s'.hc.status } ∧
          (∀ k, bit s'.hc.status k = if k = 2 then true else bit s.hc.status k) ∧
          (∃ x ∈ s'.chip.faultLog, sameUnit x e = true ∧ x.addr = e.addr) ∧ s'.chip.declared = s.chip.declared ++ new)) ∧
    (∀ hist declared e,
      ((false, e) ∈ lasting hist declared e ↔
        2 ≤ (hist.filter fun y => y.die == e.die && y.kind == e.kind && y.addr == e.addr && decide (e.stamp ≤ y.stamp + 86400)).length ∧
        ∀ x ∈ declared, ¬ (x.1 = false ∧ sameAddr x.2 e = true)) ∧
      ((true, e) ∈ lasting hist declared e ↔
        15 ≤ (hist.filter fun y => y.die == e.die && y.kind == e.kind && y.part == e.part && decide (e.stamp ≤ y.stamp + 3600)).length ∧
        ∀ x ∈ declared, ¬ (x.1 = true ∧ sameUnit x.2 e = true))) ∧
    (∀ d, d < Config.dies →
      let counted := s.chip.countError (12 * d + 8)
      exec (.uncorrectableError d none) s = .next (s.withChip counted) ∧
      (∀ n, (∀ x, s.chip.ctx n = some x → x.state ≠ .loaded ∧ x.state ≠ .running ∧ x.state ≠ .preempted) →
        exec (.uncorrectableError d (some n)) s = .next (s.withChip { counted with freeCtr := s.chip.freeCtr + 7 })) ∧
      (∀ n x, s.chip.ctx n = some x → (x.state = .loaded ∨ x.state = .running ∨ x.state = .preempted) →
        (s.chip.uncorrectable d (some n)).Whole →
        ∃ s' y, exec (.uncorrectableError d (some n)) s = .next s' ∧ s'.chip.ctx n = some y ∧
          (x.preempt = none → y.state = .faulted) ∧
          (x.preempt ≠ none → x.det = false ∨ x.saving = true → y.doomed = true ∧ y.saving = true ∧ y.state = x.state) ∧
          (x.preempt ≠ none → x.det = true → x.saving = false → y.state = .faulted) ∧
          Sparse.getD s'.chip.errCounts (12 * d + 8) 0 = min (Sparse.getD s.chip.errCounts (12 * d + 8) 0 + 1) (2 ^ 64 - 1) ∧
          ∀ k, k ≠ 12 * d + 8 → Sparse.getD s'.chip.errCounts k 0 = Sparse.getD s.chip.errCounts k 0)) ∧
    (∀ d, Config.dies ≤ d → (∀ e : ErrorReport, e.die = some d → exec (.correctedError e) s = .next s) ∧
      ∀ n, exec (.uncorrectableError d n) s = .next s)

/-- R42, R60 and R441: a control queue that is removed with entries taken goes once they have completed, while another may be established;
writes of CTLQ, PARTLAYOUT, SAVEBASE, SAVELEN and the registers that only hold what is written. The export ranges of this device and of
its peers (R223, R261) are registers by the model's choice (log 20); a write that may not act changes nothing (log 4). R262, R446 and
R448: COMM_INSTALL, the attestation block, and a reset of the device. An install over a communicator first loses the operations on that
one, and the operations of another installation are none of the new one's, with the same CID and GEN too. An attestation report that has
not been started has no effect (log 4). -/
def Obligations.HubRegisters : Prop :=
  (∀ (s : State) (v : W64), s.chip.Whole →
    let c := s.chip
    let h := s.hc
    let stores := fun (r : HubReg) (c' : Chip) (h' : HubCtl) => exec (.registerWrite r v) s = .next (s.withHub c' h')
    ((c.queue 0).isSome = true →
      exec (.ctlqEstablish v) s = .next (s.withHub c { h with status := putBits h.status 3 (0 : BitVec 1) })) ∧
    (c.queue 0 = none →
      (∀ d, c.queueDesc (v.toNat / 64 * 64) 2 = some d →
        ∃ s', exec (.ctlqEstablish v) s = .next s' ∧ s'.chip.queue 0 = some (d.queue none) ∧ bit s'.hc.ctlq 0 = true ∧
          bits s'.hc.ctlq 6 58 = bits v 6 58 ∧ bit s'.hc.status 3 = false ∧ s'.chip.mem = c.mem) ∧
      (c.queueDesc (v.toNat / 64 * 64) 2 = none →
        ∃ s', exec (.ctlqEstablish v) s = .next s' ∧ s'.chip = c ∧ bit s'.hc.ctlq 0 = false ∧ bits s'.hc.ctlq 6 58 = bits v 6 58 ∧
          bit s'.hc.status 3 = true)) ∧
    (∃ s', exec (.ctlqRemove v) s = .next s' ∧ bit s'.hc.status 1 = false ∧ bit s'.hc.status 3 = false ∧ bit s'.hc.ctlq 0 = false ∧
      (∀ n x, c.ctx n = some x → ∃ y, s'.chip.ctx n = some y ∧ y.state = x.state ∧ y.preempt.isSome = x.preempt.isSome) ∧
      ((c.queues.map fun x => x.1).Pairwise (· < ·) → s'.chip.queue 0 = none ∧
        (∀ q w, q ≠ 0 → q ≠ Config.queues + c.nextId → c.queue q = some w →
          ∃ v, s'.chip.queue q = some v ∧ v.ents = w.ents ∧ v.tail = w.tail ∧ v.head = w.head ∧ v.state = w.state ∧ v.ctx = w.ctx) ∧
        (∀ q, c.queue 0 = some q → q.ents ≠ [] →
          ∃ v, s'.chip.queue (Config.queues + c.nextId) = some v ∧ v.ents = q.ents ∧ v.tail = q.taken ∧ v.state = .stopped ∧
            v.dying.isSome = true))) ∧
    (c.noContext = true →
      (v.toNat % 4 < 3 → exec (.partlayoutWrite v) s = .next (s.withHub c { h with partLayout := BitVec.ofNat 64 (v.toNat % 4) })) ∧
      exec (.savebaseWrite v) s = .next (s.withHub c { h with saveBase := v &&& ~~~0xFFF }) ∧
      exec (.savelenWrite v) s = .next (s.withHub c { h with saveLen := v &&& ~~~0xFFF })) ∧
    (c.noContext = false →
      exec (.partlayoutWrite v) s = .next s ∧ exec (.savebaseWrite v) s = .next s ∧ exec (.savelenWrite v) s = .next s) ∧
    stores .devnum c { h with devNum := v &&& 0xF } ∧ stores .rank c { h with rank := v &&& 0xFF } ∧
    stores .reportAddr c { h with reportAddr := v } ∧
    (∀ n, n < 16 → stores (.peerrt n) { c with peerRoutes := Sparse.set c.peerRoutes n (bits v 0 8 &&& 0x1F) } h ∧
      stores (.commwin n) c { h with commWin := putBits h.commWin (64 * n) v }) ∧
    (h.keyIdx < 8 → stores .keywin c { h with key := putBits h.key (64 * h.keyIdx) v, keyIdx := (h.keyIdx + 1) % 8 }) ∧
    (∀ n, n < 8 → stores (.attestNonce n) c { h with nonce := putBits h.nonce (64 * n) v }) ∧
    (let range (d : Nat) : Nat × Nat := Sparse.getD c.exports d (0, 0)
     stores .exportBase { c with exports := Sparse.set c.exports 16 (v.toNat, (range 16).2) } h ∧
     stores .exportLen { c with exports := Sparse.set c.exports 16 ((range 16).1, v.toNat) } h ∧
     (∀ d, d < 16 → stores (.peerExportBase d) { c with exports := Sparse.set c.exports d (v.toNat, (range d).2) } h ∧
       stores (.peerExportLen d) { c with exports := Sparse.set c.exports d ((range d).1, v.toNat) } h))) ∧
  (∀ (s : State), s.chip.Whole →
    (∀ v : W64, let slot := (bits v 0 8).toNat
      (commRecord s.hc.commWin.toNat (bits s.hc.devNum 0 4).toNat = none →
        exec (.commInstall v) s = .next { s with hc := { s.hc with commStat := BitVec.ofNat 64 (2 + 256 * slot) } }) ∧
      (∀ m, commRecord s.hc.commWin.toNat (bits s.hc.devNum 0 4).toNat = some m → Sparse.get? s.chip.comms slot = none →
        exec (.commInstall v) s = .next (s.withHub { s.chip with
            comms := Sparse.set s.chip.comms slot m, sentOps := s.chip.sentOps.filter fun x => x.2.1 != slot }
          { s.hc with commStat := BitVec.ofNat 64 (1 + 256 * slot) }) ∧
        m.valid = true ∧ m.cid = BitVec.ofNat 32 (fld s.hc.commWin.toNat 64 32) ∧ m.gen = BitVec.ofNat 32 (fld s.hc.commWin.toNat 96 32) ∧
        m.rank < m.members.length ∧ (m.members.map fun y => y.dev).getD m.rank 16 = (bits s.hc.devNum 0 4).toNat) ∧
      (∀ m old, commRecord s.hc.commWin.toNat (bits s.hc.devNum 0 4).toNat = some m → Sparse.get? s.chip.comms slot = some old →
        let c := s.chip.loseOps (s.chip.commOps slot old)
        let new := { m with inst := old.inst + 1 }
        c.Whole →
        exec (.commInstall v) s = .next (s.withHub { c with
            comms := Sparse.set c.comms slot new, sentOps := c.sentOps.filter fun x => x.2.1 != slot }
          { s.hc with commStat := BitVec.ofNat 64 (1 + 256 * slot) }) ∧
        ∀ o : EngineOp, o.on slot old = true → o.on slot new = false)) ∧
    (∀ v : W64,
      (bit v 0 = true → exec (.attestStart v) s = .next { s with hc := { s.hc with start := true } }) ∧
      (bit v 0 = false → exec (.attestStart v) s = .next s)) ∧
    (s.hc.start = false → exec .attestReport s = .next s) ∧
    (s.hc.start = true → s.hc.reportAddr.toNat % 64 ≠ 0 → exec .attestReport s = .next { s with hc := { s.hc with start := false } }) ∧
    (s.hc.start = true → s.hc.reportAddr.toNat % 64 = 0 → s.hc.reportAddr.toNat + 30064 ≤ 2 ^ 64 → s.chip.mem.wf = true →
      ∃ s', exec .attestReport s = .next s' ∧ s'.hc = { s.hc with start := false } ∧
        (State.reportHead s.chip s.hc).length = 272 ∧
        (s.chip.spoilt .host s.hc.reportAddr.toNat 30064 = [] →
          s'.chip.readPhys .host s.hc.reportAddr.toNat 272 = State.reportHead s.chip s.hc ∧
          s'.chip.readPhys .host (s.hc.reportAddr.toNat + 272) 29792 =
            leBytes 29792 (Config.signature (State.reportHead s.chip s.hc)).toNat) ∧
        s'.chip.strands = s.chip.strands ∧ s'.chip.tags = s.chip.tags) ∧
    (∀ staged signed, ∃ s', exec (.deviceReset staged signed) s = .next s' ∧
      s'.hc = { HubCtl.reset with status := if signed then 1 else 0 } ∧ s'.chip.strands = [] ∧ s'.chip.ctxs = [] ∧ s'.chip.queues = [] ∧
      s'.chip.tags = [] ∧ s'.chip.links = [] ∧ s'.chip.errCounts = [] ∧
      (s'.chip.firmware = if signed then staged.getD s.chip.firmware else s.chip.firmware) ∧
      (∀ n, retiredUnits s.chip.faultLog n = 0 → Sparse.get? s'.chip.facts n = none)))

/-- R257 to R260: the link state table. When a link leaves the state up, every communicator whose first hops it serves becomes invalid,
and so does every peer route through it. A flit whose check fails is sent again, and its eighth failed send in a row fails the link. That
LINK_DISABLE acts as a loss and does not count in FAILS is log 58's reading; an event that the link's state does not admit changes nothing
(log 4). -/
def Obligations.LinkStates : Prop :=
  ∀ (s : State) (l : Nat), s.chip.Whole → l < Config.links →
    let x := s.chip.link l
    let goes := fun (i : Instr) (y : Link) (code : Option (BitVec 2)) =>
      ∃ s', exec i s = .next s' ∧ s'.chip.link l = y ∧ (∀ k, k ≠ l → s'.chip.link k = s.chip.link k) ∧
        (∀ k, code = some k → bits s'.hc.linkCtl (2 * l) 2 = k) ∧ (code = none → s'.hc = s.hc) ∧ s'.chip.mem = s.chip.mem
    let lost := fun (d : Chip) => d.Whole ∧
      (∀ slot m, Sparse.get? d.comms slot = some m → (∃ r ∈ m.others, m.linkTo r = l) → m.valid = false) ∧
      (∀ r ∈ d.peerRoutes, bits r.2 0 4 = BitVec.ofNat 4 l → bit r.2 4 = false)
    (x.state = .off → goes (.linkEnable l) { x with state := .training, sends := [] } (some 1)) ∧
    (x.state ≠ .off → goes (.linkEnable l) x (some 1)) ∧
    (x.state = .failed → goes (.linkRetrain l) { x with state := .training, sends := [] } (some 2)) ∧
    (x.state ≠ .failed → goes (.linkRetrain l) x (some 2)) ∧
    (x.state ≠ .up → goes (.linkDisable l) { x with state := .off, sends := [] } (some 0)) ∧
    (∀ pdev plink, pdev < 16 → plink < 16 → x.state = .training →
      goes (.linkTrained l pdev plink) { x with state := .up, pdev := pdev, plink := plink, sends := [] } none) ∧
    (x.state = .training → goes (.linkTrainTimeout l) { x with state := .failed, fails := min (x.fails + 1) 0xFFFF } none) ∧
    (x.state ≠ .training → ∀ pdev plink, exec (.linkTrained l pdev plink) s = .next s ∧ exec (.linkTrainTimeout l) s = .next s) ∧
    (x.state ≠ .up → exec (.linkFail l) s = .next s ∧ ∀ n b, exec (.flitCheckFail ⟨l, n, b⟩) s = .next s) ∧
    (x.state = .up →
      (∀ n b, Sparse.getD x.sends n 0 + 1 < 8 → ∃ s', exec (.flitCheckFail ⟨l, n, b⟩) s = .next s' ∧
        s'.chip.link l = { x with sends := Sparse.set x.sends n (Sparse.getD x.sends n 0 + 1),
                                  replays := if b = true then x.replays else min (x.replays + 1) 0xFFFF } ∧
        s'.chip.outbox = s.chip.outbox ++ [.resend l n] ∧
        Sparse.getD s'.chip.errCounts 48 0 = min (Sparse.getD s.chip.errCounts 48 0 + 1) (2 ^ 64 - 1)) ∧
      ((s.chip.linkFails l).Whole → ∃ s', exec (.linkFail l) s = .next s' ∧ lost s'.chip ∧
        s'.chip.link l = { x with state := .failed, fails := min (x.fails + 1) 0xFFFF, sends := [] }) ∧
      (∀ n b, 8 ≤ Sparse.getD x.sends n 0 + 1 → ((s.chip.countError 48).linkFails l).Whole → ∃ s', exec (.flitCheckFail ⟨l, n, b⟩) s = .next s' ∧ lost s'.chip ∧
        (s'.chip.link l).state = .failed) ∧
      (((s.chip.setLink l { x with state := .off, sends := [] }).linkLost l).Whole → ∃ s', exec (.linkDisable l) s = .next s' ∧
        lost s'.chip ∧ (s'.chip.link l).state = .off))

/-- R182, R259, R261, R262 and R266: a flit for another device is sent on by this hub's route to it, or refused where that has failed; one
that names no valid communicator by CID and GEN is refused, a heartbeat among them, and of two slots that hold one CID and GEN the lower
is taken (log 109's choices); a heartbeat of a valid one has no effect; data is written at its address in the communicator's context and
acknowledged, or answered with the address that failed, after which no flit of that operation has an effect here; the last bytes are
answered after the add at SIGADDR. -/
def Obligations.FlitReceipt : Prop :=
  ∀ (s : State) (f : Flit), s.chip.Whole →
    (f.dev ≠ s.hc.device →
      (∀ l, s.chip.routeTo f.dev = some l → exec (.flitReceive f) s = .next (s.withChip (s.chip.send (.data l f)))) ∧
      (s.chip.routeTo f.dev = none → exec (.flitReceive f) s = .next (s.withChip (s.chip.send (.refusal f.cid f.gen f.rank))))) ∧
    (f.dev = s.hc.device → s.chip.commOf f.cid f.gen = none →
      exec (.flitReceive f) s = .next (s.withChip (s.chip.send (.refusal f.cid f.gen f.rank)))) ∧
    (∀ slot m, f.dev = s.hc.device → s.chip.commOf f.cid f.gen = some (slot, m) →
      (f.payload = .heartbeat → exec (.flitReceive f) s = .next s) ∧
      (∀ op dst bs last x, f.payload = .data op dst bs last →
        let who := s.chip.hubWho m.ctx
        let ack := fun (c : Chip) (r : AckResult) => exec (.flitReceive f) s = .next (s.withChip
          (c.send (.ack f.cid f.gen f.rank op bs.length r)))
        let fails := fun (c : Chip) (bad : W64) =>
          ack { c with comms := Sparse.update c.comms slot fun m => { m with failed := (f.rank, op, bad) :: m.failed } } (.fault bad)
        (∀ y, m.failed.find? (fun z => z.1 == f.rank && z.2.1 == op) = some y → ack s.chip (.fault y.2.2)) ∧
        (m.failed.find? (fun z => z.1 == f.rank && z.2.1 == op) = none → 1 ≤ bs.length → bs.length ≤ 16 - dst.toNat % 16 →
          (∀ y, s.chip.translate who .engineWrite 1 dst bs.length = .trap y → fails s.chip dst) ∧
          (s.chip.translate who .engineWrite 1 dst bs.length = .ok x → x.down = false → x.cell = false → x.mig = none →
            Place.has x.place x.pa bs.length = true →
            let d := s.chip.writePhys x.place x.pa bs
            (last = none → ack d .ok) ∧
            (∀ sig v y, last = some (sig, v) → d.translate who .atomic 8 sig 8 = .ok y → y.down = false →
              (d.hubAtomic y fun old => old + v).Whole → ack (d.hubAtomic y fun old => old + v) .ok) ∧
            (∀ sig v y, last = some (sig, v) → d.translate who .atomic 8 sig 8 = .trap y → fails d sig))))) ∧
    (∀ (c : Chip) (x : Xl) v, c.mem.wf = true → x.cell = false → x.mig = none → Place.has x.place x.pa 8 = true →
      (c.hubAtomic x fun old => old + v).readWord x.place x.pa = c.readWord x.place x.pa + v)

/-- R259: what makes a communicator invalid: a refusal, an abort, a flit that is not acknowledged, and a silent member while an LRED waits
for another; and a heartbeat tick sends one heartbeat to each other member of a valid communicator. That an acknowledgement can time out
only of an operation that has sent something, and of one that has ended too, is log 58's reading; an operation of an earlier installation
of the slot concerns the new one no more (R262). The events name what they concern, and one that may not act has no effect (log 4). -/
def Obligations.CommunicatorLoss : Prop :=
  ∀ (s : State) (slot : Nat) (m : Comm), s.chip.Whole → Sparse.get? s.chip.comms slot = some m →
    let invalid := fun (i : Instr) => ∃ s' m', exec i s = .next s' ∧ Sparse.get? s'.chip.comms slot = some m' ∧ m'.valid = false ∧
      m'.cid = m.cid ∧ m'.gen = m.gen ∧ m'.members = m.members ∧ ∀ k, k ≠ slot → Sparse.get? s'.chip.comms k = Sparse.get? s.chip.comms k
    ((s.chip.markInvalid slot).Whole →
      invalid (.refusalReceive slot) ∧
      (s.chip.commOf m.cid m.gen = some (slot, m) → invalid (.abortReceive m.cid m.gen)) ∧
      ((s.chip.commOps slot m).any EngineOp.awaits = true → invalid (.heartbeatTimeout slot)) ∧
      (∀ o, s.chip.engines.find? (fun y => y.id == o.id) = some o → o.comm = some (slot, m.cid, m.gen) → o.hasSent = true →
        m.valid = true → o.inst = m.inst → invalid (.ackTimeout o.id)) ∧
      (∀ op, s.chip.engines.find? (fun y => y.id == op) = none → s.chip.sentOps.find? (fun y => y.1 == op) = some (op, slot, m.cid, m.gen) →
        invalid (.ackTimeout op))) ∧
    ((s.chip.commOps slot m).any EngineOp.awaits = false → exec (.heartbeatTimeout slot) s = .next s) ∧
    (∀ o, s.chip.engines.find? (fun y => y.id == o.id) = some o →
      (o.hasSent = false → exec (.ackTimeout o.id) s = .next s) ∧
      (∀ cid gen, o.comm = some (slot, cid, gen) → o.inst ≠ m.inst → exec (.ackTimeout o.id) s = .next s)) ∧
    (∀ cid gen, s.chip.commOf cid gen = none → exec (.abortReceive cid gen) s = .next s) ∧
    (m.valid = true → exec (.heartbeatTick slot) s = .next (s.withChip { s.chip with
      outbox := s.chip.outbox ++ m.others.map fun r => .heartbeat (m.linkTo r) m.cid m.gen m.rank })) ∧
    (m.valid = false → exec (.heartbeatTick slot) s = .next s)

/-- R37, R266 and R267: bytes of an LSEND that the receiver has performed are counted, and a failure there ends the operation with FAULT;
a contribution is taken by its collective or kept for one to come, and a member with what it needs sends its parent the node of its own
values and those it took, or as rank 0 sends the root, that node converted once; the root is written and counted, one that comes before
its LRED has started when that has started. Elements on which the members visibly disagree are free values, those of an operation of an
earlier installation of the slot no members' (R262), and a member sends an empty contribution to the rank that would wait for it if they
disagree about AMODE (the model's form of R265, log 36). -/
def Obligations.LinkProgress : Prop :=
  ∀ (s : State) (o : EngineOp), s.chip.Whole →
    (∀ (slot : Nat) (m : Comm) (coll : Nat), o.isColl slot m coll = true ↔ o.inst = m.inst ∧
      ∃ q size rank own got order res next ended, q.slot = slot ∧
        o.kind = .lred q m.cid m.gen coll size rank own got order res next ended) ∧
    (s.chip.engines.find? (fun y => y.id == o.id) = some o → ∀ q cid gen sent ended, o.kind = .lsend q cid gen sent ended →
      o.landed < o.bytes →
      (∀ n, 1 ≤ n → n + (if ended then 0 else q.count - sent) ≤ o.bytes - o.landed → (s.chip.linkLand o n 0 0).Whole →
        exec (.lsendAck o.id n .ok) s = .next (s.withChip (s.chip.linkLand o n 0 0))) ∧
      (∀ n va, let d := s.chip.linkLand { o with kind := .lsend q cid gen sent true } o.bytes statusFault va (min q.count (va.toNat - q.dst.toNat))
        d.Whole → exec (.lsendAck o.id n (.fault va)) s = .next (s.withChip d))) ∧
    (∀ cid gen coll (x : RootFlit), s.chip.commOf cid gen = none →
      exec (.lredRoot cid gen coll x) s = .next (s.withChip (s.chip.send (.refusal cid gen x.rank)))) ∧
    (∀ x : Contribution, s.chip.commOf x.cid x.gen = none →
      exec (.lredContribution x) s = .next (s.withChip (s.chip.send (.refusal x.cid x.gen x.rank)))) ∧
    (∀ (x : Contribution) slot m, s.chip.commOf x.cid x.gen = some (slot, m) → s.chip.engines.find? (fun y => y.isColl slot m x.coll) = none →
      exec (.lredContribution x) s = .next (s.withChip
        (if m.coll ≤ x.coll ∧ ∀ y ∈ m.early, ¬ (y.coll = x.coll ∧ y.rank = x.rank) then
          { s.chip with comms := Sparse.set s.chip.comms slot { m with early := m.early ++ [x] } }
         else s.chip))) ∧
    (∀ slot m cid gen coll (x : RootFlit), s.chip.commOf cid gen = some (slot, m) →
      let keeps := exec (.lredRoot cid gen coll x) s = .next (s.withChip
        (if ∃ y ∈ m.roots, y.1 = coll then s.chip
         else { s.chip with comms := Sparse.set s.chip.comms slot { m with roots := m.roots ++ [(coll, x)] } }))
      let found := s.chip.engines.find? fun y => y.isColl slot m coll
      (found = none → m.coll ≤ coll → keeps) ∧ (found = none → coll < m.coll → exec (.lredRoot cid gen coll x) s = .next s) ∧
      (found = some o → o.started = false → keeps)) ∧
    (∀ q cid gen coll size rank own got order res next ended c vals, o.kind = .lred q cid gen coll size rank own got order res next ended →
      s.chip.contribute o q q.count 0 = (c, vals, none) →
      let own' := vals ++ List.replicate (q.count - vals.length) NodeVal.absent
      s.chip.lredStart o q = ((c.setEngine { o with
        started := true, kind := .lred q cid gen coll size rank own' got order res next ended }).lredAdvance o.id).lredKept o.id) ∧
    (∀ slot m q cid gen coll size rank own got order next ended x, s.chip.engines.find? (fun y => y.id == o.id) = some o →
      o.kind = .lred q cid gen coll size rank own got order none next ended → rank ≠ 0 → s.chip.commOf cid gen = some (slot, m) →
      m.roots.find? (fun y => y.1 == coll) = some (coll, x) →
      (o.isColl slot m coll = false → s.chip.lredKept o.id = s.chip) ∧
      (o.isColl slot m coll = true →
      let bits := q.taken s.chip.freeCtr x.vals
      let c : Chip := { s.chip with comms := Sparse.set s.chip.comms slot { m with roots := m.roots.filter fun z => z.1 != coll },
                                    freeCtr := s.chip.freeCtr + q.count }
      let o' := { o with kind := .lred q cid gen coll size rank own got order (some bits) next ended }
      s.chip.lredKept o.id =
        ((c.setEngine o').sendTo q.slot (q.below size rank) fun m l => .root l cid gen coll m.rank bits).lredLand o' o.bytes)) ∧
    (∀ slot m q cid gen coll size rank own got order next ended, s.chip.commOf cid gen = some (slot, m) →
      s.chip.engines.find? (fun y => y.isColl slot m coll) = some o → (s.chip.engines.map fun y => y.id).Nodup →
      Sparse.get? s.chip.comms q.slot = some m →
      o.kind = .lred q cid gen coll size rank own got order none next ended →
      (∀ r vals, r ∈ q.takes size rank → (∀ g ∈ got, g.1 ≠ r) →
        let o' := { o with kind := .lred q cid gen coll size rank own (got ++ [(r, vals)]) (order ++ [r]) none next ended }
        let node := q.gather size rank own (got ++ [(r, vals)]) (order ++ [r])
        let done := o.started = true ∧ ∀ k ∈ q.takes size rank, k = r ∨ ∃ g ∈ got, g.1 = k
        ∃ s', exec (.lredContribution { cid := cid, gen := gen, coll := coll, rank := r, vals := vals }) s = .next s' ∧
          (¬ done → s'.chip.engines = (s.chip.setEngine o').engines ∧ s'.chip.outbox = s.chip.outbox) ∧
          (done → rank ≠ 0 → s'.chip.engines = (s.chip.setEngine o').engines ∧ node.length = q.count ∧
            s'.chip.outbox = s.chip.outbox ++ .contribution (m.linkTo (q.parent rank))
              { cid := cid, gen := gen, coll := coll, rank := m.rank, vals := node } :: (q.also rank).map fun k => .contribution
              (m.linkTo k) { cid := cid, gen := gen, coll := coll, rank := m.rank, vals := [] }) ∧
          (done → rank = 0 → ∃ root, root.length = q.count ∧ (q.agrees size own (got ++ [(r, vals)]) = true → root = node.map q.root) ∧
            s'.chip.engines = (s.chip.setEngine { o with
              kind := .lred q cid gen coll size rank own (got ++ [(r, vals)]) (order ++ [r]) (some root) next ended }).engines ∧
            s'.chip.outbox = s.chip.outbox ++ (q.below size 0).map fun k => .root (m.linkTo k) cid gen coll m.rank root)) ∧
      (∀ x : RootFlit, o.started = true → rank ≠ 0 →
        let bits := q.taken s.chip.freeCtr x.vals
        let c : Chip := { s.chip with freeCtr := s.chip.freeCtr + q.count }
        let o' := { o with kind := .lred q cid gen coll size rank own got order (some bits) next ended }
        let d := ((c.setEngine o').sendTo q.slot (q.below size rank) fun m l => .root l cid gen coll m.rank bits).lredLand o' o.bytes
        d.Whole → exec (.lredRoot cid gen coll x) s = .next (s.withChip d)))

/-- R155, R223 and R441: an access of a peer window is performed on what this device's host exports and answered, and refused outside it;
CXL.mem reads and writes bytes as they stand. A write of either, the write of an atomic among them, leaves the bytes of a cell that is not
VALUE, and touches no tag. A write to the source, the new frame or the map of a migrating page leaves the lines that it touches undefined
(R219). The numbering of the exported ranges is log 20's, the cells' part log 59's and 62's, and the free values of lines that a migration
leaves undefined are log 37's. -/
def Obligations.OutsideAccesses : Prop :=
  ∀ (s : State) (p : Place) (pa : Nat), s.chip.Whole →
    let c := s.chip
    let lands := fun (bs : List Byte) (s' : State) => s'.chip.tags = c.tags ∧ s'.chip.strands = c.strands ∧
      let defined (a : Nat) : Prop := ∀ x ∈ c.spoilt p pa bs.length, a < physKey x.1 x.2 ∨ physKey x.1 x.2 + 64 ≤ a
      (∀ i, i < bs.length → defined (physKey p (pa + i)) → s'.chip.mem.byte (physKey p (pa + i)) =
        if c.tagAt p (pa + i) = tagValue then bs.getD i 0 else c.mem.byte (physKey p (pa + i))) ∧
      (∀ a, a < physKey p pa ∨ physKey p pa + bs.length ≤ a → defined a → s'.chip.mem.byte a = c.mem.byte a)
    (∀ dev n,
      (c.exportsHere p pa n = true →
        exec (.peerWindowRequest dev (.read p pa n)) s = .next (s.withChip (c.send (.peerReply dev (c.readPhys p pa n) true)))) ∧
      (c.exportsHere p pa n = false →
        exec (.peerWindowRequest dev (.read p pa n)) s = .next (s.withChip (c.send (.peerReply dev [] false))))) ∧
    (∀ dev bs, c.exportsHere p pa bs.length = true → c.touchesCell p pa bs.length = false →
      exec (.peerWindowRequest dev (.write p pa bs)) s = .next (s.withChip
        (((c.writePhys p pa bs).spoil (c.spoilt p pa bs.length)).send (.peerReply dev [] true)))) ∧
    (∀ dev bs, c.exportsHere p pa bs.length = false →
      exec (.peerWindowRequest dev (.write p pa bs)) s = .next (s.withChip (c.send (.peerReply dev [] false)))) ∧
    (∀ dev op (et : ElemType) rm v, c.exportsHere p pa (et.width / 8) = false →
      exec (.peerWindowRequest dev (.atomic p pa op et rm v)) s = .next (s.withChip (c.send (.peerReply dev [] false)))) ∧
    (∀ dev n cmp v, c.exportsHere p pa n = false →
      exec (.peerWindowRequest dev (.swap p pa n cmp v)) s = .next (s.withChip (c.send (.peerReply dev [] false)))) ∧
    (∀ dev, c.mem.wf = true →
      let answers := fun (r : PeerRequest) (bs reply : List Byte) => c.exportsHere p pa bs.length = true →
        ∃ s', exec (.peerWindowRequest dev r) s = .next s' ∧ lands bs s' ∧ s'.chip.outbox = c.outbox ++ [.peerReply dev reply true]
      (∀ bs, answers (.write p pa bs) bs []) ∧
      (∀ op et rm v, let n := et.width / 8
        answers (.atomic p pa op et rm v)
          (leBytes n (atomNew op et rm.toNat 0 n (leNat (c.readPhys p pa n)) (v.toNat % 2 ^ (8 * n)))) (c.readPhys p pa n)) ∧
      (∀ n cmp v, answers (.swap p pa n cmp v)
        (if leNat (c.readPhys p pa n) = cmp.toNat % 2 ^ (8 * n) then leBytes n (v.toNat % 2 ^ (8 * n)) else c.readPhys p pa n)
        (c.readPhys p pa n))) ∧
    (∀ dev op et rm v, let n := et.width / 8
      c.exportsHere p pa n = true → c.touchesCell p pa n = false →
      exec (.peerWindowRequest dev (.atomic p pa op et rm v)) s = .next (s.withChip
        (((c.writePhys p pa (leBytes n (atomNew op et rm.toNat 0 n (leNat (c.readPhys p pa n)) (v.toNat % 2 ^ (8 * n))))).spoil
          (c.spoilt p pa n)).send (.peerReply dev (c.readPhys p pa n) true)))) ∧
    (∀ dev n cmp v, c.exportsHere p pa n = true → c.touchesCell p pa n = false →
      exec (.peerWindowRequest dev (.swap p pa n cmp v)) s = .next (s.withChip
        (((c.writePhys p pa (if leNat (c.readPhys p pa n) = cmp.toNat % 2 ^ (8 * n) then leBytes n (v.toNat % 2 ^ (8 * n))
          else c.readPhys p pa n)).spoil (c.spoilt p pa n)).send (.peerReply dev (c.readPhys p pa n) true)))) ∧
    (cxlPlace p = true →
      (∀ n, Place.has p pa n = true → exec (.cxlMemAccess (.read p pa n)) s = .next (s.withChip (c.send (.cxlData (c.readPhys p pa n))))) ∧
      (∀ bs, Place.has p pa bs.length = true → c.mem.wf = true →
        ∃ s', exec (.cxlMemAccess (.write p pa bs)) s = .next s' ∧ lands bs s'))

/-- R218, R225 and R226: a dirty line's write-back writes its dirty bytes only; a posted write reaches its owner unless an older one of
its core meets it; the owner of a migrating page pulls its first absent line with a copy of the source's bytes. That posted accesses and
write-backs are steps of their own is the model's form (logs 7 and 8), and so is that a step that may not act has no effect (log 4). -/
def Obligations.MemoryTraffic : Prop :=
  ∀ s : State, s.chip.Whole → s.chip.mem.wf = true →
    let c := s.chip
    (∀ core ctx va evict (l : L1Line), c.posted = [] → l.mig = none → l.dirty ≠ 0 → Place.has l.place l.pa 64 = true →
      (c.core core).l1.filter (fun y => y.meets ctx (lineOf va) (lineOf va + 64)) = [l] →
      ∃ s', exec (.dirtyLineWriteBack core ctx va evict) s = .next s' ∧
        (∀ i, i < 64 → s'.chip.mem.byte (physKey l.place (l.pa + i)) =
          if bit l.dirty i then bits l.data (8 * i) 8 else c.mem.byte (physKey l.place (l.pa + i))) ∧
        (∀ a, a < physKey l.place l.pa ∨ physKey l.place l.pa + 64 ≤ a → s'.chip.mem.byte a = c.mem.byte a) ∧
        (∀ y ∈ (s'.chip.core core).l1, y.meets ctx (lineOf va) (lineOf va + 64) = true → evict = false ∧ y = { l with dirty := 0 })) ∧
    (∀ p, c.posted.filter (fun q => q.id == p.id) = [p] →
      ((∀ q ∈ c.posted, q.id < p.id → q.core = p.core → q.meets p.place p.pa p.len = false) →
        let d := ({ c with posted := c.posted.filter fun q => !(q.id == p.id) } : Chip).perform p
        (d.Whole → exec (.ownerAccess p.id) s = .next (s.withChip d)) ∧
        (∀ bs, p.work = .inl bs → p.mig = none → Place.has p.place p.pa bs.length = true →
          d.Whole ∧ d.readPhys p.place p.pa bs.length = bs)) ∧
      ((∃ q ∈ c.posted, q.id < p.id ∧ q.core = p.core ∧ q.meets p.place p.pa p.len = true) →
        exec (.ownerAccess p.id) s = .next s)) ∧
    (∀ ctx va,
      (c.migrating ctx va = none → exec (.migrationPull ctx va) s = .next s) ∧
      (∀ m, c.migrating ctx va = some m → c.absentLine m 0 (m.size / 64) = none → (c.migDone m).Whole → exec (.migrationPull ctx va) s = .next (s.withChip (c.migDone m)) ∧
        bit (((c.migDone m).readPhys (.near m.die) m.rcd 1).headD 0) 7 =
          (bit ((c.readPhys (.near m.die) m.rcd 1).headD 0) 7 || Memory.allOnes (m.size / 512) (physKey (.near m.die) (m.rcd + 64))
            (Memory.from (physKey (.near m.die) (m.rcd + 64)) c.mem))) ∧
      (∀ m i sp src np new, c.migrating ctx va = some m → c.absentLine m 0 (m.size / 64) = some i → i < m.size / 64 →
        c.migHeader m.die m.rcd m.size false = some (sp, src, np, new) → Place.index np ≠ m.die → (c.pullLine m i).Whole →
        exec (.migrationPull ctx va) s = .next (s.withChip (c.pullLine m i)) ∧
        (c.pullLine m i).readPhys np (new + 64 * i) 64 = c.readPhys sp (src + 64 * i) 64 ∧
        bit (((c.pullLine m i).readPhys (.near m.die) (m.rcd + 64 + i / 8) 1).headD 0) (i % 8) = true))

/-- Every step keeps memory and the tags of cells in their canonical form: keys rise strictly, and no listed byte is what an unlisted one
reads as. -/
def Obligations.CanonicalKept : Prop := ∀ s s' : State, s.chip.Canonical → step s = .next s' → s'.chip.Canonical

/-- Every step keeps the hub controller's reserved bits 0 and its short fields in range (the masks are the model's, log 67), those of
PEERRT among them, which stands in the chip. -/
def Obligations.HubReservedKept : Prop :=
  ∀ s s' : State, step s = .next s' → (s.hc.Reserved → s'.hc.Reserved) ∧ (s.chip.RoutesReserved → s'.chip.RoutesReserved)

/-- No instruction of a strand changes a register of the hub controller, those that stand in the chip among them (PEERRT, and the export
ranges, registers by log 20's choice), a power limit, or the turns to come. -/
def Obligations.StrandsKeepHub : Prop :=
  ∀ (i : Instr) (s s' : State), i.toOpcode ≠ none → exec i s = .next s' → s'.hc = s.hc ∧ s'.agenda = s.agenda ∧
    s'.chip.peerRoutes = s.chip.peerRoutes ∧ s'.chip.exports = s.chip.exports

/-- R153, R258, R260, R441 and R449: the machine right after reset, and that it has the form the other statements keep (the forms are logs
2 and 67's). That the error counters are 0 is log 13's choice. -/
def Obligations.ResetState : Prop :=
  State.reset.chip.Whole ∧ State.reset.chip.Canonical ∧ State.reset.hc.Reserved ∧ State.reset.chip.RoutesReserved ∧
    State.reset.hc.status = 0 ∧ State.reset.hc.ctlq = 0 ∧ State.reset.hc.saveBase = 0 ∧ State.reset.hc.saveLen = 0 ∧
    State.reset.hc.partLayout = 0 ∧ State.reset.hc.commStat = 0 ∧
    (∀ l, (State.reset.chip.link l).state = .off ∧ (State.reset.chip.link l).fails = 0 ∧ (State.reset.chip.link l).replays = 0) ∧
    (∀ p pa, State.reset.chip.tagAt p pa = tagValue) ∧ (∀ n, State.reset.chip.ctx n = none) ∧ (∀ n, State.reset.chip.queue n = none) ∧
    (∀ n, Sparse.getD State.reset.chip.errCounts n 0 = 0)
end

