-- ==== Sys2Proof/Laws/Memory.lean ====
section
/-! SUPPORT. Laws of memory: a write keeps the canonical form, a read after a write gives what was written, and every other byte stays. -/

namespace Sys2Proof.Machine

/-- The canonical form, said of every entry: bytes that differ from the unlisted one, keys strictly rising and none below `lo`. -/
def Memory.Above (lo : Nat) : Memory → Prop
  | [] => True
  | (a, b) :: rest => lo ≤ a ∧ b ≠ Memory.unlisted ∧ Memory.Above (a + 1) rest

theorem Memory.Above.weaken {m : Memory} {lo lo' : Nat} (h : Memory.Above lo m) (hl : lo' ≤ lo) : Memory.Above lo' m := by
  cases m with
  | nil => trivial
  | cons x rest => exact ⟨by have := h.1; omega, h.2⟩

theorem Memory.wf_iff (m : Memory) : m.wf = true ↔ Memory.Above 0 m := by
  induction m with
  | nil => simp [Memory.wf, Memory.Above]
  | cons x rest ih =>
    obtain ⟨a, b⟩ := x
    cases rest with
    | nil => simp [Memory.wf, Memory.Above]
    | cons y rest' =>
      obtain ⟨a', b'⟩ := y
      simp only [Memory.wf, Bool.and_eq_true, decide_eq_true_eq, ih, Memory.Above, bne_iff_ne, Nat.zero_le, true_and]
      constructor
      · rintro ⟨⟨h1, h2⟩, h3, h4⟩; exact ⟨h1, by omega, h3, h4⟩
      · rintro ⟨h1, h2, h3, h4⟩; exact ⟨⟨h1, by omega⟩, h3, h4⟩

/-- Every entry's key is below `a`. -/
def Memory.Under (a : Nat) : Memory → Prop := fun m => ∀ x ∈ m, x.1 < a

theorem Memory.above_append {m n : Memory} {lo mid : Nat} (h : Memory.Above lo m) (hu : Memory.Under mid m)
    (hn : Memory.Above mid n) (hl : lo ≤ mid) : Memory.Above lo (m ++ n) := by
  induction m generalizing lo with
  | nil => exact hn.weaken hl
  | cons x rest ih =>
    have hx : x.1 < mid := hu x (by simp)
    exact ⟨h.1, h.2.1, ih h.2.2 (fun y hy => hu y (by simp [hy])) hx⟩

theorem Memory.above_below {m : Memory} {lo : Nat} (a : Nat) (h : Memory.Above lo m) :
    Memory.Above lo (Memory.below a m) ∧ Memory.Under a (Memory.below a m) := by
  induction m generalizing lo with
  | nil => exact ⟨trivial, by simp [Memory.below, Memory.Under]⟩
  | cons x rest ih =>
    obtain ⟨k, b⟩ := x
    unfold Memory.below
    split
    · refine ⟨⟨h.1, h.2.1, (ih h.2.2).1⟩, ?_⟩
      intro y hy
      rcases List.mem_cons.1 hy with hy | hy
      · subst hy; assumption
      · exact (ih h.2.2).2 y hy
    · exact ⟨trivial, by simp [Memory.Under]⟩

theorem Memory.above_from {m : Memory} {lo : Nat} (a : Nat) (h : Memory.Above lo m) : Memory.Above a (Memory.from a m) := by
  induction m generalizing lo with
  | nil => trivial
  | cons x rest ih =>
    obtain ⟨k, b⟩ := x
    unfold Memory.from
    split
    · exact ih h.2.2
    · exact ⟨by omega, h.2⟩

theorem Memory.above_cells (a : Nat) (bs : List Byte) :
    Memory.Above a (Memory.cells a bs) ∧ Memory.Under (a + bs.length) (Memory.cells a bs) := by
  induction bs generalizing a with
  | nil => exact ⟨trivial, by simp [Memory.cells, Memory.Under]⟩
  | cons b bs ih =>
    have h := ih (a + 1)
    have e : a + 1 + bs.length = a + (b :: bs).length := by simp; omega
    unfold Memory.cells
    split
    · exact ⟨h.1.weaken (by omega), e ▸ h.2⟩
    · refine ⟨⟨Nat.le_refl a, ‹_›, h.1⟩, ?_⟩
      intro y hy
      rcases List.mem_cons.1 hy with hy | hy
      · subst hy; simp
      · have := h.2 y hy; omega

/-- A write keeps the canonical form of memory. -/
theorem Memory.write_wf {m : Memory} (h : m.wf = true) (a : Nat) (bs : List Byte) : (m.write a bs).wf = true := by
  rw [Memory.wf_iff] at *
  have hb := Memory.above_below a h
  have hc := Memory.above_cells a bs
  have hf := Memory.above_from (a + bs.length) h
  exact Memory.above_append hb.1 hb.2 (Memory.above_append hc.1 hc.2 hf (by omega)) (by omega)

/-- Cutting an interval out keeps the canonical form. -/
theorem Memory.cut_wf {m : Memory} (h : m.wf = true) {a b : Nat} (hl : a ≤ b) :
    (Memory.below a m ++ Memory.from b m : Memory).wf = true :=
  (Memory.wf_iff _).2 (Memory.above_append (Memory.above_below a ((Memory.wf_iff m).1 h)).1
    (fun x hx => Nat.lt_of_lt_of_le ((Memory.above_below a ((Memory.wf_iff m).1 h)).2 x hx) hl)
    (Memory.above_from b ((Memory.wf_iff m).1 h)) (Nat.zero_le _))

/-! ### Reading -/

theorem Memory.byte_low {m : Memory} {lo a : Nat} (h : Memory.Above lo m) (ha : a < lo) : m.byte a = Memory.unlisted := by
  induction m generalizing lo with
  | nil => rfl
  | cons x rest ih =>
    obtain ⟨k, b⟩ := x
    have := h.1
    simp only [Memory.byte, if_neg (show ¬ k = a by omega)]
    exact ih h.2.2 (by omega)

theorem Memory.byte_append {m n : Memory} {mid : Nat} (hu : Memory.Under mid m) (hn : Memory.Above mid n) (a : Nat) :
    Memory.byte (m ++ n) a = if a < mid then m.byte a else n.byte a := by
  induction m with
  | nil =>
    split
    · exact Memory.byte_low hn ‹_›
    · rfl
  | cons x rest ih =>
    obtain ⟨k, b⟩ := x
    have hk : k < mid := hu (k, b) (by simp)
    have ih' := ih (fun y hy => hu y (by simp [hy]))
    simp only [List.cons_append, Memory.byte, ih']
    by_cases hka : k = a
    · subst hka; simp [hk]
    · simp [hka]

theorem Memory.byte_below {m : Memory} {lo : Nat} (h : Memory.Above lo m) {a i : Nat} (hi : i < a) :
    (Memory.below a m).byte i = m.byte i := by
  induction m generalizing lo with
  | nil => rfl
  | cons x rest ih =>
    obtain ⟨k, b⟩ := x
    unfold Memory.below
    split
    · simp only [Memory.byte, ih h.2.2]
    · have hl : Memory.Above a rest := h.2.2.weaken (by omega)
      simp only [Memory.byte, if_neg (show ¬ k = i by omega)]
      exact (Memory.byte_low hl hi).symm

theorem Memory.byte_from {m : Memory} {lo : Nat} (h : Memory.Above lo m) {a i : Nat} (hi : a ≤ i) :
    (Memory.from a m).byte i = m.byte i := by
  induction m generalizing lo with
  | nil => rfl
  | cons x rest ih =>
    obtain ⟨k, b⟩ := x
    unfold Memory.from
    split
    · simp only [Memory.byte, if_neg (show ¬ k = i by omega), ih h.2.2]
    · rfl

theorem Memory.byte_cells (a : Nat) (bs : List Byte) (i : Nat) :
    (Memory.cells a bs).byte (a + i) = bs.getD i Memory.unlisted := by
  induction bs generalizing a i with
  | nil => rfl
  | cons b bs ih =>
    have hlow : (Memory.cells (a + 1) bs).byte a = Memory.unlisted := Memory.byte_low (Memory.above_cells (a + 1) bs).1 (by omega)
    cases i with
    | zero =>
      unfold Memory.cells
      split
      · subst_vars; simpa using hlow
      · simp [Memory.byte]
    | succ i =>
      have e : a + (i + 1) = (a + 1) + i := by omega
      unfold Memory.cells
      split
      · rw [e, ih]; simp
      · simp only [Memory.byte, if_neg (show ¬ a = a + (i + 1) by omega)]
        rw [e, ih]; simp

/-- What a byte reads as after a write. -/
theorem Memory.byte_write {m : Memory} (h : m.wf = true) (a : Nat) (bs : List Byte) (i : Nat) :
    (m.write a bs).byte i = if a ≤ i ∧ i < a + bs.length then bs.getD (i - a) Memory.unlisted else m.byte i := by
  rw [Memory.wf_iff] at h
  have hb := Memory.above_below a h
  have hc := Memory.above_cells a bs
  have hf := Memory.above_from (a + bs.length) h
  have h2 : Memory.Above a (Memory.cells a bs ++ Memory.from (a + bs.length) m) := Memory.above_append hc.1 hc.2 hf (by omega)
  unfold Memory.write
  rw [Memory.byte_append hb.2 h2, Memory.byte_append hc.2 hf]
  by_cases h1 : i < a
  · rw [if_pos h1, if_neg (by omega), Memory.byte_below h h1]
  · rw [if_neg h1]
    by_cases h3 : i < a + bs.length
    · rw [if_pos h3, if_pos (by omega)]
      obtain ⟨j, rfl⟩ : ∃ j, i = a + j := ⟨i - a, by omega⟩
      rw [Memory.byte_cells]; simp
    · rw [if_neg h3, if_neg (by omega), Memory.byte_from h (by omega)]

theorem Memory.take_eq {m : Memory} {lo : Nat} (n a : Nat) (h : Memory.Above lo m) (hl : a ≤ lo) :
    Memory.take n a m = (List.range n).map fun i => m.byte (a + i) := by
  induction n generalizing a m lo with
  | zero => rfl
  | succ n ih =>
    rw [List.range_succ_eq_map, List.map_cons, List.map_map]
    have e (m' : Memory) : (fun i => m'.byte (a + i)) ∘ Nat.succ = fun i => m'.byte (a + 1 + i) := by
      funext i; simp only [Function.comp]; congr 1; omega
    cases m with
    | nil =>
      unfold Memory.take
      rw [e, ih (m := []) (lo := a + 1) (a + 1) trivial (Nat.le_refl _)]; rfl
    | cons x rest =>
      obtain ⟨k, b⟩ := x
      unfold Memory.take
      have hk : lo ≤ k := h.1
      split
      · subst_vars
        rw [ih (m := rest) (k + 1) h.2.2 (Nat.le_refl _), e]
        congr 1
        · simp [Memory.byte]
        · apply List.map_congr_left
          intro i _
          simp [Memory.byte, show k ≠ k + 1 + i by omega]
      · rw [ih (m := (k, b) :: rest) (lo := a + 1) (a + 1) ⟨by omega, h.2⟩ (Nat.le_refl _), e]
        congr 1
        have : Memory.byte ((k, b) :: rest) a = Memory.unlisted :=
          Memory.byte_low (lo := a + 1) ⟨by omega, h.2⟩ (by omega)
        simpa using this.symm

/-- A read gives the bytes one by one. -/
theorem Memory.read_eq {m : Memory} (h : m.wf = true) (a n : Nat) : m.read a n = (List.range n).map fun i => m.byte (a + i) := by
  rw [Memory.wf_iff] at h
  unfold Memory.read
  rw [Memory.take_eq n a (Memory.above_from a h) (Nat.le_refl a)]
  apply List.map_congr_left
  intro i _
  exact Memory.byte_from h (by omega)

/-- A read of what was just written gives it back. -/
theorem Memory.read_write {m : Memory} (h : m.wf = true) (a : Nat) (bs : List Byte) : (m.write a bs).read a bs.length = bs := by
  rw [Memory.read_eq (Memory.write_wf h a bs)]
  apply List.ext_getElem
  · simp
  · intro i h1 h2
    simp only [List.getElem_map, List.getElem_range]
    rw [Memory.byte_write h, if_pos (by omega)]
    simp [h2]

/-! ### Memory of the device -/

/-- What a write by physical address can do: inside the memory it changes the bytes, outside it stops the machine. -/
theorem Chip.writePhys_has {c : Chip} {p : Place} {pa : Nat} {bs : List Byte} (h : Place.has p pa bs.length = true) :
    c.writePhys p pa bs = { c with mem := c.mem.write (physKey p pa) bs } := by
  simp [Chip.writePhys, h]

/-- A write by physical address changes memory, or stops the machine, and nothing else. -/
theorem Chip.writePhys_frame (c : Chip) (p : Place) (pa : Nat) (bs : List Byte) :
    ∃ m h, c.writePhys p pa bs = { c with mem := m, halt := h } ∧ (c.mem.wf = true → m.wf = true) := by
  unfold Chip.writePhys
  split
  · exact ⟨_, c.halt, rfl, fun h => Memory.write_wf h _ _⟩
  · exact ⟨c.mem, _, rfl, id⟩

theorem Chip.writePhys_wf {c : Chip} (h : c.mem.wf = true) (p : Place) (pa : Nat) (bs : List Byte) : (c.writePhys p pa bs).mem.wf = true := by
  obtain ⟨m, x, e, hm⟩ := c.writePhys_frame p pa bs
  rw [e]; exact hm h

theorem Chip.writeWord_wf {c : Chip} (h : c.mem.wf = true) (p : Place) (pa : Nat) (w : W64) : (c.writeWord p pa w).mem.wf = true :=
  Chip.writePhys_wf h _ _ _

/-- Where no page that a write of the hub meets is migrating, it is a write by physical address alone. -/
theorem Chip.hubWrite_plain {c : Chip} {pa : Nat} {bs : List Byte} (h : c.spoilt .host pa bs.length = []) :
    c.hubWrite pa bs = c.writePhys .host pa bs := by
  simp [Chip.hubWrite, h, Chip.spoil]

@[simp] theorem Chip.absent_mem (c : Chip) (p : Place) (pa : Nat) : (c.absent p pa).mem = c.mem := rfl

/-- A tag changes no byte. -/
@[simp] theorem Chip.setTag_mem (c : Chip) (p : Place) (pa : Nat) (t : BitVec 2) : (c.setTag p pa t).mem = c.mem := rfl

@[simp] theorem Chip.copyTags_mem (c : Chip) (sp : Place) (src : Nat) (np : Place) (new : Nat) : (c.copyTags sp src np new).mem = c.mem := by
  unfold Chip.copyTags
  split
  · rfl
  · generalize List.range 4 = ls
    induction ls generalizing c with
    | nil => rfl
    | cons i ls ih => simp only [List.foldl_cons]; rw [ih]; rfl

theorem Chip.migDone_wf {c : Chip} (h : c.mem.wf = true) (m : Mig) : (c.migDone m).mem.wf = true := by
  unfold Chip.migDone
  dsimp only
  split
  · exact Chip.writePhys_wf h _ _ _
  · exact h

theorem Chip.pullLine_wf {c : Chip} (h : c.mem.wf = true) (m : Mig) (line : Nat) : (c.pullLine m line).mem.wf = true := by
  unfold Chip.pullLine
  split
  · exact h
  · dsimp only
    split
    · exact h
    · exact Chip.migDone_wf (Chip.writePhys_wf (by rw [Chip.copyTags_mem]; exact Chip.writePhys_wf h _ _ _) _ _ _) _

theorem foldl_keeps {α β : Type} {P : β → Prop} {f : β → α → β} (h : ∀ b a, P b → P (f b a)) (ls : List α) {b : β} (hb : P b) :
    P (ls.foldl f b) := by
  induction ls generalizing b with
  | nil => exact hb
  | cons a ls ih => exact ih (h b a hb)

theorem Chip.pull_wf {c : Chip} (h : c.mem.wf = true) (m : Option Mig) (n : Nat) : (c.pull m n).mem.wf = true := by
  unfold Chip.pull
  split
  · exact h
  · exact foldl_keeps (P := fun c : Chip => c.mem.wf = true) (fun c i hc => Chip.pullLine_wf hc _ _) _ h

theorem Chip.readXl_wf {c : Chip} (h : c.mem.wf = true) (x : Xl) (n : Nat) : (c.readXl x n).1.mem.wf = true := Chip.pull_wf h _ _

theorem Chip.writeXl_wf {c : Chip} (h : c.mem.wf = true) (x : Xl) (bs : List Byte) : (c.writeXl x bs).mem.wf = true :=
  Chip.writePhys_wf (Chip.pull_wf h _ _) _ _ _

end Sys2Proof.Machine
end

