-- ==== Sys2Proof/Laws/Sparse.lean ====
section
/-! SUPPORT. Laws of the finite maps of the state. -/

namespace Sys2Proof.Machine

/-- A map's keys rise. -/
def Sparse.Rising {α : Type} : Sparse α → Prop
  | [] => True
  | (k, _) :: rest => (∀ x ∈ rest, k < x.1) ∧ Sparse.Rising rest

@[simp] theorem Sparse.get?_nil {α : Type} (i : Nat) : Sparse.get? ([] : Sparse α) i = none := rfl

@[simp] theorem Sparse.get?_set_self {α : Type} (m : Sparse α) (i : Nat) (v : α) : Sparse.get? (Sparse.set m i v) i = some v := by
  induction m with
  | nil => simp [Sparse.set, Sparse.get?]
  | cons x rest ih =>
    obtain ⟨k, w⟩ := x
    unfold Sparse.set
    split
    · simp_all [Sparse.get?]
    · split
      · simp [Sparse.get?]
      · simp_all [Sparse.get?]

theorem Sparse.get?_set_ne {α : Type} (m : Sparse α) {i j : Nat} (v : α) (h : j ≠ i) :
    Sparse.get? (Sparse.set m i v) j = Sparse.get? m j := by
  induction m with
  | nil => simp [Sparse.set, Sparse.get?, Ne.symm h]
  | cons x rest ih =>
    obtain ⟨k, w⟩ := x
    unfold Sparse.set
    split
    · subst_vars
      simp only [Sparse.get?, if_neg (Ne.symm h)]
    · split
      · rename_i h1 h2
        simp only [Sparse.get?]
        rw [if_neg (Ne.symm h)]
        by_cases hj : j < i
        · have : ¬ k = j := by omega
          have : j < k := by omega
          simp [*]
        · simp [hj]
      · simp only [Sparse.get?, ih]

theorem Sparse.get?_set {α : Type} (m : Sparse α) (i j : Nat) (v : α) :
    Sparse.get? (Sparse.set m i v) j = if j = i then some v else Sparse.get? m j := by
  split
  · subst_vars; simp
  · exact Sparse.get?_set_ne m v ‹_›

@[simp] theorem Sparse.getD_set_self {α : Type} (m : Sparse α) (i : Nat) (v d : α) : Sparse.getD (Sparse.set m i v) i d = v := by
  simp [Sparse.getD]

theorem Sparse.getD_set {α : Type} (m : Sparse α) (i j : Nat) (v d : α) :
    Sparse.getD (Sparse.set m i v) j d = if j = i then v else Sparse.getD m j d := by
  simp only [Sparse.getD, Sparse.get?_set]
  split <;> rfl

theorem Sparse.mem_set {α : Type} {m : Sparse α} {i : Nat} {v : α} {x : Nat × α} (h : x ∈ Sparse.set m i v) :
    x = (i, v) ∨ x ∈ m := by
  induction m with
  | nil => simpa [Sparse.set] using h
  | cons y rest ih =>
    obtain ⟨k, w⟩ := y
    unfold Sparse.set at h
    split at h
    · subst_vars
      rcases List.mem_cons.1 h with h | h <;> simp [h]
    · split at h
      · rcases List.mem_cons.1 h with h | h <;> simp_all
      · rcases List.mem_cons.1 h with h | h
        · simp [h]
        · rcases ih h with h | h <;> simp [h]

theorem Sparse.Rising.set {α : Type} {m : Sparse α} (h : Sparse.Rising m) (i : Nat) (v : α) : Sparse.Rising (Sparse.set m i v) := by
  induction m with
  | nil => simp [Sparse.set, Sparse.Rising]
  | cons x rest ih =>
    obtain ⟨k, w⟩ := x
    obtain ⟨h1, h2⟩ := h
    unfold Sparse.set
    split
    · exact ⟨h1, h2⟩
    · split
      · refine ⟨?_, h1, h2⟩
        intro y hy
        rcases List.mem_cons.1 hy with hy | hy
        · subst hy; assumption
        · have := h1 y hy; omega
      · refine ⟨?_, ih h2⟩
        intro y hy
        rcases Sparse.mem_set hy with hy | hy
        · subst hy; simp only; omega
        · exact h1 y hy

theorem Sparse.get?_lt {α : Type} {m : Sparse α} {i : Nat} (h : ∀ x ∈ m, i < x.1) : Sparse.get? m i = none := by
  cases m with
  | nil => rfl
  | cons x rest =>
    obtain ⟨k, w⟩ := x
    have := h (k, w) (by simp)
    simp only at this
    simp [Sparse.get?, show k ≠ i by omega, this]

theorem Sparse.get?_erase_self {α : Type} {m : Sparse α} (h : Sparse.Rising m) (i : Nat) : Sparse.get? (Sparse.erase m i) i = none := by
  induction m with
  | nil => rfl
  | cons x rest ih =>
    obtain ⟨k, w⟩ := x
    obtain ⟨h1, h2⟩ := h
    unfold Sparse.erase
    split
    · subst_vars; exact Sparse.get?_lt h1
    · simp only [Sparse.get?, if_neg ‹¬ k = i›]
      split
      · rfl
      · exact ih h2

@[simp] theorem Sparse.update_none {α : Type} {m : Sparse α} {i : Nat} (f : α → α) (h : Sparse.get? m i = none) : Sparse.update m i f = m := by
  simp [Sparse.update, h]

theorem Sparse.get?_update_self {α : Type} (m : Sparse α) (i : Nat) (f : α → α) :
    Sparse.get? (Sparse.update m i f) i = (Sparse.get? m i).map f := by
  unfold Sparse.update
  split <;> simp_all

end Sys2Proof.Machine
end

