-- ==== Sys2Proof/Laws/Canonical.lean ====
section
/-! SUPPORT. Every operation over memory and tags keeps their canonical form (`Chip.Canonical`), and so does every change of the chip that
touches neither. -/

namespace Sys2Proof.Machine

/-- A change that touches neither memory nor tags. -/
theorem Chip.Canonical.of_eq {c d : Chip} (h : c.Canonical) (hm : d.mem = c.mem) (ht : d.tags = c.tags) : d.Canonical := by
  unfold Chip.Canonical; rw [hm, ht]; exact h

theorem Sparse.pairwise_set {α : Type} {m : Sparse α} (h : m.Pairwise fun a b => a.1 < b.1) (i : Nat) (v : α) :
    (Sparse.set m i v).Pairwise fun a b => a.1 < b.1 := by
  induction m with
  | nil => simp [Sparse.set]
  | cons x rest ih =>
    obtain ⟨k, w⟩ := x
    obtain ⟨h1, h2⟩ := List.pairwise_cons.1 h
    unfold Sparse.set
    split
    · exact List.pairwise_cons.2 ⟨h1, h2⟩
    · split
      · refine List.pairwise_cons.2 ⟨?_, h⟩
        intro y hy
        rcases List.mem_cons.1 hy with hy | hy
        · subst hy; assumption
        · exact Nat.lt_trans ‹_› (h1 y hy)
      · refine List.pairwise_cons.2 ⟨?_, ih h2⟩
        intro y hy
        rcases Sparse.mem_set hy with hy | hy
        · subst hy; simp only; omega
        · exact h1 y hy

theorem Sparse.erase_sublist {α : Type} (m : Sparse α) (i : Nat) : (Sparse.erase m i).Sublist m := by
  induction m with
  | nil => exact .slnil
  | cons x rest ih =>
    unfold Sparse.erase
    split
    · exact List.sublist_cons_self _ _
    · exact ih.cons_cons _

theorem Chip.Canonical.writePhys {c : Chip} (h : c.Canonical) (p : Place) (pa : Nat) (bs : List Byte) : (c.writePhys p pa bs).Canonical := by
  obtain ⟨m, x, e, hm⟩ := c.writePhys_frame p pa bs
  rw [e]; exact ⟨hm h.1, h.2⟩

theorem Chip.Canonical.writeWord {c : Chip} (h : c.Canonical) (p : Place) (pa : Nat) (w : W64) : (c.writeWord p pa w).Canonical :=
  h.writePhys _ _ _

theorem Chip.Canonical.absent {c : Chip} (h : c.Canonical) (p : Place) (pa : Nat) : (c.absent p pa).Canonical := h

theorem Chip.Canonical.setTag {c : Chip} (h : c.Canonical) (p : Place) (pa : Nat) (t : BitVec 2) : (c.setTag p pa t).Canonical := by
  refine ⟨h.1, ?_⟩
  unfold Chip.setTag
  dsimp only
  split
  · exact h.2.sublist (Sparse.erase_sublist _ _)
  · exact Sparse.pairwise_set h.2 _ _

theorem Chip.Canonical.foldl {α : Type} {f : Chip → α → Chip} (hf : ∀ c a, c.Canonical → (f c a).Canonical) (ls : List α) {c : Chip}
    (h : c.Canonical) : (ls.foldl f c).Canonical := foldl_keeps (P := Chip.Canonical) hf ls h

theorem Chip.Canonical.copyTags {c : Chip} (h : c.Canonical) (sp : Place) (src : Nat) (np : Place) (new : Nat) :
    (c.copyTags sp src np new).Canonical := by
  unfold Chip.copyTags
  split
  · exact h
  · exact Chip.Canonical.foldl (fun c i hc => hc.setTag _ _ _) _ h

theorem Chip.Canonical.migDone {c : Chip} (h : c.Canonical) (m : Mig) : (c.migDone m).Canonical := by
  unfold Chip.migDone
  dsimp only
  split
  · exact h.writePhys _ _ _
  · exact h

theorem Chip.Canonical.pullLine {c : Chip} (h : c.Canonical) (m : Mig) (line : Nat) : (c.pullLine m line).Canonical := by
  unfold Chip.pullLine
  split
  · exact h
  · dsimp only
    split
    · exact h
    · exact (((h.writePhys _ _ _).copyTags _ _ _ _).writePhys _ _ _).migDone _

theorem Chip.Canonical.pull {c : Chip} (h : c.Canonical) (m : Option Mig) (n : Nat) : (c.pull m n).Canonical := by
  unfold Chip.pull
  split
  · exact h
  · exact Chip.Canonical.foldl (fun c i hc => hc.pullLine _ _) _ h

theorem Chip.Canonical.readXl {c : Chip} (h : c.Canonical) (x : Xl) (n : Nat) : (c.readXl x n).1.Canonical := h.pull _ _

theorem Chip.Canonical.writeXl {c : Chip} (h : c.Canonical) (x : Xl) (bs : List Byte) : (c.writeXl x bs).Canonical :=
  (h.pull _ _).writePhys _ _ _

/-! ### Caches and posted accesses -/

theorem Chip.Canonical.setCore {c : Chip} (h : c.Canonical) (n : Nat) (x : Core) : (c.setCore n x).Canonical := h

theorem Chip.Canonical.dropILines {c : Chip} (h : c.Canonical) (core ctx lo hi : Nat) : (c.dropILines core ctx lo hi).Canonical := by
  unfold Chip.dropILines
  dsimp only
  split
  · exact h
  · exact h.setCore _ _

theorem Chip.Canonical.writeBack {c : Chip} (h : c.Canonical) (l : L1Line) : (c.writeBack l).Canonical := by
  unfold Chip.writeBack
  split
  · exact h
  · exact (h.pull _ _).writePhys _ _ _

theorem Chip.Canonical.applyAtom {c : Chip} (h : c.Canonical) (p : Place) (pa : Nat) (m : Option Mig) (a : LaneAtom) :
    (c.applyAtom p pa m a).1.Canonical := (h.pull _ _).writePhys _ _ _

theorem Chip.Canonical.deliverOld {c : Chip} (h : c.Canonical) (p : Posted) (n : Nat) (old : W64) : (c.deliverOld p n old).Canonical := by
  unfold Chip.deliverOld
  split
  · exact h
  · exact h.of_eq rfl rfl

theorem Chip.Canonical.perform {c : Chip} (h : c.Canonical) (p : Posted) : (c.perform p).Canonical := by
  unfold Chip.perform
  split
  · exact (h.pull _ _).writePhys _ _ _
  · exact (h.applyAtom _ _ _ _).deliverOld _ _ _

theorem Chip.Canonical.drainIf {c : Chip} (h : c.Canonical) (sel : Posted → Bool) : (c.drainIf sel).Canonical := by
  unfold Chip.drainIf
  split
  · exact h
  · exact Chip.Canonical.foldl (fun c p hc => hc.perform p) _ (c := { c with posted := _ }) h

theorem Chip.Canonical.drainStrand {c : Chip} (h : c.Canonical) (sid : Nat) : (c.drainStrand sid).Canonical := h.drainIf _
theorem Chip.Canonical.drainCtx {c : Chip} (h : c.Canonical) (ctx : Nat) : (c.drainCtx ctx).Canonical := h.drainIf _

theorem Chip.Canonical.drainFor {c : Chip} (h : c.Canonical) (core : Nat) (p : Place) (pa n : Nat) : (c.drainFor core p pa n).Canonical := by
  unfold Chip.drainFor
  split
  · exact h.drainIf _
  · exact h

theorem Chip.Canonical.flushLines {c : Chip} (h : c.Canonical) (core : Nat) (sel : L1Line → Bool) (drop : Bool) :
    (c.flushLines core sel drop).Canonical := by
  have step : ∀ (c : Chip) (l : L1Line), c.Canonical →
      (if l.dirty = 0 then c else (c.drainFor core l.place l.pa 64).writeBack l).Canonical := by
    intro c l hc
    split
    · exact hc
    · exact (hc.drainFor _ _ _ _).writeBack _
  have k := Chip.Canonical.foldl step ((c.core core).l1.filter sel) h
  unfold Chip.flushLines
  dsimp only
  split
  · exact k
  · exact k.setCore _ _

theorem Chip.Canonical.releaseL1 {c : Chip} (h : c.Canonical) (core ctx : Nat) : (c.releaseL1 core ctx).Canonical := h.flushLines _ _ _
theorem Chip.Canonical.acquireL1 {c : Chip} (h : c.Canonical) (core ctx : Nat) : (c.acquireL1 core ctx).Canonical := h.flushLines _ _ _
theorem Chip.Canonical.flushRange {c : Chip} (h : c.Canonical) (core ctx lo hi : Nat) (drop : Bool) :
    (c.flushRange core ctx lo hi drop).Canonical := h.flushLines _ _ _

theorem Chip.Canonical.post {c : Chip} (h : c.Canonical) (sid core ctx : Nat) (x : Xl) (w : List Byte ⊕ LaneAtom)
    (dest : Option LoadDest) : (c.post sid core ctx x w dest).Canonical := h

theorem Chip.Canonical.l1Room {c : Chip} (h : c.Canonical) (core : Nat) : (c.l1Room core).Canonical := by
  unfold Chip.l1Room
  split
  · exact h
  · split
    · exact h
    · exact h.flushLines _ _ _

theorem Chip.Canonical.fillLine {c : Chip} (h : c.Canonical) (core ctx : Nat) (x : Xl) : (c.fillLine core ctx x).Canonical :=
  (((h.l1Room _).drainFor _ _ _ _).pull _ _).setCore _ _

/-- A load. -/
theorem Chip.Canonical.loadBytes {c : Chip} (h : c.Canonical) (core ctx scope : Nat) (r : Reach) :
    (c.loadBytes core ctx scope r).1.Canonical := by
  unfold Chip.loadBytes
  dsimp only
  split
  · exact h
  · exact h
  · split
    · split <;> exact h.fillLine _ _ _
    · refine Chip.Canonical.readXl (Chip.Canonical.drainFor ?_ _ _ _ _) _ _
      split
      · exact h
      · exact h.flushRange _ _ _ _ _

/-- A store. -/
theorem Chip.Canonical.storeBytes {c : Chip} (h : c.Canonical) (sid core ctx scope : Nat) (r : Reach) (bs : List Byte) :
    (c.storeBytes sid core ctx scope r bs).Canonical := by
  have put : ∀ {c : Chip} (mark : Bool), c.Canonical → Chip.Canonical (match findLine (c.core core).l1 ctx (lineOf r.va) with
      | some l => c.setCore core { c.core core with
          l1 := l.put (r.va.toNat % 64) bs mark :: dropLine (c.core core).l1 ctx (lineOf r.va) }
      | none => c) := by
    intro c mark hc
    split
    · exact hc.setCore _ _
    · exact hc
  unfold Chip.storeBytes
  dsimp only
  split
  · split
    · exact put true (h.fillLine _ _ _)
    · exact put true h
  · split
    · refine put true ?_
      split
      · exact ((h.drainFor _ _ _ _).writeBack _).fillLine _ _ _
      · exact h.fillLine _ _ _
    · split
      · exact (h.drainFor _ _ _ _).writeXl _ _
      · exact Chip.Canonical.post (put false h) _ _ _ _ _ _

theorem Chip.Canonical.beforeAtom {c : Chip} (h : c.Canonical) (core ctx : Nat) (va : W64) : (c.beforeAtom core ctx va).Canonical :=
  h.flushRange _ _ _ _ _

theorem Chip.Canonical.atomNow {c : Chip} (h : c.Canonical) (core ctx : Nat) (x : Xl) (a : LaneAtom) :
    (c.atomNow core ctx x a).1.Canonical := ((h.beforeAtom _ _ _).drainFor _ _ _ _).applyAtom _ _ _ _

theorem Chip.Canonical.atomLater {c : Chip} (h : c.Canonical) (sid core ctx : Nat) (x : Xl) (a : LaneAtom)
    (dest : Option LoadDest) : (c.atomLater sid core ctx x a dest).Canonical := (h.beforeAtom _ _ _).post _ _ _ _ _ _

theorem Chip.Canonical.release {c : Chip} (h : c.Canonical) (sid core ctx scope : Nat) : (c.release sid core ctx scope).Canonical := by
  unfold Chip.release
  split
  · exact (h.drainStrand _).releaseL1 _ _
  · exact h

theorem Chip.Canonical.acquire {c : Chip} (h : c.Canonical) (core ctx scope : Nat) : (c.acquire core ctx scope).Canonical := by
  unfold Chip.acquire
  split
  · exact h.acquireL1 _ _
  · exact h

/-- A destroyed context's OPENING cell. -/
theorem Chip.Canonical.resetCell {c : Chip} (h : c.Canonical) (ctx : Nat) (o : Opening) : (c.resetCell ctx o).Canonical := by
  unfold Chip.resetCell
  split
  · dsimp only
    split
    · exact (h.pull _ _).setTag _ _ _
    · exact h.pull _ _
  · split
    · exact ⟨h.1, Sparse.pairwise_set h.2 _ _⟩
    · exact h

/-! ### The outside world -/

theorem Chip.Canonical.valueTags {c : Chip} (h : c.Canonical) (p : Place) (pa n : Nat) : (c.valueTags p pa n).Canonical :=
  ⟨h.1, h.2.filter _⟩

/-- What happens to memories and caches of itself. -/
theorem Chip.Canonical.ambient {c : Chip} (h : c.Canonical) (a : Ambient) : (c.ambient a).Canonical := by
  unfold Chip.ambient
  split
  · exact h.dropILines _ _ _ _
  · exact h.valueTags _ _ _
  · unfold Chip.bankReturn
    split
    · refine Chip.Canonical.valueTags (c := { c with mem := _ }) ⟨Memory.cut_wf h.1 (Nat.le_add_right _ _), h.2⟩ _ _ _
    · exact h

/-- Lines of undefined contents. -/
theorem Chip.Canonical.spoil {c : Chip} (h : c.Canonical) (ls : List (Place × Nat)) : (c.spoil ls).Canonical := by
  unfold Chip.spoil
  refine Chip.Canonical.foldl (fun c x hc => ?_) _ h
  split
  · exact ⟨Memory.write_wf hc.1 _ _, hc.2⟩
  · exact hc

theorem Chip.Canonical.hubWrite {c : Chip} (h : c.Canonical) (pa : Nat) (bs : List Byte) : (c.hubWrite pa bs).Canonical :=
  (h.writePhys _ _ _).spoil _

/-- What the outside world writes between steps. -/
theorem Chip.Canonical.outsideWrites {c : Chip} (h : c.Canonical) (ws : List Host.Cell) : (c.outsideWrites ws).Canonical := by
  unfold Chip.outsideWrites
  refine Chip.Canonical.spoil ?_ _
  refine Chip.Canonical.foldl (fun c x hc => ?_) _ h
  obtain ⟨k, b⟩ := x
  dsimp only
  split
  · exact ⟨Memory.write_wf hc.1 _ _, hc.2⟩
  · exact hc

end Sys2Proof.Machine
end

