-- ==== Sys2Proof/Laws/PerInstr.lean ====
section
/-! SUPPORT. The family OpcodeMap, constructor by constructor: what the opcode map (R307) reads from the opcode and fields that the encoder
gives a well-formed instruction is that instruction. Device steps have no opcode. -/

namespace Sys2Proof.Laws.OpcodeMap

/-- The opcode and fields that the encoder gives an instruction name it in the opcode map. -/
def Statement (i : Instr) : Prop := ∀ op f, i.toOpcode = some (op, f) → i.wf = true → Instr.ofOpcode op f = i

/-- An opcode that no instruction has names the ILLEGAL_OPCODE step with every field value (R308). -/
theorem unassigned {op : BitVec 10} (f : Frame) (h : assignedOp op = false) : Instr.ofOpcode op f = .illegalOpcode op f := by
  unfold Instr.ofOpcode
  split <;> first
    | rfl
    | (rename_i e
       have e' := congrArg (BitVec.ofNat 10) e
       rw [BitVec.ofNat_toNat, BitVec.setWidth_eq] at e'
       rw [e'] at h
       exact absurd h (by decide))

theorem deviceReset (staged : Option Firmware) (signed : Bool) : Statement (.deviceReset staged signed) := by intro _ _ h; cases h
theorem ctxCreate : Statement .ctxCreate := by intro _ _ h; cases h
theorem ctxLoad : Statement .ctxLoad := by intro _ _ h; cases h
theorem ctxMode : Statement .ctxMode := by intro _ _ h; cases h
theorem ctxPreempt : Statement .ctxPreempt := by intro _ _ h; cases h
theorem ctxSave (ctx : Nat) : Statement (.ctxSave ctx) := by intro _ _ h; cases h
theorem ctxResume : Statement .ctxResume := by intro _ _ h; cases h
theorem ctxDestroy : Statement .ctxDestroy := by intro _ _ h; cases h
theorem queueCreate : Statement .queueCreate := by intro _ _ h; cases h
theorem queueStop : Statement .queueStop := by intro _ _ h; cases h
theorem queueStart : Statement .queueStart := by intro _ _ h; cases h
theorem queueDestroy : Statement .queueDestroy := by intro _ _ h; cases h
theorem resync : Statement .resync := by intro _ _ h; cases h
theorem tailNotice (q : Nat) : Statement (.tailNotice q) := by intro _ _ h; cases h
theorem launch (q : Nat) : Statement (.launch q) := by intro _ _ h; cases h
theorem waitEntry (q : Nat) : Statement (.waitEntry q) := by intro _ _ h; cases h
theorem waitRecheck (q : Nat) : Statement (.waitRecheck q) := by intro _ _ h; cases h
theorem signalEntry (q : Nat) : Statement (.signalEntry q) := by intro _ _ h; cases h
theorem copyEntry (q : Nat) : Statement (.copyEntry q) := by intro _ _ h; cases h
theorem entryComplete (q n : Nat) : Statement (.entryComplete q n) := by intro _ _ h; cases h
theorem launchComplete (l : Nat) : Statement (.launchComplete l) := by intro _ _ h; cases h
theorem groupPlace (ctx : Nat) : Statement (.groupPlace ctx) := by intro _ _ h; cases h
theorem poolPlace (die : Nat) : Statement (.poolPlace die) := by intro _ _ h; cases h
theorem claimServe (g : Nat) : Statement (.claimServe g) := by intro _ _ h; cases h
theorem epochEnd (ctx : Nat) : Statement (.epochEnd ctx) := by intro _ _ h; cases h
theorem handlerStart (core : Nat) : Statement (.handlerStart core) := by intro _ _ h; cases h
theorem hostintWrite (v : W64) : Statement (.hostintWrite v) := by intro _ _ h; cases h
theorem hostInterrupt (sid : Nat) : Statement (.hostInterrupt sid) := by intro _ _ h; cases h
theorem ownerCellLoad (req : Nat) : Statement (.ownerCellLoad req) := by intro _ _ h; cases h
theorem loadReissue (req : Nat) : Statement (.loadReissue req) := by intro _ _ h; cases h
theorem vldaLand (op : Nat) : Statement (.vldaLand op) := by intro _ _ h; cases h
theorem slotLoadLand (op : Nat) : Statement (.slotLoadLand op) := by intro _ _ h; cases h
theorem migrationPull (ctx : Nat) (va : W64) : Statement (.migrationPull ctx va) := by intro _ _ h; cases h
theorem engineStart (op : Nat) : Statement (.engineStart op) := by intro _ _ h; cases h
theorem engineCountDown (op n : Nat) : Statement (.engineCountDown op n) := by intro _ _ h; cases h
theorem patchApply (p : Nat) : Statement (.patchApply p) := by intro _ _ h; cases h
theorem budWatchdogScan (ctx : Nat) : Statement (.budWatchdogScan ctx) := by intro _ _ h; cases h
theorem ctlqEstablish (v : W64) : Statement (.ctlqEstablish v) := by intro _ _ h; cases h
theorem ctlqRemove (v : W64) : Statement (.ctlqRemove v) := by intro _ _ h; cases h
theorem partlayoutWrite (v : W64) : Statement (.partlayoutWrite v) := by intro _ _ h; cases h
theorem savebaseWrite (v : W64) : Statement (.savebaseWrite v) := by intro _ _ h; cases h
theorem savelenWrite (v : W64) : Statement (.savelenWrite v) := by intro _ _ h; cases h
theorem caphostWrite (v : W64) : Statement (.caphostWrite v) := by intro _ _ h; cases h
theorem registerWrite (r : HubReg) (v : W64) : Statement (.registerWrite r v) := by intro _ _ h; cases h
theorem linkEnable (l : Nat) : Statement (.linkEnable l) := by intro _ _ h; cases h
theorem linkDisable (l : Nat) : Statement (.linkDisable l) := by intro _ _ h; cases h
theorem linkRetrain (l : Nat) : Statement (.linkRetrain l) := by intro _ _ h; cases h
theorem linkTrained (l pdev plink : Nat) : Statement (.linkTrained l pdev plink) := by intro _ _ h; cases h
theorem linkTrainTimeout (l : Nat) : Statement (.linkTrainTimeout l) := by intro _ _ h; cases h
theorem linkFail (l : Nat) : Statement (.linkFail l) := by intro _ _ h; cases h
theorem flitCheckFail (l : LinkFlit) : Statement (.flitCheckFail l) := by intro _ _ h; cases h
theorem flitReceive (f : Flit) : Statement (.flitReceive f) := by intro _ _ h; cases h
theorem refusalReceive (slot : Nat) : Statement (.refusalReceive slot) := by intro _ _ h; cases h
theorem abortReceive (cid gen : BitVec 32) : Statement (.abortReceive cid gen) := by intro _ _ h; cases h
theorem heartbeatTick (slot : Nat) : Statement (.heartbeatTick slot) := by intro _ _ h; cases h
theorem heartbeatTimeout (slot : Nat) : Statement (.heartbeatTimeout slot) := by intro _ _ h; cases h
theorem ackTimeout (op : Nat) : Statement (.ackTimeout op) := by intro _ _ h; cases h
theorem lsendAck (op n : Nat) (r : AckResult) : Statement (.lsendAck op n r) := by intro _ _ h; cases h
theorem lredContribution (c : Contribution) : Statement (.lredContribution c) := by intro _ _ h; cases h
theorem lredRoot (cid gen : BitVec 32) (coll : Nat) (vals : RootFlit) : Statement (.lredRoot cid gen coll vals) := by intro _ _ h; cases h
theorem peerWindowRequest (dev : Nat) (r : PeerRequest) : Statement (.peerWindowRequest dev r) := by intro _ _ h; cases h
theorem commInstall (v : W64) : Statement (.commInstall v) := by intro _ _ h; cases h
theorem capFrame (payload : List Byte) : Statement (.capFrame payload) := by intro _ _ h; cases h
theorem limitChange (part : Nat) (thermal current : Option Nat) (draw : Nat) : Statement (.limitChange part thermal current draw) := by intro _ _ h; cases h
theorem attestStart (v : W64) : Statement (.attestStart v) := by intro _ _ h; cases h
theorem attestReport : Statement .attestReport := by intro _ _ h; cases h
theorem cxlMemAccess (a : CxlAccess) : Statement (.cxlMemAccess a) := by intro _ _ h; cases h
theorem correctedError (e : ErrorReport) : Statement (.correctedError e) := by intro _ _ h; cases h
theorem uncorrectableError (die : Nat) (ctx : Option Nat) : Statement (.uncorrectableError die ctx) := by intro _ _ h; cases h
theorem nop (f : Frame) : Statement (.nop f) := by rintro _ _ ⟨rfl, rfl⟩ _; rfl
theorem bra (f : Frame) : Statement (.bra f) := by rintro _ _ ⟨rfl, rfl⟩ _; rfl
theorem brs (f : Frame) : Statement (.brs f) := by rintro _ _ ⟨rfl, rfl⟩ _; rfl
theorem brk (f : Frame) : Statement (.brk f) := by rintro _ _ ⟨rfl, rfl⟩ _; rfl
theorem call (f : Frame) : Statement (.call f) := by rintro _ _ ⟨rfl, rfl⟩ _; rfl
theorem ret (f : Frame) : Statement (.ret f) := by rintro _ _ ⟨rfl, rfl⟩ _; rfl
theorem jmpi (f : Frame) : Statement (.jmpi f) := by rintro _ _ ⟨rfl, rfl⟩ _; rfl
theorem yield (f : Frame) : Statement (.yield f) := by rintro _ _ ⟨rfl, rfl⟩ _; rfl
theorem exit (f : Frame) : Statement (.exit f) := by rintro _ _ ⟨rfl, rfl⟩ _; rfl
theorem trap (f : Frame) : Statement (.trap f) := by rintro _ _ ⟨rfl, rfl⟩ _; rfl
theorem bkpt (f : Frame) : Statement (.bkpt f) := by rintro _ _ ⟨rfl, rfl⟩ _; rfl
theorem kand (f : Frame) : Statement (.kand f) := by rintro _ _ ⟨rfl, rfl⟩ _; rfl
theorem kor (f : Frame) : Statement (.kor f) := by rintro _ _ ⟨rfl, rfl⟩ _; rfl
theorem kxor (f : Frame) : Statement (.kxor f) := by rintro _ _ ⟨rfl, rfl⟩ _; rfl
theorem kandn (f : Frame) : Statement (.kandn f) := by rintro _ _ ⟨rfl, rfl⟩ _; rfl
theorem knot (f : Frame) : Statement (.knot f) := by rintro _ _ ⟨rfl, rfl⟩ _; rfl
theorem kmov (f : Frame) : Statement (.kmov f) := by rintro _ _ ⟨rfl, rfl⟩ _; rfl
theorem krange (f : Frame) : Statement (.krange f) := by rintro _ _ ⟨rfl, rfl⟩ _; rfl
theorem kpop (f : Frame) : Statement (.kpop f) := by rintro _ _ ⟨rfl, rfl⟩ _; rfl
theorem kffs (f : Frame) : Statement (.kffs f) := by rintro _ _ ⟨rfl, rfl⟩ _; rfl
theorem kget (f : Frame) : Statement (.kget f) := by rintro _ _ ⟨rfl, rfl⟩ _; rfl
theorem kput (f : Frame) : Statement (.kput f) := by rintro _ _ ⟨rfl, rfl⟩ _; rfl
theorem sadd (f : Frame) : Statement (.sadd f) := by rintro _ _ ⟨rfl, rfl⟩ _; rfl
theorem ssub (f : Frame) : Statement (.ssub f) := by rintro _ _ ⟨rfl, rfl⟩ _; rfl
theorem smul (f : Frame) : Statement (.smul f) := by rintro _ _ ⟨rfl, rfl⟩ _; rfl
theorem smulh (f : Frame) : Statement (.smulh f) := by rintro _ _ ⟨rfl, rfl⟩ _; rfl
theorem sand (f : Frame) : Statement (.sand f) := by rintro _ _ ⟨rfl, rfl⟩ _; rfl
theorem sor (f : Frame) : Statement (.sor f) := by rintro _ _ ⟨rfl, rfl⟩ _; rfl
theorem sxor (f : Frame) : Statement (.sxor f) := by rintro _ _ ⟨rfl, rfl⟩ _; rfl
theorem sshl (f : Frame) : Statement (.sshl f) := by rintro _ _ ⟨rfl, rfl⟩ _; rfl
theorem sshr (f : Frame) : Statement (.sshr f) := by rintro _ _ ⟨rfl, rfl⟩ _; rfl
theorem ssra (f : Frame) : Statement (.ssra f) := by rintro _ _ ⟨rfl, rfl⟩ _; rfl
theorem smin (f : Frame) : Statement (.smin f) := by rintro _ _ ⟨rfl, rfl⟩ _; rfl
theorem smax (f : Frame) : Statement (.smax f) := by rintro _ _ ⟨rfl, rfl⟩ _; rfl
theorem sminu (f : Frame) : Statement (.sminu f) := by rintro _ _ ⟨rfl, rfl⟩ _; rfl
theorem smaxu (f : Frame) : Statement (.smaxu f) := by rintro _ _ ⟨rfl, rfl⟩ _; rfl
theorem smov (f : Frame) : Statement (.smov f) := by rintro _ _ ⟨rfl, rfl⟩ _; rfl
theorem simm (f : Frame) : Statement (.simm f) := by rintro _ _ ⟨rfl, rfl⟩ _; rfl
theorem simmh (f : Frame) : Statement (.simmh f) := by rintro _ _ ⟨rfl, rfl⟩ _; rfl
theorem scmp (f : Frame) : Statement (.scmp f) := by rintro _ _ ⟨rfl, rfl⟩ _; rfl
theorem ssel (f : Frame) : Statement (.ssel f) := by rintro _ _ ⟨rfl, rfl⟩ _; rfl
theorem sld (f : Frame) : Statement (.sld f) := by rintro _ _ ⟨rfl, rfl⟩ _; rfl
theorem sst (f : Frame) : Statement (.sst f) := by rintro _ _ ⟨rfl, rfl⟩ _; rfl
theorem srdc (f : Frame) : Statement (.srdc f) := by rintro _ _ ⟨rfl, rfl⟩ _; rfl
theorem swrc (f : Frame) : Statement (.swrc f) := by rintro _ _ ⟨rfl, rfl⟩ _; rfl
theorem viadd (f : Frame) : Statement (.viadd f) := by rintro _ _ ⟨rfl, rfl⟩ _; rfl
theorem visub (f : Frame) : Statement (.visub f) := by rintro _ _ ⟨rfl, rfl⟩ _; rfl
theorem vimul (f : Frame) : Statement (.vimul f) := by rintro _ _ ⟨rfl, rfl⟩ _; rfl
theorem vimulh (f : Frame) : Statement (.vimulh f) := by rintro _ _ ⟨rfl, rfl⟩ _; rfl
theorem vimad (f : Frame) : Statement (.vimad f) := by rintro _ _ ⟨rfl, rfl⟩ _; rfl
theorem vimin (f : Frame) : Statement (.vimin f) := by rintro _ _ ⟨rfl, rfl⟩ _; rfl
theorem vimax (f : Frame) : Statement (.vimax f) := by rintro _ _ ⟨rfl, rfl⟩ _; rfl
theorem vand (f : Frame) : Statement (.vand f) := by rintro _ _ ⟨rfl, rfl⟩ _; rfl
theorem vor (f : Frame) : Statement (.vor f) := by rintro _ _ ⟨rfl, rfl⟩ _; rfl
theorem vxor (f : Frame) : Statement (.vxor f) := by rintro _ _ ⟨rfl, rfl⟩ _; rfl
theorem vnot (f : Frame) : Statement (.vnot f) := by rintro _ _ ⟨rfl, rfl⟩ _; rfl
theorem vshl (f : Frame) : Statement (.vshl f) := by rintro _ _ ⟨rfl, rfl⟩ _; rfl
theorem vshr (f : Frame) : Statement (.vshr f) := by rintro _ _ ⟨rfl, rfl⟩ _; rfl
theorem vsra (f : Frame) : Statement (.vsra f) := by rintro _ _ ⟨rfl, rfl⟩ _; rfl
theorem vrot (f : Frame) : Statement (.vrot f) := by rintro _ _ ⟨rfl, rfl⟩ _; rfl
theorem vbfe (f : Frame) : Statement (.vbfe f) := by rintro _ _ ⟨rfl, rfl⟩ _; rfl
theorem vbfi (f : Frame) : Statement (.vbfi f) := by rintro _ _ ⟨rfl, rfl⟩ _; rfl
theorem vpopc (f : Frame) : Statement (.vpopc f) := by rintro _ _ ⟨rfl, rfl⟩ _; rfl
theorem vclz (f : Frame) : Statement (.vclz f) := by rintro _ _ ⟨rfl, rfl⟩ _; rfl
theorem vicmp (f : Frame) : Statement (.vicmp f) := by rintro _ _ ⟨rfl, rfl⟩ _; rfl
theorem vsel (f : Frame) : Statement (.vsel f) := by rintro _ _ ⟨rfl, rfl⟩ _; rfl
theorem vmov (f : Frame) : Statement (.vmov f) := by rintro _ _ ⟨rfl, rfl⟩ _; rfl
theorem vidx (f : Frame) : Statement (.vidx f) := by rintro _ _ ⟨rfl, rfl⟩ _; rfl
theorem vfadd (f : Frame) : Statement (.vfadd f) := by rintro _ _ ⟨rfl, rfl⟩ _; rfl
theorem vfsub (f : Frame) : Statement (.vfsub f) := by rintro _ _ ⟨rfl, rfl⟩ _; rfl
theorem vfmul (f : Frame) : Statement (.vfmul f) := by rintro _ _ ⟨rfl, rfl⟩ _; rfl
theorem vfma (f : Frame) : Statement (.vfma f) := by rintro _ _ ⟨rfl, rfl⟩ _; rfl
theorem vfmin (f : Frame) : Statement (.vfmin f) := by rintro _ _ ⟨rfl, rfl⟩ _; rfl
theorem vfmax (f : Frame) : Statement (.vfmax f) := by rintro _ _ ⟨rfl, rfl⟩ _; rfl
theorem vfcmp (f : Frame) : Statement (.vfcmp f) := by rintro _ _ ⟨rfl, rfl⟩ _; rfl
theorem vfclass (f : Frame) : Statement (.vfclass f) := by rintro _ _ ⟨rfl, rfl⟩ _; rfl
theorem vfrcp (f : Frame) : Statement (.vfrcp f) := by rintro _ _ ⟨rfl, rfl⟩ _; rfl
theorem vfrsq (f : Frame) : Statement (.vfrsq f) := by rintro _ _ ⟨rfl, rfl⟩ _; rfl
theorem vfsqrt (f : Frame) : Statement (.vfsqrt f) := by rintro _ _ ⟨rfl, rfl⟩ _; rfl
theorem vfdiv (f : Frame) : Statement (.vfdiv f) := by rintro _ _ ⟨rfl, rfl⟩ _; rfl
theorem vfexp2 (f : Frame) : Statement (.vfexp2 f) := by rintro _ _ ⟨rfl, rfl⟩ _; rfl
theorem vflog2 (f : Frame) : Statement (.vflog2 f) := by rintro _ _ ⟨rfl, rfl⟩ _; rfl
theorem vfsin (f : Frame) : Statement (.vfsin f) := by rintro _ _ ⟨rfl, rfl⟩ _; rfl
theorem vfcos (f : Frame) : Statement (.vfcos f) := by rintro _ _ ⟨rfl, rfl⟩ _; rfl
theorem vfcvt (f : Frame) : Statement (.vfcvt f) := by rintro _ _ ⟨rfl, rfl⟩ _; rfl
theorem vftoi (f : Frame) : Statement (.vftoi f) := by rintro _ _ ⟨rfl, rfl⟩ _; rfl
theorem vffri (f : Frame) : Statement (.vffri f) := by rintro _ _ ⟨rfl, rfl⟩ _; rfl
theorem vfscale (f : Frame) : Statement (.vfscale f) := by rintro _ _ ⟨rfl, rfl⟩ _; rfl
theorem vdadd (f : Frame) : Statement (.vdadd f) := by rintro _ _ ⟨rfl, rfl⟩ _; rfl
theorem vdmul (f : Frame) : Statement (.vdmul f) := by rintro _ _ ⟨rfl, rfl⟩ _; rfl
theorem vdfma (f : Frame) : Statement (.vdfma f) := by rintro _ _ ⟨rfl, rfl⟩ _; rfl
theorem vrand (f : Frame) : Statement (.vrand f) := by rintro _ _ ⟨rfl, rfl⟩ _; rfl
theorem vshfl (f : Frame) : Statement (.vshfl f) := by rintro _ _ ⟨rfl, rfl⟩ _; rfl
theorem vlane (f : Frame) : Statement (.vlane f) := by rintro _ _ ⟨rfl, rfl⟩ _; rfl
theorem vputl (f : Frame) : Statement (.vputl f) := by rintro _ _ ⟨rfl, rfl⟩ _; rfl
theorem mclaim (f : Frame) : Statement (.mclaim f) := by rintro _ _ ⟨rfl, rfl⟩ _; rfl
theorem mfree (f : Frame) : Statement (.mfree f) := by rintro _ _ ⟨rfl, rfl⟩ _; rfl
theorem mbind (f : Frame) : Statement (.mbind f) := by rintro _ _ ⟨rfl, rfl⟩ _; rfl
theorem mload (f : Frame) : Statement (.mload f) := by rintro _ _ ⟨rfl, rfl⟩ _; rfl
theorem mside (f : Frame) : Statement (.mside f) := by rintro _ _ ⟨rfl, rfl⟩ _; rfl
theorem mfill (f : Frame) : Statement (.mfill f) := by rintro _ _ ⟨rfl, rfl⟩ _; rfl
theorem mgen (f : Frame) : Statement (.mgen f) := by rintro _ _ ⟨rfl, rfl⟩ _; rfl
theorem mdrain (f : Frame) : Statement (.mdrain f) := by rintro _ _ ⟨rfl, rfl⟩ _; rfl
theorem mquery (f : Frame) : Statement (.mquery f) := by rintro _ _ ⟨rfl, rfl⟩ _; rfl
theorem vld (f : Frame) : Statement (.vld f) := by rintro _ _ ⟨rfl, rfl⟩ _; rfl
theorem vst (f : Frame) : Statement (.vst f) := by rintro _ _ ⟨rfl, rfl⟩ _; rfl
theorem vldb (f : Frame) : Statement (.vldb f) := by rintro _ _ ⟨rfl, rfl⟩ _; rfl
theorem vstb (f : Frame) : Statement (.vstb f) := by rintro _ _ ⟨rfl, rfl⟩ _; rfl
theorem vlda (f : Frame) : Statement (.vlda f) := by rintro _ _ ⟨rfl, rfl⟩ _; rfl
theorem vatom (f : Frame) : Statement (.vatom f) := by rintro _ _ ⟨rfl, rfl⟩ _; rfl
theorem vatomr (f : Frame) : Statement (.vatomr f) := by rintro _ _ ⟨rfl, rfl⟩ _; rfl
theorem vcas (f : Frame) : Statement (.vcas f) := by rintro _ _ ⟨rfl, rfl⟩ _; rfl
theorem vmcast (f : Frame) : Statement (.vmcast f) := by rintro _ _ ⟨rfl, rfl⟩ _; rfl
theorem vpref (f : Frame) : Statement (.vpref f) := by rintro _ _ ⟨rfl, rfl⟩ _; rfl
theorem budst (f : Frame) : Statement (.budst f) := by rintro _ _ ⟨rfl, rfl⟩ _; rfl
theorem bloom (f : Frame) : Statement (.bloom f) := by rintro _ _ ⟨rfl, rfl⟩ _; rfl
theorem budq (f : Frame) : Statement (.budq f) := by rintro _ _ ⟨rfl, rfl⟩ _; rfl
theorem fence (f : Frame) : Statement (.fence f) := by rintro _ _ ⟨rfl, rfl⟩ _; rfl
theorem bind (f : Frame) : Statement (.bind f) := by rintro _ _ ⟨rfl, rfl⟩ _; rfl
theorem unbind (f : Frame) : Statement (.unbind f) := by rintro _ _ ⟨rfl, rfl⟩ _; rfl
theorem acq (f : Frame) : Statement (.acq f) := by rintro _ _ ⟨rfl, rfl⟩ _; rfl
theorem rel (f : Frame) : Statement (.rel f) := by rintro _ _ ⟨rfl, rfl⟩ _; rfl
theorem gbar (f : Frame) : Statement (.gbar f) := by rintro _ _ ⟨rfl, rfl⟩ _; rfl
theorem boinit (f : Frame) : Statement (.boinit f) := by rintro _ _ ⟨rfl, rfl⟩ _; rfl
theorem boexp (f : Frame) : Statement (.boexp f) := by rintro _ _ ⟨rfl, rfl⟩ _; rfl
theorem boarr (f : Frame) : Statement (.boarr f) := by rintro _ _ ⟨rfl, rfl⟩ _; rfl
theorem bowait (f : Frame) : Statement (.bowait f) := by rintro _ _ ⟨rfl, rfl⟩ _; rfl
theorem botest (f : Frame) : Statement (.botest f) := by rintro _ _ ⟨rfl, rfl⟩ _; rfl
theorem qend (f : Frame) : Statement (.qend f) := by rintro _ _ ⟨rfl, rfl⟩ _; rfl
theorem tcopy (f : Frame) : Statement (.tcopy f) := by rintro _ _ ⟨rfl, rfl⟩ _; rfl
theorem tred (f : Frame) : Statement (.tred f) := by rintro _ _ ⟨rfl, rfl⟩ _; rfl
theorem lsend (f : Frame) : Statement (.lsend f) := by rintro _ _ ⟨rfl, rfl⟩ _; rfl
theorem lred (f : Frame) : Statement (.lred f) := by rintro _ _ ⟨rfl, rfl⟩ _; rfl
theorem spawn (f : Frame) : Statement (.spawn f) := by rintro _ _ ⟨rfl, rfl⟩ _; rfl
theorem spawnd (f : Frame) : Statement (.spawnd f) := by rintro _ _ ⟨rfl, rfl⟩ _; rfl
theorem signal (f : Frame) : Statement (.signal f) := by rintro _ _ ⟨rfl, rfl⟩ _; rfl
theorem give (f : Frame) : Statement (.give f) := by rintro _ _ ⟨rfl, rfl⟩ _; rfl
theorem claim (f : Frame) : Statement (.claim f) := by rintro _ _ ⟨rfl, rfl⟩ _; rfl
theorem caprd (f : Frame) : Statement (.caprd f) := by rintro _ _ ⟨rfl, rfl⟩ _; rfl
theorem prdc (f : Frame) : Statement (.prdc f) := by rintro _ _ ⟨rfl, rfl⟩ _; rfl
theorem pwrc (f : Frame) : Statement (.pwrc f) := by rintro _ _ ⟨rfl, rfl⟩ _; rfl
theorem tret (f : Frame) : Statement (.tret f) := by rintro _ _ ⟨rfl, rfl⟩ _; rfl
theorem hsavev (f : Frame) : Statement (.hsavev f) := by rintro _ _ ⟨rfl, rfl⟩ _; rfl
theorem hloadv (f : Frame) : Statement (.hloadv f) := by rintro _ _ ⟨rfl, rfl⟩ _; rfl
theorem hsaves (f : Frame) : Statement (.hsaves f) := by rintro _ _ ⟨rfl, rfl⟩ _; rfl
theorem hloads (f : Frame) : Statement (.hloads f) := by rintro _ _ ⟨rfl, rfl⟩ _; rfl
theorem hsavek (f : Frame) : Statement (.hsavek f) := by rintro _ _ ⟨rfl, rfl⟩ _; rfl
theorem hloadk (f : Frame) : Statement (.hloadk f) := by rintro _ _ ⟨rfl, rfl⟩ _; rfl
theorem hloadm (f : Frame) : Statement (.hloadm f) := by rintro _ _ ⟨rfl, rfl⟩ _; rfl
theorem hrob (f : Frame) : Statement (.hrob f) := by rintro _ _ ⟨rfl, rfl⟩ _; rfl
theorem patch (f : Frame) : Statement (.patch f) := by rintro _ _ ⟨rfl, rfl⟩ _; rfl
theorem iinv (f : Frame) : Statement (.iinv f) := by rintro _ _ ⟨rfl, rfl⟩ _; rfl
theorem tinv (f : Frame) : Statement (.tinv f) := by rintro _ _ ⟨rfl, rfl⟩ _; rfl
theorem illegalOpcode (op : BitVec 10) (f : Frame) : Statement (.illegalOpcode op f) := by
  intro o g h hw
  cases h
  exact unassigned f (by simpa [Instr.wf, Instr.toOpcode] using hw)
theorem instructionFetchFault : Statement .instructionFetchFault := by intro _ _ h; cases h
theorem dirtyLineWriteBack (core ctx : Nat) (va : W64) (evict : Bool) : Statement (.dirtyLineWriteBack core ctx va evict) := by intro _ _ h; cases h
theorem ownerAccess (n : Nat) : Statement (.ownerAccess n) := by intro _ _ h; cases h

end Sys2Proof.Laws.OpcodeMap
end

