-- ==== Sys2Proof/Laws/State.lean ====
section
/-! SUPPORT. What each update of the state leaves as it was, one lemma for each field. -/

namespace Sys2Proof.Machine


/-! `Chip.setStrand` -/

@[simp] theorem Chip.setStrand_mem (c : Chip) (n : Nat) (t : Strand) : (c.setStrand n t).mem = c.mem := rfl
@[simp] theorem Chip.setStrand_tags (c : Chip) (n : Nat) (t : Strand) : (c.setStrand n t).tags = c.tags := rfl
@[simp] theorem Chip.setStrand_groups (c : Chip) (n : Nat) (t : Strand) : (c.setStrand n t).groups = c.groups := rfl
@[simp] theorem Chip.setStrand_cores (c : Chip) (n : Nat) (t : Strand) : (c.setStrand n t).cores = c.cores := rfl
@[simp] theorem Chip.setStrand_ctxs (c : Chip) (n : Nat) (t : Strand) : (c.setStrand n t).ctxs = c.ctxs := rfl
@[simp] theorem Chip.setStrand_queues (c : Chip) (n : Nat) (t : Strand) : (c.setStrand n t).queues = c.queues := rfl
@[simp] theorem Chip.setStrand_launches (c : Chip) (n : Nat) (t : Strand) : (c.setStrand n t).launches = c.launches := rfl
@[simp] theorem Chip.setStrand_pools (c : Chip) (n : Nat) (t : Strand) : (c.setStrand n t).pools = c.pools := rfl
@[simp] theorem Chip.setStrand_overflows (c : Chip) (n : Nat) (t : Strand) : (c.setStrand n t).overflows = c.overflows := rfl
@[simp] theorem Chip.setStrand_nodes (c : Chip) (n : Nat) (t : Strand) : (c.setStrand n t).nodes = c.nodes := rfl
@[simp] theorem Chip.setStrand_nodeUses (c : Chip) (n : Nat) (t : Strand) : (c.setStrand n t).nodeUses = c.nodeUses := rfl
@[simp] theorem Chip.setStrand_openings (c : Chip) (n : Nat) (t : Strand) : (c.setStrand n t).openings = c.openings := rfl
@[simp] theorem Chip.setStrand_waiters (c : Chip) (n : Nat) (t : Strand) : (c.setStrand n t).waiters = c.waiters := rfl
@[simp] theorem Chip.setStrand_cellReqs (c : Chip) (n : Nat) (t : Strand) : (c.setStrand n t).cellReqs = c.cellReqs := rfl
@[simp] theorem Chip.setStrand_vldas (c : Chip) (n : Nat) (t : Strand) : (c.setStrand n t).vldas = c.vldas := rfl
@[simp] theorem Chip.setStrand_slotLoads (c : Chip) (n : Nat) (t : Strand) : (c.setStrand n t).slotLoads = c.slotLoads := rfl
@[simp] theorem Chip.setStrand_engines (c : Chip) (n : Nat) (t : Strand) : (c.setStrand n t).engines = c.engines := rfl
@[simp] theorem Chip.setStrand_fvaOps (c : Chip) (n : Nat) (t : Strand) : (c.setStrand n t).fvaOps = c.fvaOps := rfl
@[simp] theorem Chip.setStrand_sentOps (c : Chip) (n : Nat) (t : Strand) : (c.setStrand n t).sentOps = c.sentOps := rfl
@[simp] theorem Chip.setStrand_deferred (c : Chip) (n : Nat) (t : Strand) : (c.setStrand n t).deferred = c.deferred := rfl
@[simp] theorem Chip.setStrand_posted (c : Chip) (n : Nat) (t : Strand) : (c.setStrand n t).posted = c.posted := rfl
@[simp] theorem Chip.setStrand_patches (c : Chip) (n : Nat) (t : Strand) : (c.setStrand n t).patches = c.patches := rfl
@[simp] theorem Chip.setStrand_coros (c : Chip) (n : Nat) (t : Strand) : (c.setStrand n t).coros = c.coros := rfl
@[simp] theorem Chip.setStrand_lastQueue (c : Chip) (n : Nat) (t : Strand) : (c.setStrand n t).lastQueue = c.lastQueue := rfl
@[simp] theorem Chip.setStrand_freed (c : Chip) (n : Nat) (t : Strand) : (c.setStrand n t).freed = c.freed := rfl
@[simp] theorem Chip.setStrand_gone (c : Chip) (n : Nat) (t : Strand) : (c.setStrand n t).gone = c.gone := rfl
@[simp] theorem Chip.setStrand_saved (c : Chip) (n : Nat) (t : Strand) : (c.setStrand n t).saved = c.saved := rfl
@[simp] theorem Chip.setStrand_links (c : Chip) (n : Nat) (t : Strand) : (c.setStrand n t).links = c.links := rfl
@[simp] theorem Chip.setStrand_peerRoutes (c : Chip) (n : Nat) (t : Strand) : (c.setStrand n t).peerRoutes = c.peerRoutes := rfl
@[simp] theorem Chip.setStrand_exports (c : Chip) (n : Nat) (t : Strand) : (c.setStrand n t).exports = c.exports := rfl
@[simp] theorem Chip.setStrand_comms (c : Chip) (n : Nat) (t : Strand) : (c.setStrand n t).comms = c.comms := rfl
@[simp] theorem Chip.setStrand_outbox (c : Chip) (n : Nat) (t : Strand) : (c.setStrand n t).outbox = c.outbox := rfl
@[simp] theorem Chip.setStrand_errCounts (c : Chip) (n : Nat) (t : Strand) : (c.setStrand n t).errCounts = c.errCounts := rfl
@[simp] theorem Chip.setStrand_errHist (c : Chip) (n : Nat) (t : Strand) : (c.setStrand n t).errHist = c.errHist := rfl
@[simp] theorem Chip.setStrand_faultLog (c : Chip) (n : Nat) (t : Strand) : (c.setStrand n t).faultLog = c.faultLog := rfl
@[simp] theorem Chip.setStrand_declared (c : Chip) (n : Nat) (t : Strand) : (c.setStrand n t).declared = c.declared := rfl
@[simp] theorem Chip.setStrand_firmware (c : Chip) (n : Nat) (t : Strand) : (c.setStrand n t).firmware = c.firmware := rfl
@[simp] theorem Chip.setStrand_facts (c : Chip) (n : Nat) (t : Strand) : (c.setStrand n t).facts = c.facts := rfl
@[simp] theorem Chip.setStrand_banks (c : Chip) (n : Nat) (t : Strand) : (c.setStrand n t).banks = c.banks := rfl
@[simp] theorem Chip.setStrand_cur (c : Chip) (n : Nat) (t : Strand) : (c.setStrand n t).cur = c.cur := rfl
@[simp] theorem Chip.setStrand_freeCtr (c : Chip) (n : Nat) (t : Strand) : (c.setStrand n t).freeCtr = c.freeCtr := rfl
@[simp] theorem Chip.setStrand_nextId (c : Chip) (n : Nat) (t : Strand) : (c.setStrand n t).nextId = c.nextId := rfl
@[simp] theorem Chip.setStrand_halt (c : Chip) (n : Nat) (t : Strand) : (c.setStrand n t).halt = c.halt := rfl

/-! `Chip.setCtx` -/

@[simp] theorem Chip.setCtx_mem (c : Chip) (n : Nat) (x : Context) : (c.setCtx n x).mem = c.mem := rfl
@[simp] theorem Chip.setCtx_tags (c : Chip) (n : Nat) (x : Context) : (c.setCtx n x).tags = c.tags := rfl
@[simp] theorem Chip.setCtx_strands (c : Chip) (n : Nat) (x : Context) : (c.setCtx n x).strands = c.strands := rfl
@[simp] theorem Chip.setCtx_groups (c : Chip) (n : Nat) (x : Context) : (c.setCtx n x).groups = c.groups := rfl
@[simp] theorem Chip.setCtx_cores (c : Chip) (n : Nat) (x : Context) : (c.setCtx n x).cores = c.cores := rfl
@[simp] theorem Chip.setCtx_queues (c : Chip) (n : Nat) (x : Context) : (c.setCtx n x).queues = c.queues := rfl
@[simp] theorem Chip.setCtx_launches (c : Chip) (n : Nat) (x : Context) : (c.setCtx n x).launches = c.launches := rfl
@[simp] theorem Chip.setCtx_pools (c : Chip) (n : Nat) (x : Context) : (c.setCtx n x).pools = c.pools := rfl
@[simp] theorem Chip.setCtx_overflows (c : Chip) (n : Nat) (x : Context) : (c.setCtx n x).overflows = c.overflows := rfl
@[simp] theorem Chip.setCtx_nodes (c : Chip) (n : Nat) (x : Context) : (c.setCtx n x).nodes = c.nodes := rfl
@[simp] theorem Chip.setCtx_nodeUses (c : Chip) (n : Nat) (x : Context) : (c.setCtx n x).nodeUses = c.nodeUses := rfl
@[simp] theorem Chip.setCtx_openings (c : Chip) (n : Nat) (x : Context) : (c.setCtx n x).openings = c.openings := rfl
@[simp] theorem Chip.setCtx_waiters (c : Chip) (n : Nat) (x : Context) : (c.setCtx n x).waiters = c.waiters := rfl
@[simp] theorem Chip.setCtx_cellReqs (c : Chip) (n : Nat) (x : Context) : (c.setCtx n x).cellReqs = c.cellReqs := rfl
@[simp] theorem Chip.setCtx_vldas (c : Chip) (n : Nat) (x : Context) : (c.setCtx n x).vldas = c.vldas := rfl
@[simp] theorem Chip.setCtx_slotLoads (c : Chip) (n : Nat) (x : Context) : (c.setCtx n x).slotLoads = c.slotLoads := rfl
@[simp] theorem Chip.setCtx_engines (c : Chip) (n : Nat) (x : Context) : (c.setCtx n x).engines = c.engines := rfl
@[simp] theorem Chip.setCtx_fvaOps (c : Chip) (n : Nat) (x : Context) : (c.setCtx n x).fvaOps = c.fvaOps := rfl
@[simp] theorem Chip.setCtx_sentOps (c : Chip) (n : Nat) (x : Context) : (c.setCtx n x).sentOps = c.sentOps := rfl
@[simp] theorem Chip.setCtx_deferred (c : Chip) (n : Nat) (x : Context) : (c.setCtx n x).deferred = c.deferred := rfl
@[simp] theorem Chip.setCtx_posted (c : Chip) (n : Nat) (x : Context) : (c.setCtx n x).posted = c.posted := rfl
@[simp] theorem Chip.setCtx_patches (c : Chip) (n : Nat) (x : Context) : (c.setCtx n x).patches = c.patches := rfl
@[simp] theorem Chip.setCtx_coros (c : Chip) (n : Nat) (x : Context) : (c.setCtx n x).coros = c.coros := rfl
@[simp] theorem Chip.setCtx_lastQueue (c : Chip) (n : Nat) (x : Context) : (c.setCtx n x).lastQueue = c.lastQueue := rfl
@[simp] theorem Chip.setCtx_freed (c : Chip) (n : Nat) (x : Context) : (c.setCtx n x).freed = c.freed := rfl
@[simp] theorem Chip.setCtx_gone (c : Chip) (n : Nat) (x : Context) : (c.setCtx n x).gone = c.gone := rfl
@[simp] theorem Chip.setCtx_saved (c : Chip) (n : Nat) (x : Context) : (c.setCtx n x).saved = c.saved := rfl
@[simp] theorem Chip.setCtx_links (c : Chip) (n : Nat) (x : Context) : (c.setCtx n x).links = c.links := rfl
@[simp] theorem Chip.setCtx_peerRoutes (c : Chip) (n : Nat) (x : Context) : (c.setCtx n x).peerRoutes = c.peerRoutes := rfl
@[simp] theorem Chip.setCtx_exports (c : Chip) (n : Nat) (x : Context) : (c.setCtx n x).exports = c.exports := rfl
@[simp] theorem Chip.setCtx_comms (c : Chip) (n : Nat) (x : Context) : (c.setCtx n x).comms = c.comms := rfl
@[simp] theorem Chip.setCtx_outbox (c : Chip) (n : Nat) (x : Context) : (c.setCtx n x).outbox = c.outbox := rfl
@[simp] theorem Chip.setCtx_errCounts (c : Chip) (n : Nat) (x : Context) : (c.setCtx n x).errCounts = c.errCounts := rfl
@[simp] theorem Chip.setCtx_errHist (c : Chip) (n : Nat) (x : Context) : (c.setCtx n x).errHist = c.errHist := rfl
@[simp] theorem Chip.setCtx_faultLog (c : Chip) (n : Nat) (x : Context) : (c.setCtx n x).faultLog = c.faultLog := rfl
@[simp] theorem Chip.setCtx_declared (c : Chip) (n : Nat) (x : Context) : (c.setCtx n x).declared = c.declared := rfl
@[simp] theorem Chip.setCtx_firmware (c : Chip) (n : Nat) (x : Context) : (c.setCtx n x).firmware = c.firmware := rfl
@[simp] theorem Chip.setCtx_facts (c : Chip) (n : Nat) (x : Context) : (c.setCtx n x).facts = c.facts := rfl
@[simp] theorem Chip.setCtx_banks (c : Chip) (n : Nat) (x : Context) : (c.setCtx n x).banks = c.banks := rfl
@[simp] theorem Chip.setCtx_cur (c : Chip) (n : Nat) (x : Context) : (c.setCtx n x).cur = c.cur := rfl
@[simp] theorem Chip.setCtx_freeCtr (c : Chip) (n : Nat) (x : Context) : (c.setCtx n x).freeCtr = c.freeCtr := rfl
@[simp] theorem Chip.setCtx_nextId (c : Chip) (n : Nat) (x : Context) : (c.setCtx n x).nextId = c.nextId := rfl
@[simp] theorem Chip.setCtx_halt (c : Chip) (n : Nat) (x : Context) : (c.setCtx n x).halt = c.halt := rfl

/-! `Chip.setCore` -/

@[simp] theorem Chip.setCore_mem (c : Chip) (n : Nat) (x : Core) : (c.setCore n x).mem = c.mem := rfl
@[simp] theorem Chip.setCore_tags (c : Chip) (n : Nat) (x : Core) : (c.setCore n x).tags = c.tags := rfl
@[simp] theorem Chip.setCore_strands (c : Chip) (n : Nat) (x : Core) : (c.setCore n x).strands = c.strands := rfl
@[simp] theorem Chip.setCore_groups (c : Chip) (n : Nat) (x : Core) : (c.setCore n x).groups = c.groups := rfl
@[simp] theorem Chip.setCore_ctxs (c : Chip) (n : Nat) (x : Core) : (c.setCore n x).ctxs = c.ctxs := rfl
@[simp] theorem Chip.setCore_queues (c : Chip) (n : Nat) (x : Core) : (c.setCore n x).queues = c.queues := rfl
@[simp] theorem Chip.setCore_launches (c : Chip) (n : Nat) (x : Core) : (c.setCore n x).launches = c.launches := rfl
@[simp] theorem Chip.setCore_pools (c : Chip) (n : Nat) (x : Core) : (c.setCore n x).pools = c.pools := rfl
@[simp] theorem Chip.setCore_overflows (c : Chip) (n : Nat) (x : Core) : (c.setCore n x).overflows = c.overflows := rfl
@[simp] theorem Chip.setCore_nodes (c : Chip) (n : Nat) (x : Core) : (c.setCore n x).nodes = c.nodes := rfl
@[simp] theorem Chip.setCore_nodeUses (c : Chip) (n : Nat) (x : Core) : (c.setCore n x).nodeUses = c.nodeUses := rfl
@[simp] theorem Chip.setCore_openings (c : Chip) (n : Nat) (x : Core) : (c.setCore n x).openings = c.openings := rfl
@[simp] theorem Chip.setCore_waiters (c : Chip) (n : Nat) (x : Core) : (c.setCore n x).waiters = c.waiters := rfl
@[simp] theorem Chip.setCore_cellReqs (c : Chip) (n : Nat) (x : Core) : (c.setCore n x).cellReqs = c.cellReqs := rfl
@[simp] theorem Chip.setCore_vldas (c : Chip) (n : Nat) (x : Core) : (c.setCore n x).vldas = c.vldas := rfl
@[simp] theorem Chip.setCore_slotLoads (c : Chip) (n : Nat) (x : Core) : (c.setCore n x).slotLoads = c.slotLoads := rfl
@[simp] theorem Chip.setCore_engines (c : Chip) (n : Nat) (x : Core) : (c.setCore n x).engines = c.engines := rfl
@[simp] theorem Chip.setCore_fvaOps (c : Chip) (n : Nat) (x : Core) : (c.setCore n x).fvaOps = c.fvaOps := rfl
@[simp] theorem Chip.setCore_sentOps (c : Chip) (n : Nat) (x : Core) : (c.setCore n x).sentOps = c.sentOps := rfl
@[simp] theorem Chip.setCore_deferred (c : Chip) (n : Nat) (x : Core) : (c.setCore n x).deferred = c.deferred := rfl
@[simp] theorem Chip.setCore_posted (c : Chip) (n : Nat) (x : Core) : (c.setCore n x).posted = c.posted := rfl
@[simp] theorem Chip.setCore_patches (c : Chip) (n : Nat) (x : Core) : (c.setCore n x).patches = c.patches := rfl
@[simp] theorem Chip.setCore_coros (c : Chip) (n : Nat) (x : Core) : (c.setCore n x).coros = c.coros := rfl
@[simp] theorem Chip.setCore_lastQueue (c : Chip) (n : Nat) (x : Core) : (c.setCore n x).lastQueue = c.lastQueue := rfl
@[simp] theorem Chip.setCore_freed (c : Chip) (n : Nat) (x : Core) : (c.setCore n x).freed = c.freed := rfl
@[simp] theorem Chip.setCore_gone (c : Chip) (n : Nat) (x : Core) : (c.setCore n x).gone = c.gone := rfl
@[simp] theorem Chip.setCore_saved (c : Chip) (n : Nat) (x : Core) : (c.setCore n x).saved = c.saved := rfl
@[simp] theorem Chip.setCore_links (c : Chip) (n : Nat) (x : Core) : (c.setCore n x).links = c.links := rfl
@[simp] theorem Chip.setCore_peerRoutes (c : Chip) (n : Nat) (x : Core) : (c.setCore n x).peerRoutes = c.peerRoutes := rfl
@[simp] theorem Chip.setCore_exports (c : Chip) (n : Nat) (x : Core) : (c.setCore n x).exports = c.exports := rfl
@[simp] theorem Chip.setCore_comms (c : Chip) (n : Nat) (x : Core) : (c.setCore n x).comms = c.comms := rfl
@[simp] theorem Chip.setCore_outbox (c : Chip) (n : Nat) (x : Core) : (c.setCore n x).outbox = c.outbox := rfl
@[simp] theorem Chip.setCore_errCounts (c : Chip) (n : Nat) (x : Core) : (c.setCore n x).errCounts = c.errCounts := rfl
@[simp] theorem Chip.setCore_errHist (c : Chip) (n : Nat) (x : Core) : (c.setCore n x).errHist = c.errHist := rfl
@[simp] theorem Chip.setCore_faultLog (c : Chip) (n : Nat) (x : Core) : (c.setCore n x).faultLog = c.faultLog := rfl
@[simp] theorem Chip.setCore_declared (c : Chip) (n : Nat) (x : Core) : (c.setCore n x).declared = c.declared := rfl
@[simp] theorem Chip.setCore_firmware (c : Chip) (n : Nat) (x : Core) : (c.setCore n x).firmware = c.firmware := rfl
@[simp] theorem Chip.setCore_facts (c : Chip) (n : Nat) (x : Core) : (c.setCore n x).facts = c.facts := rfl
@[simp] theorem Chip.setCore_banks (c : Chip) (n : Nat) (x : Core) : (c.setCore n x).banks = c.banks := rfl
@[simp] theorem Chip.setCore_cur (c : Chip) (n : Nat) (x : Core) : (c.setCore n x).cur = c.cur := rfl
@[simp] theorem Chip.setCore_freeCtr (c : Chip) (n : Nat) (x : Core) : (c.setCore n x).freeCtr = c.freeCtr := rfl
@[simp] theorem Chip.setCore_nextId (c : Chip) (n : Nat) (x : Core) : (c.setCore n x).nextId = c.nextId := rfl
@[simp] theorem Chip.setCore_halt (c : Chip) (n : Nat) (x : Core) : (c.setCore n x).halt = c.halt := rfl

/-! `Chip.setQueue` -/

@[simp] theorem Chip.setQueue_mem (c : Chip) (n : Nat) (q : Queue) : (c.setQueue n q).mem = c.mem := rfl
@[simp] theorem Chip.setQueue_tags (c : Chip) (n : Nat) (q : Queue) : (c.setQueue n q).tags = c.tags := rfl
@[simp] theorem Chip.setQueue_strands (c : Chip) (n : Nat) (q : Queue) : (c.setQueue n q).strands = c.strands := rfl
@[simp] theorem Chip.setQueue_groups (c : Chip) (n : Nat) (q : Queue) : (c.setQueue n q).groups = c.groups := rfl
@[simp] theorem Chip.setQueue_cores (c : Chip) (n : Nat) (q : Queue) : (c.setQueue n q).cores = c.cores := rfl
@[simp] theorem Chip.setQueue_ctxs (c : Chip) (n : Nat) (q : Queue) : (c.setQueue n q).ctxs = c.ctxs := rfl
@[simp] theorem Chip.setQueue_launches (c : Chip) (n : Nat) (q : Queue) : (c.setQueue n q).launches = c.launches := rfl
@[simp] theorem Chip.setQueue_pools (c : Chip) (n : Nat) (q : Queue) : (c.setQueue n q).pools = c.pools := rfl
@[simp] theorem Chip.setQueue_overflows (c : Chip) (n : Nat) (q : Queue) : (c.setQueue n q).overflows = c.overflows := rfl
@[simp] theorem Chip.setQueue_nodes (c : Chip) (n : Nat) (q : Queue) : (c.setQueue n q).nodes = c.nodes := rfl
@[simp] theorem Chip.setQueue_nodeUses (c : Chip) (n : Nat) (q : Queue) : (c.setQueue n q).nodeUses = c.nodeUses := rfl
@[simp] theorem Chip.setQueue_openings (c : Chip) (n : Nat) (q : Queue) : (c.setQueue n q).openings = c.openings := rfl
@[simp] theorem Chip.setQueue_waiters (c : Chip) (n : Nat) (q : Queue) : (c.setQueue n q).waiters = c.waiters := rfl
@[simp] theorem Chip.setQueue_cellReqs (c : Chip) (n : Nat) (q : Queue) : (c.setQueue n q).cellReqs = c.cellReqs := rfl
@[simp] theorem Chip.setQueue_vldas (c : Chip) (n : Nat) (q : Queue) : (c.setQueue n q).vldas = c.vldas := rfl
@[simp] theorem Chip.setQueue_slotLoads (c : Chip) (n : Nat) (q : Queue) : (c.setQueue n q).slotLoads = c.slotLoads := rfl
@[simp] theorem Chip.setQueue_engines (c : Chip) (n : Nat) (q : Queue) : (c.setQueue n q).engines = c.engines := rfl
@[simp] theorem Chip.setQueue_fvaOps (c : Chip) (n : Nat) (q : Queue) : (c.setQueue n q).fvaOps = c.fvaOps := rfl
@[simp] theorem Chip.setQueue_sentOps (c : Chip) (n : Nat) (q : Queue) : (c.setQueue n q).sentOps = c.sentOps := rfl
@[simp] theorem Chip.setQueue_deferred (c : Chip) (n : Nat) (q : Queue) : (c.setQueue n q).deferred = c.deferred := rfl
@[simp] theorem Chip.setQueue_posted (c : Chip) (n : Nat) (q : Queue) : (c.setQueue n q).posted = c.posted := rfl
@[simp] theorem Chip.setQueue_patches (c : Chip) (n : Nat) (q : Queue) : (c.setQueue n q).patches = c.patches := rfl
@[simp] theorem Chip.setQueue_coros (c : Chip) (n : Nat) (q : Queue) : (c.setQueue n q).coros = c.coros := rfl
@[simp] theorem Chip.setQueue_lastQueue (c : Chip) (n : Nat) (q : Queue) : (c.setQueue n q).lastQueue = c.lastQueue := rfl
@[simp] theorem Chip.setQueue_freed (c : Chip) (n : Nat) (q : Queue) : (c.setQueue n q).freed = c.freed := rfl
@[simp] theorem Chip.setQueue_gone (c : Chip) (n : Nat) (q : Queue) : (c.setQueue n q).gone = c.gone := rfl
@[simp] theorem Chip.setQueue_saved (c : Chip) (n : Nat) (q : Queue) : (c.setQueue n q).saved = c.saved := rfl
@[simp] theorem Chip.setQueue_links (c : Chip) (n : Nat) (q : Queue) : (c.setQueue n q).links = c.links := rfl
@[simp] theorem Chip.setQueue_peerRoutes (c : Chip) (n : Nat) (q : Queue) : (c.setQueue n q).peerRoutes = c.peerRoutes := rfl
@[simp] theorem Chip.setQueue_exports (c : Chip) (n : Nat) (q : Queue) : (c.setQueue n q).exports = c.exports := rfl
@[simp] theorem Chip.setQueue_comms (c : Chip) (n : Nat) (q : Queue) : (c.setQueue n q).comms = c.comms := rfl
@[simp] theorem Chip.setQueue_outbox (c : Chip) (n : Nat) (q : Queue) : (c.setQueue n q).outbox = c.outbox := rfl
@[simp] theorem Chip.setQueue_errCounts (c : Chip) (n : Nat) (q : Queue) : (c.setQueue n q).errCounts = c.errCounts := rfl
@[simp] theorem Chip.setQueue_errHist (c : Chip) (n : Nat) (q : Queue) : (c.setQueue n q).errHist = c.errHist := rfl
@[simp] theorem Chip.setQueue_faultLog (c : Chip) (n : Nat) (q : Queue) : (c.setQueue n q).faultLog = c.faultLog := rfl
@[simp] theorem Chip.setQueue_declared (c : Chip) (n : Nat) (q : Queue) : (c.setQueue n q).declared = c.declared := rfl
@[simp] theorem Chip.setQueue_firmware (c : Chip) (n : Nat) (q : Queue) : (c.setQueue n q).firmware = c.firmware := rfl
@[simp] theorem Chip.setQueue_facts (c : Chip) (n : Nat) (q : Queue) : (c.setQueue n q).facts = c.facts := rfl
@[simp] theorem Chip.setQueue_banks (c : Chip) (n : Nat) (q : Queue) : (c.setQueue n q).banks = c.banks := rfl
@[simp] theorem Chip.setQueue_cur (c : Chip) (n : Nat) (q : Queue) : (c.setQueue n q).cur = c.cur := rfl
@[simp] theorem Chip.setQueue_freeCtr (c : Chip) (n : Nat) (q : Queue) : (c.setQueue n q).freeCtr = c.freeCtr := rfl
@[simp] theorem Chip.setQueue_nextId (c : Chip) (n : Nat) (q : Queue) : (c.setQueue n q).nextId = c.nextId := rfl
@[simp] theorem Chip.setQueue_halt (c : Chip) (n : Nat) (q : Queue) : (c.setQueue n q).halt = c.halt := rfl

/-! `Strand.setVreg` -/

@[simp] theorem Strand.setVreg_ctx (t : Strand) (n : Nat) (r : VReg) : (t.setVreg n r).ctx = t.ctx := rfl
@[simp] theorem Strand.setVreg_gid (t : Strand) (n : Nat) (r : VReg) : (t.setVreg n r).gid = t.gid := rfl
@[simp] theorem Strand.setVreg_kind (t : Strand) (n : Nat) (r : VReg) : (t.setVreg n r).kind = t.kind := rfl
@[simp] theorem Strand.setVreg_core (t : Strand) (n : Nat) (r : VReg) : (t.setVreg n r).core = t.core := rfl
@[simp] theorem Strand.setVreg_quarter (t : Strand) (n : Nat) (r : VReg) : (t.setVreg n r).quarter = t.quarter := rfl
@[simp] theorem Strand.setVreg_slot (t : Strand) (n : Nat) (r : VReg) : (t.setVreg n r).slot = t.slot := rfl
@[simp] theorem Strand.setVreg_index (t : Strand) (n : Nat) (r : VReg) : (t.setVreg n r).index = t.index := rfl
@[simp] theorem Strand.setVreg_role (t : Strand) (n : Nat) (r : VReg) : (t.setVreg n r).role = t.role := rfl
@[simp] theorem Strand.setVreg_group (t : Strand) (n : Nat) (r : VReg) : (t.setVreg n r).group = t.group := rfl
@[simp] theorem Strand.setVreg_cls (t : Strand) (n : Nat) (r : VReg) : (t.setVreg n r).cls = t.cls := rfl
@[simp] theorem Strand.setVreg_status (t : Strand) (n : Nat) (r : VReg) : (t.setVreg n r).status = t.status := rfl
@[simp] theorem Strand.setVreg_pc (t : Strand) (n : Nat) (r : VReg) : (t.setVreg n r).pc = t.pc := rfl
@[simp] theorem Strand.setVreg_sregs (t : Strand) (n : Nat) (r : VReg) : (t.setVreg n r).sregs = t.sregs := rfl
@[simp] theorem Strand.setVreg_kregs (t : Strand) (n : Nat) (r : VReg) : (t.setVreg n r).kregs = t.kregs := rfl
@[simp] theorem Strand.setVreg_mode (t : Strand) (n : Nat) (r : VReg) : (t.setVreg n r).mode = t.mode := rfl
@[simp] theorem Strand.setVreg_flags (t : Strand) (n : Nat) (r : VReg) : (t.setVreg n r).flags = t.flags := rfl
@[simp] theorem Strand.setVreg_regLimit (t : Strand) (n : Nat) (r : VReg) : (t.setVreg n r).regLimit = t.regLimit := rfl
@[simp] theorem Strand.setVreg_mapLimit (t : Strand) (n : Nat) (r : VReg) : (t.setVreg n r).mapLimit = t.mapLimit := rfl
@[simp] theorem Strand.setVreg_lookahead (t : Strand) (n : Nat) (r : VReg) : (t.setVreg n r).lookahead = t.lookahead := rfl
@[simp] theorem Strand.setVreg_token (t : Strand) (n : Nat) (r : VReg) : (t.setVreg n r).token = t.token := rfl
@[simp] theorem Strand.setVreg_parent (t : Strand) (n : Nat) (r : VReg) : (t.setVreg n r).parent = t.parent := rfl
@[simp] theorem Strand.setVreg_chain (t : Strand) (n : Nat) (r : VReg) : (t.setVreg n r).chain = t.chain := rfl
@[simp] theorem Strand.setVreg_depth (t : Strand) (n : Nat) (r : VReg) : (t.setVreg n r).depth = t.depth := rfl
@[simp] theorem Strand.setVreg_maxDepth (t : Strand) (n : Nat) (r : VReg) : (t.setVreg n r).maxDepth = t.maxDepth := rfl
@[simp] theorem Strand.setVreg_epoch (t : Strand) (n : Nat) (r : VReg) : (t.setVreg n r).epoch = t.epoch := rfl
@[simp] theorem Strand.setVreg_retired (t : Strand) (n : Nat) (r : VReg) : (t.setVreg n r).retired = t.retired := rfl
@[simp] theorem Strand.setVreg_trapCause (t : Strand) (n : Nat) (r : VReg) : (t.setVreg n r).trapCause = t.trapCause := rfl
@[simp] theorem Strand.setVreg_faultVa (t : Strand) (n : Nat) (r : VReg) : (t.setVreg n r).faultVa = t.faultVa := rfl
@[simp] theorem Strand.setVreg_faultMask (t : Strand) (n : Nat) (r : VReg) : (t.setVreg n r).faultMask = t.faultMask := rfl
@[simp] theorem Strand.setVreg_epc (t : Strand) (n : Nat) (r : VReg) : (t.setVreg n r).epc = t.epc := rfl
@[simp] theorem Strand.setVreg_salt (t : Strand) (n : Nat) (r : VReg) : (t.setVreg n r).salt = t.salt := rfl
@[simp] theorem Strand.setVreg_stream (t : Strand) (n : Nat) (r : VReg) : (t.setVreg n r).stream = t.stream := rfl
@[simp] theorem Strand.setVreg_ctr0 (t : Strand) (n : Nat) (r : VReg) : (t.setVreg n r).ctr0 = t.ctr0 := rfl
@[simp] theorem Strand.setVreg_ctr1 (t : Strand) (n : Nat) (r : VReg) : (t.setVreg n r).ctr1 = t.ctr1 := rfl
@[simp] theorem Strand.setVreg_laneBase (t : Strand) (n : Nat) (r : VReg) : (t.setVreg n r).laneBase = t.laneBase := rfl
@[simp] theorem Strand.setVreg_isarev (t : Strand) (n : Nat) (r : VReg) : (t.setVreg n r).isarev = t.isarev := rfl
@[simp] theorem Strand.setVreg_blevel (t : Strand) (n : Nat) (r : VReg) : (t.setVreg n r).blevel = t.blevel := rfl
@[simp] theorem Strand.setVreg_compat (t : Strand) (n : Nat) (r : VReg) : (t.setVreg n r).compat = t.compat := rfl
@[simp] theorem Strand.setVreg_paired (t : Strand) (n : Nat) (r : VReg) : (t.setVreg n r).paired = t.paired := rfl
@[simp] theorem Strand.setVreg_coords (t : Strand) (n : Nat) (r : VReg) : (t.setVreg n r).coords = t.coords := rfl
@[simp] theorem Strand.setVreg_ident (t : Strand) (n : Nat) (r : VReg) : (t.setVreg n r).ident = t.ident := rfl
@[simp] theorem Strand.setVreg_ordinal (t : Strand) (n : Nat) (r : VReg) : (t.setVreg n r).ordinal = t.ordinal := rfl
@[simp] theorem Strand.setVreg_root (t : Strand) (n : Nat) (r : VReg) : (t.setVreg n r).root = t.root := rfl
@[simp] theorem Strand.setVreg_launch (t : Strand) (n : Nat) (r : VReg) : (t.setVreg n r).launch = t.launch := rfl
@[simp] theorem Strand.setVreg_blocks (t : Strand) (n : Nat) (r : VReg) : (t.setVreg n r).blocks = t.blocks := rfl
@[simp] theorem Strand.setVreg_slots (t : Strand) (n : Nat) (r : VReg) : (t.setVreg n r).slots = t.slots := rfl
@[simp] theorem Strand.setVreg_draining (t : Strand) (n : Nat) (r : VReg) : (t.setVreg n r).draining = t.draining := rfl
@[simp] theorem Strand.setVreg_load (t : Strand) (n : Nat) (r : VReg) : (t.setVreg n r).load = t.load := rfl
@[simp] theorem Strand.setVreg_record (t : Strand) (n : Nat) (r : VReg) : (t.setVreg n r).record = t.record := rfl
@[simp] theorem Strand.setVreg_replay (t : Strand) (n : Nat) (r : VReg) : (t.setVreg n r).replay = t.replay := rfl
@[simp] theorem Strand.setVreg_gbar (t : Strand) (n : Nat) (r : VReg) : (t.setVreg n r).gbar = t.gbar := rfl
@[simp] theorem Strand.setVreg_bloomed (t : Strand) (n : Nat) (r : VReg) : (t.setVreg n r).bloomed = t.bloomed := rfl
@[simp] theorem Strand.setVreg_hostInt (t : Strand) (n : Nat) (r : VReg) : (t.setVreg n r).hostInt = t.hostInt := rfl
@[simp] theorem Strand.setVreg_spared (t : Strand) (n : Nat) (r : VReg) : (t.setVreg n r).spared = t.spared := rfl
@[simp] theorem Strand.setVreg_held (t : Strand) (n : Nat) (r : VReg) : (t.setVreg n r).held = t.held := rfl
@[simp] theorem Strand.setVreg_quantum (t : Strand) (n : Nat) (r : VReg) : (t.setVreg n r).quantum = t.quantum := rfl
@[simp] theorem Strand.setVreg_ended (t : Strand) (n : Nat) (r : VReg) : (t.setVreg n r).ended = t.ended := rfl
@[simp] theorem Strand.setVreg_exited (t : Strand) (n : Nat) (r : VReg) : (t.setVreg n r).exited = t.exited := rfl
@[simp] theorem Strand.setVreg_buffer (t : Strand) (n : Nat) (r : VReg) : (t.setVreg n r).buffer = t.buffer := rfl
@[simp] theorem Strand.setVreg_solid (t : Strand) (n : Nat) (r : VReg) : (t.setVreg n r).solid = t.solid := rfl
@[simp] theorem Strand.setVreg_writers (t : Strand) (n : Nat) (r : VReg) : (t.setVreg n r).writers = t.writers := rfl
@[simp] theorem Strand.setVreg_pendTrap (t : Strand) (n : Nat) (r : VReg) : (t.setVreg n r).pendTrap = t.pendTrap := rfl
@[simp] theorem Strand.setVreg_waitRegs (t : Strand) (n : Nat) (r : VReg) : (t.setVreg n r).waitRegs = t.waitRegs := rfl
@[simp] theorem Strand.setVreg_acq (t : Strand) (n : Nat) (r : VReg) : (t.setVreg n r).acq = t.acq := rfl
@[simp] theorem Strand.setVreg_issued (t : Strand) (n : Nat) (r : VReg) : (t.setVreg n r).issued = t.issued := rfl
@[simp] theorem Strand.setVreg_saveAt (t : Strand) (n : Nat) (r : VReg) : (t.setVreg n r).saveAt = t.saveAt := rfl

/-! `Strand.setSreg` -/

@[simp] theorem Strand.setSreg_ctx (t : Strand) (n : Nat) (v : W64) : (t.setSreg n v).ctx = t.ctx := rfl
@[simp] theorem Strand.setSreg_gid (t : Strand) (n : Nat) (v : W64) : (t.setSreg n v).gid = t.gid := rfl
@[simp] theorem Strand.setSreg_kind (t : Strand) (n : Nat) (v : W64) : (t.setSreg n v).kind = t.kind := rfl
@[simp] theorem Strand.setSreg_core (t : Strand) (n : Nat) (v : W64) : (t.setSreg n v).core = t.core := rfl
@[simp] theorem Strand.setSreg_quarter (t : Strand) (n : Nat) (v : W64) : (t.setSreg n v).quarter = t.quarter := rfl
@[simp] theorem Strand.setSreg_slot (t : Strand) (n : Nat) (v : W64) : (t.setSreg n v).slot = t.slot := rfl
@[simp] theorem Strand.setSreg_index (t : Strand) (n : Nat) (v : W64) : (t.setSreg n v).index = t.index := rfl
@[simp] theorem Strand.setSreg_role (t : Strand) (n : Nat) (v : W64) : (t.setSreg n v).role = t.role := rfl
@[simp] theorem Strand.setSreg_group (t : Strand) (n : Nat) (v : W64) : (t.setSreg n v).group = t.group := rfl
@[simp] theorem Strand.setSreg_cls (t : Strand) (n : Nat) (v : W64) : (t.setSreg n v).cls = t.cls := rfl
@[simp] theorem Strand.setSreg_status (t : Strand) (n : Nat) (v : W64) : (t.setSreg n v).status = t.status := rfl
@[simp] theorem Strand.setSreg_pc (t : Strand) (n : Nat) (v : W64) : (t.setSreg n v).pc = t.pc := rfl
@[simp] theorem Strand.setSreg_vregs (t : Strand) (n : Nat) (v : W64) : (t.setSreg n v).vregs = t.vregs := rfl
@[simp] theorem Strand.setSreg_kregs (t : Strand) (n : Nat) (v : W64) : (t.setSreg n v).kregs = t.kregs := rfl
@[simp] theorem Strand.setSreg_mode (t : Strand) (n : Nat) (v : W64) : (t.setSreg n v).mode = t.mode := rfl
@[simp] theorem Strand.setSreg_flags (t : Strand) (n : Nat) (v : W64) : (t.setSreg n v).flags = t.flags := rfl
@[simp] theorem Strand.setSreg_regLimit (t : Strand) (n : Nat) (v : W64) : (t.setSreg n v).regLimit = t.regLimit := rfl
@[simp] theorem Strand.setSreg_mapLimit (t : Strand) (n : Nat) (v : W64) : (t.setSreg n v).mapLimit = t.mapLimit := rfl
@[simp] theorem Strand.setSreg_lookahead (t : Strand) (n : Nat) (v : W64) : (t.setSreg n v).lookahead = t.lookahead := rfl
@[simp] theorem Strand.setSreg_token (t : Strand) (n : Nat) (v : W64) : (t.setSreg n v).token = t.token := rfl
@[simp] theorem Strand.setSreg_parent (t : Strand) (n : Nat) (v : W64) : (t.setSreg n v).parent = t.parent := rfl
@[simp] theorem Strand.setSreg_chain (t : Strand) (n : Nat) (v : W64) : (t.setSreg n v).chain = t.chain := rfl
@[simp] theorem Strand.setSreg_depth (t : Strand) (n : Nat) (v : W64) : (t.setSreg n v).depth = t.depth := rfl
@[simp] theorem Strand.setSreg_maxDepth (t : Strand) (n : Nat) (v : W64) : (t.setSreg n v).maxDepth = t.maxDepth := rfl
@[simp] theorem Strand.setSreg_epoch (t : Strand) (n : Nat) (v : W64) : (t.setSreg n v).epoch = t.epoch := rfl
@[simp] theorem Strand.setSreg_retired (t : Strand) (n : Nat) (v : W64) : (t.setSreg n v).retired = t.retired := rfl
@[simp] theorem Strand.setSreg_trapCause (t : Strand) (n : Nat) (v : W64) : (t.setSreg n v).trapCause = t.trapCause := rfl
@[simp] theorem Strand.setSreg_faultVa (t : Strand) (n : Nat) (v : W64) : (t.setSreg n v).faultVa = t.faultVa := rfl
@[simp] theorem Strand.setSreg_faultMask (t : Strand) (n : Nat) (v : W64) : (t.setSreg n v).faultMask = t.faultMask := rfl
@[simp] theorem Strand.setSreg_epc (t : Strand) (n : Nat) (v : W64) : (t.setSreg n v).epc = t.epc := rfl
@[simp] theorem Strand.setSreg_salt (t : Strand) (n : Nat) (v : W64) : (t.setSreg n v).salt = t.salt := rfl
@[simp] theorem Strand.setSreg_stream (t : Strand) (n : Nat) (v : W64) : (t.setSreg n v).stream = t.stream := rfl
@[simp] theorem Strand.setSreg_ctr0 (t : Strand) (n : Nat) (v : W64) : (t.setSreg n v).ctr0 = t.ctr0 := rfl
@[simp] theorem Strand.setSreg_ctr1 (t : Strand) (n : Nat) (v : W64) : (t.setSreg n v).ctr1 = t.ctr1 := rfl
@[simp] theorem Strand.setSreg_laneBase (t : Strand) (n : Nat) (v : W64) : (t.setSreg n v).laneBase = t.laneBase := rfl
@[simp] theorem Strand.setSreg_isarev (t : Strand) (n : Nat) (v : W64) : (t.setSreg n v).isarev = t.isarev := rfl
@[simp] theorem Strand.setSreg_blevel (t : Strand) (n : Nat) (v : W64) : (t.setSreg n v).blevel = t.blevel := rfl
@[simp] theorem Strand.setSreg_compat (t : Strand) (n : Nat) (v : W64) : (t.setSreg n v).compat = t.compat := rfl
@[simp] theorem Strand.setSreg_paired (t : Strand) (n : Nat) (v : W64) : (t.setSreg n v).paired = t.paired := rfl
@[simp] theorem Strand.setSreg_coords (t : Strand) (n : Nat) (v : W64) : (t.setSreg n v).coords = t.coords := rfl
@[simp] theorem Strand.setSreg_ident (t : Strand) (n : Nat) (v : W64) : (t.setSreg n v).ident = t.ident := rfl
@[simp] theorem Strand.setSreg_ordinal (t : Strand) (n : Nat) (v : W64) : (t.setSreg n v).ordinal = t.ordinal := rfl
@[simp] theorem Strand.setSreg_root (t : Strand) (n : Nat) (v : W64) : (t.setSreg n v).root = t.root := rfl
@[simp] theorem Strand.setSreg_launch (t : Strand) (n : Nat) (v : W64) : (t.setSreg n v).launch = t.launch := rfl
@[simp] theorem Strand.setSreg_blocks (t : Strand) (n : Nat) (v : W64) : (t.setSreg n v).blocks = t.blocks := rfl
@[simp] theorem Strand.setSreg_dirty (t : Strand) (n : Nat) (v : W64) : (t.setSreg n v).dirty = t.dirty := rfl
@[simp] theorem Strand.setSreg_slots (t : Strand) (n : Nat) (v : W64) : (t.setSreg n v).slots = t.slots := rfl
@[simp] theorem Strand.setSreg_draining (t : Strand) (n : Nat) (v : W64) : (t.setSreg n v).draining = t.draining := rfl
@[simp] theorem Strand.setSreg_load (t : Strand) (n : Nat) (v : W64) : (t.setSreg n v).load = t.load := rfl
@[simp] theorem Strand.setSreg_record (t : Strand) (n : Nat) (v : W64) : (t.setSreg n v).record = t.record := rfl
@[simp] theorem Strand.setSreg_replay (t : Strand) (n : Nat) (v : W64) : (t.setSreg n v).replay = t.replay := rfl
@[simp] theorem Strand.setSreg_gbar (t : Strand) (n : Nat) (v : W64) : (t.setSreg n v).gbar = t.gbar := rfl
@[simp] theorem Strand.setSreg_bloomed (t : Strand) (n : Nat) (v : W64) : (t.setSreg n v).bloomed = t.bloomed := rfl
@[simp] theorem Strand.setSreg_hostInt (t : Strand) (n : Nat) (v : W64) : (t.setSreg n v).hostInt = t.hostInt := rfl
@[simp] theorem Strand.setSreg_spared (t : Strand) (n : Nat) (v : W64) : (t.setSreg n v).spared = t.spared := rfl
@[simp] theorem Strand.setSreg_held (t : Strand) (n : Nat) (v : W64) : (t.setSreg n v).held = t.held := rfl
@[simp] theorem Strand.setSreg_quantum (t : Strand) (n : Nat) (v : W64) : (t.setSreg n v).quantum = t.quantum := rfl
@[simp] theorem Strand.setSreg_ended (t : Strand) (n : Nat) (v : W64) : (t.setSreg n v).ended = t.ended := rfl
@[simp] theorem Strand.setSreg_exited (t : Strand) (n : Nat) (v : W64) : (t.setSreg n v).exited = t.exited := rfl
@[simp] theorem Strand.setSreg_buffer (t : Strand) (n : Nat) (v : W64) : (t.setSreg n v).buffer = t.buffer := rfl
@[simp] theorem Strand.setSreg_solid (t : Strand) (n : Nat) (v : W64) : (t.setSreg n v).solid = t.solid := rfl
@[simp] theorem Strand.setSreg_writers (t : Strand) (n : Nat) (v : W64) : (t.setSreg n v).writers = t.writers := rfl
@[simp] theorem Strand.setSreg_pendTrap (t : Strand) (n : Nat) (v : W64) : (t.setSreg n v).pendTrap = t.pendTrap := rfl
@[simp] theorem Strand.setSreg_waitRegs (t : Strand) (n : Nat) (v : W64) : (t.setSreg n v).waitRegs = t.waitRegs := rfl
@[simp] theorem Strand.setSreg_acq (t : Strand) (n : Nat) (v : W64) : (t.setSreg n v).acq = t.acq := rfl
@[simp] theorem Strand.setSreg_issued (t : Strand) (n : Nat) (v : W64) : (t.setSreg n v).issued = t.issued := rfl
@[simp] theorem Strand.setSreg_saveAt (t : Strand) (n : Nat) (v : W64) : (t.setSreg n v).saveAt = t.saveAt := rfl

/-! `Strand.accrue` -/

@[simp] theorem Strand.accrue_ctx (t : Strand) (e : Exc) : (t.accrue e).ctx = t.ctx := rfl
@[simp] theorem Strand.accrue_gid (t : Strand) (e : Exc) : (t.accrue e).gid = t.gid := rfl
@[simp] theorem Strand.accrue_kind (t : Strand) (e : Exc) : (t.accrue e).kind = t.kind := rfl
@[simp] theorem Strand.accrue_core (t : Strand) (e : Exc) : (t.accrue e).core = t.core := rfl
@[simp] theorem Strand.accrue_quarter (t : Strand) (e : Exc) : (t.accrue e).quarter = t.quarter := rfl
@[simp] theorem Strand.accrue_slot (t : Strand) (e : Exc) : (t.accrue e).slot = t.slot := rfl
@[simp] theorem Strand.accrue_index (t : Strand) (e : Exc) : (t.accrue e).index = t.index := rfl
@[simp] theorem Strand.accrue_role (t : Strand) (e : Exc) : (t.accrue e).role = t.role := rfl
@[simp] theorem Strand.accrue_group (t : Strand) (e : Exc) : (t.accrue e).group = t.group := rfl
@[simp] theorem Strand.accrue_cls (t : Strand) (e : Exc) : (t.accrue e).cls = t.cls := rfl
@[simp] theorem Strand.accrue_status (t : Strand) (e : Exc) : (t.accrue e).status = t.status := rfl
@[simp] theorem Strand.accrue_pc (t : Strand) (e : Exc) : (t.accrue e).pc = t.pc := rfl
@[simp] theorem Strand.accrue_vregs (t : Strand) (e : Exc) : (t.accrue e).vregs = t.vregs := rfl
@[simp] theorem Strand.accrue_sregs (t : Strand) (e : Exc) : (t.accrue e).sregs = t.sregs := rfl
@[simp] theorem Strand.accrue_kregs (t : Strand) (e : Exc) : (t.accrue e).kregs = t.kregs := rfl
@[simp] theorem Strand.accrue_mode (t : Strand) (e : Exc) : (t.accrue e).mode = t.mode := rfl
@[simp] theorem Strand.accrue_regLimit (t : Strand) (e : Exc) : (t.accrue e).regLimit = t.regLimit := rfl
@[simp] theorem Strand.accrue_mapLimit (t : Strand) (e : Exc) : (t.accrue e).mapLimit = t.mapLimit := rfl
@[simp] theorem Strand.accrue_lookahead (t : Strand) (e : Exc) : (t.accrue e).lookahead = t.lookahead := rfl
@[simp] theorem Strand.accrue_token (t : Strand) (e : Exc) : (t.accrue e).token = t.token := rfl
@[simp] theorem Strand.accrue_parent (t : Strand) (e : Exc) : (t.accrue e).parent = t.parent := rfl
@[simp] theorem Strand.accrue_chain (t : Strand) (e : Exc) : (t.accrue e).chain = t.chain := rfl
@[simp] theorem Strand.accrue_depth (t : Strand) (e : Exc) : (t.accrue e).depth = t.depth := rfl
@[simp] theorem Strand.accrue_maxDepth (t : Strand) (e : Exc) : (t.accrue e).maxDepth = t.maxDepth := rfl
@[simp] theorem Strand.accrue_epoch (t : Strand) (e : Exc) : (t.accrue e).epoch = t.epoch := rfl
@[simp] theorem Strand.accrue_retired (t : Strand) (e : Exc) : (t.accrue e).retired = t.retired := rfl
@[simp] theorem Strand.accrue_trapCause (t : Strand) (e : Exc) : (t.accrue e).trapCause = t.trapCause := rfl
@[simp] theorem Strand.accrue_faultVa (t : Strand) (e : Exc) : (t.accrue e).faultVa = t.faultVa := rfl
@[simp] theorem Strand.accrue_faultMask (t : Strand) (e : Exc) : (t.accrue e).faultMask = t.faultMask := rfl
@[simp] theorem Strand.accrue_epc (t : Strand) (e : Exc) : (t.accrue e).epc = t.epc := rfl
@[simp] theorem Strand.accrue_salt (t : Strand) (e : Exc) : (t.accrue e).salt = t.salt := rfl
@[simp] theorem Strand.accrue_stream (t : Strand) (e : Exc) : (t.accrue e).stream = t.stream := rfl
@[simp] theorem Strand.accrue_ctr0 (t : Strand) (e : Exc) : (t.accrue e).ctr0 = t.ctr0 := rfl
@[simp] theorem Strand.accrue_ctr1 (t : Strand) (e : Exc) : (t.accrue e).ctr1 = t.ctr1 := rfl
@[simp] theorem Strand.accrue_laneBase (t : Strand) (e : Exc) : (t.accrue e).laneBase = t.laneBase := rfl
@[simp] theorem Strand.accrue_isarev (t : Strand) (e : Exc) : (t.accrue e).isarev = t.isarev := rfl
@[simp] theorem Strand.accrue_blevel (t : Strand) (e : Exc) : (t.accrue e).blevel = t.blevel := rfl
@[simp] theorem Strand.accrue_compat (t : Strand) (e : Exc) : (t.accrue e).compat = t.compat := rfl
@[simp] theorem Strand.accrue_paired (t : Strand) (e : Exc) : (t.accrue e).paired = t.paired := rfl
@[simp] theorem Strand.accrue_coords (t : Strand) (e : Exc) : (t.accrue e).coords = t.coords := rfl
@[simp] theorem Strand.accrue_ident (t : Strand) (e : Exc) : (t.accrue e).ident = t.ident := rfl
@[simp] theorem Strand.accrue_ordinal (t : Strand) (e : Exc) : (t.accrue e).ordinal = t.ordinal := rfl
@[simp] theorem Strand.accrue_root (t : Strand) (e : Exc) : (t.accrue e).root = t.root := rfl
@[simp] theorem Strand.accrue_launch (t : Strand) (e : Exc) : (t.accrue e).launch = t.launch := rfl
@[simp] theorem Strand.accrue_blocks (t : Strand) (e : Exc) : (t.accrue e).blocks = t.blocks := rfl
@[simp] theorem Strand.accrue_dirty (t : Strand) (e : Exc) : (t.accrue e).dirty = t.dirty := rfl
@[simp] theorem Strand.accrue_slots (t : Strand) (e : Exc) : (t.accrue e).slots = t.slots := rfl
@[simp] theorem Strand.accrue_draining (t : Strand) (e : Exc) : (t.accrue e).draining = t.draining := rfl
@[simp] theorem Strand.accrue_load (t : Strand) (e : Exc) : (t.accrue e).load = t.load := rfl
@[simp] theorem Strand.accrue_record (t : Strand) (e : Exc) : (t.accrue e).record = t.record := rfl
@[simp] theorem Strand.accrue_replay (t : Strand) (e : Exc) : (t.accrue e).replay = t.replay := rfl
@[simp] theorem Strand.accrue_gbar (t : Strand) (e : Exc) : (t.accrue e).gbar = t.gbar := rfl
@[simp] theorem Strand.accrue_bloomed (t : Strand) (e : Exc) : (t.accrue e).bloomed = t.bloomed := rfl
@[simp] theorem Strand.accrue_hostInt (t : Strand) (e : Exc) : (t.accrue e).hostInt = t.hostInt := rfl
@[simp] theorem Strand.accrue_spared (t : Strand) (e : Exc) : (t.accrue e).spared = t.spared := rfl
@[simp] theorem Strand.accrue_held (t : Strand) (e : Exc) : (t.accrue e).held = t.held := rfl
@[simp] theorem Strand.accrue_quantum (t : Strand) (e : Exc) : (t.accrue e).quantum = t.quantum := rfl
@[simp] theorem Strand.accrue_ended (t : Strand) (e : Exc) : (t.accrue e).ended = t.ended := rfl
@[simp] theorem Strand.accrue_exited (t : Strand) (e : Exc) : (t.accrue e).exited = t.exited := rfl
@[simp] theorem Strand.accrue_buffer (t : Strand) (e : Exc) : (t.accrue e).buffer = t.buffer := rfl
@[simp] theorem Strand.accrue_solid (t : Strand) (e : Exc) : (t.accrue e).solid = t.solid := rfl
@[simp] theorem Strand.accrue_writers (t : Strand) (e : Exc) : (t.accrue e).writers = t.writers := rfl
@[simp] theorem Strand.accrue_pendTrap (t : Strand) (e : Exc) : (t.accrue e).pendTrap = t.pendTrap := rfl
@[simp] theorem Strand.accrue_waitRegs (t : Strand) (e : Exc) : (t.accrue e).waitRegs = t.waitRegs := rfl
@[simp] theorem Strand.accrue_acq (t : Strand) (e : Exc) : (t.accrue e).acq = t.acq := rfl
@[simp] theorem Strand.accrue_issued (t : Strand) (e : Exc) : (t.accrue e).issued = t.issued := rfl
@[simp] theorem Strand.accrue_saveAt (t : Strand) (e : Exc) : (t.accrue e).saveAt = t.saveAt := rfl

/-! `Strand.setSlot` -/

@[simp] theorem Strand.setSlot_ctx (t : Strand) (n : Nat) (m : MapSlot) : (t.setSlot n m).ctx = t.ctx := rfl
@[simp] theorem Strand.setSlot_gid (t : Strand) (n : Nat) (m : MapSlot) : (t.setSlot n m).gid = t.gid := rfl
@[simp] theorem Strand.setSlot_kind (t : Strand) (n : Nat) (m : MapSlot) : (t.setSlot n m).kind = t.kind := rfl
@[simp] theorem Strand.setSlot_core (t : Strand) (n : Nat) (m : MapSlot) : (t.setSlot n m).core = t.core := rfl
@[simp] theorem Strand.setSlot_quarter (t : Strand) (n : Nat) (m : MapSlot) : (t.setSlot n m).quarter = t.quarter := rfl
@[simp] theorem Strand.setSlot_slot (t : Strand) (n : Nat) (m : MapSlot) : (t.setSlot n m).slot = t.slot := rfl
@[simp] theorem Strand.setSlot_index (t : Strand) (n : Nat) (m : MapSlot) : (t.setSlot n m).index = t.index := rfl
@[simp] theorem Strand.setSlot_role (t : Strand) (n : Nat) (m : MapSlot) : (t.setSlot n m).role = t.role := rfl
@[simp] theorem Strand.setSlot_group (t : Strand) (n : Nat) (m : MapSlot) : (t.setSlot n m).group = t.group := rfl
@[simp] theorem Strand.setSlot_cls (t : Strand) (n : Nat) (m : MapSlot) : (t.setSlot n m).cls = t.cls := rfl
@[simp] theorem Strand.setSlot_status (t : Strand) (n : Nat) (m : MapSlot) : (t.setSlot n m).status = t.status := rfl
@[simp] theorem Strand.setSlot_pc (t : Strand) (n : Nat) (m : MapSlot) : (t.setSlot n m).pc = t.pc := rfl
@[simp] theorem Strand.setSlot_vregs (t : Strand) (n : Nat) (m : MapSlot) : (t.setSlot n m).vregs = t.vregs := rfl
@[simp] theorem Strand.setSlot_sregs (t : Strand) (n : Nat) (m : MapSlot) : (t.setSlot n m).sregs = t.sregs := rfl
@[simp] theorem Strand.setSlot_kregs (t : Strand) (n : Nat) (m : MapSlot) : (t.setSlot n m).kregs = t.kregs := rfl
@[simp] theorem Strand.setSlot_mode (t : Strand) (n : Nat) (m : MapSlot) : (t.setSlot n m).mode = t.mode := rfl
@[simp] theorem Strand.setSlot_flags (t : Strand) (n : Nat) (m : MapSlot) : (t.setSlot n m).flags = t.flags := rfl
@[simp] theorem Strand.setSlot_regLimit (t : Strand) (n : Nat) (m : MapSlot) : (t.setSlot n m).regLimit = t.regLimit := rfl
@[simp] theorem Strand.setSlot_mapLimit (t : Strand) (n : Nat) (m : MapSlot) : (t.setSlot n m).mapLimit = t.mapLimit := rfl
@[simp] theorem Strand.setSlot_lookahead (t : Strand) (n : Nat) (m : MapSlot) : (t.setSlot n m).lookahead = t.lookahead := rfl
@[simp] theorem Strand.setSlot_token (t : Strand) (n : Nat) (m : MapSlot) : (t.setSlot n m).token = t.token := rfl
@[simp] theorem Strand.setSlot_parent (t : Strand) (n : Nat) (m : MapSlot) : (t.setSlot n m).parent = t.parent := rfl
@[simp] theorem Strand.setSlot_chain (t : Strand) (n : Nat) (m : MapSlot) : (t.setSlot n m).chain = t.chain := rfl
@[simp] theorem Strand.setSlot_depth (t : Strand) (n : Nat) (m : MapSlot) : (t.setSlot n m).depth = t.depth := rfl
@[simp] theorem Strand.setSlot_maxDepth (t : Strand) (n : Nat) (m : MapSlot) : (t.setSlot n m).maxDepth = t.maxDepth := rfl
@[simp] theorem Strand.setSlot_epoch (t : Strand) (n : Nat) (m : MapSlot) : (t.setSlot n m).epoch = t.epoch := rfl
@[simp] theorem Strand.setSlot_retired (t : Strand) (n : Nat) (m : MapSlot) : (t.setSlot n m).retired = t.retired := rfl
@[simp] theorem Strand.setSlot_trapCause (t : Strand) (n : Nat) (m : MapSlot) : (t.setSlot n m).trapCause = t.trapCause := rfl
@[simp] theorem Strand.setSlot_faultVa (t : Strand) (n : Nat) (m : MapSlot) : (t.setSlot n m).faultVa = t.faultVa := rfl
@[simp] theorem Strand.setSlot_faultMask (t : Strand) (n : Nat) (m : MapSlot) : (t.setSlot n m).faultMask = t.faultMask := rfl
@[simp] theorem Strand.setSlot_epc (t : Strand) (n : Nat) (m : MapSlot) : (t.setSlot n m).epc = t.epc := rfl
@[simp] theorem Strand.setSlot_salt (t : Strand) (n : Nat) (m : MapSlot) : (t.setSlot n m).salt = t.salt := rfl
@[simp] theorem Strand.setSlot_stream (t : Strand) (n : Nat) (m : MapSlot) : (t.setSlot n m).stream = t.stream := rfl
@[simp] theorem Strand.setSlot_ctr0 (t : Strand) (n : Nat) (m : MapSlot) : (t.setSlot n m).ctr0 = t.ctr0 := rfl
@[simp] theorem Strand.setSlot_ctr1 (t : Strand) (n : Nat) (m : MapSlot) : (t.setSlot n m).ctr1 = t.ctr1 := rfl
@[simp] theorem Strand.setSlot_laneBase (t : Strand) (n : Nat) (m : MapSlot) : (t.setSlot n m).laneBase = t.laneBase := rfl
@[simp] theorem Strand.setSlot_isarev (t : Strand) (n : Nat) (m : MapSlot) : (t.setSlot n m).isarev = t.isarev := rfl
@[simp] theorem Strand.setSlot_blevel (t : Strand) (n : Nat) (m : MapSlot) : (t.setSlot n m).blevel = t.blevel := rfl
@[simp] theorem Strand.setSlot_compat (t : Strand) (n : Nat) (m : MapSlot) : (t.setSlot n m).compat = t.compat := rfl
@[simp] theorem Strand.setSlot_paired (t : Strand) (n : Nat) (m : MapSlot) : (t.setSlot n m).paired = t.paired := rfl
@[simp] theorem Strand.setSlot_coords (t : Strand) (n : Nat) (m : MapSlot) : (t.setSlot n m).coords = t.coords := rfl
@[simp] theorem Strand.setSlot_ident (t : Strand) (n : Nat) (m : MapSlot) : (t.setSlot n m).ident = t.ident := rfl
@[simp] theorem Strand.setSlot_ordinal (t : Strand) (n : Nat) (m : MapSlot) : (t.setSlot n m).ordinal = t.ordinal := rfl
@[simp] theorem Strand.setSlot_root (t : Strand) (n : Nat) (m : MapSlot) : (t.setSlot n m).root = t.root := rfl
@[simp] theorem Strand.setSlot_launch (t : Strand) (n : Nat) (m : MapSlot) : (t.setSlot n m).launch = t.launch := rfl
@[simp] theorem Strand.setSlot_blocks (t : Strand) (n : Nat) (m : MapSlot) : (t.setSlot n m).blocks = t.blocks := rfl
@[simp] theorem Strand.setSlot_dirty (t : Strand) (n : Nat) (m : MapSlot) : (t.setSlot n m).dirty = t.dirty := rfl
@[simp] theorem Strand.setSlot_draining (t : Strand) (n : Nat) (m : MapSlot) : (t.setSlot n m).draining = t.draining := rfl
@[simp] theorem Strand.setSlot_load (t : Strand) (n : Nat) (m : MapSlot) : (t.setSlot n m).load = t.load := rfl
@[simp] theorem Strand.setSlot_record (t : Strand) (n : Nat) (m : MapSlot) : (t.setSlot n m).record = t.record := rfl
@[simp] theorem Strand.setSlot_replay (t : Strand) (n : Nat) (m : MapSlot) : (t.setSlot n m).replay = t.replay := rfl
@[simp] theorem Strand.setSlot_gbar (t : Strand) (n : Nat) (m : MapSlot) : (t.setSlot n m).gbar = t.gbar := rfl
@[simp] theorem Strand.setSlot_bloomed (t : Strand) (n : Nat) (m : MapSlot) : (t.setSlot n m).bloomed = t.bloomed := rfl
@[simp] theorem Strand.setSlot_hostInt (t : Strand) (n : Nat) (m : MapSlot) : (t.setSlot n m).hostInt = t.hostInt := rfl
@[simp] theorem Strand.setSlot_spared (t : Strand) (n : Nat) (m : MapSlot) : (t.setSlot n m).spared = t.spared := rfl
@[simp] theorem Strand.setSlot_held (t : Strand) (n : Nat) (m : MapSlot) : (t.setSlot n m).held = t.held := rfl
@[simp] theorem Strand.setSlot_quantum (t : Strand) (n : Nat) (m : MapSlot) : (t.setSlot n m).quantum = t.quantum := rfl
@[simp] theorem Strand.setSlot_ended (t : Strand) (n : Nat) (m : MapSlot) : (t.setSlot n m).ended = t.ended := rfl
@[simp] theorem Strand.setSlot_exited (t : Strand) (n : Nat) (m : MapSlot) : (t.setSlot n m).exited = t.exited := rfl
@[simp] theorem Strand.setSlot_buffer (t : Strand) (n : Nat) (m : MapSlot) : (t.setSlot n m).buffer = t.buffer := rfl
@[simp] theorem Strand.setSlot_solid (t : Strand) (n : Nat) (m : MapSlot) : (t.setSlot n m).solid = t.solid := rfl
@[simp] theorem Strand.setSlot_writers (t : Strand) (n : Nat) (m : MapSlot) : (t.setSlot n m).writers = t.writers := rfl
@[simp] theorem Strand.setSlot_pendTrap (t : Strand) (n : Nat) (m : MapSlot) : (t.setSlot n m).pendTrap = t.pendTrap := rfl
@[simp] theorem Strand.setSlot_waitRegs (t : Strand) (n : Nat) (m : MapSlot) : (t.setSlot n m).waitRegs = t.waitRegs := rfl
@[simp] theorem Strand.setSlot_acq (t : Strand) (n : Nat) (m : MapSlot) : (t.setSlot n m).acq = t.acq := rfl
@[simp] theorem Strand.setSlot_issued (t : Strand) (n : Nat) (m : MapSlot) : (t.setSlot n m).issued = t.issued := rfl
@[simp] theorem Strand.setSlot_saveAt (t : Strand) (n : Nat) (m : MapSlot) : (t.setSlot n m).saveAt = t.saveAt := rfl

/-! `Strand.setKreg`: k0 is never written (R105) -/

@[simp] theorem Strand.setKreg_ctx (t : Strand) (n : Nat) (v : W128) : (t.setKreg n v).ctx = t.ctx := by unfold Strand.setKreg; split <;> rfl
@[simp] theorem Strand.setKreg_gid (t : Strand) (n : Nat) (v : W128) : (t.setKreg n v).gid = t.gid := by unfold Strand.setKreg; split <;> rfl
@[simp] theorem Strand.setKreg_kind (t : Strand) (n : Nat) (v : W128) : (t.setKreg n v).kind = t.kind := by unfold Strand.setKreg; split <;> rfl
@[simp] theorem Strand.setKreg_core (t : Strand) (n : Nat) (v : W128) : (t.setKreg n v).core = t.core := by unfold Strand.setKreg; split <;> rfl
@[simp] theorem Strand.setKreg_quarter (t : Strand) (n : Nat) (v : W128) : (t.setKreg n v).quarter = t.quarter := by unfold Strand.setKreg; split <;> rfl
@[simp] theorem Strand.setKreg_slot (t : Strand) (n : Nat) (v : W128) : (t.setKreg n v).slot = t.slot := by unfold Strand.setKreg; split <;> rfl
@[simp] theorem Strand.setKreg_index (t : Strand) (n : Nat) (v : W128) : (t.setKreg n v).index = t.index := by unfold Strand.setKreg; split <;> rfl
@[simp] theorem Strand.setKreg_role (t : Strand) (n : Nat) (v : W128) : (t.setKreg n v).role = t.role := by unfold Strand.setKreg; split <;> rfl
@[simp] theorem Strand.setKreg_group (t : Strand) (n : Nat) (v : W128) : (t.setKreg n v).group = t.group := by unfold Strand.setKreg; split <;> rfl
@[simp] theorem Strand.setKreg_cls (t : Strand) (n : Nat) (v : W128) : (t.setKreg n v).cls = t.cls := by unfold Strand.setKreg; split <;> rfl
@[simp] theorem Strand.setKreg_status (t : Strand) (n : Nat) (v : W128) : (t.setKreg n v).status = t.status := by unfold Strand.setKreg; split <;> rfl
@[simp] theorem Strand.setKreg_pc (t : Strand) (n : Nat) (v : W128) : (t.setKreg n v).pc = t.pc := by unfold Strand.setKreg; split <;> rfl
@[simp] theorem Strand.setKreg_vregs (t : Strand) (n : Nat) (v : W128) : (t.setKreg n v).vregs = t.vregs := by unfold Strand.setKreg; split <;> rfl
@[simp] theorem Strand.setKreg_sregs (t : Strand) (n : Nat) (v : W128) : (t.setKreg n v).sregs = t.sregs := by unfold Strand.setKreg; split <;> rfl
@[simp] theorem Strand.setKreg_mode (t : Strand) (n : Nat) (v : W128) : (t.setKreg n v).mode = t.mode := by unfold Strand.setKreg; split <;> rfl
@[simp] theorem Strand.setKreg_flags (t : Strand) (n : Nat) (v : W128) : (t.setKreg n v).flags = t.flags := by unfold Strand.setKreg; split <;> rfl
@[simp] theorem Strand.setKreg_regLimit (t : Strand) (n : Nat) (v : W128) : (t.setKreg n v).regLimit = t.regLimit := by unfold Strand.setKreg; split <;> rfl
@[simp] theorem Strand.setKreg_mapLimit (t : Strand) (n : Nat) (v : W128) : (t.setKreg n v).mapLimit = t.mapLimit := by unfold Strand.setKreg; split <;> rfl
@[simp] theorem Strand.setKreg_lookahead (t : Strand) (n : Nat) (v : W128) : (t.setKreg n v).lookahead = t.lookahead := by unfold Strand.setKreg; split <;> rfl
@[simp] theorem Strand.setKreg_token (t : Strand) (n : Nat) (v : W128) : (t.setKreg n v).token = t.token := by unfold Strand.setKreg; split <;> rfl
@[simp] theorem Strand.setKreg_parent (t : Strand) (n : Nat) (v : W128) : (t.setKreg n v).parent = t.parent := by unfold Strand.setKreg; split <;> rfl
@[simp] theorem Strand.setKreg_chain (t : Strand) (n : Nat) (v : W128) : (t.setKreg n v).chain = t.chain := by unfold Strand.setKreg; split <;> rfl
@[simp] theorem Strand.setKreg_depth (t : Strand) (n : Nat) (v : W128) : (t.setKreg n v).depth = t.depth := by unfold Strand.setKreg; split <;> rfl
@[simp] theorem Strand.setKreg_maxDepth (t : Strand) (n : Nat) (v : W128) : (t.setKreg n v).maxDepth = t.maxDepth := by unfold Strand.setKreg; split <;> rfl
@[simp] theorem Strand.setKreg_epoch (t : Strand) (n : Nat) (v : W128) : (t.setKreg n v).epoch = t.epoch := by unfold Strand.setKreg; split <;> rfl
@[simp] theorem Strand.setKreg_retired (t : Strand) (n : Nat) (v : W128) : (t.setKreg n v).retired = t.retired := by unfold Strand.setKreg; split <;> rfl
@[simp] theorem Strand.setKreg_trapCause (t : Strand) (n : Nat) (v : W128) : (t.setKreg n v).trapCause = t.trapCause := by unfold Strand.setKreg; split <;> rfl
@[simp] theorem Strand.setKreg_faultVa (t : Strand) (n : Nat) (v : W128) : (t.setKreg n v).faultVa = t.faultVa := by unfold Strand.setKreg; split <;> rfl
@[simp] theorem Strand.setKreg_faultMask (t : Strand) (n : Nat) (v : W128) : (t.setKreg n v).faultMask = t.faultMask := by unfold Strand.setKreg; split <;> rfl
@[simp] theorem Strand.setKreg_epc (t : Strand) (n : Nat) (v : W128) : (t.setKreg n v).epc = t.epc := by unfold Strand.setKreg; split <;> rfl
@[simp] theorem Strand.setKreg_salt (t : Strand) (n : Nat) (v : W128) : (t.setKreg n v).salt = t.salt := by unfold Strand.setKreg; split <;> rfl
@[simp] theorem Strand.setKreg_stream (t : Strand) (n : Nat) (v : W128) : (t.setKreg n v).stream = t.stream := by unfold Strand.setKreg; split <;> rfl
@[simp] theorem Strand.setKreg_ctr0 (t : Strand) (n : Nat) (v : W128) : (t.setKreg n v).ctr0 = t.ctr0 := by unfold Strand.setKreg; split <;> rfl
@[simp] theorem Strand.setKreg_ctr1 (t : Strand) (n : Nat) (v : W128) : (t.setKreg n v).ctr1 = t.ctr1 := by unfold Strand.setKreg; split <;> rfl
@[simp] theorem Strand.setKreg_laneBase (t : Strand) (n : Nat) (v : W128) : (t.setKreg n v).laneBase = t.laneBase := by unfold Strand.setKreg; split <;> rfl
@[simp] theorem Strand.setKreg_isarev (t : Strand) (n : Nat) (v : W128) : (t.setKreg n v).isarev = t.isarev := by unfold Strand.setKreg; split <;> rfl
@[simp] theorem Strand.setKreg_blevel (t : Strand) (n : Nat) (v : W128) : (t.setKreg n v).blevel = t.blevel := by unfold Strand.setKreg; split <;> rfl
@[simp] theorem Strand.setKreg_compat (t : Strand) (n : Nat) (v : W128) : (t.setKreg n v).compat = t.compat := by unfold Strand.setKreg; split <;> rfl
@[simp] theorem Strand.setKreg_paired (t : Strand) (n : Nat) (v : W128) : (t.setKreg n v).paired = t.paired := by unfold Strand.setKreg; split <;> rfl
@[simp] theorem Strand.setKreg_coords (t : Strand) (n : Nat) (v : W128) : (t.setKreg n v).coords = t.coords := by unfold Strand.setKreg; split <;> rfl
@[simp] theorem Strand.setKreg_ident (t : Strand) (n : Nat) (v : W128) : (t.setKreg n v).ident = t.ident := by unfold Strand.setKreg; split <;> rfl
@[simp] theorem Strand.setKreg_ordinal (t : Strand) (n : Nat) (v : W128) : (t.setKreg n v).ordinal = t.ordinal := by unfold Strand.setKreg; split <;> rfl
@[simp] theorem Strand.setKreg_root (t : Strand) (n : Nat) (v : W128) : (t.setKreg n v).root = t.root := by unfold Strand.setKreg; split <;> rfl
@[simp] theorem Strand.setKreg_launch (t : Strand) (n : Nat) (v : W128) : (t.setKreg n v).launch = t.launch := by unfold Strand.setKreg; split <;> rfl
@[simp] theorem Strand.setKreg_blocks (t : Strand) (n : Nat) (v : W128) : (t.setKreg n v).blocks = t.blocks := by unfold Strand.setKreg; split <;> rfl
@[simp] theorem Strand.setKreg_dirty (t : Strand) (n : Nat) (v : W128) : (t.setKreg n v).dirty = t.dirty := by unfold Strand.setKreg; split <;> rfl
@[simp] theorem Strand.setKreg_slots (t : Strand) (n : Nat) (v : W128) : (t.setKreg n v).slots = t.slots := by unfold Strand.setKreg; split <;> rfl
@[simp] theorem Strand.setKreg_draining (t : Strand) (n : Nat) (v : W128) : (t.setKreg n v).draining = t.draining := by unfold Strand.setKreg; split <;> rfl
@[simp] theorem Strand.setKreg_load (t : Strand) (n : Nat) (v : W128) : (t.setKreg n v).load = t.load := by unfold Strand.setKreg; split <;> rfl
@[simp] theorem Strand.setKreg_record (t : Strand) (n : Nat) (v : W128) : (t.setKreg n v).record = t.record := by unfold Strand.setKreg; split <;> rfl
@[simp] theorem Strand.setKreg_replay (t : Strand) (n : Nat) (v : W128) : (t.setKreg n v).replay = t.replay := by unfold Strand.setKreg; split <;> rfl
@[simp] theorem Strand.setKreg_gbar (t : Strand) (n : Nat) (v : W128) : (t.setKreg n v).gbar = t.gbar := by unfold Strand.setKreg; split <;> rfl
@[simp] theorem Strand.setKreg_bloomed (t : Strand) (n : Nat) (v : W128) : (t.setKreg n v).bloomed = t.bloomed := by unfold Strand.setKreg; split <;> rfl
@[simp] theorem Strand.setKreg_hostInt (t : Strand) (n : Nat) (v : W128) : (t.setKreg n v).hostInt = t.hostInt := by unfold Strand.setKreg; split <;> rfl
@[simp] theorem Strand.setKreg_spared (t : Strand) (n : Nat) (v : W128) : (t.setKreg n v).spared = t.spared := by unfold Strand.setKreg; split <;> rfl
@[simp] theorem Strand.setKreg_held (t : Strand) (n : Nat) (v : W128) : (t.setKreg n v).held = t.held := by unfold Strand.setKreg; split <;> rfl
@[simp] theorem Strand.setKreg_quantum (t : Strand) (n : Nat) (v : W128) : (t.setKreg n v).quantum = t.quantum := by unfold Strand.setKreg; split <;> rfl
@[simp] theorem Strand.setKreg_ended (t : Strand) (n : Nat) (v : W128) : (t.setKreg n v).ended = t.ended := by unfold Strand.setKreg; split <;> rfl
@[simp] theorem Strand.setKreg_exited (t : Strand) (n : Nat) (v : W128) : (t.setKreg n v).exited = t.exited := by unfold Strand.setKreg; split <;> rfl
@[simp] theorem Strand.setKreg_buffer (t : Strand) (n : Nat) (v : W128) : (t.setKreg n v).buffer = t.buffer := by unfold Strand.setKreg; split <;> rfl
@[simp] theorem Strand.setKreg_solid (t : Strand) (n : Nat) (v : W128) : (t.setKreg n v).solid = t.solid := by unfold Strand.setKreg; split <;> rfl
@[simp] theorem Strand.setKreg_writers (t : Strand) (n : Nat) (v : W128) : (t.setKreg n v).writers = t.writers := by unfold Strand.setKreg; split <;> rfl
@[simp] theorem Strand.setKreg_pendTrap (t : Strand) (n : Nat) (v : W128) : (t.setKreg n v).pendTrap = t.pendTrap := by unfold Strand.setKreg; split <;> rfl
@[simp] theorem Strand.setKreg_waitRegs (t : Strand) (n : Nat) (v : W128) : (t.setKreg n v).waitRegs = t.waitRegs := by unfold Strand.setKreg; split <;> rfl
@[simp] theorem Strand.setKreg_acq (t : Strand) (n : Nat) (v : W128) : (t.setKreg n v).acq = t.acq := by unfold Strand.setKreg; split <;> rfl
@[simp] theorem Strand.setKreg_issued (t : Strand) (n : Nat) (v : W128) : (t.setKreg n v).issued = t.issued := by unfold Strand.setKreg; split <;> rfl
@[simp] theorem Strand.setKreg_saveAt (t : Strand) (n : Nat) (v : W128) : (t.setKreg n v).saveAt = t.saveAt := by unfold Strand.setKreg; split <;> rfl

/-! `State.withChip` -/

@[simp] theorem State.withChip_chip (s : State) (c : Chip) : (s.withChip c).chip = c := rfl
@[simp] theorem State.withChip_hc (s : State) (c : Chip) : (s.withChip c).hc = s.hc := rfl
@[simp] theorem State.withChip_agenda (s : State) (c : Chip) : (s.withChip c).agenda = s.agenda := rfl

/-! What the changed field holds -/

@[simp] theorem Chip.strand_setStrand (c : Chip) (n m : Nat) (t : Strand) :
    (c.setStrand n t).strand m = if m = n then some t else c.strand m := Sparse.get?_set _ _ _ _
@[simp] theorem Chip.ctx_setCtx (c : Chip) (n m : Nat) (x : Context) :
    (c.setCtx n x).ctx m = if m = n then some x else c.ctx m := Sparse.get?_set _ _ _ _
@[simp] theorem Chip.core_setCore (c : Chip) (n m : Nat) (x : Core) :
    (c.setCore n x).core m = if m = n then x else c.core m := Sparse.getD_set _ _ _ _ _
@[simp] theorem Chip.queue_setQueue (c : Chip) (n m : Nat) (q : Queue) :
    (c.setQueue n q).queue m = if m = n then some q else c.queue m := Sparse.get?_set _ _ _ _
@[simp] theorem Chip.strand_setCtx (c : Chip) (n m : Nat) (x : Context) : (c.setCtx n x).strand m = c.strand m := rfl
@[simp] theorem Chip.strand_setCore (c : Chip) (n m : Nat) (x : Core) : (c.setCore n x).strand m = c.strand m := rfl
@[simp] theorem Chip.ctx_setStrand (c : Chip) (n m : Nat) (t : Strand) : (c.setStrand n t).ctx m = c.ctx m := rfl
@[simp] theorem Chip.ctx_setCore (c : Chip) (n m : Nat) (x : Core) : (c.setCore n x).ctx m = c.ctx m := rfl
@[simp] theorem Chip.core_setStrand (c : Chip) (n m : Nat) (t : Strand) : (c.setStrand n t).core m = c.core m := rfl
@[simp] theorem Chip.core_setCtx (c : Chip) (n m : Nat) (x : Context) : (c.setCtx n x).core m = c.core m := rfl

@[simp] theorem Strand.vreg_setVreg (t : Strand) (n m : Nat) (r : VReg) : (t.setVreg n r).vreg m = if m = n then r else t.vreg m :=
  Sparse.getD_set _ _ _ _ _
@[simp] theorem Strand.sreg_setSreg (t : Strand) (n m : Nat) (v : W64) : (t.setSreg n v).sreg m = if m = n then v else t.sreg m :=
  Sparse.getD_set _ _ _ _ _
@[simp] theorem Strand.kreg_setKreg (t : Strand) (n m : Nat) (v : W128) :
    (t.setKreg n v).kreg m = if m = n ∧ n ≠ 0 then v else t.kreg m := by
  unfold Strand.setKreg
  split
  · simp [*]
  · simp [Strand.kreg, Sparse.getD_set, *]
@[simp] theorem Strand.vreg_setSreg (t : Strand) (n m : Nat) (v : W64) : (t.setSreg n v).vreg m = t.vreg m := rfl
@[simp] theorem Strand.vreg_setKreg (t : Strand) (n m : Nat) (v : W128) : (t.setKreg n v).vreg m = t.vreg m := by simp [Strand.vreg]
@[simp] theorem Strand.vreg_accrue (t : Strand) (m : Nat) (e : Exc) : (t.accrue e).vreg m = t.vreg m := rfl
@[simp] theorem Strand.sreg_setVreg (t : Strand) (n m : Nat) (r : VReg) : (t.setVreg n r).sreg m = t.sreg m := rfl
@[simp] theorem Strand.sreg_setKreg (t : Strand) (n m : Nat) (v : W128) : (t.setKreg n v).sreg m = t.sreg m := by simp [Strand.sreg]
@[simp] theorem Strand.sreg_accrue (t : Strand) (m : Nat) (e : Exc) : (t.accrue e).sreg m = t.sreg m := rfl
@[simp] theorem Strand.kreg_setVreg (t : Strand) (n m : Nat) (r : VReg) : (t.setVreg n r).kreg m = t.kreg m := rfl
@[simp] theorem Strand.kreg_setSreg (t : Strand) (n m : Nat) (v : W64) : (t.setSreg n v).kreg m = t.kreg m := rfl
@[simp] theorem Strand.kreg_accrue (t : Strand) (m : Nat) (e : Exc) : (t.accrue e).kreg m = t.kreg m := rfl

end Sys2Proof.Machine
end

