-- ==== Sys2Proof/Laws/Step.lean ====
section
/-! SUPPORT. One spec lemma for each shared operation of a step: how an outcome is made, what an instruction of a strand comes to, what
taking a trap does, and the fetch of the next instruction. -/

namespace Sys2Proof.Machine

/-! ### Outcomes -/

/-- A step whose chip met no absent frame answers that chip. -/
@[simp] theorem State.onChip_whole (s : State) {c : Chip} (h : c.halt = none) : s.onChip c = .next (s.withChip c) := by
  simp [State.onChip, h, State.withChip]

@[simp] theorem State.onHub_whole (s : State) {c : Chip} (h : c.halt = none) (x : HubCtl) :
    s.onHub c x = .next { s with chip := c, hc := x } := by
  simp [State.onHub, h]

/-- Inversion: a step that answers a next state through `onChip` has changed the chip alone. -/
theorem State.onChip_next {s s' : State} {c : Chip} (h : s.onChip c = .next s') : s' = s.withChip c ∧ c.halt = none := by
  unfold State.onChip at h
  split at h
  · cases h
  · cases h; exact ⟨rfl, ‹_›⟩

theorem State.onHub_next {s s' : State} {c : Chip} {x : HubCtl} (h : s.onHub c x = .next s') :
    s' = { s with chip := c, hc := x } ∧ c.halt = none := by
  unfold State.onHub at h
  split at h
  · cases h
  · cases h; exact ⟨rfl, ‹_›⟩

/-! ### An instruction of a strand -/

/-- An instruction that issues runs its body and then ends. -/
theorem State.strandInstr_issues {s : State} {t : Strand} {sp : OpSpec} {f : Frame} (h : s.Issues t sp f) (i : Instr)
    (body : Chip → Strand → Chip × Out) :
    s.strandInstr i sp f body =
      s.onChip ((body s.chip t).1.finish s.chip.cur i (markRegs sp f) (t.active f) (body s.chip t).2) := by
  simp [State.strandInstr, h.1.2, h.2.1, h.2.2]

/-- An instruction that stage A stops leaves an instruction record (R247). -/
theorem State.strandInstr_stops {s : State} {t : Strand} {sp : OpSpec} {f : Frame} {tr : Trap} (h : s.Executes t)
    (ha : stageA t sp f = some tr) (i : Instr) (body : Chip → Strand → Chip × Out) :
    s.strandInstr i sp f body = s.onChip (s.chip.takeTrap s.chip.cur tr t.pc none) := by
  simp [State.strandInstr, h.2, ha, Chip.finish]

/-- An instruction of a strand that retires with the strand `u` over the chip `c`. -/
theorem State.strandInstr_retires {s : State} {t u : Strand} {sp : OpSpec} {f : Frame} {c : Chip} {pc : W64} {ends : Bool} {i : Instr}
    {body : Chip → Strand → Chip × Out} (h : s.Issues t sp f) (hb : body s.chip t = (c, .done u pc ends)) (hc : c.halt = none) :
    s.strandInstr i sp f body =
      .next (s.withChip (c.setStrand s.chip.cur (u.retired' (c.quantumOf u) (markRegs sp f) ends pc))) := by
  rw [State.strandInstr_issues h, hb]
  simp [Chip.finish, hc]

/-- The same where the instruction touches nothing but its strand. -/
theorem State.strandOnly_retires {s : State} {t u : Strand} {sp : OpSpec} {f : Frame} {pc : W64} {ends : Bool} {i : Instr}
    {body : Strand → Out} (h : s.Issues t sp f) (hb : body t = .done u pc ends) :
    s.strandOnly i sp f body = .next (s.withChip (s.chip.retires u (markRegs sp f) ends pc)) := by
  unfold State.strandOnly
  rw [State.strandInstr_retires (c := s.chip) (u := u) (pc := pc) (ends := ends) h (by simp [hb]) h.1.1]
  rfl

/-- A memory instruction that issues and retires without ending its quantum at Commit: its strand's work is not buffered, or no lane of any
of its executions met what ends a quantum. -/
theorem State.memInstr_retires {s : State} {t u : Strand} {sp : OpSpec} {f : Frame} {c : Chip} {pc : W64} {i : Instr}
    {body : Chip → Strand → Chip × Out} (h : s.IssuesMem t sp f) (hb : body s.chip t = (c, .done u pc false)) (hc : c.halt = none)
    (hm : s.chip.buffers t = false ∨ u.metEnd = false) :
    s.memInstr i sp f body =
      .next (s.withChip (c.setStrand s.chip.cur (u.retired' (c.quantumOf u) (markRegs sp f) false pc))) := by
  rcases hm with hm | hm <;> simp [State.memInstr, h.1.1.2, h.1.2.1, h.1.2.2, h.2, hb, Chip.finish, hc, hm]

/-! ### Last-read marks of instructions without vector sources -/

@[simp] theorem Operand.regs_zero (o : Operand) : o.regs 0 = [] := by cases o <;> rfl

/-- An instruction whose entry permits no vector register in a source field empties none. -/
theorem markRegs_none {sp : OpSpec} {f : Frame} (ha : sp.a.v = 0) (hb : sp.b.v = 0) (hc : sp.c.v = 0) : markRegs sp f = [] := by
  simp [markRegs, fieldRegs, ha, hb, hc]

/-! ### Traps -/

/-- A strand that is not the handler freezes with its record and joins its core's queue (R240 to R244). -/
theorem Chip.takeTrap_strand {c : Chip} {sid : Nat} {t : Strand} (h : c.strand sid = some t) (hh : t.isHandler = false)
    (ho : c.owesResult sid = false) {tr : Trap} (hp : tr.cause ≠ .pageFault) (epc : W64) (rec : Option LaneRecord) :
    c.takeTrap sid tr epc rec =
      (c.setStrand sid (t.trapped tr epc rec)).setCore t.core { c.core t.core with frozenQ := (c.core t.core).frozenQ ++ [sid] } := by
  simp [Chip.takeTrap, h, hh, ho, hp]

/-- A trap of the handler strand is a context fault (R47, R245). -/
theorem Chip.takeTrap_handler {c : Chip} {sid : Nat} {t : Strand} (h : c.strand sid = some t) (hh : t.isHandler = true)
    (ho : c.owesResult sid = false) (tr : Trap)
    (epc : W64) (rec : Option LaneRecord) :
    c.takeTrap sid tr epc rec = c.contextFault t.ctx (t.event evCtxFault tr.cause.code tr.va 0) := by
  simp [Chip.takeTrap, h, hh, ho]

/-! ### Retirement -/

@[simp] theorem Strand.retired'_pc (t : Strand) (q : Option Nat) (ms : List Nat) (e : Bool) (pc : W64) : (t.retired' q ms e pc).pc = pc := rfl
@[simp] theorem Strand.retired'_retired (t : Strand) (q : Option Nat) (ms : List Nat) (e : Bool) (pc : W64) :
    (t.retired' q ms e pc).retired = t.retired + 1 := rfl

theorem Strand.emptied_fields (t : Strand) (ms : List Nat) :
    (ms.foldl Strand.emptied t).sregs = t.sregs ∧ (ms.foldl Strand.emptied t).kregs = t.kregs ∧
      (ms.foldl Strand.emptied t).flags = t.flags ∧ (ms.foldl Strand.emptied t).mode = t.mode := by
  induction ms generalizing t with
  | nil => exact ⟨rfl, rfl, rfl, rfl⟩
  | cons m ms ih =>
    have := ih (t.emptied m)
    simpa [Strand.emptied] using this

/-- Retirement changes no scalar and no mask. -/
@[simp] theorem Strand.retired'_sreg (t : Strand) (q : Option Nat) (ms : List Nat) (e : Bool) (pc : W64) (n : Nat) :
    (t.retired' q ms e pc).sreg n = t.sreg n := by
  simp [Strand.retired', Strand.sreg, (t.emptied_fields ms).1]
@[simp] theorem Strand.retired'_kreg (t : Strand) (q : Option Nat) (ms : List Nat) (e : Bool) (pc : W64) (n : Nat) :
    (t.retired' q ms e pc).kreg n = t.kreg n := by
  simp [Strand.retired', Strand.kreg, (t.emptied_fields ms).2.1]
@[simp] theorem Strand.retired'_flags (t : Strand) (q : Option Nat) (ms : List Nat) (e : Bool) (pc : W64) :
    (t.retired' q ms e pc).flags = t.flags := (t.emptied_fields ms).2.2.1
@[simp] theorem Strand.retired'_mode (t : Strand) (q : Option Nat) (ms : List Nat) (e : Bool) (pc : W64) :
    (t.retired' q ms e pc).mode = t.mode := (t.emptied_fields ms).2.2.2

/-- Registers without a mark stay as they are. -/
theorem Strand.retired'_vreg (t : Strand) (q : Option Nat) (e : Bool) (pc : W64) {ms : List Nat} {n : Nat} (h : n ∉ ms) :
    (t.retired' q ms e pc).vreg n = t.vreg n := by
  have : (ms.foldl Strand.emptied t).vreg n = t.vreg n := by
    clear q e pc
    induction ms generalizing t with
    | nil => rfl
    | cons m ms ih =>
      simp only [List.mem_cons, not_or] at h
      rw [List.foldl_cons, ih (t.emptied m) h.2, Strand.emptied, Strand.vreg_setVreg, if_neg h.1]
  exact this

/-! ### Whose turn it is -/

/-- The agenda's head moves next. -/
theorem State.choose_cons (s : State) (x : Turn) (rest : List Turn) (h : s.agenda = x :: rest) :
    s.choose = ({ s with agenda := rest } : State).take x := by
  simp [State.choose, State.turn, h]

/-- A strand that moves fetches a word and executes what it decodes to. -/
theorem State.strandTurn_word {s : State} {sid : Nat} {t : Strand} {c : Chip} {w : W128}
    (h : Chip.strand { s.chip with cur := sid } sid = some t) (hr : Chip.moves { s.chip with cur := sid } t = true)
    (hp : t.replay = none) (hc : Chip.closedText { s.chip with cur := sid } t = false)
    (hf : Chip.fetch { s.chip with cur := sid } t = .word c w) (ho : c.awaitsResults sid (decodeWord w) = false) :
    s.strandTurn sid = (s.withChip (c.noteTurn t (decodeWord w)), some (decodeWord w)) := by
  simp only [State.strandTurn, h, hr, hp, hc, hf, ho, State.withChip, Bool.not_true, Bool.false_and, Bool.false_eq_true, if_false]

/-- A strand whose fetch fails takes the INSTRUCTION_FETCH_FAULT step. -/
theorem State.strandTurn_fault {s : State} {sid : Nat} {t : Strand} {x : Cause}
    (h : Chip.strand { s.chip with cur := sid } sid = some t) (hr : Chip.moves { s.chip with cur := sid } t = true)
    (hp : t.replay = none) (hc : Chip.closedText { s.chip with cur := sid } t = false)
    (hf : Chip.fetch { s.chip with cur := sid } t = .fault x) :
    s.strandTurn sid = (s.withChip { s.chip with cur := sid }, some .instructionFetchFault) := by
  simp only [State.strandTurn, h, hr, hp, hc, hf, State.withChip, Bool.not_true, Bool.false_and, Bool.false_eq_true, if_false]

/-- A strand in a replay executes the recorded instruction. -/
theorem State.strandTurn_replay {s : State} {sid : Nat} {t : Strand} {m : W128} {r : LaneRecord}
    (h : Chip.strand { s.chip with cur := sid } sid = some t) (hr : Chip.moves { s.chip with cur := sid } t = true)
    (hp : t.replay = some m) (hc : t.record = some r) :
    s.strandTurn sid = (s.withChip (Chip.noteTurn { s.chip with cur := sid } t r.instr), some r.instr) := by
  simp only [State.strandTurn, h, hr, hp, hc, State.withChip, Bool.not_true, Bool.false_eq_true, if_false]

end Sys2Proof.Machine
end

