-- ==== Sys2Proof/Tests/Slice0.lean ====
section
/-! SUPPORT. Tests: terms that each check of WellFormed refuses, words written out from the encoding tables, and for every statement of
Certificates/Slice0/Obligations.lean a concrete state and operands that meet its hypotheses, clause by clause, with the outcome where it
is short to say. Expected values come from the specification. -/

namespace Sys2Proof.Tests

open Sys2Proof Sys2Proof.Machine

set_option Elab.async false

/-! ### Well-formed terms -/

/-- A vector addition of v1 and v2 into v3. -/
def addFrame : Frame := { Frame.unused with d := .v 3, a := .v 1, b := .v 2, et := .i32 }

/-- Each check of WellFormed refuses a term that breaks it alone, and the plain term passes (R291, R292, R294, R310, R19, R308, R5). -/
theorem test_wellformed_refuses :
    (Instr.viadd addFrame).wf = true ∧
    (Instr.viadd { addFrame with b := .s 4, lr := 2 }).wf = false ∧
    (Instr.viadd { addFrame with d := .unassigned 0 }).wf = false ∧
    (Instr.viadd { addFrame with fs2 := 1 }).wf = false ∧
    (Instr.sadd { Frame.unused with d := .s 4, a := .s 4, b := .imm, fs1 := 1 }).wf = false ∧
    (Instr.fence { Frame.unused with fs1 := 1 }).wf = false ∧
    (Instr.nop { Frame.unused with et := .i32 }).wf = false ∧
    (Instr.mclaim { Frame.unused with fs2 := 1 }).wf = false ∧
    (Instr.sadd { Frame.unused with d := .s 4, a := .s 4, b := .imm, k := 1 }).wf = false ∧
    (Instr.viadd { addFrame with rm := 7 }).wf = false ∧
    (Instr.illegalOpcode 0x060 addFrame).wf = false ∧ (Instr.illegalOpcode 0x20A addFrame).wf = true := by decide +kernel

/-- Device steps that name an object the part does not have. -/
theorem test_wellformed_devices :
    (Instr.ctxSave 64).wf = false ∧ (Instr.launch 256).wf = false ∧ (Instr.poolPlace 4).wf = false ∧ (Instr.handlerStart 192).wf = false ∧
    (Instr.dirtyLineWriteBack 0 64 0 true).wf = false ∧ (Instr.registerWrite (.peerrt 16) 0).wf = false ∧
    (Instr.registerWrite (.attestNonce 8) 0).wf = false ∧ (Instr.linkEnable 16).wf = false ∧ (Instr.ctxSave 63).wf = true := by
  decide +kernel

/-! ### Words -/

/-- Words that the specification writes out: R293's vfmul, R322's bra, R329's sadd, and an opcode that R308 leaves unassigned. -/
theorem test_decode_written :
    decodeWord 0x5080401FF7FC00000104000040000000 =
      .vfmul { Frame.unused with d := .v 2, a := .v 1, b := .imm, rm := 1, lr := 4, imm := 0x40000000 } ∧
    decodeWord 0x007FF83FF880000000000000FFFFFFFC = .bra { Frame.unused with a := .k 3, c := Operand.ofCode 32, imm := 0xFFFFFFFC } ∧
    decodeWord 0x1828944FF7FC00000070000000000010 = .sadd { Frame.unused with d := .s 4, a := .s 4, b := .imm, et := .i64, imm := 16 } ∧
    decodeWord 0x8280340C87FC04821000000000000000 =
      .illegalOpcode 0x20A { Frame.unused with d := .v 1, a := .s 0, b := .lane, fs1 := 0x482, k := 1 } := by decide +kernel

/-- The fields of a word that uses none. -/
def F : Frame := Frame.unused

def wordsControl : List (W128 × Instr) :=
   [(0x003FFFFFF80000000000000000000000, .nop { F with c := .v 0 }),
    (0x007FF83FF880000000000000FFFFFFFC, .bra { F with a := .k 3, c := .v 32, imm := 0xFFFFFFFC }),
    (0x00BFF42FFA8000000000000000000002, .brs { F with a := .s 2, c := .v 160, imm := 2 }),
    (0x00F0983FF88000000000000000000003, .brk { F with d := .k 4, a := .k 3, c := .v 32, imm := 3 }),
    (0x012F9FFFF80000000000000000000004, .call { F with d := .s 60, c := .v 0, imm := 4 }),
    (0x017FF48FF80000000000000000000000, .ret { F with a := .s 8, c := .v 0 }),
    (0x01BFF48FF80000000000000000000000, .jmpi { F with a := .s 8, c := .v 0 }),
    (0x01FFFFFFF80000000000000000000000, .yield { F with c := .v 0 }),
    (0x023FFFFFF80000000000000000000000, .exit { F with c := .v 0 }),
    (0x027FFFFFF80000000000000000000007, .trap { F with c := .v 0, imm := 7 }),
    (0x02BFFFFFF80000000000000000000009, .bkpt { F with c := .v 0, imm := 9 })]

theorem test_decodeControl : ∀ x ∈ wordsControl, decodeWord x.1 = x.2 ∧ x.2.wf = true := by decide +kernel

def wordsMask : List (W128 × Instr) :=
   [(0x1030382C1FFC00000000000000000000, .kand { F with d := .k 1, a := .k 2, b := .k 3 }),
    (0x1070382C1FFC00000000000000000000, .kor { F with d := .k 1, a := .k 2, b := .k 3 }),
    (0x10B0382C1FFC00000000000000000000, .kxor { F with d := .k 1, a := .k 2, b := .k 3 }),
    (0x10F0382C1FFC00000000000000000000, .kandn { F with d := .k 1, a := .k 2, b := .k 3 }),
    (0x1130382FFFFC00000000000000000000, .knot { F with d := .k 1, a := .k 2 }),
    (0x1170382FFFFC00000000000000000000, .kmov { F with d := .k 1, a := .k 2 }),
    (0x11B0342A1FFC00000000000000000000, .krange { F with d := .k 1, a := .s 2, b := .s 3 }),
    (0x11E8B82FFFFC00000000000000000000, .kpop { F with d := .s 5, a := .k 2 }),
    (0x1228B82FFFFC00000000000000000000, .kffs { F with d := .s 5, a := .k 2 }),
    (0x1268B82FF7FC00000000000000000001, .kget { F with d := .s 5, a := .k 2, b := .imm, imm := 1 }),
    (0x12B0342FF7FC00000000000000000001, .kput { F with d := .k 1, a := .s 2, b := .imm, imm := 1 })]

theorem test_decodeMask : ∀ x ∈ wordsMask, decodeWord x.1 = x.2 ∧ x.2.wf = true := by decide +kernel

def wordsScalar : List (W128 × Instr) :=
   [(0x1828B42A1FFC00000070000000000000, .sadd { F with d := .s 5, a := .s 2, b := .s 3, et := .i64 }),
    (0x1868B42A1FFC00000070000000000000, .ssub { F with d := .s 5, a := .s 2, b := .s 3, et := .i64 }),
    (0x18A8B42A1FFC00000070000000000000, .smul { F with d := .s 5, a := .s 2, b := .s 3, et := .i64 }),
    (0x18E8B42A1FFC00000070000000000000, .smulh { F with d := .s 5, a := .s 2, b := .s 3, et := .i64 }),
    (0x1928B42A1FFC00000070000000000000, .sand { F with d := .s 5, a := .s 2, b := .s 3, et := .i64 }),
    (0x1968B42A1FFC00000070000000000000, .sor { F with d := .s 5, a := .s 2, b := .s 3, et := .i64 }),
    (0x19A8B42A1FFC00000070000000000000, .sxor { F with d := .s 5, a := .s 2, b := .s 3, et := .i64 }),
    (0x19E8B42A1FFC00000070000000000000, .sshl { F with d := .s 5, a := .s 2, b := .s 3, et := .i64 }),
    (0x1A28B42A1FFC00000070000000000000, .sshr { F with d := .s 5, a := .s 2, b := .s 3, et := .i64 }),
    (0x1A68B42A1FFC00000070000000000000, .ssra { F with d := .s 5, a := .s 2, b := .s 3, et := .i64 }),
    (0x1AA8B42A1FFC00000070000000000000, .smin { F with d := .s 5, a := .s 2, b := .s 3, et := .i64 }),
    (0x1AE8B42A1FFC00000070000000000000, .smax { F with d := .s 5, a := .s 2, b := .s 3, et := .i64 }),
    (0x1B28B42A1FFC00000070000000000000, .sminu { F with d := .s 5, a := .s 2, b := .s 3, et := .i64 }),
    (0x1B68B42A1FFC00000070000000000000, .smaxu { F with d := .s 5, a := .s 2, b := .s 3, et := .i64 }),
    (0x1BA8B42FFFFC00000030000000000000, .smov { F with d := .s 5, a := .s 2, et := .i32 }),
    (0x1BE8BFEFFFFC00000038000080000000, .simm { F with d := .s 5, a := .imm, imm := 0x80000000, et := .n32 }),
    (0x1C28BFEFFFFC00000000000012345678, .simmh { F with d := .s 5, a := .imm, imm := 0x12345678 }),
    (0x1C68B42A1FFC00000070000000000000, .scmp { F with d := .s 5, a := .s 2, b := .s 3, et := .i64 }),
    (0x1CA8B42A1D0400000070000000000000, .ssel { F with d := .s 5, a := .s 2, b := .s 3, c := .s 1, et := .i64 }),
    (0x1CE8B41FFFFC06000070000000000000, .sld { F with d := .s 5, a := .s 1, fs1 := 0x600, et := .i64 }),
    (0x1D3FF41FFD0C06000070000000000000, .sst { F with a := .s 1, c := .s 3, fs1 := 0x600, et := .i64 }),
    (0x1D68BFFFFFFC00000000000000000002, .srdc { F with d := .s 5, imm := 2 }),
    (0x1DBFF94FFFFC00000000000000000001, .swrc { F with a := .zero, imm := 1 })]

theorem test_decodeScalar : ∀ x ∈ wordsScalar, decodeWord x.1 = x.2 ∧ x.2.wf = true := by decide +kernel

def wordsVecInt : List (W128 × Instr) :=
   [(0x3000601017FC00000030000000000000, .viadd { F with d := .v 3, a := .v 1, b := .v 2, et := .i32 }),
    (0x3040601017FC00000030000000000000, .visub { F with d := .v 3, a := .v 1, b := .v 2, et := .i32 }),
    (0x3080601017FC00000030000000000000, .vimul { F with d := .v 3, a := .v 1, b := .v 2, et := .i32 }),
    (0x30C0601017FC00000030000000000000, .vimulh { F with d := .v 3, a := .v 1, b := .v 2, et := .i32 }),
    (0x31006010101000000030000000000000, .vimad { F with d := .v 3, a := .v 1, b := .v 2, c := .v 4, et := .i32 }),
    (0x3140601017FC00000030000000000000, .vimin { F with d := .v 3, a := .v 1, b := .v 2, et := .i32 }),
    (0x3180601017FC00000030000000000000, .vimax { F with d := .v 3, a := .v 1, b := .v 2, et := .i32 }),
    (0x31C0601017FC00000078000000000000, .vand { F with d := .v 3, a := .v 1, b := .v 2, et := .b32 }),
    (0x3200601017FC00000078000000000000, .vor { F with d := .v 3, a := .v 1, b := .v 2, et := .b32 }),
    (0x3240601017FC00000078000000000000, .vxor { F with d := .v 3, a := .v 1, b := .v 2, et := .b32 }),
    (0x3280601FFFFC00000078000000000000, .vnot { F with d := .v 3, a := .v 1, et := .b32 }),
    (0x32C0601FF7FC00000030000000000001, .vshl { F with d := .v 3, a := .v 1, b := .imm, imm := 1, et := .i32 }),
    (0x3300601FF7FC00000030000000000001, .vshr { F with d := .v 3, a := .v 1, b := .imm, imm := 1, et := .i32 }),
    (0x3340601FF7FC00000030000000000001, .vsra { F with d := .v 3, a := .v 1, b := .imm, imm := 1, et := .i32 }),
    (0x3380601FF7FC0000007800000000001F, .vrot { F with d := .v 3, a := .v 1, b := .imm, imm := 0x1F, et := .b32 }),
    (0x33C0601FF00800000038000000000004, .vbfe { F with d := .v 3, a := .v 1, b := .imm, c := .v 2, imm := 4, et := .n32 }),
    (0x34006010101000000078000000000000, .vbfi { F with d := .v 3, a := .v 1, b := .v 2, c := .v 4, et := .b32 }),
    (0x3440601FFFFC00000038000000000000, .vpopc { F with d := .v 3, a := .v 1, et := .n32 }),
    (0x3480601FFFFC00000038000000000000, .vclz { F with d := .v 3, a := .v 1, et := .n32 }),
    (0x34F0201017FC00000030000000000000, .vicmp { F with d := .k 1, a := .v 1, b := .v 2, et := .i32 }),
    (0x35006010160800000078000000000000, .vsel { F with d := .v 3, a := .v 1, b := .v 2, c := .k 2, et := .b32 }),
    (0x3540601FFFFC00000078000000000000, .vmov { F with d := .v 3, a := .v 1, et := .b32 }),
    (0x35807FEFFFFC00000038000000000000, .vidx { F with d := .v 3, a := .imm, et := .n32 })]

theorem test_decodeVecInt : ∀ x ∈ wordsVecInt, decodeWord x.1 = x.2 ∧ x.2.wf = true := by decide +kernel

def wordsVecFloat : List (W128 × Instr) :=
   [(0x5000601017FC00000000000000000000, .vfadd { F with d := .v 3, a := .v 1, b := .v 2 }),
    (0x5040601017FC00000000000000000000, .vfsub { F with d := .v 3, a := .v 1, b := .v 2 }),
    (0x5080601017FC00000000000000000000, .vfmul { F with d := .v 3, a := .v 1, b := .v 2 }),
    (0x50C06010101000000000000000000000, .vfma { F with d := .v 3, a := .v 1, b := .v 2, c := .v 4 }),
    (0x5100601017FC00000000000000000000, .vfmin { F with d := .v 3, a := .v 1, b := .v 2 }),
    (0x5140601017FC00000000000000000000, .vfmax { F with d := .v 3, a := .v 1, b := .v 2 }),
    (0x51B0201017FC00000000000000000000, .vfcmp { F with d := .k 1, a := .v 1, b := .v 2 }),
    (0x51C0601FFFFC00000000000000000000, .vfclass { F with d := .v 3, a := .v 1 }),
    (0x5200601FFFFC00000000000000000000, .vfrcp { F with d := .v 3, a := .v 1 }),
    (0x5240601FFFFC00000000000000000000, .vfrsq { F with d := .v 3, a := .v 1 }),
    (0x5280601FFFFC00000000000000000000, .vfsqrt { F with d := .v 3, a := .v 1 }),
    (0x52C0601017FC00000000000000000000, .vfdiv { F with d := .v 3, a := .v 1, b := .v 2 }),
    (0x5300601FFFFC00000000000000000000, .vfexp2 { F with d := .v 3, a := .v 1 }),
    (0x5340601FFFFC00000000000000000000, .vflog2 { F with d := .v 3, a := .v 1 }),
    (0x5380601FFFFC00000000000000000000, .vfsin { F with d := .v 3, a := .v 1 }),
    (0x53C0601FFFFC00000000000000000000, .vfcos { F with d := .v 3, a := .v 1 }),
    (0x5400601FFFFC00000008000000000000, .vfcvt { F with d := .v 3, a := .v 1, et := .f16 }),
    (0x5440601FFFFC00000030000000000000, .vftoi { F with d := .v 3, a := .v 1, et := .i32 }),
    (0x5480601FFFFC00000000000000000000, .vffri { F with d := .v 3, a := .v 1 }),
    (0x54C0601FF7FC00000000000000000001, .vfscale { F with d := .v 3, a := .v 1, b := .imm, imm := 1 }),
    (0x5500800017FC00000068000000000000, .vdadd { F with d := .v 4, a := .v 0, b := .v 2, et := .f64 }),
    (0x5540800017FC00000068000000000000, .vdmul { F with d := .v 4, a := .v 0, b := .v 2, et := .f64 }),
    (0x5580C000101000000068000000000000, .vdfma { F with d := .v 6, a := .v 0, b := .v 2, c := .v 4, et := .f64 }),
    (0x55C07FFFFFFC00000038000000000000, .vrand { F with d := .v 3, et := .n32 })]

theorem test_decodeVecFloat : ∀ x ∈ wordsVecFloat, decodeWord x.1 = x.2 ∧ x.2.wf = true := by decide +kernel

def wordsLane : List (W128 × Instr) :=
   [(0x7000601FF7FC00000078000000000001, .vshfl { F with d := .v 3, a := .v 1, b := .imm, imm := 1, et := .b32 }),
    (0x7068A01FF7FC00000078000000000003, .vlane { F with d := .s 5, a := .v 1, b := .imm, imm := 3, et := .b32 }),
    (0x7080743FF7FC00000078000000000003, .vputl { F with d := .v 3, a := .s 3, b := .imm, imm := 3, et := .b32 })]

theorem test_decodeLane : ∀ x ∈ wordsLane, decodeWord x.1 = x.2 ∧ x.2.wf = true := by decide +kernel

def wordsMap : List (W128 × Instr) :=
   [(0x783FFFFFFFFC20000000000000000000, .mclaim { F with fs1 := 0x2000 }),
    (0x787FFFFFFFFC00000000000000000000, .mfree F),
    (0x78BFF94FFFFC00000000000000000000, .mbind { F with a := .zero }),
    (0x78FFF41A3FFC00000000000000000000, .mload { F with a := .s 1, b := .s 7 }),
    (0x793FF41FFFFC00000000000000000000, .mside { F with a := .s 1 }),
    (0x797FE01FFFFC00000000000000000000, .mfill { F with a := .v 1 }),
    (0x79BFFFFFFFFC00000000000000000000, .mgen F),
    (0x79FFF41FFFFC00000000000000000000, .mdrain { F with a := .s 1 }),
    (0x7A28BFFFFFFC00000000000000000000, .mquery { F with d := .s 5 })]

theorem test_decodeMap : ∀ x ∈ wordsMap, decodeWord x.1 = x.2 ∧ x.2.wf = true := by decide +kernel

def wordsMemory : List (W128 × Instr) :=
   [(0x8000741C87FC04800078000000000000, .vld { F with d := .v 3, a := .s 1, b := .lane, fs1 := 0x480, et := .b32 }),
    (0x807FF41C800404800078000000000000, .vst { F with a := .s 1, b := .lane, c := .v 1, fs1 := 0x480, et := .b32 }),
    (0x8081141FFFFC04000078000000000000, .vldb { F with d := .v 8, a := .s 1, fs1 := 0x400, et := .b32 }),
    (0x80FFF41FF82004000078000000000000, .vstb { F with a := .s 1, c := .v 8, fs1 := 0x400, et := .b32 }),
    (0x8100741C87FC04800078000000000000, .vlda { F with d := .v 3, a := .s 1, b := .lane, fs1 := 0x480, et := .b32 }),
    (0x817FF41C800404800030000000000000, .vatom { F with a := .s 1, b := .lane, c := .v 1, fs1 := 0x480, et := .i32 }),
    (0x8180741C800404800030000000000000, .vatomr { F with d := .v 3, a := .s 1, b := .lane, c := .v 1, fs1 := 0x480, et := .i32 }),
    (0x81C0741C800404800078000000000000, .vcas { F with d := .v 3, a := .s 1, b := .lane, c := .v 1, fs1 := 0x480, et := .b32 }),
    (0x823FF49A100404000078000000000000, .vmcast { F with a := .s 9, b := .s 2, c := .v 1, fs1 := 0x400, et := .b32 }),
    (0x827FF41C87FC04800000000000000000, .vpref { F with a := .s 1, b := .lane, fs1 := 0x480 }),
    (0x983FF44C801009000078000000000000, .budst { F with a := .s 4, b := .lane, c := .v 4, fs1 := 0x900, et := .b32 }),
    (0x987FF44FFD3008000078000000000000, .bloom { F with a := .s 4, c := .s 12, fs1 := 0x800, et := .b32 }),
    (0x9880744C87FC09000078000000000000, .budq { F with d := .v 3, a := .s 4, b := .lane, fs1 := 0x900, et := .b32 })]

theorem test_decodeMemory : ∀ x ∈ wordsMemory, decodeWord x.1 = x.2 ∧ x.2.wf = true := by decide +kernel

def wordsSync : List (W128 × Instr) :=
   [(0xA03FFFFFFFFCF0000000000000000000, .fence { F with fs1 := 0xF000 }),
    (0xA07FF41A0D1C00000000000000000000, .bind { F with a := .s 1, b := .s 1, c := .s 7 }),
    (0xA0BFF41A0D1C00000000000000000000, .unbind { F with a := .s 1, b := .s 1, c := .s 7 }),
    (0xA0E8B41FFFFC00000000000000000000, .acq { F with d := .s 5, a := .s 1 }),
    (0xA13FF41FFFFC00000000000000000000, .rel { F with a := .s 1 }),
    (0xA17FFFFFF80000000000000000000000, .gbar { F with c := .v 0 }),
    (0xA1BFF46FFD0800000000000000000000, .boinit { F with a := .s 6, c := .s 2 }),
    (0xA1FFF46FFD0800000000000000000000, .boexp { F with a := .s 6, c := .s 2 }),
    (0xA228B46FFD2800000000000000000000, .boarr { F with d := .s 5, a := .s 6, c := .s 10 }),
    (0xA27FF46FFD2800000000000000000000, .bowait { F with a := .s 6, c := .s 10 }),
    (0xA2A8B46FFD2800000000000000000000, .botest { F with d := .s 5, a := .s 6, c := .s 10 }),
    (0xA2FFFFFFF80000000000000000000000, .qend { F with c := .v 0 })]

theorem test_decodeSync : ∀ x ∈ wordsSync, decodeWord x.1 = x.2 ∧ x.2.wf = true := by decide +kernel

def wordsEngineTask : List (W128 × Instr) :=
   [(0xB03FF49A37FC00000000000000000000, .tcopy { F with a := .s 9, b := .s 6 }),
    (0xB07FF49A37FC00000000000000000000, .tred { F with a := .s 9, b := .s 6 }),
    (0xB0BFF49A37FC00000000000000000000, .lsend { F with a := .s 9, b := .s 6 }),
    (0xB0FFF49A37FC00000000000000000000, .lred { F with a := .s 9, b := .s 6 }),
    (0xB83FF49FFFFC00000000000000000000, .spawn { F with a := .s 9 }),
    (0xB868B49A17FC00000000000000000000, .spawnd { F with d := .s 5, a := .s 9, b := .s 2 }),
    (0xB8BFF49FFFFC00000000000000000000, .signal { F with a := .s 9 }),
    (0xB8FFFFFFFFFC00010000000000000000, .give { F with fs1 := 1 }),
    (0xB93FFFFFFFFC00010000000000000000, .claim { F with fs1 := 1 }),
    (0xB968BFEFFFFC00000038000000000100, .caprd { F with d := .s 5, a := .imm, imm := 0x100, et := .n32 })]

theorem test_decodeEngineTask : ∀ x ∈ wordsEngineTask, decodeWord x.1 = x.2 ∧ x.2.wf = true := by decide +kernel

def wordsSystem : List (W128 × Instr) :=
   [(0xC028BFFFFFFC00000000000000000002, .prdc { F with d := .s 5, imm := 2 }),
    (0xC07FF94FFFFC00000000000000000001, .pwrc { F with a := .zero, imm := 1 }),
    (0xC0BFFFFFFFFC00000000000000000000, .tret F),
    (0xC0C07FFFF7FC00000000000000000001, .hsavev { F with d := .v 3, b := .imm, imm := 1 }),
    (0xC13FE01FF7FC00000000000000000001, .hloadv { F with a := .v 1, b := .imm, imm := 1 }),
    (0xC168BFFFF7FC00000000000000000141, .hsaves { F with d := .s 5, b := .imm, imm := 0x141 }),
    (0xC1BFF42FF7FC00000000000000000141, .hloads { F with a := .s 2, b := .imm, imm := 0x141 }),
    (0xC1F03FFFF7FC00000000000000000181, .hsavek { F with d := .k 1, b := .imm, imm := 0x181 }),
    (0xC23FF81FF7FC00000000000000000181, .hloadk { F with a := .k 1, b := .imm, imm := 0x181 }),
    (0xC27FF41FFFFC00000000000000000000, .hloadm { F with a := .s 1 }),
    (0xC2A8BFFFF7FC00000000000000000001, .hrob { F with d := .s 5, b := .imm, imm := 1 }),
    (0xC2FFF49FFFFC00000000000000000000, .patch { F with a := .s 9 }),
    (0xC33FF41A3FFC00000000000000000000, .iinv { F with a := .s 1, b := .s 7 }),
    (0xC37FF41A3FFC00000000000000000000, .tinv { F with a := .s 1, b := .s 7 })]

theorem test_decodeSystem : ∀ x ∈ wordsSystem, decodeWord x.1 = x.2 ∧ x.2.wf = true := by decide +kernel

/-! ### A small machine -/

/-- A leaf of 4 KiB in near memory with R and W, and more bits (R208). -/
def leaf (pa extra : Nat) : Nat := pa + 1 + 8 + 2 ^ 53 + 2 ^ 54 + extra

/-- Die 0's tree and memory: the program page at 0, two pages with R and W from 0x1000 on, a cell page at 0x3000. -/
def chip0 : Chip := (Chip.reset.programMemory 0).writePhys (.near 0) 0x4008 
  (leBytes 8 (leaf 0x6000 0) ++ leBytes 8 (leaf 0x7000 0) ++ leBytes 8 (leaf 0x8000 (2 ^ 56)))

/-- A strand of that context with all of lanes 0 to 3: s1 a data address, s2 and s3 numbers, s4 a cell address, s6 and s9 local store. -/
def strand0 : Strand :=
  { Strand.program 1 with
    kregs := [(0, 0xF), (2, 0x6), (3, 0x5)], regLimit := 64, mapLimit := 2,
    sregs := [(1, 0x1000), (2, 3), (3, 5), (4, 0x3000), (6, 0x140000000000100), (7, 0x80), (8, 0x40), (9, 0x140000000000200), (10, 1)],
    slots := [(0, MapSlot.claimed)], token := 1 }

/-- A state in which strand 2, of group 1 and context 0, executes. -/
def machine (c : Chip) (t : Strand) : State :=
  { chip := { c with ctxs := [(0, { Context.program with state := .running })], groups := [(1, Group.program)], strands := [(2, t)],
                     cur := 2, nextId := 3 },
    hc := HubCtl.reset, agenda := [] }

def state0 : State := machine chip0 strand0

/-- The hypothesis `State.Issues` of the statements, in a form that can be computed. -/
def issues (s : State) (t : Strand) (sp : OpSpec) (f : Frame) : Bool :=
  s.chip.halt.isNone && s.chip.strand s.chip.cur == some t && stageA t sp f == none && !t.awaitsAcquire sp

theorem issues_iff {s : State} {t : Strand} {sp : OpSpec} {f : Frame} : issues s t sp f = true ↔ s.Issues t sp f := by
  simp [issues, State.Issues, State.Executes, Chip.Whole, Option.isNone_iff_eq_none, and_assoc]

/-- The hypothesis `State.IssuesMem` likewise. -/
def issuesMem (s : State) (t : Strand) (sp : OpSpec) (f : Frame) : Bool := issues s t sp f && !s.chip.releaseWaits t sp f

theorem issuesMem_iff {s : State} {t : Strand} {sp : OpSpec} {f : Frame} : issuesMem s t sp f = true ↔ s.IssuesMem t sp f := by
  simp [issuesMem, State.IssuesMem, issues_iff]

/-- The chip after an instruction or step, if it goes on. -/
def after (i : Instr) (s : State) : Option Chip :=
  match exec i s with
  | .next s' => some s'.chip
  | _ => none

/-- The executing strand after an instruction, if there is one. -/
def strandAfter (i : Instr) (s : State) : Option Strand := (after i s).bind fun c => c.strand s.chip.cur

/-- Whether an instruction retires and goes on at the next word. -/
def retiresNext (i : Instr) (s : State) : Bool :=
  match s.chip.strand s.chip.cur, strandAfter i s with
  | some t, some u => u.pc == t.pc + 16 && u.retired == t.retired + 1
  | _, _ => false

/-! ### Completion: the words above, executed -/

/-- The control instructions go where R315 to R322 say: the next word, 16 × IMM32 on, back, or to the address in s8. -/
theorem test_completesControl :
    (wordsControl.map fun x => (strandAfter x.2 state0).map fun u => u.pc.toNat) =
      [some 16, some (2 ^ 64 - 64), some 32, some 48, some 64, some 64, some 64, some 16, none, some 16, some 16] := by decide +kernel

/-- The mask and scalar instructions retire. -/
theorem test_completesMask : (wordsMask.all fun x => retiresNext x.2 state0) = true := by decide +kernel
theorem test_completesScalar : (wordsScalar.all fun x => retiresNext x.2 state0) = true := by decide +kernel

/-- The vector instructions retire, each with four active lanes of zeros. -/
theorem test_completesVecInt : (wordsVecInt.all fun x => retiresNext x.2 state0) = true := by decide +kernel
theorem test_completesVecFloat : (wordsVecFloat.all fun x => retiresNext x.2 state0) = true := by decide +kernel
theorem test_completesLane : (wordsLane.all fun x => retiresNext x.2 state0) = true := by decide +kernel

/-- The map instructions retire: slot 0 is claimed and slot 1 is not. -/
theorem test_completesMap : (wordsMap.all fun x => retiresNext x.2 state0) = true := by decide +kernel

/-! ### Worked results, from the specification's words -/

/-- s3 = 5 and s2 = 3, under s5 := op(s2, s3): the scalar table of R327 in its order, SMOV to SSEL included (R328, R329). -/
theorem test_scalarResults :
    ((wordsScalar.take 19).map fun x => (strandAfter x.2 state0).map fun u => (u.sreg 5).toNat) =
      [8, 2 ^ 64 - 2, 15, 0, 1, 7, 6, 96, 0, 0, 3, 5, 3, 5, 3, 0x80000000, 0x1234567800000000, 5, 5].map some := by decide +kernel

/-- i32 wraps and sign-extends; SAT clamps and sets SATD (R32, R326). -/
theorem test_scalarWraps :
    let s (sat : Bool) := strandAfter (.sadd { F with d := .s 5, a := .s 11, b := .imm, et := .i32, imm := 1, sat := sat })
      (machine chip0 { strand0 with sregs := [(11, 0x7FFFFFFF)] })
    (s false).map (fun u => (u.sreg 5, u.flags)) = some (0xFFFFFFFF80000000, 0) ∧
    (s true).map (fun u => (u.sreg 5, u.flags)) = some (0x7FFFFFFF, excSat.setWidth 64) := by decide +kernel

/-- kpop, kffs and krange on k2 = lanes 1 and 2, and lanes 3 and 4 (R324). -/
theorem test_maskResults :
    (strandAfter (.kpop { F with d := .s 5, a := .k 2 }) state0).map (fun u => u.sreg 5) = some 2 ∧
    (strandAfter (.kffs { F with d := .s 5, a := .k 2 }) state0).map (fun u => u.sreg 5) = some 1 ∧
    (strandAfter (.krange { F with d := .k 1, a := .s 2, b := .s 3 }) state0).map (fun u => u.kreg 1) = some 0x18 ∧
    (strandAfter (.kandn { F with d := .k 1, a := .k 2, b := .k 3 }) state0).map (fun u => u.kreg 1) = some 0x2 := by decide +kernel

/-- A state whose v1 holds 7 and v2 holds 0xFFFFFFFE in every lane. -/
def vecState (a b : W32) (tag : ElemType) : State :=
  let reg (x : W32) : VReg := { VReg.start with lanes := BitVec.ofNat 4096 ((List.range 4).foldl (fun n i => n + x.toNat * 2 ^ (32 * i)) 0), tag := tag }
  machine chip0 { strand0 with vregs := [(1, reg a), (2, reg b)] }

def laneOf (i : Instr) (s : State) (l : Nat) : Option W32 := (strandAfter i s).map fun u => (u.vreg 3).lane l

/-- viadd, vimulh and vimin signed, and a lane that is not active keeps what it held (R342, R100). -/
theorem test_vecIntResults :
    laneOf (.viadd { F with d := .v 3, a := .v 1, b := .v 2, et := .i32 }) (vecState 7 0xFFFFFFFE .i32) 3 = some 5 ∧
    laneOf (.vimulh { F with d := .v 3, a := .v 1, b := .v 2, et := .i32 }) (vecState 7 0xFFFFFFFE .i32) 0 = some 0xFFFFFFFF ∧
    laneOf (.vimin { F with d := .v 3, a := .v 1, b := .v 2, et := .i32 }) (vecState 7 0xFFFFFFFE .i32) 1 = some 0xFFFFFFFE ∧
    laneOf (.viadd { F with d := .v 3, a := .v 1, b := .v 2, et := .i32 }) (vecState 7 0xFFFFFFFE .i32) 4 = some 0 := by decide +kernel

/-- 1.5 + 2.25 = 3.75, 1.5 × 2.25 = 3.375 and the square root of 2.25 in binary32 (R348). -/
theorem test_vecFloatResults :
    laneOf (.vfadd { F with d := .v 3, a := .v 1, b := .v 2 }) (vecState 0x3FC00000 0x40100000 .f32) 0 = some 0x40700000 ∧
    laneOf (.vfmul { F with d := .v 3, a := .v 1, b := .v 2 }) (vecState 0x3FC00000 0x40100000 .f32) 0 = some 0x40580000 ∧
    laneOf (.vfsqrt { F with d := .v 3, a := .v 2 }) (vecState 0 0x40100000 .f32) 0 = some 0x3FC00000 := by decide +kernel

/-! ### Hypotheses of the statements: steps, traps, control, scalars and masks -/

/-- DecodeEncode: well-formed instructions that have a word, one of each family. -/
theorem test_hyp_DecodeEncode :
    (([wordsControl, wordsMask, wordsScalar, wordsVecInt, wordsVecFloat, wordsLane, wordsMap, wordsMemory, wordsSync, wordsEngineTask,
       wordsSystem].flatten).all fun x => x.2.wf && encode x.2 == some x.1) = true := by decide +kernel

/-- StepRunsDecoded: a program of one word loaded from reset is fetched, decoded and executed by the next step. -/
theorem test_hyp_StepRunsDecoded_word :
    (let s := State.reset.withFetchWord 128 0x1828944FF7FC00000070000000000010
     match s.turn with
     | (s1, some (.strand sid)) =>
       let c : Chip := { s1.chip with cur := sid }
       (match c.strand sid with
         | some t => c.moves t && t.replay.isNone && !c.closedText t &&
             (match c.fetch t with
               | .word c1 w => w == 0x1828944FF7FC00000070000000000010 && !c1.awaitsResults sid (decodeWord w)
               | _ => false)
         | none => false) &&
       (match step s with
         | .next s' => (s'.chip.strand sid).map (fun u => (u.sreg 4, u.pc)) == some (16, 16)
         | _ => false)
     | _ => false) = true := by decide +kernel

/-- StepRunsDecoded: a strand that replays, a strand whose fetch fails, and a turn of the device. -/
def replayStrand : Strand :=
  { strand0 with replay := some 1, record := some { instr := .nop { F with c := .v 0 }, pc := 0, trapped := 1, orig := 1, wrote := [], prod := none } }

theorem test_hyp_StepRunsDecoded_others :
    let s (t : Strand) : State := { machine chip0 t with agenda := [.strand 2] }
    (s replayStrand).turn.2 = some (.strand 2) ∧ (s replayStrand).chip.moves replayStrand = true ∧
      replayStrand.replay = some 1 ∧ replayStrand.record.isSome = true ∧
    (match (s { strand0 with pc := 0x4000 }).chip.fetch { strand0 with pc := 0x4000 } with
      | .fault x => x == .pageFault
      | _ => false) = true ∧
    (let d : State := { state0 with agenda := [.event [] (.linkEnable 15)] }
     d.turn.2 = some (.event [] (.linkEnable 15)) ∧ (Instr.linkEnable 15).toOpcode = none ∧
       (match step d with
         | .next s' => (s'.chip.link 15).state
         | _ => .off) = .training) := by decide +kernel

/-- StepRunsDecoded: a strand in closed text, and one whose older atomic has its result on its way. -/
theorem test_hyp_StepRunsDecoded_waits :
    let p : Patch := { id := 9, ctx := 0, target := 0, source := 0x1000, count := 4, done := 0, core := 0, gid := 1 }
    let a : Posted := { id := 8, sid := 2, core := 0, ctx := 0, va := 0x1000, place := .near 0, pa := 0x6000, mig := none, work := .inl [],
                        dest := some (.vec 5 1 4 false) }
    let s (ps : List Patch) (as : List Posted) : State :=
      { machine { chip0 with patches := ps, posted := as } strand0 with agenda := [.strand 2] }
    ((s [p] []).turn.2 = some (.strand 2) ∧ (s [p] []).chip.moves strand0 = true ∧ (s [p] []).chip.closedText strand0 = true ∧
      (match step (s [p] []) with
        | .next s' => (s'.chip.strand 2).map fun u => u.status
        | _ => none) = some .parked) ∧
    ((s [] [a]).chip.closedText strand0 = false ∧
      (match (s [] [a]).chip.fetch strand0 with
        | .word c w => c.awaitsResults 2 (decodeWord w)
        | .fault _ | .absent _ _ => false) = true) := by decide +kernel

/-- StepRunsDecoded: a fetch that reads memory, of the last word of a page. -/
theorem test_hyp_StepRunsDecoded_fetch :
    (let t := { strand0 with pc := 0xFF0 }
     match state0.chip.translate (state0.chip.who t) .fetch 16 t.pc 16 with
     | .ok x => (state0.chip.core t.core).iline t.ctx (lineOf x.va) == none && !x.down && state0.chip.mem.wf && x.mig == none &&
         x.pa % 64 == x.va.toNat % 64 && x.pa == 0x5FF0
     | _ => false) = true := by decide +kernel

/-- TrapTaken: an ordinary strand and the handler strand of a running context; FIELD at its ends. -/
def handlerStrand : Strand := { strand0 with kind := .handler 4, slot := 64 }

theorem test_hyp_TrapTaken :
    (Trap.instr .badOperand 11 0).field < 16 ∧ (Trap.lanesAt .protection 0x1000 1).field < 16 ∧
    (state0.chip.strand 2 = some strand0 ∧ strand0.isHandler = false ∧ state0.chip.owesResult 2 = false ∧
      (Trap.lanesAt .pageFault 0x1000 1).cause = .pageFault ∧ (Trap.instr .badOperand 11 0).cause ≠ .pageFault) ∧
    ((machine chip0 handlerStrand).chip.strand 2 = some handlerStrand ∧ handlerStrand.isHandler = true ∧
      ((machine chip0 handlerStrand).chip.ctx 0).map (fun x => (x.state, x.preempt)) = some (.running, none)) ∧
    ([(false, false), (true, true), (true, false)].map fun p =>
      let x := { Context.program with state := .running, preempt := some (0, 0), det := p.1, saving := p.2 }
      let d : Chip := { (machine chip0 handlerStrand).chip with ctxs := [(0, x)] }
      (d.strand 2 == some handlerStrand && !d.owesResult 2 && d.ctx 0 == some x,
        ((d.takeTrap 2 (Trap.instr .badOperand 0 0) 0 none).ctx 0).map fun y => (y.state, y.doomed))) =
      [(true, some (.running, true)), (true, some (.running, true)), (true, some (.faulted, false))] := by
  decide +kernel

/-- OpcodeChecks: the ends of an unassigned range, a strand at revision 3, and a strand that is not the handler. -/
theorem test_hyp_OpcodeChecks :
    (0x30E, 0x3FF) ∈ unassignedRanges ∧ (state0.traps strand0 (Trap.instr .illegalOpcode 1 0)).chip.halt = none ∧
    (strandAfter (.illegalOpcode 0x3FF F) state0).map (fun u => (u.trapCause.toNat, u.status)) = some (0x10001, .frozen) ∧
    (strandAfter (.illegalOpcode 0x30E F) state0).map (fun u => u.trapCause.toNat) = some 0x10001 ∧
    (let t := { strand0 with isarev := 3 }
     (revision4Opcodes F).map (fun i => (strandAfter i (machine chip0 t)).map fun u => u.trapCause.toNat) = List.replicate 4 (some 0x10001)) ∧
    (systemOpcodes F).map (fun i => (strandAfter i state0).map fun u => u.trapCause.toNat) = List.replicate 14 (some 0x10004) := by
  decide +kernel

/-- FetchFaultTraps: a page without X. -/
theorem test_hyp_FetchFaultTraps :
    let t := { strand0 with pc := 0x1000 }
    let s := machine chip0 t
    (match s.chip.translate (s.chip.who t) .fetch 16 t.pc 16 with
      | .trap x => x == .protection
      | _ => false) = true ∧ t.isHandler = false ∧ s.chip.owesResult s.chip.cur = false ∧
    (strandAfter .instructionFetchFault s).map (fun u => (u.trapCause.toNat, u.faultVa, u.epc)) = some (0x0B, 0x1000, 0x1000) := by
  decide +kernel

theorem test_hyp_TrapAndBreakpoint :
    let f := { F with c := .v 0, imm := 7 }
    issues state0 strand0 (controlSpec 0x009 f false) f = true ∧ issues state0 strand0 (controlSpec 0x00A f false) f = true ∧
    strand0.isHandler = false ∧ state0.chip.owesResult state0.chip.cur = false ∧
    (strandAfter (.trap f) state0).map (fun u => (u.trapCause.toNat, u.epc)) = some (7 * 2 ^ 32 + 0x1C, 16) := by decide +kernel

/-- TrapReturn: a lane record whose EPC stands, one whose EPC was moved, and an instruction record. -/
theorem test_hyp_TrapReturn :
    let r : LaneRecord := { instr := .nop F, pc := 0x40, trapped := 6, orig := 7, wrote := [], prod := none }
    let u : Strand := { strand0 with record := some r, trapCause := 0x10B, epc := 0x40, faultMask := 3, status := .frozen }
    (u.record = some r ∧ bit u.trapCause 8 = true ∧ u.epc = r.pc ∧ u.returned.replay = some 2) ∧
    ({ u with epc := 0x50 }.epc ≠ r.pc ∧ { u with epc := 0x50 }.returned.pc = 0x50) ∧
    (bit { u with trapCause := 3 }.trapCause 8 = false ∧ { u with trapCause := 3 }.returned.record = none) := by decide +kernel

theorem test_hyp_Straightline :
    let f := { F with c := .v 0 }
    let p : Frame := { F with a := .s 1, b := .lane, fs1 := 0x480 }
    issues state0 strand0 (controlSpec 0x000 f true) f = true ∧ issues state0 strand0 (controlSpec 0x007 f true) f = true ∧
    issues state0 strand0 (controlSpec 0x28B f true) f = true ∧
    issues state0 strand0 { memSpec 0x209 p [0] (p.scope == 0) with typed := false } p = true := by decide +kernel

/-- A paired strand with lanes in both halves: s1 is 0 in the low half and 1 in the high half, s2 the same in both. -/
def pairStrand : Strand :=
  { strand0 with compat := true, paired := true, kregs := [(0, 0xF000000000000000F), (2, 0x1), (3, 0xF000000000000000F)],
                 sregs := [(1, 0x1000), (2, 0x40), (3, 5), (6, 0x140000000000100), (33, 0x2000), (34, 0x40), (35, 6)] }

def pairState : State := machine chip0 pairStrand

/-- Branches: taken and not taken, and halves that differ, for BRA, BRS and BRK; CALL; RET and JMPI to a target that is aligned in every half,
one that is not, and one that differs between the halves. -/
theorem test_hyp_Branches :
    let bra (k : Fin 16) : Frame := { F with a := .k k, c := .v 32, imm := 4 }
    let brs (n : Fin 64) : Frame := { F with a := .s n, c := .v 128, imm := 4 }
    let brk (k : Fin 16) : Frame := { F with d := .k 4, a := .k k, c := .v 32, imm := 4 }
    let jmp (n : Fin 64) : Frame := { F with a := .s n, c := .v 0 }
    let braSpec (f : Frame) : OpSpec := { OpSpec.base 0x001 with a := condField 0 3 false f, other := f.cond ≤ 3 }
    let brsSpec (f : Frame) : OpSpec := { OpSpec.base 0x002 with a := condField 4 9 true f, other := 4 ≤ f.cond && f.cond ≤ 9 }
    let brkSpec (f : Frame) : OpSpec :=
      { OpSpec.base 0x003 with d := .mask, a := condField 1 3 false f, other := 1 ≤ f.cond && f.cond ≤ 3 }
    let jmpSpec (op : Nat) (f : Frame) : OpSpec := { controlSpec op f true with a := .scalar }
    pairStrand.isHandler = false ∧ pairState.chip.owesResult pairState.chip.cur = false ∧ branchHalves pairStrand = [0, 1] ∧
    (∀ k ∈ ([1, 2, 3] : List (Fin 16)), issues pairState pairStrand (braSpec (bra k)) (bra k) = true ∧
      issues pairState pairStrand (brkSpec (brk k)) (brk k) = true) ∧
    (∀ n ∈ ([2, 3, 4] : List (Fin 64)), issues pairState pairStrand (brsSpec (brs n)) (brs n) = true) ∧
    (branchHalves pairStrand).map (fun h => testMask pairStrand h 1 (kVal pairStrand (.k 3))) = [true, true] ∧
    (branchHalves pairStrand).map (fun h => testMask pairStrand h 1 (kVal pairStrand (.k 1))) = [false, false] ∧
    (branchHalves pairStrand).map (fun h => testMask pairStrand h 1 (kVal pairStrand (.k 2))) = [true, false] ∧
    (branchHalves pairStrand).map (fun h => testScalar 4 (sVal pairStrand h (.s 4))) = [true, true] ∧
    (branchHalves pairStrand).map (fun h => testScalar 4 (sVal pairStrand h (.s 2))) = [false, false] ∧
    (branchHalves pairStrand).map (fun h => testScalar 4 (sVal pairStrand h (.s 6))) = [false, true] ∧
    (let f : Frame := { F with d := .s 5, c := .v 0, imm := 4 }
     issues pairState pairStrand { controlSpec 0x004 f false with d := .scalar } f = true) ∧
    (∀ n ∈ ([1, 2, 3] : List (Fin 64)), issues pairState pairStrand (jmpSpec 0x005 (jmp n)) (jmp n) = true ∧
      issues pairState pairStrand (jmpSpec 0x006 (jmp n)) (jmp n) = true) ∧
    ((branchHalves pairStrand).all fun h => sVal pairStrand h (.s 2) == 0x40) = true ∧
    sVal pairStrand 1 (.s 1) ≠ sVal pairStrand 0 (.s 1) ∧
    (issues state0 strand0 (jmpSpec 0x005 (jmp 3)) (jmp 3) = true ∧ branchHalves strand0 = [0] ∧ sVal strand0 0 (.s 3) = 5) := by
  decide +kernel

/-- ScalarArithmetic: each row on a type that it permits, with and without SAT where it has one. -/
theorem test_hyp_ScalarArithmetic :
    ((scalarRows.zip (wordsScalar.take 15 ++ [(0, .ssel { F with d := .s 5, a := .s 2, b := .s 3, c := .s 1, et := .i64 })])).all
      fun x => match x.2.2.toOpcode with
        | some (_, f) => issues state0 strand0 (x.1.spec f) f
        | none => false) = true ∧
    (let f : Frame := { F with d := .s 5, a := .s 2, b := .s 3, et := .n32, sat := true }
     issues state0 strand0 (scalarSpec 0x060 f 2 true arithTypes) f = true) := by decide +kernel

theorem test_hyp_ScalarMoves :
    let f : Frame := { F with d := .s 5, a := .imm, et := .n32, imm := 1 }
    let g : Frame := { F with d := .s 5, a := .imm, imm := 1 }
    let h : Frame := { F with d := .s 5, a := .s 2, b := .s 3, et := .i32 }
    issues state0 strand0
      { OpSpec.base 0x06F with d := .scalar, a := .immOnly, typed := true, other := f.et == .i64 || f.et == .n32 } f = true ∧
    issues state0 strand0 { OpSpec.base 0x070 with d := .scalar, a := .immOnly } g = true ∧
    issues state0 strand0 (scalarSpec 0x071 h 2 false arithTypes) h = true ∧
    ssrcBits strand0 0 h .i32 h.a = (3 : W32).setWidth 64 := by decide +kernel

/-- ControlRegisters: assigned and unassigned selectors, values that MODE and FLAGS take and refuse. -/
theorem test_hyp_ControlRegisters :
    let sr (n : W32) : Frame := { F with d := .s 5, imm := n }
    let sw (n : W32) : Frame := { F with a := .s 2, imm := n }
    let cap : Frame := { F with d := .s 5, a := .imm, et := .n32, imm := 0x100 }
    let t (v : W64) : Strand := { strand0 with sregs := [(2, v)] }
    issues state0 strand0 { OpSpec.base 0x075 with d := .scalar } (sr 0) = true ∧ selAssigned 0 = true ∧ selAssigned 7 = true ∧
    issues state0 strand0 { OpSpec.base 0x075 with d := .scalar } (sr 0xFFFF) = true ∧ selAssigned 0xFFFF = false ∧
    issues state0 strand0
      { OpSpec.base 0x2E5 with d := .scalar, a := FieldSpec.number, typed := true, other := cap.et == .n32, imm0 := cap.a != .imm } cap = true ∧
    (([1, 7] : List W64).all fun v =>
      issues (machine chip0 (t v)) (t v) { OpSpec.base 0x076 with a := FieldSpec.scalar.orZero } (sw 0)) = true ∧
    modeOk 1 = true ∧ modeOk 7 = false ∧ flagsOk 1 = true ∧ flagsOk 0x8000000000000000 = false ∧ strand0.isHandler = false ∧ selAssigned 2 = true ∧
    (strandAfter (.swrc (sw 2)) state0).map (fun u => u.trapCause.toNat) = some 0xA0004 ∧
    (strandAfter (.swrc (sw 0xFFFF)) state0).map (fun u => u.trapCause.toNat) = some 0xA0003 := by decide +kernel

/-- MaskInstructions: every row in a paired and an unpaired strand; KGET and KPUT with h = 0 and 1, and h = 1 in a COMPAT64 strand. -/
theorem test_hyp_MaskInstructions :
    ([(state0, strand0), (pairState, pairStrand)].all fun p =>
      ((maskRows.take 4).all fun r => issues p.1 p.2 r.spec { F with d := .k 1, a := .k 2, b := .k 3 }) &&
      ((maskRows.drop 4).all fun r => issues p.1 p.2 r.spec { F with d := .k 1, a := .k 2 }) &&
      issues p.1 p.2 { OpSpec.base 0x046 with d := .mask, a := .ssrc .n32, b := .ssrc .n32 } { F with d := .k 1, a := .s 2, b := .s 3 } &&
      issues p.1 p.2 { OpSpec.base 0x047 with d := .scalar, a := .maskSrc } { F with d := .s 5, a := .k 2 } &&
      issues p.1 p.2 { OpSpec.base 0x048 with d := .scalar, a := .maskSrc } { F with d := .s 5, a := .k 2 } &&
      ([0, 1] : List W32).all fun n =>
        let g : Frame := { F with d := .s 5, a := .k 2, b := .imm, imm := n }
        let q : Frame := { F with d := .k 1, a := .s 2, b := .imm, imm := n }
        issues p.1 p.2 { OpSpec.base 0x049 with d := .scalar, a := .maskSrc, b := .immOnly, other := decide (g.imm.toNat < 2) } g &&
        issues p.1 p.2 { OpSpec.base 0x04A with d := .mask, a := .ssrc .i64, b := .immOnly, other := decide (q.imm.toNat < 2) } q) = true ∧
    compatHalf strand0 { F with imm := 1 } = false ∧ compatHalf pairStrand { F with imm := 0 } = false ∧
    compatHalf pairStrand { F with imm := 1 } = true ∧ pairStrand.isHandler = false := by decide +kernel

/-! ### Hypotheses: vector instructions -/

/-- The fields of a row's instruction among words, where they issue with an active lane and nothing stops them. -/
def cleanRow (ws : List (W128 × Instr)) (r : VecRow) : Bool :=
  ws.any fun x => match x.2.toOpcode with
    | some (_, f) =>
      let o := r.op f
      let e := state0.env strand0 f o
      r.instr f == x.2 && issues state0 strand0 o.sp f && strand0.lanesOf f != 0 && e.stageB.isNone &&
        (o.lanes e).all fun y => (y.2.fault e.t.mode).isNone
    | none => false

theorem test_hyp_VectorCompletes_int : (intRows.all (cleanRow wordsVecInt)) = true := by decide +kernel
theorem test_hyp_VectorCompletes_float : (floatRows.all (cleanRow (wordsVecFloat ++ wordsLane))) = true := by decide +kernel
theorem test_hyp_VectorCompletes_masks : (compareRows.all (cleanRow (wordsVecInt ++ wordsVecFloat))) = true := by decide +kernel

/-- A strand with no lane. -/
def idleStrand : Strand := { strand0 with kregs := [] }
def idleState : State := machine chip0 idleStrand

theorem test_hyp_EmptyActiveSet :
    ((vecRows ++ compareRows).all fun r => (wordsVecInt ++ wordsVecFloat ++ wordsLane).any fun x => match x.2.toOpcode with
      | some (_, f) => r.instr f == x.2 && issues idleState idleStrand (r.op f).sp f && idleStrand.lanesOf f == 0
      | none => false) = true ∧
    (wordsMemory.all fun x => match x.2 with
      | .vmcast _ | .vpref _ => true
      | i => retiresNext i idleState) = true := by decide +kernel

/-- EmptyActiveSet: VLANE and VPUTL, and VMCAST whose list is read, or in a replay of no destination is not. -/
theorem test_hyp_EmptyActiveSet_others :
    (let l : Frame := { F with d := .s 5, a := .v 1, b := .imm, et := .b32, imm := 3 }
     let p : Frame := { F with d := .v 3, a := .s 3, b := .imm, et := .b32, imm := 127 }
     let f : Frame := { F with a := .s 9, b := .s 2, c := .v 1, fs1 := 0x400, et := .b32 }
     let again := { idleStrand with replay := some 0 }
     let t := { idleStrand with sregs := (5, 7) :: idleStrand.sregs.filter fun x => x.1 != 5 }
     issues idleState idleStrand (vlaneSpec l) l && issues idleState idleStrand (vputlSpec p) p && idleStrand.lanesOf f == 0 &&
       (strandAfter (.vlane l) (machine chip0 t)).map (fun u => u.sreg 5) == some 0 && retiresNext (.vputl p) idleState &&
       issuesMem idleState idleStrand (vmcastSpec f) f && !idleState.chip.buffers idleStrand && idleStrand.replay.isNone &&
       (match idleState.chip.vmcastLists idleStrand f with
         | (c, .inl bases) => c.halt.isNone && bases.length == 3
         | _ => false) && retiresNext (.vmcast f) idleState &&
       issuesMem (machine chip0 again) again (vmcastSpec f) f && again.lanesOf f == 0 && retiresNext (.vmcast f) (machine chip0 again)) = true := by
  decide +kernel

/-- VectorLaneRecord: 1.0 / 0 with the trap on division by zero enabled in MODE; lane 1 divides by 2.0 instead and completes. -/
def divStrand : Strand :=
  { strand0 with mode := 0x201, vregs := [(1, { VReg.start with lanes := 0x3F8000003F8000003F8000003F800000, tag := .f32 }),
                                          (2, { VReg.start with lanes := 0x4000000000000000, tag := .f32 })],
                 kregs := [(0, 3)] }

theorem test_hyp_VectorLaneRecord :
    (let f : Frame := { F with d := .v 3, a := .v 1, b := .v 2 }
     let s := machine chip0 divStrand
     let r : VecRow := ⟨.vfdiv, fun f => fpOp 0x14B f 2 halfTypes fun _ _ a b _ => a.div b divBits⟩
     let o := r.op f
     let e := s.env divStrand f o
     issues s divStrand o.sp f && divStrand.lanesOf f != 0 && !divStrand.isHandler && e.stageB.isNone &&
       (o.lanes e).map (fun x => (x.1, (x.2.fault divStrand.mode).isSome)) == [(0, true), (1, false)] &&
       (strandAfter (.vfdiv f) s).map (fun u => (u.faultMask, u.trapCause.toNat, (u.vreg 3).lane 1, u.retired)) ==
         some (1, 0x112, 0x3F000000, 0)) = true := by decide +kernel

theorem test_hyp_VectorWords :
    (let f : Frame := { F with d := .v 3, a := .v 1, b := .v 2, c := .v 2, et := .i32 }
     let s := vecState 7 0xFFFFFFFE .i32
     let t := (s.chip.strand 2).getD strand0
     let e := s.env t f (intOp 0x0C4 f 3 true madTypes fun a b c => a * b + c)
     !f.sat && e.int 0 .i32 3 0 == (7 : W32).toInt && e.int 1 .i32 3 0 == (0xFFFFFFFE : W32).toInt &&
       e.int 2 .i32 3 0 == (0xFFFFFFFE : W32).toInt &&
     (let g : Frame := { f with et := .b32 }
      let e := s.env t g (bitOp 0x0D0 g 3 [.b32] bfi)
      e.whole 0 .b32 3 == (7 : W32).setWidth 64 && e.whole 1 .b32 3 == (0xFFFFFFFE : W32).setWidth 64 &&
        e.whole 2 .b32 3 == (0xFFFFFFFE : W32).setWidth 64)) = true ∧
    (bit (1 : W32) (31 - 31) = true ∧ ((List.range 31).all fun m => !bit (1 : W32) (31 - m)) = true) := by decide +kernel

/-- FloatExact: the largest finite binary32 value and the smallest subnormal one. -/
theorem test_hyp_FloatExact :
    ([0x7F7FFFFF, 1].all fun x => match FFmt.f32.decode x with
      | .fin _ _ _ => true
      | _ => false) = true ∧ 1 ≤ rmRne ∧ rmRne ≤ 6 := by decide +kernel

/-- FloatExact: 1 + 2^-24, half way between two data of binary32, in each mode with both signs; 2^-150, below every subnormal; and 65520, half
way between the largest finite value of binary16 and 2^16. -/
theorem test_hyp_FloatExact_rounding :
    (([(1, 0), (2, 0), (3, 0), (4, 0), (5, 0), (6, 0x7FFF), (6, 0x8000)].map fun x => [false, true].map fun s =>
        FFmt.f32.round x.1 false false x.2 (.num s 0x1000001 (-24) false)) ==
      ([0x3F800000, 0x3F800000, 0x3F800001, 0x3F800000, 0x3F800001, 0x3F800000, 0x3F800001].zip
       [0xBF800000, 0xBF800000, 0xBF800000, 0xBF800001, 0xBF800001, 0xBF800000, 0xBF800001]).map fun x =>
        [(x.1, excInexact), (x.2, excInexact)]) = true ∧
    ((1 : Nat) ≠ 0 ∧ ((-150 : Int) + Nat.log2 1 < -126) ∧
      [1, 3].map (fun rm => FFmt.f32.round rm false false 0 (.num false 1 (-150) false)) =
        [(0, excInexact ||| excUnderflow), (1, excInexact ||| excUnderflow)] ∧
      FFmt.f32.round 3 false true 0 (.num true 1 (-150) false) = (0x80000000, excUnderflow ||| excInexact)) ∧
    ([(false, 1), (true, 1), (false, 2)].map fun x => FFmt.f16.round x.2 x.1 false 0 (.num false 65520 0 false)) =
      [(0x7C00, excOverflow ||| excInexact), (0x7BFF, excOverflow ||| excInexact ||| excSat), (0x7BFF, excInexact)] := by decide +kernel

theorem test_hyp_LaneMoves :
    (let f : Frame := { F with d := .s 5, a := .v 1, b := .imm, et := .b32, imm := 3 }
     let g : Frame := { F with d := .v 3, a := .s 3, b := .imm, et := .b32, imm := 127 }
     issues state0 strand0 (vlaneSpec f) f && sourcesState strand0 (vlaneSpec f) f == .ok && issues state0 strand0 (vputlSpec g) g &&
       namedLane strand0 0 f == 3 && bit (strand0.lanesOf f) 3 && namedLane strand0 0 g == 127 && !bit (strand0.lanesOf g) 127 &&
       (strandAfter (.vputl g) state0).map (fun u => u.vreg 3) == some (strand0.vreg 3) &&
       -- an active lane of a register that is not full
       (let g : Frame := { g with imm := 3 }
        let t := { strand0 with vregs := [(3, { VReg.start with lanes := 0x77, tag := .i32, fill := .empty })] }
        issues (machine chip0 t) t (vputlSpec g) g && namedLane t 0 g == 3 && t.replay.isNone &&
          (strandAfter (.vputl g) (machine chip0 t)).map (fun u => ((u.vreg 3).fill, (u.vreg 3).tag, (u.vreg 3).side == side1, (u.vreg 3).lane 3, (u.vreg 3).lane 0)) ==
            some (.full, .b32, true, 5, 0))) = true := by decide +kernel

/-! ### Hypotheses: map slots and memory -/

def slotFrame (n : Nat) (func : Nat) : Frame := { F with fs1 := BitVec.ofNat 18 (n * 8192 + func) }

/-- SlotLifeAndFills: a claimed slot, an unclaimed one below MAPLIMIT, and a slot at MAPLIMIT. -/
theorem test_hyp_SlotLifeAndFills :
    (let f (n : Nat) := slotFrame n 0
     let m := MapSlot.claimed
     strand0.mapLimit == 2 && Sparse.get? strand0.slots 0 == some m && Sparse.get? strand0.slots 1 == none && m.loads == [] &&
       !m.sparse && decide (strand0.slots.length + strand0.draining.length < strand0.mapLimit) &&
       ([0, 1, 2].all fun n => issues state0 strand0 (mapSpec 0x1E0 0) (f n) && issues state0 strand0 (mapSpec 0x1E1 0) (f n)) &&
       (let g := { f 0 with a := .zero }
        issues state0 strand0 { mapSpec 0x1E2 0 with a := FieldSpec.scalar.orZero } g && bindOk strand0 0 0) &&
       (let g := { f 0 with d := .s 5 }
        issues state0 strand0 { mapSpec 0x1E8 0 with d := .scalar } g) &&
       (let g := { slotFrame 0 31 with a := .v 1 }
        let sp := { mapSpec 0x1E5 0x7F with a := FieldSpec.vec 1 }
        issues state0 strand0 sp g && g.first + g.rows 2 == 32 && sourcesState strand0 sp g == .ok) &&
       (let g := f 0
        issues state0 strand0 { mapSpec 0x1E6 0x1FF with extra := g.pat == 7 } g && patOk g.pat g.patParam m.span) &&
       (let t := { strand0 with slots := [(0, { m with loads := [9] })] }
        let g := { slotFrame 0 31 with a := .v 1 }
        issues (machine chip0 t) t { mapSpec 0x1E5 0x7F with a := FieldSpec.vec 1 } g) &&
       strand0.isHandler == false && !state0.chip.owesResult state0.chip.cur && !bindOk strand0 0 0x300 && decide (m.fm.width ≤ 32 ∧ m.span ≤ 32) &&
       (strandAfter (.mclaim (f 2)) state0).map (fun u => u.trapCause.toNat) == some 0xA0003 &&
       (strandAfter (.mclaim (f 0)) state0).map (fun u => u.trapCause.toNat) == some 0xA0003 &&
       (strandAfter (.mfree (f 1)) state0).map (fun u => u.trapCause.toNat) == some 0xA0008) = true := by decide +kernel

/-- SlotLifeAndFills: MCLAIM with every physical slot taken, MFILL past row 31, MGEN of a loading slot and with a PARAM past its limit, and
the seven instructions on an unclaimed slot and past MAPLIMIT. -/
theorem test_hyp_SlotLifeAndFills_stops :
    (let t := { strand0 with draining := [[1]] }
     let s := machine chip0 t
     issues s t (mapSpec 0x1E0 0) (slotFrame 1 0) && decide (t.mapLimit ≤ t.slots.length + t.draining.length) &&
       (strandAfter (.mclaim (slotFrame 1 0)) s).map (fun u => u.status) == some (.waiting .mapSlot) &&
       [([] : List (List Nat)), [[]], [[7], []]].map (fun ls => (strandAfter (.mclaim (slotFrame 1 0)) (machine chip0 { strand0 with draining := ls })).map fun u =>
         (u.draining, (Sparse.get? u.slots 1).isSome)) == [some ([], true), some ([], true), some ([[7]], true)]) = true ∧
    (let g := { slotFrame 0 0x3F with a := .v 1 }
     issues state0 strand0 { mapSpec 0x1E5 0x7F with a := FieldSpec.vec 1 } g && decide (32 < g.first + g.rows 2)) = true ∧
    (let g := slotFrame 0 0
     let t := { strand0 with slots := [(0, { MapSlot.claimed with loads := [9] })] }
     issues (machine chip0 t) t { mapSpec 0x1E6 0x1FF with extra := g.pat == 7 } g &&
       issues state0 strand0 { mapSpec 0x1E6 0x1FF with extra := false } (slotFrame 0 0x1F1) &&
       !patOk (slotFrame 0 0x1F1).pat (slotFrame 0 0x1F1).patParam MapSlot.claimed.span) = true ∧
    ([1, 2].all fun n =>
      let f := slotFrame n 0
      [(Instr.mfree f, mapSpec 0x1E1 0, f), (.mbind { f with a := .zero }, { mapSpec 0x1E2 0 with a := FieldSpec.scalar.orZero }, { f with a := .zero }),
       (.mquery { f with d := .s 5 }, { mapSpec 0x1E8 0 with d := .scalar }, { f with d := .s 5 }),
       (.mfill { f with a := .v 1 }, { mapSpec 0x1E5 0x7F with a := FieldSpec.vec 1 }, { f with a := .v 1 }),
       (.mgen f, { mapSpec 0x1E6 0x1FF with extra := f.pat == 7 }, f),
       (.mload { f with a := .s 1 }, { mapSpec 0x1E3 0x3FF with a := .scalar, b := FieldSpec.scalar.orNone }, { f with a := .s 1 }),
       (.mside { f with a := .s 1 }, { mapSpec 0x1E4 0x3FF with a := .scalar }, { f with a := .s 1 })].all fun x =>
        issues state0 strand0 x.2.1 x.2.2 &&
          (strandAfter x.1 state0).map (fun u => u.trapCause.toNat) == some (if n = 1 then 0xA0008 else 0xA0003)) = true := by decide +kernel

/-- SlotLoads: MLOAD and MSIDE whose reads pass, a load that lands, and one whose strand has exited. -/
theorem test_hyp_SlotLoads :
    ([(false, { slotFrame 0 0 with a := .s 1 }, { mapSpec 0x1E3 0x3FF with a := .scalar, b := FieldSpec.scalar.orNone }),
      (true, { slotFrame 0 0 with a := .s 1 }, { mapSpec 0x1E4 0x3FF with a := .scalar })].all fun x =>
        let f := x.2.1
        let size := if x.1 then 16 else 128
        issues state0 strand0 x.2.2 f && decide (f.first + f.rows 5 ≤ 32) && (state0.chip.ownerTrap strand0 3 (sVal strand0 0 f.a)).isNone && (sVal strand0 0 f.a).toNat % 16 == 0 &&
        (match state0.chip.checkBytes (state0.chip.who strand0) strand0.core (state0.chip.localGid strand0) .load false
            (slotRows (sVal strand0 0 f.a) (BitVec.ofNat 64 size) (f.rows 5) size) with
          | (c, .ok rs) => (c.readOwners strand0 rs).1.halt.isNone
          | _ => false)) = true ∧
    (let x : SlotLoad := { id := 7, sid := 2, slot := 0, side := false, first := 0, bytes := [1] }
     let t := { strand0 with slots := [(0, { MapSlot.claimed with loads := [7] })] }
     let s := machine { chip0 with slotLoads := [x] } t
     s.chip.halt.isNone && s.chip.slotLoads.find? (fun y => y.id == x.id) == some x &&
       s.chip.slotLoads.find? (fun y => y.sid == x.sid) == some x && s.chip.strand x.sid == some t &&
       ((after (.slotLoadLand 7) s).bind fun c => (c.strand 2).map fun u => (Sparse.get? u.slots 0).map fun m => (m.loads, m.v, m.image.toNat)) ==
         some (some ([], true, 1)) &&
       (let y := { x with sid := 9, held := some { ctx := 0, core := 0, quarter := 0, slot := 0 } }
        let s := machine { chip0 with slotLoads := [y] } strand0
        s.chip.slotLoads.find? (fun z => z.id == y.id) == some y && s.chip.slotLoads.find? (fun z => z.sid == y.sid) == some y &&
          (s.chip.strand 9).isNone && s.chip.mapsUsed 0 0 == strand0.mapLimit + 1 &&
          (after (.slotLoadLand 7) s).map (fun c => (c.slotLoads.length, c.mapsUsed 0 0, c.freed)) == some (0, strand0.mapLimit, [(0, 1)]))) = true := by
  decide +kernel

/-- A deterministic context's machine, in which stores are buffered. -/
def detMachine (c : Chip) (t : Strand) : State :=
  let s := machine c t
  { s with chip := { s.chip with ctxs := [(0, { Context.program with state := .running, det := true })] } }

theorem test_hyp_SlotDrains :
    ([machine chip0 strand0, detMachine chip0 strand0].all fun s =>
      let f := { slotFrame 0 0 with a := .s 1 }
      let o := s.chip.slotOwner strand0
      issues s strand0 { mapSpec 0x1E7 0 with a := .scalar } f && Sparse.get? o.slots f.slot == some MapSlot.claimed &&
      (s.chip.ownerTrap strand0 3 (sVal strand0 0 f.a)).isNone && (sVal strand0 0 f.a).toNat % 64 == 0 &&
      (match s.chip.checkDrain (s.chip.who strand0) strand0.core (s.chip.localGid strand0) (pieces (sVal strand0 0 f.a) 4672 64) with
        | (c, .ok rs) =>
          c.halt.isNone && ((rs.zip (chunks 64 73 MapSlot.claimed.drained)).foldl
            (fun c x => c.storeBytes c.cur 0 0 0 x.1 x.2) c).halt.isNone
        | _ => false)) = true ∧
    (machine chip0 strand0).chip.buffers strand0 = false ∧ (detMachine chip0 strand0).chip.buffers strand0 = true := by decide +kernel

def loadFrame : Frame := { F with d := .v 3, a := .s 1, b := .lane, fs1 := 0x480, et := .b32 }

/-- VectorLoads, AsyncLoads: loads of VLD, VLDB and VLDA that pass their checks. -/
theorem test_hyp_VectorLoads :
    ([vldForm loadFrame, vldbForm { loadFrame with b := .none, fs1 := 0x400 }, vldaForm loadFrame].all fun o =>
      issues state0 strand0 o.sp o.f && strand0.lanesOf o.f != 0 && sourcesState strand0 o.sp o.f == .ok && strand0.replay.isNone &&
      (match o.check state0.chip strand0 (lanesIn (strand0.lanesOf o.f)) with
        | (c, [], ws) =>
          let r := c.readLanes (state0.chip.buffers strand0) strand0 o.f.scope ws
          (ws.all fun w => !c.needsCell (state0.chip.buffers strand0) w.2.1) && r.1.halt.isNone && !r.2.got.isEmpty &&
            !strand0.metEnd && !strand0.buffersProd r.1.nextId && r.1.waiters.all fun w => w.prod != r.1.nextId
        | _ => false)) = true := by decide +kernel

/-- VectorLoads: eight bytes a lane into an even pair of registers, of which one was full and the other was not. -/
theorem test_hyp_VectorLoads_pair :
    (let f : Frame := { F with d := .v 4, a := .s 1, b := .lane, fs1 := 0x6C0, et := .i64 }
     let o := vldForm f
     let t := { strand0 with vregs := [(4, { VReg.start with lanes := 2 ^ 320 * 7 }), (5, { VReg.start with lanes := 2 ^ 320 * 7, fill := .empty })] }
     let s := machine (chip0.writePhys (.near 0) 0x6008 (leBytes 8 0x1122334455667788)) t
     issues s t o.sp f && t.replay.isNone && o.dests == [4, 5] &&
     (match o.check s.chip t (lanesIn (t.lanesOf f)) with
       | (c, [], ws) => (ws.all fun w => w.1 < 10 && !c.needsCell false w.2.1) &&
           (c.readLanes false t f.scope ws).2.got.contains (.vec 4 1 8 true, leBytes 8 0x1122334455667788)
       | _ => false) &&
     (strandAfter (.vld f) s).map (fun u => [4, 5].map fun k => ((u.vreg k).fill == .full, (u.vreg k).lane 1, (u.vreg k).lane 10)) ==
       some [(true, 0x55667788, 7), (true, 0x11223344, 0)]) = true := by decide +kernel

/-- AsyncLoads: a delivery of a VLDA to a register that waits for it. -/
theorem test_hyp_AsyncLoads :
    (let v : VldaOp := { id := 7, sid := 2, items := [(.vec 3 0 4 false, [1, 2, 3, 4])] }
     let t := { strand0 with vregs := [(3, { VReg.start with fill := .inflight .vlda 7 })] }
     let s := machine { chip0 with vldas := [v] } t
     s.chip.halt.isNone && s.chip.vldas.find? (fun x => x.id == v.id) == some v && s.chip.strand v.sid == some t &&
       !(s.chip.waiters.any fun w => w.prod == v.id) && !t.buffersProd v.id && t.acq == none && (t.vreg 3).fill.awaits 7 && !(t.vreg 4).fill.awaits 7 &&
       ((after (.vldaLand 7) s).bind fun c => (c.strand 2).map fun u => ((u.vreg 3).fill, (u.vreg 3).lane 0)) ==
         some (.full, 0x04030201)) = true := by decide +kernel

/-- ScalarMemory: SLD and SST of 8 bytes, and of an address that has no page. -/
theorem test_hyp_ScalarMemory :
    (let f : Frame := { F with d := .s 5, a := .s 1, fs1 := 0x600, et := .i64 }
     let g : Frame := { F with a := .s 1, c := .s 3, fs1 := 0x600, et := .i64 }
     issues state0 strand0 (sldSpec f) f && issuesMem state0 strand0 (sstSpec g) g && !state0.chip.buffers strand0 && !strand0.metEnd &&
     (match state0.chip.checkScalar strand0 .load f false false (scalarAccs strand0 f) with
       | (c, .ok rs) => (rs.all fun r => !c.needsCell (c.buffers strand0) r) && c.halt.isNone
       | _ => false) &&
     (match state0.chip.checkScalar strand0 .store g true true (scalarAccs strand0 g) with
       | (c, .ok rs) => rs.length == 1 && c.halt.isNone
       | _ => false) &&
     (let t := { strand0 with sregs := [(1, 0x1001)] }
      let s := machine chip0 t
      issues s t (sldSpec f) f && issuesMem s t (sstSpec g) g && !t.isHandler && !s.chip.owesResult s.chip.cur &&
      (match s.chip.checkScalar t .load f false false (scalarAccs t f), s.chip.checkScalar t .store g true true (scalarAccs t g) with
        | (c, .bad x va), (d, .bad y vb) => c == s.chip && d == s.chip && x == .misaligned && y == .misaligned && va == 0x1001 && vb == 0x1001
        | _, _ => false) &&
      (strandAfter (.sld f) s).map (fun u => (u.trapCause.toNat, u.faultVa)) == some (0x3000C, 0x1001))) = true := by decide +kernel

/-- ScalarMemory: a word with its top bit set, under i64 and n32, and an SST of a deterministic context. -/
theorem test_hyp_ScalarMemory_values :
    (let s := machine (chip0.writePhys (.near 0) 0x6000 (leBytes 4 0x80000001)) strand0
     ([ElemType.i64, .n32].map fun et => (strandAfter (.sld { F with d := .s 5, a := .s 1, fs1 := 0x480, et := et }) s).map fun u => u.sreg 5) ==
       [some 0xFFFFFFFF80000001, some 0x80000001]) = true ∧
    (let g : Frame := { F with a := .s 1, c := .s 3, fs1 := 0x600, et := .i64 }
     let s := detMachine chip0 strand0
     issuesMem s strand0 (sstSpec g) g && s.chip.buffers strand0 && !strand0.metEnd && strand0.replay.isNone &&
     (match s.chip.checkScalar strand0 .store g true false (scalarAccs strand0 g) with
       | (c, .ok [r]) => c == s.chip && !r.cell
       | _ => false) &&
     (strandAfter (.sst g) s).map (fun u => (u.pc, u.buffer.map fun e => (e.pc, e.instr == .sst g, e.op))) ==
       some (16, [(0, true, .store [{ lane := 0, va := 0x1000, bytes := leBytes 8 5 }])])) = true := by decide +kernel

def storeFrame : Frame := { F with a := .s 1, b := .lane, c := .v 1, fs1 := 0x480, et := .b32 }

/-- VectorStores: VST and VSTB in a normal and in a deterministic context. -/
theorem test_hyp_VectorStores :
    ([state0, detMachine chip0 strand0].all fun s =>
      [vstForm storeFrame, vstbForm { storeFrame with b := .none, c := .v 8, fs1 := 0x400 }].all fun o =>
        issuesMem s strand0 o.sp o.f && strand0.lanesOf o.f != 0 && sourcesState strand0 o.sp o.f == .ok && strand0.replay.isNone &&
        (match o.check s.chip strand0 (lanesIn (strand0.lanesOf o.f)) with
          | (c, [], ws) => c == s.chip && (ws.all fun w => !w.2.1.cell) && (c.storeLanes strand0 o.f.scope ws).halt.isNone
          | _ => false)) = true ∧
    state0.chip.buffers strand0 = false ∧ (detMachine chip0 strand0).chip.buffers strand0 = true := by decide +kernel

/-- VectorStores: the last byte of a group's local store. -/
theorem test_hyp_VectorStores_local :
    (match chip0.translate { (state0.chip.who strand0) with local? := some (0, 0, Config.granuleBytes) } .store 1
        (0x140000000000000 + BitVec.ofNat 64 (Config.granuleBytes - 1)) 1 with
      | .ok x => x.owner == 5 && x.mig.isNone && Place.has x.place x.pa 1
      | _ => false) = true ∧ chip0.mem.wf = true ∧ chip0.posted = [] := by decide +kernel

/-- VectorStores: lanes 0 and 5 of one store meet at an address of local store. -/
theorem test_hyp_VectorStores_lanes :
    (let c := state0.chip
     match c.checkLane (c.who strand0) 0 1 .store 1 4 true true [(0x140000000000200, 4)] with
     | (_, .ok [r]) => match r.xl with
       | some x => x.owner == 5 && !x.cell && x.mig.isNone && !x.cacheable && Place.has x.place x.pa 4 && strand0.replay.isNone &&
           (c.storeLanes strand0 3 [(0, r, [1, 1, 1, 1]), (5, r, [2, 2, 2, 2])]).readPhys x.place x.pa 4 == [2, 2, 2, 2]
       | none => false
     | _ => false) = true := by decide +kernel

/-- VectorStores: a page outside local store whose store goes to its owner, and a line of L1 that a load has filled. -/
theorem test_hyp_VectorStores_places :
    (let who := state0.chip.who strand0
     (match state0.chip.translate who .store 4 0x1000 4 with
      | .ok x => x.owner != 5 && !x.ord && !x.cell
      | _ => false) &&
     (match after (.vld loadFrame) state0 with
      | some c =>
        match c.checkLane who 0 1 .store 1 4 true true [(0x1000, 4)] with
        | (_, .ok [r]) => r.xl.isNone && (findLine (c.core 0).l1 0 (lineOf r.va)).isSome && decide (4 ≤ 64 - r.va.toNat % 64)
        | _ => false
      | none => false)) = true := by decide +kernel

def atomFrame : Frame := { F with d := .v 3, a := .s 1, b := .lane, c := .v 1, fs1 := 0x480, et := .i32 }

theorem test_hyp_Atomics :
    ([vatomForm { atomFrame with d := .none }, vatomrForm atomFrame, vcasForm { atomFrame with et := .b32 }].all fun o =>
      issuesMem state0 strand0 o.sp o.f && strand0.lanesOf o.f != 0 && o.sources strand0 == .ok && !state0.chip.buffers strand0 &&
      (match o.check state0.chip strand0 (lanesIn (strand0.lanesOf o.f)) with
        | (c, [], ws) =>
          let r := c.atomLanes strand0 (if o.dest then some 3 else none) true (ws.map fun x => (o.lane (state0.chip.seed strand0) strand0 x.1 x.2.va, x.2))
          r.1.halt.isNone && (r.1.acquire 0 0 4).halt.isNone && (if o.dest then r.2.map (fun y => y.1) == [0, 1, 2, 3] else true)
        | _ => false)) = true ∧
    chip0.mem.wf = true ∧ Place.has (.near 0) 0x6000 8 = true ∧
    (let a : LaneAtom := { lane := 0, va := 0x1000, n := 4, x := 1, kind := .op .add .i32 1 0 }
     let w : Posted := { id := 9, sid := 2, core := 0, ctx := 0, va := 0x1000, place := .near 0, pa := 0x6000, mig := none, work := .inr a,
                         dest := some (.vec 3 0 4 false) }
     a.n = 4 ∧ w.work = .inr a ∧ state0.chip.strand w.sid = some strand0 ∧
       ((state0.chip.perform w).strand 2).map (fun u => (u.vreg 3).lane 0) = some 0 ∧
       (state0.chip.perform w).readPhys (.near 0) 0x6000 4 = [1, 0, 0, 0]) := by decide +kernel

/-! ### Hypotheses: cells, barriers, binders, groups -/

/-- Multicast: one destination, 0x1000, listed in local store; lanes 0 to 3 write. -/
theorem test_hyp_Multicast :
    (let f : Frame := { F with a := .s 9, b := .s 10, c := .v 1, fs1 := 0x400, et := .b32 }
     let s := machine (chip0.writePhys (.core 0) 0x200 (leBytes 8 0x1000)) strand0
     issuesMem s strand0 (vmcastSpec f) f && (s.chip.vmcastLists strand0 f) == (s.chip, .inl [[some 0x1000]]) && strand0.active f != 0 &&
       strand0.replay.isNone && sourcesState strand0 (vmcastSpec f) f == .ok && !s.chip.buffers strand0 && !(f.aux == 2) &&
       (match s.chip.castDests strand0 f (lanesIn (strand0.active f)) false [] [(0, [some 0x1000])] with
        | (c, [], ok, _) => ok.length == 4 && ok.all (fun y => y.2.r.xl.isSome && y.2.r.n == 4) && c.mem.wf && c.posted.isEmpty &&
            (c.core 0).l1.isEmpty && Place.has (.near 0) 0x6000 4 && (ok.foldl (fun c x => c.castOne strand0 f false x.1 x.2) c).halt.isNone
        | _ => false) && retiresNext (.vmcast f) s) = true := by decide +kernel

/-- A bud record of eight registers at 0x1000. -/
def recordChip : Chip := chip0.writePhys (.near 0) 0x6000 (leBytes 8 (8 * 2 ^ 36))

/-- The cell at 0x3000 as a bud of that record with ARG 7. -/
def budChip : Chip := (recordChip.writePhys (.near 0) 0x8000 (leBytes 8 0x1000 ++ leBytes 8 7)).setTag (.near 0) 0x8000 tagBud

def opened : Opening := { die := 0, ctx := 0, cell := 0x3000, key := 0x800, opener := 1, retry := 0, root := default, told := false }

/-- That cell OPENING, opened by the strand of token 1. -/
def openChip : Chip := { budChip.setTag (.near 0) 0x8000 tagOpening with openings := [opened] }

def cellXl (c : Chip) : Option Xl :=
  match (machine c strand0).chip.translate ((machine c strand0).chip.who strand0) .load 16 0x3000 16 with
  | .ok x => some x
  | _ => none

theorem test_hyp_CellInstructions :
    (let f : Frame := { F with a := .s 4, b := .lane, c := .v 4, fs1 := 0x900, et := .b32 }
     let g : Frame := { F with a := .s 4, c := .s 12, fs1 := 0x800, et := .b32 }
     let h : Frame := { F with d := .v 3, a := .s 4, b := .lane, fs1 := 0x900, et := .b32 }
     let evaluator := { strand0 with kind := .evaluator 0x3000 }
     [machine chip0 strand0, detMachine chip0 strand0].all (fun s =>
       issuesMem s strand0 (budstSpec f) f && sourcesState strand0 (budstSpec f) f == .ok && strand0.lanesOf f != 0 &&
       (lanesIn (strand0.lanesOf f)).all (fun l => recordAddrOk (wordAt (dataBytes strand0 f.c 16 l) 0)) &&
       (match checkBudst f s.chip strand0 (lanesIn (strand0.lanesOf f)) with
         | (c, [], ws) => c.halt.isNone && ws.length == 4
         | _ => false) && retiresNext (.budst f) s) &&
     [(machine openChip evaluator, evaluator), (machine openChip { evaluator with token := 2 }, { evaluator with token := 2 }),
      (detMachine openChip evaluator, evaluator)].all (fun p =>
       issuesMem p.1 p.2 (bloomSpec g) g &&
       (match p.1.chip.checkLane (p.1.chip.who p.2) p.2.core (p.1.chip.localGid p.2) .plant 3 16 true false [(addressOperand p.2 0 g, 16)] with
         | (c, .ok [r]) => c.halt.isNone && r.xl.isSome &&
             (r.xl.map fun x => ((c.release c.cur p.2.core p.2.ctx 3).bloomAt p.2 x (dataBytes p.2 g.c 16 0)).isSome) == some (p.2.token == 1)
         | _ => false)) &&
     retiresNext (.bloom g) (machine openChip evaluator) && retiresNext (.bloom g) (detMachine openChip evaluator) &&
     (strandAfter (.bloom g) (machine openChip { evaluator with token := 2 })).map (fun u => (u.trapCause.toNat, u.faultVa)) ==
       some (Cause.cellStore.code, 0x3000) &&
     [chip0, budChip, openChip].all (fun c =>
       let s := machine c strand0
       !strand0.metEnd &&
       issuesMem s strand0 (budqSpec h) h && sourcesState strand0 (budqSpec h) h == .ok &&
       (match checkBudq h s.chip strand0 (lanesIn (strand0.lanesOf h)) with
         | (c, [], ws) => c.halt.isNone && ws.map (fun y => y.1) == [0, 1, 2, 3]
         | _ => false)) &&
     [chip0, budChip, openChip].map (fun c => (strandAfter (.budq h) (machine c strand0)).map fun u => (u.vreg 3).lane 0) ==
       [some 0, some 1, some 2]) = true := by decide +kernel

/-- CellInstructions: a replayed lane of BUDST under a higher lane of the first execution, and over a lower one. -/
theorem test_hyp_CellInstructions_replay :
    (let f : Frame := { F with a := .s 4, b := .lane, c := .v 4, fs1 := 0x900, et := .b32 }
     let t := { strand0 with replay := some 9, record := some { instr := .budst f, pc := 0, trapped := 9, orig := 15, wrote := [(2, 0x3000, 16)], prod := none } }
     let r : Reach := { va := 0x3000, n := 16, xl := none }
     !t.plants f 0 r && t.plants f 3 r && strand0.plants f 0 r && t.plants f 0 { r with va := 0x3010 }) = true := by decide +kernel

theorem test_hyp_CellOwners_transitions :
    ([chip0, budChip, openChip].all fun c => c.mem.wf && c.tags.length ≤ 1 &&
      match cellXl c with
      | some x => x.mig.isNone && x.pa % 16 == 0 && Place.has x.place x.pa 16 && x.va == 0x3000
      | none => false) = true ∧
    ([chip0, budChip, openChip].map fun c => (cellXl c).map fun x => c.tagOf x) = [some tagValue, some tagBud, some tagOpening] ∧
    openChip.opening 0 0x3000 (physKey (.near 0) 0x8000 / 16) = some opened ∧ openChip.waiters = [] ∧
    (opened.ctx = strand0.ctx ∧ opened.opener = strand0.token ∧ opened.opener ≠ ({ strand0 with token := 2 } : Strand).token) := by
  decide +kernel

/-- CellOwners: VALUE; BUD with a record that is accepted, one that is not and a full table; OPENING by another's strand, its own and a full table. -/
theorem test_hyp_CellOwners_reads :
    (let read : CellRead := { lane := 0, cell := 0x3000, off := 12, dest := .vec 3 0 4 false }
     let s (c : Chip) := (machine c strand0).chip
     let one (c : Chip) : Chip := { s c with ctxs := [(0, { Context.program with state := .running, waitQ := 1 })], openings := [{ opened with cell := 0x3010 }] }
     let other : Strand := { strand0 with chain := [1] }
     let ans (c : Chip) (t : Strand) := (c.cellLoad false t 2 9 read).2
     (match (s budChip).translate ((s budChip).who strand0) .load 4 0x300C 4 with
       | .ok x => x.cell && x.mig.isNone
       | _ => false) &&
     (match (s budChip).translate { ctx := 0, dies := [0], die := 0, local? := none } .load 64 0x1000 64 with
       | .ok y => y.mig.isNone && (s budChip).budRecordOk ((s budChip).readPhys y.place y.pa 64)
       | _ => false) &&
     (s budChip).waitRoom 0 0 2 && !(s budChip).atSpawnQ 0 && (s budChip).poolRoom 0 && !(one budChip).waitRoom 0 0 2 &&
     (let e := evaluatorOf 0 false strand0 0 0x3000 0x1000 7 (leBytes 64 (8 * 2 ^ 36)) 5
      e.die == 0) &&
     ans (s chip0) strand0 == .bytes [0, 0, 0, 0] && ans (s budChip) strand0 == .deferred && ans (one budChip) strand0 == .refused &&
     ans (s (budChip.writePhys (.near 0) 0x6000 (leBytes 8 0))) strand0 == .badRecord .badOperand 0x3000 &&
     ans (s (budChip.writePhys (.near 0) 0x8000 (leBytes 8 0x9000))) strand0 == .badRecord .pageFault 0x9000 &&
     ((s budChip).cellLoad false strand0 2 9 { read with short := true }).2 == .fault .protection (vaWithOwn 0x300C 6) &&
     ans { s openChip with openings := [] } strand0 == .fault .protection 0x3000 &&
     ((s openChip).cellLoad false other 2 9 { read with dest := .scalar 3 4 false }).2 == .fault .selfDependence 0x300C &&
     ans (s openChip) strand0 == .deferred && ans (s openChip) other == .fault .selfDependence 0x3000 &&
     ans { s openChip with openings := [{ opened with ctx := 1 }] } strand0 == .fault .protection 0x3000 &&
     ans { one openChip with openings := [opened] } strand0 == .refused &&
     (s openChip).needsEntry 0 0x3000 2 9) = true := by decide +kernel

/-- CellOwners: a lane at a VALUE cell, and one whose request was refused. -/
theorem test_hyp_CellOwners_answers :
    (let q : CellReq := { id := 9, sid := 2, read := { lane := 0, cell := 0x3000, off := 0, dest := .vec 3 0 4 false }, refused := false }
     let p : LoadProg := { instr := .vld { F with d := .v 3, a := .s 4, b := .lane, fs1 := 0x480, et := .b32 }, pc := 0, active := 1, pend := 1,
                           prod := none, faults := [], dests := [3], got := [] }
     let t := { strand0 with load := some p, status := .waiting .bud }
     let s := machine { chip0 with cellReqs := [q] } t
     let d := ({ s.chip with nextId := s.chip.nextId + 1 } : Chip).cellLoad false t 2 s.chip.nextId q.read
     s.chip.halt.isNone && (s.chip.cellReqs.map fun r => r.id) == [9] && s.chip.loadOf q.sid == some (t, p) && s.chip.inTurn q &&
       d.2 == .bytes [0, 0, 0, 0] && (d.1.answer q s.chip.nextId d.2).halt.isNone &&
       ((after (.ownerCellLoad 9) s).bind fun c => c.strand 2).map (fun u => (u.pc, u.load.isNone)) == some (16, true) &&
       (let later := { q with id := 10, read := { q.read with cell := 0x3010 } }
        !({ s.chip with cellReqs := [q, later] } : Chip).inTurn later) &&
       (let s := machine { chip0 with cellReqs := [{ q with refused := true }] } t
        (after (.loadReissue 9) s).map (fun c => c.cellReqs) == some [q])) = true := by decide +kernel

/-- The fields of the instructions that execute by halves, in the order of `halfRows`: a good address, and one that no half takes. -/
def halfFrames (bad : Bool) : List Frame :=
  let o : Operand := if bad then .s 2 else .s 6
  let m : Operand := if bad then .s 3 else .s 1
  let b : Frame := { F with a := o, c := .s 10 }
  [b, b, { b with d := .s 5 }, { b with c := .s 12 }, { b with d := .s 5 }] ++
  [{ F with a := m, b := .s 1, c := .s 7 }, { F with a := m, b := .s 1, c := .s 7 }, { F with d := .s 5, a := m }, { F with a := m },
   { F with a := .s 3 }, { F with d := .s 5, a := .s 3, b := .s 10 }, { F with a := .s 3 }]

/-- A paired strand whose halves agree on an object and on the numbers, but for s11. -/
def halvesStrand : Strand :=
  { pairStrand with sregs := [(1, 0x1000), (6, 0x140000000000100), (7, 0x80), (10, 1), (33, 0x2000), (38, 0x140000000000120), (39, 0x80), (42, 1)] }

theorem test_hyp_Halves :
    ((halfRows.zip (halfFrames false)).all fun x => issues state0 strand0 (x.1.spec x.2) x.2 && issues (machine chip0 halvesStrand) halvesStrand (x.1.spec x.2) x.2) = true ∧
    (((halfRows.zip (halfFrames false)).take 4).all fun x =>
      let c := chip0.writePhys (.core 0) 0x100 ({ status := 0, pend := 0, init := 2, arr := 2, phase := true } : Bar).bytes
      let c := (machine (c.writePhys (.core 0) 0x120 ({ status := 0, pend := 0, init := 2, arr := 2, phase := true } : Bar).bytes) halvesStrand).chip
      match x.1.half x.2 0 c halvesStrand with
      | (c, .done u _ _) => match x.1.half x.2 1 (c.setStrand c.cur u) u with
        | (d, .done _ _ _) => d.halt.isNone
        | _ => false
      | _ => false) = true ∧
    (let f : Frame := { F with a := .s 6, c := .s 10 }
     let t := { halvesStrand with sregs := [(6, 0x140000000000100), (10, 1), (38, 0x140000000000120), (42, 0)] }
     let c := (machine chip0 t).chip
     (match boinitHalf f 0 c t with
      | (c, .done u _ _) => match boinitHalf f 1 (c.setStrand c.cur u) u with
        | (d, .stop tr) => d.halt.isNone && d.strand 2 == some u && !u.isHandler && tr == Trap.instr .badOperand 5 0
        | _ => false
      | _ => false) &&
     (let t := { t with sregs := [(6, 0x140000000000101)] }
      (boinitHalf f 0 (machine chip0 t).chip t).2 == .stop (Trap.instr .misaligned 3 0x140000000000101))) = true := by decide +kernel

/-- Halves: REL while a deferred lane of an older load has not landed, and in a deterministic context while its bud read waits for Commit. -/
theorem test_hyp_Halves_waits :
    (let late := machine { chip0 with waiters := [{ die := 0, ctx := 0, cell := 0x3000, sid := 2, prod := 9, reads := [] }] } strand0
     let f : Frame := { F with a := .s 1 }
     let t := { strand0 with buffer := [{ pc := 0x40, instr := .rel f, active := 0, op := .budRead [] 9 }] }
     [(late, strand0), (detMachine late.chip strand0, strand0), (detMachine chip0 t, t)].all fun x =>
       issues x.1 x.2 (binderSpec 0x284 false .unused f) f && x.1.chip.owesLoads x.2 &&
         (strandAfter (.rel f) x.1).map (fun u => (u.status, u.pc)) == some (.waiting .bud, 0)) = true := by decide +kernel

/-- A machine whose object at s6 is `b`. -/
def barMachine (b : Bar) : State := machine (chip0.writePhys (.core 0) 0x100 b.bytes) strand0

theorem test_hyp_BarrierObjects_instructions :
    (let b : Bar := { status := 0, pend := 0, init := 2, arr := 2, phase := false }
     let s := barMachine b
     let t (n : W64) : Strand := { strand0 with sregs := [(2, n), (6, 0x140000000000100)] }
     let f : Frame := { F with a := .s 6, c := .s 2 }
     s.chip.objectAt strand0 (addressOperand strand0 0 f) 3 == .inl (0, 0x100) && s.chip.readBar 0 0x100 == b && Place.has (.core 0) 0x100 32 &&
     !strand0.paired && !s.chip.buffers strand0 &&
     [(0 : W64), 1, 2, 3, 65535, 65536].all (fun n =>
       let s := { s with chip := s.chip.setStrand 2 (t n) }
       issues s (t n) (barSpec 0x286 .scalar .unused f) f && issues s (t n) (barSpec 0x287 FieldSpec.scalar.orZero .unused f) f &&
       issues s (t n) (barSpec 0x288 FieldSpec.scalar.orZero FieldSpec.scalar.orNone f) f && issues s (t n) (barSpec 0x289 FieldSpec.scalar.orZero .unused f) f &&
       (let g := { f with d := .s 5 }
        issues s (t n) (barSpec 0x28A FieldSpec.scalar.orZero .scalar g) g)) &&
     [(0 : W64), 1, 65535, 65536].map (fun n => (strandAfter (.boinit f) { s with chip := s.chip.setStrand 2 (t n) }).map fun u => u.trapCause.toNat) ==
       [some 0x50003, some 0, some 0, some 0x50003] &&
     (strandAfter (.boinit f) (barMachine { b with pend := 1 })).map (fun u => u.trapCause.toNat) == some 3 &&
     [(1 : W64), 2, 3].map (fun n => (strandAfter (.boarr f) { s with chip := s.chip.setStrand 2 (t n) }).map fun u => u.trapCause.toNat) ==
       [some 0, some 0, some 3] &&
     [pendMax - 3, pendMax - 2].map (fun p => (strandAfter (.boexp f) (barMachine { b with pend := p })).map fun u => u.trapCause.toNat) ==
       [some 0, some 3] &&
     [false, true].map (fun p => (strandAfter (.bowait { f with c := .s 10 }) (barMachine { b with phase := p })).map fun u => (u.pc, u.status)) ==
       [some (16, .ready), some (0, .waiting .barrier)] &&
     [Instr.bowait { f with c := .s 10 }, .botest { f with d := .s 5, c := .s 10 }].all (fun i =>
       (after i { s with chip := s.chip.writePhys (.core 0) 0x118 [0x7F] }).map (fun c => c.readPhys (.core 0) 0x118 1) == some [0x1F])) = true := by
  decide +kernel

/-- BarrierObjects: an object that completes, with an operation that has counted its bytes and one that has not, and one that does not. -/
theorem test_hyp_BarrierObjects_phase :
    (let b : Bar := { status := 0, pend := 0, init := 65535, arr := 0, phase := false }
     let o : EngineOp := { id := 7, sid := 2, gid := 1, core := 0, ctx := 0, obj := 0x140000000000100, kind := default, bytes := 4, counted := 4,
                           landed := 4, flags := 0, fva := 0, started := true, prod := none }
     let l : Lock := { ctx := 0, gid := none, lo := 0x1000, hi := 0x1004, source := true, op := 7 }
     let c := (machine { chip0 with engines := [o, { o with id := 8, counted := 0 }] } strand0).chip
     let c := c.setCore 0 { c.core 0 with locks := [l, { l with op := 8 }] }
     let d := c.settleBar 0 0x100 1 0x140000000000100 b
     c.mem.wf && Place.has (.core 0) 0x100 32 && b.init < 65536 && o.finished && d.engines.map (fun o => o.id) == [8] &&
       (d.core 0).locks.map (fun k => k.op) == [8] && d.readBar 0 0x100 == { b with phase := true, arr := 65535 } &&
       [pendMin, pendMax].all fun p => (c.settleBar 0 0x100 1 0x140000000000100 { b with pend := p }).readBar 0 0x100 == { b with pend := p }) = true := by
  decide +kernel

theorem test_hyp_FencesAndBinders :
    (let fence (o : Nat) : Frame := { F with fs1 := BitVec.ofNat 18 (0xC000 + o * 4096) }
     let reg : Frame := { F with a := .s 1, b := .s 1, c := .s 7 }
     let bind (seen : Option W64) (uses n : Nat) : State :=
       let s := state0
       let mine : Binding := { ctx := 0, gid := 1, binder := 0x1000, lo := 0x1000, hi := 0x1080, seen := seen, uses := uses }
       let others := (List.range n).map fun i => { mine with binder := 0x2000 + BitVec.ofNat 64 (64 * i) }
       { s with chip := s.chip.setBinds 0 (others ++ if uses = 0 then [] else [mine]) }
     let waiting := machine { chip0 with vldas := [] } { strand0 with status := .ready }
     [0, 1, 2, 3].all (fun o => issues state0 strand0 { OpSpec.base 0x280 with imm0 := true } (fence o) && !state0.chip.owesLoads strand0 &&
       (strandAfter (.fence (fence o)) state0).map (fun u => u.pc) == some 16) &&
     (let late := machine { chip0 with waiters := [{ die := 0, ctx := 0, cell := 0x3000, sid := 2, prod := 9, reads := [] }] } strand0
      late.chip.defersLoad 2 && late.chip.owesLoads strand0 && fenceAcquires (fence 3).ord &&
        (strandAfter (.fence (fence 3)) late).map (fun u => u.status) == some (.waiting .bud)) &&
     (match waiting.chip.binderAt strand0 (addressOperand strand0 0 reg) with
       | (c, .inl x) => c == waiting.chip && x.va == 0x1000
       | _ => false) && !strand0.paired && !state0.chip.buffers strand0 &&
     state0.chip.region strand0 (sVal strand0 0 reg.b) (sVal strand0 0 reg.c) == .inl (0x1000, 0x1080) &&
     [bind none 0 0, bind none 0 (Config.bindEntries - 1), bind none 0 Config.bindEntries, bind none 1 0, bind none 2 0].all (fun s =>
       issues s strand0 (binderSpec 0x281 true .unused reg) reg && issues s strand0 (binderSpec 0x282 true .unused reg) reg &&
       issues s strand0 (binderSpec 0x283 false FieldSpec.scalar.orNone { F with d := .s 5, a := .s 1 }) { F with d := .s 5, a := .s 1 } &&
       issues s strand0 (binderSpec 0x284 false .unused { F with a := .s 1 }) { F with a := .s 1 }) &&
     [bind none 0 0, bind none 0 (Config.bindEntries - 1), bind none 0 Config.bindEntries, bind none 1 0].map (fun s =>
       (strandAfter (.bind reg) s).map fun u => u.trapCause.toNat) == [some 0, some 0, some 3, some 0] &&
     [bind none 0 0, bind none 1 0, bind none 2 0].map (fun s => ((strandAfter (.unbind reg) s).map (fun u => u.trapCause.toNat),
       (after (.unbind reg) s).map fun c => (c.core 0).binds.map fun e => e.uses)) ==
       [(some 3, some []), (some 0, some []), (some 0, some [1])]) = true := by decide +kernel

/-- FencesAndBinders: the version wraps at its largest value, and a stale binding sees it. -/
theorem test_hyp_FencesAndBinders_versions :
    (let c := (machine (chip0.writePhys (.near 0) 0x6000 (List.replicate 8 0xFF)) strand0).chip
     let c := c.setBinds 0 [{ ctx := 0, gid := 1, binder := 0x1000, lo := 0x1000, hi := 0x1080, seen := some 3, uses := 1 }]
     match c.binderAt strand0 0x1000 with
     | (_, .inl x) => c.mem.wf && x.mig.isNone && Place.has x.place x.pa 8 && c.posted.isEmpty && (c.core 0).l1.isEmpty &&
         (c.rel 2 0 0 x).readWord x.place x.pa == 0 && (c.acq 2 0 0 x).2 == BitVec.allOnes 64 &&
         ((c.acq 2 0 0 x).1.core 0).binds.map (fun e => e.seen) == [some (BitVec.allOnes 64)]
     | _ => false) = true := by decide +kernel

/-- Two strands of one group; the other one, 3, may have reached its GBAR. -/
def twoStrands (c : Chip) (t u : Strand) : State :=
  let s := machine c t
  { s with chip := { s.chip with strands := [(2, t), (3, u)], nextId := 4 } }

theorem test_hyp_GroupResources_gbar :
    (let f : Frame := { F with c := .v 0 }
     let there := { strand0 with gbar := true, status := .waiting .barrier, pc := 0x40 }
     let last := twoStrands chip0 strand0 there
     let first := twoStrands chip0 strand0 strand0
     let here (s : State) := s.chip.setStrand 2 { strand0 with gbar := true, status := .ready }
     issues last strand0 (controlSpec 0x285 f true) f && issues first strand0 (controlSpec 0x285 f true) f &&
     issues (machine chip0 handlerStrand) handlerStrand (controlSpec 0x285 f true) f &&
     (here last).gbarDone 1 && !(here first).gbarDone 1 && (last.chip.live 1).map (fun x => x.1) == [2, 3] &&
     ((first.chip.setStrand 2 { strand0 with gbar := true, status := .waiting .barrier }).deadlocked 1).isNone &&
     ((after (.gbar f) last).bind fun c => c.strand 3).map (fun u => u.pc) == some 0x50 &&
     (let det (s : State) : State := { s with chip := { s.chip with ctxs := [(0, { Context.program with state := .running, det := true })] } }
      [det last, det first].all (fun s => issues s strand0 (controlSpec 0x285 f true) f) && !(here (det first)).gbarDone 1 &&
        (strandAfter (.gbar f) (det first)).map (fun u => (u.pc, u.gbar, u.ended)) == some (16, true, true) &&
        ((after (.gbar f) (det last)).bind fun c => c.strand 3).map (fun u => (u.pc, u.gbar)) == some (0x40, false)) &&
     ((machine chip0 handlerStrand).chip.takeTrap 2 (Trap.instr .badOperand 0 0) handlerStrand.pc none).halt.isNone) = true := by decide +kernel

def blocksFrame (n : Nat) : Frame := { F with fs1 := BitVec.ofNat 18 n }

/-- A machine whose strand has `limit` registers in its blocks and whose group's pool holds `n` blocks. -/
def blockState (limit n : Nat) (claims : List (Nat × Nat × Bool)) (t : Strand) : State :=
  let t := { t with regLimit := limit, blocks := (List.range (limit / 8)).map fun i => { cold := 256 ≤ 8 * i, quarter := 0 } }
  let s := twoStrands chip0 t strand0
  { s with chip := { s.chip with groups := [(1, { Group.program with claims := claims, pool := (List.range n).map fun i => { cold := 32 ≤ i, quarter := 0 } })] } }

theorem test_hyp_GroupResources_blocks :
    (let done (i : Instr) (s : State) := (strandAfter i s).map fun u => (u.regLimit, u.trapCause.toNat)
     let st (s : State) : Strand := (s.chip.strand 2).getD strand0
     let full := blockState 320 0 [] strand0
     let small := blockState 8 40 [] strand0
     let queued := blockState 8 40 [(3, 1, false)] strand0
     [full, small, queued].all (fun s => (s.chip.group 1).isSome && !(st s).isHandler && !s.chip.buffers (st s) &&
       [0, 1, 39, 40, 41].all fun n => issues s (st s) (blocksSpec 0x2E3) (blocksFrame n) && issues s (st s) (blocksSpec 0x2E4) (blocksFrame n)) &&
     [0, 1, 39, 40].map (fun n => done (.give (blocksFrame n)) full) == [some (320, 0xA0003), some (312, 0), some (8, 0), some (320, 0xA0003)] &&
     [0, 1, 39, 40].map (fun n => done (.claim (blocksFrame n)) small) == [some (8, 0xA0003), some (16, 0), some (320, 0), some (8, 0xA0003)] &&
     (strandAfter (.claim (blocksFrame 1)) queued).map (fun u => u.status) == some (.waiting .claim) &&
     (strandAfter (.claim (blocksFrame 1)) (blockState 8 0 [] strand0)).map (fun u => u.status) == some (.waiting .claim)) = true ∧
    (let u := { strand0 with status := .waiting .claim, regLimit := 8, blocks := [{ cold := false, quarter := 0 }] }
     let s := twoStrands chip0 strand0 u
     let s := { s with chip := { s.chip with groups := [(1, { Group.program with claims := [(3, 1, false)], pool := [{ cold := false, quarter := 0 }] })] } }
     s.chip.halt.isNone && (s.chip.ctx 0).map (fun x => (x.state, x.det)) == some (.running, false) &&
       (claimBlocks [{ cold := false, quarter := 0 }] (u.claimNeed 1)).isSome &&
       ((after (.claimServe 1) s).bind fun c => c.strand 3).map (fun v => (v.regLimit, v.pc)) == some (16, 16)) = true := by decide +kernel

theorem test_hyp_GroupResources_exit :
    (let f : Frame := { F with c := .v 0 }
     let e := { strand0 with kind := .evaluator 0x3000 }
     let h := { strand0 with kind := .handler 3, slot := 64 }
     let frozen := { strand0 with status := .frozen, trapCause := 0x1C }
     [(state0, strand0), (detMachine chip0 strand0, strand0), (machine chip0 e, e), (machine chip0 { e with bloomed := true }, { e with bloomed := true }),
      (twoStrands chip0 h frozen, h)].all (fun p =>
       issues p.1 p.2 (controlSpec 0x008 f true) f && (p.1.chip.strands.map fun x => x.1).length ≤ 2) &&
     (after (.exit f) state0).map (fun c => (c.strands.length, (c.group 1).isSome, c.gone.map (fun x => x.2.retired), (c.ctx 0).map fun x => x.state)) ==
       some (0, false, [1], some .loaded) && (state0.chip.pendingLaunch 0).isNone && state0.chip.allPools.isEmpty &&
     (after (.exit f) (twoStrands chip0 strand0 strand0)).map (fun c => (c.group 1).map fun g => g.pool.length) == some (some 4) &&
     (after (.exit f) (detMachine chip0 strand0)).map (fun c => (c.group 1).map fun g => (g.pool, g.grans)) == some (some ([], 0)) &&
     (let x : SlotLoad := { id := 7, sid := 2, slot := 0, side := false, first := 0, bytes := [1] }
      let t := { strand0 with slots := [(0, { MapSlot.claimed with loads := [7] })] }
      [machine { chip0 with slotLoads := [x] } t, detMachine { chip0 with slotLoads := [x] } t].all fun s =>
        (after (.exit f) s).map (fun c => (c.slotLoads, c.mapsUsed 0 0)) ==
          some ([{ x with held := some { ctx := 0, core := 0, quarter := 0, slot := 0 } }], 1)) &&
     state0.chip.posted.isEmpty && !(machine chip0 e).chip.owesResult 2 &&
     (strandAfter (.exit f) (detMachine chip0 strand0)).map (fun u => u.exited) == some true &&
     (strandAfter (.exit f) (machine chip0 e)).map (fun u => u.trapCause.toNat) == some 0x0F &&
     ((twoStrands chip0 h frozen).chip.exitHandler 2 h 3).halt.isNone &&
     (after (.exit f) (twoStrands chip0 h frozen)).map (fun c => c.strands.map fun x => (x.1, x.2.status)) == some [(3, .frozen)]) = true := by decide +kernel

/-! ### Hypotheses: engines, tasks, the handler -/

/-- Local store at 0x200 holds a request: a copy of four i32 from 0x1000 to 0x2000, its layouts at 0x400 and 0x480. -/
def copyChip (red : Nat) : Chip :=
  let dim := 4 * 2 ^ 128 + 2 ^ 160
  let c := chip0.writePhys (.core 0) 0x400 (leBytes 128 (6 + 2 ^ 4 + 0x1000 * 2 ^ 64 + dim) ++ leBytes 128 (6 + 2 ^ 4 + 0x2000 * 2 ^ 64 + dim))
  c.writePhys (.core 0) 0x200 (leBytes 128 (0x400 + 0x480 * 2 ^ 32 + red * 2 ^ 152 + 0x3F800000 * 2 ^ 160 + 4 * 2 ^ 512))

/-- Local store at 0x200 holds a link request of four bytes or, for a sum, four i32, in communicator slot 0. -/
def linkChip (lred : Bool) : Chip :=
  let x := 0x1000 * 2 ^ 256 + 0x2000 * 2 ^ 320 + 4 * 2 ^ 216 + (if lred then 6 * 2 ^ 20 + 2 ^ 12 else 2 ^ 8)
  { chip0.writePhys (.core 0) 0x200 (leBytes 64 x) with
    comms := [(0, { valid := true, cid := 5, gen := 1, ctx := 0, rank := 0, members := [{ dev := 0, link := 0 }, { dev := 1, link := 3 }],
                    coll := 0, early := [], failed := [] })] }

def engineFrame : Frame := { F with a := .s 9, b := .s 6 }

/-- A machine whose core 0 holds so many range locks. -/
def lockedMachine (c : Chip) (n : Nat) : State :=
  let s := machine c strand0
  let l : Lock := { ctx := 0, gid := none, lo := 0, hi := 1, source := true, op := 0 }
  { s with chip := s.chip.setCore 0 { s.chip.core 0 with locks := List.replicate n l } }

theorem test_hyp_EngineIssue :
    (let f := engineFrame
     let kinds (c : Chip) (k : Nat) : Option EngineOp :=
       let s := machine c strand0
       if k < 2 then match s.chip.copyRequest strand0 (sVal strand0 0 f.a) (k == 1) f.d with
         | .inl r => some (s.chip.newEngine strand0 (sVal strand0 0 f.b) (.copy r 0 false []) r.bytes r.reg.isSome)
         | _ => none
       else match s.chip.linkRequest strand0 (sVal strand0 0 f.a) (k == 3) with
         | .inl (q, m) => some (if k == 2 then s.chip.newEngine strand0 (sVal strand0 0 f.b) (.lsend q m.cid m.gen 0 false) (q.count * q.dstBytes false) false
             else s.chip.newEngine strand0 (sVal strand0 0 f.b) (.lred q m.cid m.gen 0 m.members.length m.rank [] [] [] none 0 false)
               (q.count * q.dstBytes true) false)
         | _ => none
     [(0, copyChip 0, Instr.tcopy f, 16), (1, copyChip 1, .tred f, 16), (2, linkChip false, .lsend f, 4), (3, linkChip true, .lred f, 16)].all fun x =>
       let s := machine x.2.1 strand0
       let d := detMachine x.2.1 strand0
       let full := lockedMachine x.2.1 Config.lockEntries
       (match s.chip.objectAt strand0 (sVal strand0 0 f.b) 4 with
         | .inl _ => true
         | _ => false) &&
       [s, d, full].all (fun s => issues s strand0 (engineSpec (0x2C0 + x.1) (if x.1 = 0 then (FieldSpec.vec 1).orNone else .unused)) f) &&
       (match kinds x.2.1 x.1 with
         | some o => o.bytes == x.2.2.2 && s.chip.lockRoom o && !full.chip.lockRoom o &&
             (({ s.chip with nextId := s.chip.nextId + 1 } : Chip).registerEngine o).halt.isNone
         | none => false) &&
       retiresNext x.2.2.1 s && retiresNext x.2.2.1 d &&
       (strandAfter x.2.2.1 full).map (fun u => (u.pc, u.status, u.issued)) == some (0, .waiting .barrier, kinds x.2.1 x.1) &&
       (let u := { strand0 with issued := kinds x.2.1 x.1 }
        [machine x.2.1 u, detMachine x.2.1 u, lockedMachine x.2.1 Config.lockEntries, machine chip0 u].all (fun s =>
          let s := { s with chip := s.chip.setStrand 2 u }
          issues s u (engineSpec (0x2C0 + x.1) (if x.1 = 0 then (FieldSpec.vec 1).orNone else .unused)) f) &&
        retiresNext x.2.2.1 (machine x.2.1 u) &&
        (kinds x.2.1 x.1).map (fun o => ((machine x.2.1 u).chip.commStands o, (machine chip0 u).chip.commStands o)) == some (true, decide (x.1 < 2)) &&
        -- R259, R263: a communicator that has become invalid meanwhile
        (decide (x.1 < 2) || (strandAfter x.2.2.1 (machine chip0 u)).map (fun u => (u.trapCause.toNat, u.faultVa)) ==
          some (Cause.linkDown.code + 11 * 65536, sVal strand0 0 f.a)))) = true := by decide +kernel

/-- The copy of `copyChip`, as an operation. -/
def copyOp : Option (EngineOp × CopyReq) :=
  match (machine (copyChip 0) strand0).chip.copyRequest strand0 0x140000000000200 false .none with
  | .inl r => some ((machine (copyChip 0) strand0).chip.newEngine strand0 0x140000000000100 (.copy r 0 false []) r.bytes false, r)
  | _ => none

/-- EngineSteps: a charge that reaches the end of PENDBYTES, and one that passes it. -/
theorem test_hyp_EngineSteps_charge :
    (match copyOp with
     | some (o, r) => r.reg.isNone && decide (0 < o.bytes) && [pendMax - 16, pendMax - 15].map (fun p =>
         let c := (machine ((copyChip 0).writePhys (.core 0) 0x100 ({ status := 0, pend := p, init := 1, arr := 1, phase := false } : Bar).bytes) strand0).chip
         c.barPlace o.gid o.obj == some (0, 0x100) && Place.has (.core 0) 0x100 32 && c.mem.wf && c.posted.isEmpty && (c.core o.core).l1.isEmpty &&
         (c.readBar 0 0x100).arr != 0 && ((c.registerEngine o).readBar 0 0x100).pend == pendMax && bit ((c.registerEngine o).readBar 0 0x100).status 3) ==
           [false, true]
     | none => false) = true := by decide +kernel

theorem test_hyp_EngineSteps :
    (match copyOp with
     | some (o, _) =>
       let run (o : EngineOp) : State := machine { copyChip 0 with engines := [o] } strand0
       let s := run o
       let t := run { o with started := true }
       let busy := machine { copyChip 0 with engines := [{ o with id := 1 }, o] } strand0
       s.chip.halt.isNone && (s.chip.engines.find? fun x => x.id == o.id) == some o && s.chip.mayStart o && !busy.chip.mayStart o && !o.isLred &&
         ((after (.engineStart o.id) s).map fun c => c.engines.map fun x => x.started) == some [true] &&
         ((after (.engineStart o.id) busy).map fun c => c.engines.map fun x => x.started) == some [false, false] &&
         [1, 15, 16, 17].map (fun n => (after (.engineCountDown o.id n) t).map fun c => c.engines.map fun x => x.counted) ==
           [some [0], some [12], some [16], some [16]] &&
         ((after (.engineCountDown o.id 16) s).map fun c => c.engines.map fun x => x.counted) == some [0] && t.chip.inItsOrder { o with started := true } &&
         -- R185: behind a copy of its deterministic context that has not landed, and behind one that has
         [(0, false), (16, true)].all (fun k =>
           let p := { o with id := 1, started := true, counted := k.1, landed := k.1 }
           let s := detMachine { copyChip 0 with engines := [p, { o with started := true }] } strand0
           s.chip.isDet o.ctx && p.id != o.id && p.copyLeft == !k.2 && s.chip.inItsOrder { o with started := true } == k.2 &&
             ((after (.engineCountDown o.id 12) s).map fun c => c.engines.map fun x => x.counted) == some [k.1, if k.2 then 12 else 0])
     | none => false) = true ∧
    (let s := machine (linkChip true) strand0
     match s.chip.linkRequest strand0 0x140000000000200 true with
     | .inl (q, m) =>
       let o := s.chip.newEngine strand0 0x140000000000100 (.lred q m.cid m.gen 0 2 0 [] [] [] none 0 false) 16 false
       let s := { s with chip := { s.chip with engines := [o] } }
       (s.chip.engines.find? fun x => x.id == o.id) == some o && s.chip.mayStart o && !o.started && (s.chip.lredStart o q).halt.isNone
     | _ => false) = true := by decide +kernel

/-- A spawn record of eight registers at 0x1000, whose strand starts at 0. -/
def taskFrame (d : Operand) : Frame := { F with d := d, a := .s 1 }

def child : NewStrand := strand0.child (leBytes 64 (8 * 2 ^ 36))

/-- A context at its SPAWNQ of one strand. -/
def quotaMachine : State :=
  let s := machine recordChip strand0
  { s with chip := { s.chip with ctxs := [(0, { Context.program with state := .running, spawnQ := 1 })], pools := [(0, [child])] } }

/-- Node 0 of the context with a count. -/
def nodeMachine (n : Nat) : State :=
  let t := { strand0 with sregs := [(1, 0), (2, 0x40000)] }
  machine { chip0 with nodes := [(0, { strand := child, hint := 0, count := n, gen := 0 })] } t

theorem test_hyp_Tasks :
    (let strand1 := { strand0 with maxDepth := 8 }
     let s := machine recordChip strand1
     let f := taskFrame .none
     let g : Frame := { F with d := .s 5, a := .s 1, b := .s 2 }
     let z : Frame := { F with d := .s 5, a := .s 1, b := .zero }
     let q := { quotaMachine with chip := quotaMachine.chip.setStrand 2 strand1 }
     let specD : OpSpec := { taskSpec 0x2E1 with d := .scalar, a := .scalar, b := FieldSpec.scalar.orZero }
     [s, q].all (fun s => issues s strand1 { taskSpec 0x2E0 with a := .scalar } f && issues s strand1 specD g && issues s strand1 specD z &&
       (match s.chip.spawnRecord strand1 0x1000 (some 3) with
         | (_, .inl _) => true
         | _ => false) &&
       (match s.chip.spawnRecord strand1 0x1000 none with
         | (_, .inl bs) => s.chip.poolRoom (strand1.child bs).die
         | _ => false)) &&
     !s.chip.atSpawnQ 0 && q.chip.atSpawnQ 0 && !s.chip.owesLoads strand1 && s.chip.nodeRoom && strand1.ctx == 0 &&
     retiresNext (.spawn f) s && retiresNext (.spawnd g) s && retiresNext (.spawnd z) s &&
     (strandAfter (.spawn f) q).map (fun u => u.pc) == some 0 && (strandAfter (.spawnd g) q).map (fun u => u.pc) == some 0 &&
     (let t := { strand0 with sregs := [(1, 0), (2, 0x40000)] }
      [0, 1, 2].all (fun n => issues (nodeMachine n) t { taskSpec 0x2E2 with a := .scalar } f && ((nodeMachine n).chip.nodeOf 0 0).isSome &&
        ((nodeMachine n).chip.release 2 0 0 3).halt.isNone && retiresNext (.signal f) (nodeMachine n)) &&
      ((nodeMachine 1).chip.nodeOf 0 0x40000).isNone && (strandAfter (.signal { F with a := .s 2 }) (nodeMachine 1)).map (fun u => u.trapCause.toNat) == some 0x30003)) =
    true := by decide +kernel

/-- Tasks: a deferred lane of an older load, for each of the three. -/
theorem test_hyp_Tasks_waits :
    (let w : Waiter := { die := 0, ctx := 0, cell := 0x3000, sid := 2, prod := 9, reads := [] }
     let strand1 := { strand0 with maxDepth := 8 }
     let s := machine { recordChip with waiters := [w], nodes := [(0, { strand := child, hint := 0, count := 1, gen := 0 })] } strand1
     let f := taskFrame .none
     let g : Frame := { F with d := .s 5, a := .s 1, b := .s 2 }
     s.chip.owesLoads strand1 && issues s strand1 { taskSpec 0x2E0 with a := .scalar } f &&
       issues s strand1 { taskSpec 0x2E1 with d := .scalar, a := .scalar, b := FieldSpec.scalar.orZero } g &&
       issues s strand1 { taskSpec 0x2E2 with a := .scalar } f &&
       [Instr.spawn f, .spawnd g, .signal f].map (fun i => (strandAfter i s).map fun u => u.status) == List.replicate 3 (some (.waiting .bud))) = true := by
  decide +kernel

/-- Tasks: a die whose pool and overflow storage are full, and a full node store. -/
theorem test_hyp_Tasks_full (c : Chip) :
    ({ c with pools := [(0, List.replicate Config.poolEntries child)],
              overflows := [(0, List.replicate Config.overflowEntries child)] } : Chip).poolRoom 0 = false ∧
    ({ c with nodes := List.replicate Config.nodeEntries (0, { strand := child, hint := 0, count := 1, gen := 0 }) } : Chip).nodeRoom = false := by
  generalize hp : Config.poolEntries = p
  generalize ho : Config.overflowEntries = o
  generalize hn : Config.nodeEntries = n
  simp only [Chip.poolRoom, Chip.nodeRoom, Chip.poolOf, Sparse.getD, Sparse.get?, hp, ho, hn]
  simp

/-- The handler strand 2 with its subject 3, which has trapped. -/
def subject0 : Strand := { strand0 with status := .frozen, trapCause := 0x0C, epc := 0x40, sregs := [(1, 7)], kregs := [(0, 0xF), (1, 6)],
                                        vregs := [(1, { VReg.start with lanes := 9, tag := .i32 }), (2, { VReg.start with fill := .inflight .bud 9 })] }
def handler0 : Strand := { strand0 with kind := .handler 3, slot := 64 }
def served (h : Strand) : State :=
  let s := twoStrands chip0 h subject0
  { s with chip := s.chip.setCore 0 { s.chip.core 0 with serving := some 2 } }

theorem test_hyp_SubjectState_registers :
    (let t := handler0
     let s := served t
     let sub (n : Nat) : Frame := { F with b := .imm, et := .n32, imm := BitVec.ofNat 32 n }
     s.chip.subject t == some (3, subject0) &&
     (issues s t { OpSpec.base 0x300 with d := .scalar } { F with d := .s 5, imm := 0x1F } && selAssigned 0x1F && selAssigned 7 && !selAssigned 0x20) &&
     (issues s t { OpSpec.base 0x301 with a := FieldSpec.scalar.orZero } { F with a := .zero, imm := 0xC } &&
       pwrcWrites 0 && (pwrcOne 0 0x201 subject0).isSome && [1, 9, 0xA, 0xB, 0xC].all fun n => pwrcWrites n && (pwrcOne n 0 subject0).isSome) &&
     s.chip.cur == 2 &&
     [0, 63].all (fun n =>
       (let f := { sub n with d := .v 3 }
        issues s t (subjectSpec 0x303 f |> fun x => { x with d := .vec 1 }) f && t.active f != 0 && t.replay.isNone && decide (n < subject0.regLimit) &&
          retiresNext (.hsavev f) s) &&
       (let f := { sub n with a := .v 1 }
        issues s t (subjectSpec 0x304 f |> fun x => { x with a := .vec 1 }) f && subject0.replay.isNone &&
          (match srcState t (f.a.regs 1) (bit f.nw 2) with
            | .ok => true
            | _ => false) && !bit f.lr 2 && t.active f &&& subject0.k0 != 0 &&
          retiresNext (.hloadv f) s)) &&
     [320, 383].all (fun n =>
       (let f := { sub n with d := .s 5 }
        issues s t (subjectSpec 0x305 f |> fun x => { x with d := .scalar }) f && retiresNext (.hsaves f) s) &&
       (let f := { sub n with a := .s 2 }
        issues s t (subjectSpec 0x306 f |> fun x => { x with a := FieldSpec.scalar.orZero }) f && retiresNext (.hloads f) s)) &&
     [319, 384].all (fun n =>
       let f := { sub n with d := .s 5 }
       issues s t (subjectSpec 0x305 f |> fun x => { x with d := .scalar }) f &&
         (s.chip.takeTrap 2 (Trap.instr .badOperand 4 0) t.pc none).halt.isNone && !retiresNext (.hsaves f) s) &&
     [385, 399].all (fun n =>
       (let f := { sub n with d := .k 1 }
        issues s t (subjectSpec 0x307 f |> fun x => { x with d := .mask }) f && retiresNext (.hsavek f) s) &&
       (let f := { sub n with a := .k 1 }
        issues s t (subjectSpec 0x308 f |> fun x => { x with a := FieldSpec.mask.orZero }) f && retiresNext (.hloadk f) s)) &&
     [0, 1].all (fun m =>
       let f := { sub 2 with d := .s 5, fs1 := BitVec.ofNat 18 m }
       issues s t (subjectSpec 0x30A f |> fun x => { x with d := .scalar, func := 1 }) f && f.func % 2 == m && retiresNext (.hrob f) s)) = true := by
  decide +kernel

/-- SubjectState: registers outside the subject's own, selectors and values that PRDC and PWRC refuse, and a handler without lanes. -/
theorem test_hyp_SubjectState_bad :
    (let s := served handler0
     let sub (n : Nat) : Frame := { F with b := .imm, et := .n32, imm := BitVec.ofNat 32 n }
     let fails (i : Instr) (sp : OpSpec) (f : Frame) (field : Nat) : Bool :=
       issues s handler0 sp f && (s.traps handler0 (Trap.instr .badOperand field 0)).chip.halt.isNone &&
         ((after i s).bind fun c => c.ctx 0).map (fun x => x.state) == some .faulted
     let pr : Frame := { F with d := .s 5, imm := 0x20 }
     let pw (n : Nat) : Frame := { F with a := .s 3, imm := BitVec.ofNat 32 n }
     fails (.prdc pr) { OpSpec.base 0x300 with d := .scalar } pr 10 &&
     fails (.pwrc (pw 3)) { OpSpec.base 0x301 with a := FieldSpec.scalar.orZero } (pw 3) 10 && !pwrcWrites 3 &&
     (let g := { pw 1 with a := .s 6 }
      fails (.pwrc g) { OpSpec.base 0x301 with a := FieldSpec.scalar.orZero } g 3 && pwrcWrites 1) &&
     [64, 320].all (fun n =>
       (let f := { sub n with d := .v 3 }
        fails (.hsavev f) { subjectSpec 0x303 f with d := .vec 1 } f 4) &&
       (let f := { sub n with a := .v 1 }
        fails (.hloadv f) { subjectSpec 0x304 f with a := .vec 1 } f 4) &&
       (let f := { sub n with d := .s 5 }
        fails (.hrob f) { subjectSpec 0x30A f with d := .scalar, func := 1 } f 4)) &&
     [319, 384].all (fun n => let f := { sub n with a := .s 2 }
       fails (.hloads f) { subjectSpec 0x306 f with a := FieldSpec.scalar.orZero } f 4) &&
     [383, 400].all (fun n => let f := { sub n with d := .k 1 }
       fails (.hsavek f) { subjectSpec 0x307 f with d := .mask } f 4) &&
     [384, 400].all (fun n => let f := { sub n with a := .k 1 }
       fails (.hloadk f) { subjectSpec 0x308 f with a := FieldSpec.mask.orZero } f 4)) = true ∧
    (let t := { handler0 with kregs := [] }
     let s := served t
     let f : Frame := { F with d := .v 3, b := .imm, et := .n32, imm := 1 }
     let g : Frame := { F with a := .v 1, b := .imm, et := .n32, imm := 1 }
     issues s t { subjectSpec 0x303 f with d := .vec 1 } f && issues s t { subjectSpec 0x304 g with a := .vec 1 } g && t.active f == 0 &&
       t.active g == 0 && retiresNext (.hsavev f) s && retiresNext (.hloadv g) s) = true := by decide +kernel

theorem test_hyp_SubjectState_slots :
    (let f := { slotFrame 0 0 with a := .s 1 }
     let t := handler0
     let s := served t
     let u := { subject0 with mapLimit := 0 }
     let low : State := { s with chip := s.chip.setStrand 3 u }
     issues s t { systemSpec 0x309 with a := .scalar, slot := true } f && s.chip.subject t == some (3, subject0) &&
       -- R306: SLOT of the handler is not held to MAPLIMIT
       issues low t { systemSpec 0x309 with a := .scalar, slot := true } f && low.chip.subject t == some (3, u) && t.isHandler &&
       issues low t { mapSpec 0x1E7 0 with a := .scalar } f && retiresNext (.hloadm f) low && retiresNext (.mdrain f) low &&
       (Sparse.get? subject0.slots f.slot).map (fun m => m.loads) == some [] && (s.chip.ownerTrap t 3 (sVal t 0 f.a)).isNone && (sVal t 0 f.a).toNat % 64 == 0 &&
       (match s.chip.checkBytes (s.chip.who t) t.core (s.chip.localGid t) .load false (pieces (sVal t 0 f.a) 4672 64) with
         | (c, .ok rs) => (c.readOwners t rs).1.halt.isNone && bindOk subject0 f.slot (MapSlot.restored (c.readOwners t rs).2).desc
         | _ => false)) = true := by decide +kernel

theorem test_hyp_HandlerService :
    (let s := machine chip0 strand0
     let s : State := { s with chip := { s.chip with strands := [(3, subject0)], nextId := 4 } }
     let s : State := { s with chip := s.chip.setCore 0 { s.chip.core 0 with frozenQ := [3] } }
     s.chip.halt.isNone && (s.chip.core 0).serving.isNone && (s.chip.core 0).frozenQ == [3] && s.chip.strand 3 == some subject0 &&
       (s.chip.ctx 0).map (fun x => (x.state, x.preempt)) == some (.running, none) &&
       ((after (.handlerStart 0) s).bind fun c => c.strand 4).map (fun h => (h.kind, h.sreg 0, h.sreg 1)) == some (.handler 3, 0x0C, 0x40)) = true ∧
    (let s := served handler0
     issues s handler0 (systemSpec 0x302) F && s.chip.subject handler0 == some (3, subject0) &&
       (after (.tret F) s).map (fun c => (c.strands.map fun x => x.1, (c.core 0).serving)) == some ([3], none)) = true := by decide +kernel

/-- HandlerService: a strand of a context under pre-emption stands before the one that is served, whose deterministic context is too but has
not come to its epoch end; and a subject that stood past its GBAR. -/
theorem test_hyp_HandlerService_queue :
    (let s := twoStrands chip0 subject0 { subject0 with ctx := 1 }
     let x : Context := { Context.program with state := .running, preempt := some (0, 0) }
     let c := { s.chip with ctxs := [(0, x), (1, { x with det := true })], nextId := 9 }
     let s : State := { s with chip := c.setCore 0 { c.core 0 with frozenQ := [2, 3] } }
     (s.chip.core 0).serving.isNone && !s.chip.servable subject0 && s.chip.servable { subject0 with ctx := 1 } &&
       (after (.handlerStart 0) s).map (fun c => ((c.core 0).serving, (c.core 0).frozenQ)) == some (some 9, [2])) = true ∧
    (let u := { subject0 with gbar := true, epc := subject0.pc, held := false }
     let s := detMachine chip0 handler0
     let s : State := { s with chip := { s.chip with strands := [(2, handler0), (3, u)], nextId := 4 } }
     let s : State := { s with chip := s.chip.setCore 0 { s.chip.core 0 with serving := some 2 } }
     issues s handler0 (systemSpec 0x302) F && s.chip.subject handler0 == some (3, u) && s.chip.buffers u && !u.ended &&
       (s.chip.backFrom u).status == .waiting .barrier) = true := by decide +kernel

/-- A patch record at 0x1000: one instruction, from 0x2000 to 0, DONE at 0x1040. -/
def patchChip : Chip := chip0.writePhys (.near 0) 0x6000 (leBytes 8 0 ++ leBytes 8 0 ++ leBytes 8 0x2000 ++ leBytes 8 0x1040)

theorem test_hyp_Patches :
    (let t := handler0
     let s := twoStrands patchChip t subject0
     let f : Frame := { F with a := .s 1 }
     let g : Frame := { F with a := .s 1, b := .s 7 }
     issues s t { systemSpec 0x30B with a := .scalar } f && s.chip.subject t == some (3, subject0) &&
     (match s.chip.translate (s.chip.who t) .load 32 (sVal t 0 f.a) 32 with
       | .ok x => !x.down &&
         let r := s.chip.readOwner t { va := x.va, n := 32, xl := some x }
         (match r.1.patchOf t 0x1000 r.2 with
          | .inl p => r.1.halt.isNone &&
              (let d : State := { s with chip := { s.chip with patches := [p], strands := [(3, { subject0 with pc := 0, status := .parked })] } }
               (d.chip.patches.find? fun q => q.id == p.id) == some p && (d.chip.ctx 0).map (fun x => x.det) == some false && d.chip.patchReady p &&
                 (d.chip.patchDone p).halt.isNone && [0, 15, 16].map (fun a => p.covers { subject0 with pc := a }) == [true, true, false] &&
                 ((after (.patchApply p.id) d).map fun c => (c.patches.length, c.strands.map fun x => x.2.status)) == some (0, [.ready]))
          | _ => false)
       | _ => false) &&
     invRange [0] 0 (sVal t 0 g.a) (sVal t 0 g.b) == .inl (0x1000, 0x1080) && issues s t { systemSpec 0x30C with a := .scalar, b := .scalar } g &&
     issues s t { systemSpec 0x30D with a := .scalar, b := .scalar } g &&
     ((coresOf (s.chip.who t).dies).foldl (fun c k => (c.flushRange k t.ctx 0x1000 0x1080 true).dropILines k t.ctx 0x1000 0x1080) (s.chip.drainCtx t.ctx)).halt.isNone) =
    true := by decide +kernel

/-- Patches: a record whose count reaches past its source, a range without a byte, a patch that waits for an older one, and a text and a source
that each lie in one page. -/
theorem test_hyp_Patches_others :
    (let t := handler0
     let f : Frame := { F with a := .s 1 }
     let bad := chip0.writePhys (.near 0) 0x6000 (leBytes 8 0 ++ leBytes 8 8 ++ leBytes 8 0x2000 ++ leBytes 8 0x1040)
     let s := twoStrands bad t subject0
     (match s.chip.patchOf t 0x1000 (leBytes 8 0 ++ leBytes 8 8 ++ leBytes 8 0x2000 ++ leBytes 8 0x1040) with
       | .inr tr => (s.chip.takeTrap 2 tr t.pc none).halt.isNone && s.chip.strand 2 == some t
       | _ => false) && ((after (.patch f) s).bind fun c => c.ctx 0).map (fun x => x.state) == some .faulted &&
     (let g : Frame := { F with a := .s 1, b := .s 11 }
      invRange [0] 0 (sVal t 0 g.a) (sVal t 0 g.b) == .inr (Trap.instr .badOperand 4 0) &&
        (s.traps t (Trap.instr .badOperand 4 0)).chip.halt.isNone &&
        issues s t { systemSpec 0x30C with a := .scalar, b := .scalar } g && issues s t { systemSpec 0x30D with a := .scalar, b := .scalar } g)) = true ∧
    (let p : Patch := { id := 9, ctx := 0, target := 0, source := 0x2000, count := 1, done := 0, core := 0, gid := 1 }
     let q : Patch := { p with id := 10 }
     let s := machine { chip0 with patches := [p, q] } strand0
     s.chip.patchReady p && !s.chip.patchReady q && (after (.patchApply 10) s).map (fun c => c.patches.length) == some 2 &&
     (match s.chip.translate (s.chip.patchWho p) .fetch 1 p.target 16, s.chip.translate (s.chip.patchWho p) .load 1 p.source 16 with
      | .ok y, .ok z => y.mig.isNone && !y.down && z.mig.isNone && !z.down && Place.has y.place y.pa 16
      | _, _ => false)) = true := by decide +kernel

/-! ### Hypotheses: the hub -/

/-- A queue of 16 slots at host 0x10000 with one entry that has not been taken. -/
def queue1 (kind : Nat) (ctx : Option Nat) : Queue :=
  { state := .active, kind := kind, ctx := ctx, base := 0x10000, logn := 4, headA := 0x20000, tailA := 0x20040, tail := 1, taken := 0, head := 0,
    ents := [], dying := none, bound := 0 }

def context1 (st : CtxState) : Context :=
  { Context.program with state := st, saveSize := 0x10000, record := 0x30000, evq := some { base := 0x50000, logn := 4, head := 0x60040, tail := 0x60000, cnt := 0 } }

/-- Host memory: an entry, a context record at 0x30000 and the descriptors of an event queue and a work queue. -/
def hubChip (entry : Nat) : Chip :=
  let c := Chip.reset.writePhys .host 0x10000 (leBytes 256 entry)
  let c := c.writePhys .host 0x30000 (leBytes 128 (0x40000 * 2 ^ 640 + 0x10000 * 2 ^ 832))
  let c := c.writePhys .host 0x40000 (leBytes 64 (0x50000 + 4 * 2 ^ 64 + 2 ^ 72 + 0x60000 * 2 ^ 128 + 0x60040 * 2 ^ 192))
  c.writePhys .host 0x41000 (leBytes 64 (0x70000 + 4 * 2 ^ 64 + 0x80000 * 2 ^ 128 + 0x80040 * 2 ^ 192))

def hub0 : HubCtl := { HubCtl.reset with saveLen := 0x100000 }

/-- A machine whose control queue holds a command, whose context 0 is in a state or absent, and which has other queues. -/
def hubState (cls code n pa : Nat) (x : Option CtxState) (qs : Sparse Queue) : State :=
  let c := hubChip (5 + cls * 2 ^ 16 + code * 2 ^ 24 + n * 2 ^ 32 + pa * 2 ^ 64)
  { chip := { c with queues := (0, queue1 2 none) :: qs, ctxs := (x.map fun st => (0, context1 st)).toList }, hc := hub0, agenda := [] }

/-- The status that the control queue's command was taken with, if it was taken. -/
def taken (i : Instr) (s : State) : Option (Option Nat) := ((after i s).bind fun c => c.queue 0).bind fun q => (q.ents.head?).map fun e => e.status

def commands (cls code n pa : Nat) (s : State) : Bool :=
  match s.chip.takeable 0 with
  | some (q, e) => q.isControl && entryType e == 5 && entryClass e == cls && entryCode e == code && entryClean e && entryOperand e == n && fld e 64 64 == pa &&
      s.chip.halt.isNone
  | none => false

theorem test_hyp_Contexts_commands :
    ([(1, 0x30000, none, Instr.ctxCreate, some (some stOk)), (1, 0x30020, none, .ctxCreate, some (some stBadRecord)),
      (1, 0x40000, none, .ctxCreate, some (some stBadRecord)), (1, 0x30000, some CtxState.loaded, .ctxCreate, some (some stWrongState)),
      (2, 0, some .created, .ctxLoad, some (some stOk)), (2, 0, some .loaded, .ctxLoad, some (some stWrongState)),
      (3, 0x30000, some .loaded, .ctxMode, some (some stOk)), (3, 0x30000, some .created, .ctxMode, some (some stWrongState)),
      (4, 0, some .loaded, .ctxPreempt, some none), (4, 0, some .running, .ctxPreempt, some none), (4, 0, some .created, .ctxPreempt, some (some stWrongState)),
      (5, 0, some .preempted, .ctxResume, some (some stOk)), (5, 0, some .running, .ctxResume, some (some stWrongState)),
      (6, 0, some .running, .ctxDestroy, some (some stOk)), (6, 0, some .destroyed, .ctxDestroy, some (some stWrongState))].all fun x =>
        let s := hubState 0 x.1 0 x.2.1 x.2.2.1 []
        commands 0 x.1 0 x.2.1 s && taken x.2.2.2.1 s == x.2.2.2.2) = true ∧
    ((hubState 0 5 0 0 (some .preempted) []).chip.restore 0 0 (context1 .preempted)).isSome = true ∧
    (let g : SavedGroup := { gid := 9, group := { Group.program with grans := Config.granules + 1 }, binds := [], locks := [] }
     let s := hubState 0 5 0 0 (some .preempted) []
     let s : State := { s with chip := { s.chip with saved := [(0, { groups := [g], strands := [], waiters := [], pools := [], nodes := [] })] } }
     commands 0 5 0 0 s && (s.chip.restore 0 0 (context1 .preempted)).isNone && taken .ctxResume s == none) = true := by decide +kernel

/-- Contexts: CTX_MODE leaves SEQ as it is and starts the launches' own numbers again (R75); a save of a context that faulted. -/
theorem test_hyp_Contexts_modes :
    (let s := hubState 0 3 0 0x30000 (some .loaded) []
     let s : State := { s with chip := s.chip.setCtx 0 { context1 .loaded with seq := 7 } }
     commands 0 3 0 0x30000 s && ((after .ctxMode s).bind fun c => c.ctx 0).map (fun x => (x.seq, x.modeSeq)) == some (7, 7)) = true ∧
    (let s := machine chip0 { strand0 with status := .parked }
     let s : State := { s with chip := { s.chip with ctxs := [(0, { context1 .faulted with det := true, preempt := some (0, 0) })] } }
     s.chip.halt.isNone && (after (.ctxSave 0) s).map (fun c => (c.strands.length, (c.ctx 0).map fun x => (x.preempt, x.state))) ==
       some (1, some (none, .faulted))) = true := by decide +kernel

/-- Contexts: records that CTX_LOAD and CTX_MODE refuse. -/
theorem test_hyp_Contexts_records :
    (let s := hubState 0 2 0 0 (some .created) []
     let s : State := { s with chip := s.chip.setCtx 0 { context1 .created with record := 0x20000 } }
     let m := hubState 0 3 0 0x30020 (some .loaded) []
     commands 0 2 0 0 s && (s.chip.queueDesc (fld (s.chip.ctxRecord 0x20000) 640 64) 1).isNone && taken .ctxLoad s == some (some stBadRecord) &&
       commands 0 3 0 0x30020 m && taken .ctxMode m == some (some stBadRecord)) = true := by decide +kernel

/-- Contexts: a save that waits for a patch of its strand's text; one that fits, and one that does not. -/
theorem test_hyp_Contexts_save :
    (let y := { context1 .running with saveSize := 0x100000, preempt := some (0, 0) }
     let s := machine chip0 { strand0 with status := .parked }
     let s : State := { s with chip := { s.chip with ctxs := [(0, y)] } }
     !s.chip.saveReady 0 y && (after (.ctxSave 0) s).map (fun c => c.strands.length) == some 1) = true ∧
    ([(0x100000, context1 .running), (0x4000, { context1 .running with saveSize := 0x4000 })].all fun x =>
      let y := { x.2 with saveSize := x.1, preempt := some (0, 0) }
      let s := machine chip0 strand0
      let s : State := { s with chip := { s.chip with ctxs := [(0, y)] } }
      s.chip.halt.isNone && s.chip.saveReady 0 y && !y.det && (if x.1 = 0x4000 then decide (y.saveSize < s.chip.saveBytes 0)
        else decide (s.chip.saveBytes 0 ≤ y.saveSize) && (s.chip.ctxSave s.hc 0).halt.isNone) &&
      (after (.ctxSave 0) s).map (fun c => (c.strands.length, (c.ctx 0).map fun z => z.state)) ==
        some (if x.1 = 0x4000 then (1, some .running) else (0, some .preempted))) = true := by decide +kernel

theorem test_hyp_QueueCommands :
    (let w := queue1 0 (some 0)
     let old : EntryState := { n := 0, word := 2, status := none, done := false }
     ([(1, 1, 0x41000, ([] : Sparse Queue), Instr.queueCreate, some (some stOk)), (1, Config.queues - 1, 0x41000, [], .queueCreate, some (some stOk)),
      (1, 1, 0x41020, [], .queueCreate, some (some stBadRecord)), (1, 0, 0x41000, [], .queueCreate, some (some stBadRecord)),
      (1, Config.queues, 0x41000, [], .queueCreate, some (some stBadRecord)), (2, 0, 0, [], .queueStop, some (some stBadRecord)),
      (3, Config.queues, 0, [], .queueStart, some (some stBadRecord)), (4, 0, 0, [], .queueDestroy, some (some stBadRecord)),
      (2, 1, 0, [], .queueStop, some (some stWrongState)), (3, 1, 0, [], .queueStart, some (some stWrongState)),
      (4, 1, 0, [], .queueDestroy, some (some stWrongState)),
      (3, 1, 0, [(1, { w with state := .stopped, ctx := none })], .queueStart, some (some stWrongState)), (1, 1, 0x41000, [(1, w)], .queueCreate, some (some stWrongState)),
      (2, 1, 0, [(1, w)], .queueStop, some (some stOk)), (2, 1, 0, [(1, { w with state := .stopped })], .queueStop, some (some stWrongState)),
      (3, 1, 0, [(1, { w with state := .stopped })], .queueStart, some (some stOk)), (3, 1, 0, [(1, w)], .queueStart, some (some stWrongState)),
      (4, 1, 0, [(1, w)], .queueDestroy, some none), (4, 1, 0, [(1, { w with tail := 0 })], .queueDestroy, some (some stOk)),
      (4, 1, 0, [(1, { w with ents := [old], taken := 1 })], .queueDestroy, some none)].all fun x =>
        let s := hubState 1 x.1 x.2.1 x.2.2.1 (some .loaded) x.2.2.2.1
        commands 1 x.1 x.2.1 x.2.2.1 s && taken x.2.2.2.2.1 s == x.2.2.2.2.2)) = true ∧
    -- a context that is not live; the place of a created queue
    (([none, some CtxState.destroyed, some .created].map fun st => let s := hubState 1 1 1 0x41000 st []
      (commands 1 1 1 0x41000 s, (s.chip.liveCtx 0).isSome, taken .queueCreate s,
        ((after .queueCreate s).bind fun c => c.queue 1).map fun q => q.birth)) ==
      [(true, false, some (some stWrongState), none), (true, false, some (some stWrongState), none),
       (true, true, some (some stOk), some (some (0, 0)))]) = true ∧
    ([0x90000, 0x90040].map fun pa => let s := hubState 2 1 0 pa none []
      (commands 2 1 0 pa s, s.chip.mem.wf && (s.chip.spoilt .host pa 8192).isEmpty, Place.has .host pa 8192, taken .resync s)) =
      [(true, true, true, some (some stOk)), (true, true, true, some (some stBadRecord))] ∧
    ([0, 1, 16, 17].map fun t => let s := hubState 2 1 0 0 (some .loaded) [(1, { queue1 0 (some 0) with tailA := 0x20080 })]
      let s : State := { s with chip := s.chip.writeWord .host 0x20080 (BitVec.ofNat 64 t) }
      ((after (.tailNotice 1) s).bind fun c => c.queue 1).map fun q => (q.tail, q.state == .error)) =
      [some (1, true), some (1, false), some (16, false), some (1, true)] := by decide +kernel

/-- A context with the program's tree whose primary work queue 1 holds an entry. -/
def workState (entry : Nat) (x : Context) : State :=
  { chip := { chip0.writePhys .host 0x10000 (leBytes 256 entry) with queues := [(1, queue1 0 (some 0))], ctxs := [(0, x)] },
    hc := hub0, agenda := [] }

/-- A launch of one group of four lanes of the program at 0 that the launch's header describes. -/
def launchEntry : Nat := 1 + 2 ^ 32 + 4 * 2 ^ 128

theorem test_hyp_QueueEntries :
    (let x := { Context.program with primary := some 1 }
     let det := { x with det := true, state := .running }
     let busy (s : State) : State := { s with chip := { s.chip with strands := [(2, strand0)], groups := [(1, Group.program)] } }
     let status (i : Instr) (s : State) : Option (Option Nat) :=
       ((after i s).bind fun c => c.queue 1).bind fun q => (q.ents.head?).map fun e => e.status
     let served (s : State) : Bool := s.chip.halt.isNone && (s.chip.takeable 1).isSome
     let wait (v cmp : Nat) : Nat := 2 + cmp * 2 ^ 16 + 0x1000 * 2 ^ 64 + v * 2 ^ 128
     let signal : Nat := 3 + 0x1000 * 2 ^ 64 + 5 * 2 ^ 128
     let copy (n : Nat) : Nat := 4 + 0x1000 * 2 ^ 64 + 0x2000 * 2 ^ 128 + n * 2 ^ 192
     [(launchEntry, Instr.launch 1, { det with primary := none }, some (some stNotPrimary)), (launchEntry, .launch 1, x, some (some stBadKernel)),
      (wait 0 0 + 2 ^ 32, .waitEntry 1, x, some (some stBadRecord)), (wait 0 0, .waitEntry 1, x, some (some stOk)), (wait 1 0, .waitEntry 1, x, some none),
      (signal + 2 ^ 32, .signalEntry 1, x, some (some stBadRecord)), (signal, .signalEntry 1, x, some (some stOk)),
      (wait 0 0 + 2 ^ 64, .waitEntry 1, x, some (some stBadRecord)), (wait 0 0 + 2 ^ 124, .waitEntry 1, x, some (some stMemoryFault)),
      (wait 0 0 + 0x8000 * 2 ^ 64, .waitEntry 1, x, some (some stMemoryFault)), (signal + 2 ^ 64, .signalEntry 1, x, some (some stBadRecord)),
      (signal + 2 ^ 124, .signalEntry 1, x, some (some stMemoryFault)), (signal + 0x8000 * 2 ^ 64, .signalEntry 1, x, some (some stMemoryFault)),
      (copy 0, .copyEntry 1, x, some (some stBadRecord)), (copy 16, .copyEntry 1, x, some (some stOk))].all (fun y =>
        served (workState y.1 y.2.2.1) && status y.2.1 (workState y.1 y.2.2.1) == y.2.2.2) &&
     [(wait 0 0, Instr.waitEntry 1), (signal, .signalEntry 1), (copy 16, .copyEntry 1)].all (fun y =>
        let s := busy (workState y.1 det)
        served s && s.chip.epochBound (queue1 0 (some 0)) && status y.2 s == some none)) = true := by decide +kernel

/-- QueueEntries: a KERNEL with a reserved bit or an owner of no table, aligned or not, one of a die outside the partition, and one that is
misaligned alone. -/
theorem test_hyp_QueueEntries_kernel :
    (([2 ^ 60, 2 ^ 60 + 8, 5 * 2 ^ 54, 2 ^ 54 + 8, 8].map fun k : Nat =>
      let e := launchEntry + k * 2 ^ 64
      let s := workState e Context.program
      (s.chip.halt.isNone && recordOk e [0] 128, vaClean (recordKernel e), decide (5 ≤ vaOwn (recordKernel e)),
        ((after (.launch 1) s).bind fun c => c.queue 1).map fun q => q.ents.map fun e => e.status)) ==
    [(true, false, false, some [some stMemoryFault]), (true, false, false, some [some stMemoryFault]),
     (true, true, true, some [some stMemoryFault]),
     (true, true, false, some [some stBadKernel]), (true, true, false, some [some stBadRecord])]) = true := by decide +kernel

/-- QueueEntries: a launch that is accepted, of a kernel whose header word asks for eight registers at revision 4. -/
theorem test_hyp_QueueEntries_launch :
    (let s := workState launchEntry Context.program
     let s : State := { s with chip := s.chip.writePhys (.near 0) 0x5000 (leBytes 8 (4 * 2 ^ 56 + 8 * 2 ^ 36)) }
     let r := s.chip.launchStatus (queue1 0 (some 0)) Context.program launchEntry
     r.2.1 == stOk && r.2.2.toNat == 4 * 2 ^ 56 + 8 * 2 ^ 36 && r.1.halt.isNone &&
       (after (.launch 1) s).map (fun c => (c.launches.map fun l => l.2.seq, (c.ctx 0).map fun x => (x.seq, x.state))) ==
         some ([0], some (1, .running))) = true := by decide +kernel

theorem test_hyp_QueueEntries_completion :
    (let a : EntryState := { n := 0, word := 2 + 0x1000 * 2 ^ 64, status := none, done := false }
     let b : EntryState := { n := 0, word := 3, status := some stOk, done := false }
     let s (e : EntryState) : State :=
       { chip := { chip0 with queues := [(1, { queue1 0 (some 0) with ents := [e], taken := 1 })], ctxs := [(0, Context.program)] }, hc := hub0, agenda := [] }
     let q := (s a).chip.queue 1
     (q.bind fun q => q.ents.find? fun e => entryType e.word == 2 && e.status.isNone) == some a && !(s a).chip.epochBound (queue1 0 (some 0)) &&
       (match (s a).chip.entryXl (queue1 0 (some 0)) .load 8 (entryWord a.word 1) 8 with
         | (_, some z) => z.mig.isNone
         | _ => false) &&
       ((after (.waitRecheck 1) (s a)).bind fun c => c.queue 1).map (fun q => q.ents.map fun e => e.status) == some [some stOk] &&
       ((s b).chip.completeEntry 1 b stOk).halt.isNone && entrySig b.word == 0 && (s b).chip.mem.wf &&
       ((s b).chip.spoilt .host (0x10000 + 248) 2).isEmpty && (((s b).chip.writePhys .host (0x10000 + 248) [0, 1]).spoilt .host 0x20000 8).isEmpty &&
       (0x20000 + 8 ≤ (queue1 0 none).slotAddr 0 || (queue1 0 none).slotAddr 0 + 256 ≤ 0x20000 : Bool) &&
       ((after (.entryComplete 1 0) (s b)).map fun c => (c.readPhys .host (0x10000 + 248) 2, c.readWord .host 0x20000)) == some ([0, 1], 1)) = true := by
  decide +kernel

/-- QueueEntries: the completion of a QUEUE_CREATE whose context has no primary queue, and of one whose context has. -/
theorem test_hyp_QueueEntries_primary :
    (([none, some 7].map fun p : Option Nat =>
      let a : EntryState := { n := 0, word := 5, status := some stOk, done := false }
      let x := { context1 .loaded with primary := p }
      let c : Chip := { (hubState 1 1 3 0 none []).chip with
        queues := [(0, { queue1 2 none with ents := [a], taken := 1 }), (3, { queue1 0 (some 0) with birth := some (0, 0) })], ctxs := [(0, x)] }
      let s : State := { chip := c, hc := hub0, agenda := [] }
      (c.halt.isNone && (c.queue 0).map (fun q => (q.isControl, q.birth, q.dying, q.ents)) == some (true, none, none, [a]) &&
         ((c.queues.find? fun y => y.2.birth == some (0, 0)).map fun y => (y.1, y.2.ctx)) == some (3, some 0) && (c.completeEntry 0 a stOk).halt.isNone,
       (after (.entryComplete 0 0) s).map fun d => ((d.ctx 0).map fun y => y.primary, (d.queue 3).map fun q => q.birth))) ==
    [(true, some (some (some 3), some none)), (true, some (some (some 7), some none))]) = true := by decide +kernel

/-- A launch of one group with one strand of eight registers. -/
def launch1 : Launch :=
  { ctx := 0, seq := 0, queue := 1, entry := 0, pc := 0, header := 4 * 2 ^ 56 + 8 * 2 ^ 36, args := [], levels := [], cores := [0, 1], lanes := 4,
    groups := 1, stream := 0, roleMap := 0, clsMap := 0, next := 0, lastC := none, holding := false }

theorem test_hyp_PlacementAndEpochs_placement :
    (let base (c : Chip) : State := { chip := { c with ctxs := [(0, Context.program)], nextId := 5 }, hc := hub0, agenda := [] }
     let s := base { chip0 with launches := [(4, launch1)] }
     let p := base { chip0 with pools := [(0, [child])] }
     let d := base { chip0 with launches := [(4, { launch1 with next := 1 })] }
     s.chip.places 0 Context.program && p.chip.places 0 Context.program && !Context.program.det && s.chip.halt.isNone && (s.chip.pendingLaunch 0) == some (4, launch1) &&
       s.chip.quotaRoom 0 (hardwareCount launch1.header 0 4) && hardwareCount launch1.header 0 4 == 1 &&
       (s.chip.firstFit 1 (Foot.ofWord launch1.header) [0, 1]).isSome &&
       ((after (.groupPlace 0) s).bind fun c => c.strand 6).map (fun t => (t.pc, t.core, t.quarter)) == some (16, 0, 0) &&
       (p.chip.newFit child).isSome && ((after (.poolPlace 0) p).bind fun c => c.strand 6).map (fun t => t.pc) == some 0 &&
       d.chip.launchOver 4 { launch1 with next := 1 } && (d.chip.endLaunch 4 { launch1 with next := 1 }).halt.isNone &&
       (after (.launchComplete 4) d).map (fun c => c.launches.length) == some 0 &&
       (let e : State := { d with chip := { d.chip with ctxs := [(0, { Context.program with state := .preempted })] } }
        (e.chip.endLaunch 4 { launch1 with next := 1 }).halt.isNone && (after (.launchComplete 4) e).map (fun c => c.launches.length) == some 0)) = true := by decide +kernel

theorem test_hyp_PlacementAndEpochs_epochs :
    (let s (st : Status) : State := detMachine chip0 { strand0 with status := st, ended := true }
     let x := { Context.program with state := .running, det := true }
     (s (.waiting .quantum)).chip.epochReady 0 x && !(s .ready).chip.epochReady 0 x && ((s (.waiting .quantum)).chip.endEpoch 0).halt.isNone &&
       (strandAfter (.epochEnd 0) (s (.waiting .quantum))).map (fun u => (u.epoch, u.ended, u.status)) == some (1, false, .ready)) = true := by decide +kernel

/-- PlacementAndEpochs: two strands of one quarter of a deterministic context. The quarter issues from the lower identifier first, stays with
the one that issued last, and goes on to the next after a switch. -/
theorem test_hyp_PlacementAndEpochs_coroutines :
    (let a := { strand0 with ident := [0] }
     let b := { strand0 with ident := [1] }
     let c (cs : Sparse (List Nat × Bool)) : Chip :=
       let s := twoStrands { chip0 with coros := cs } a b
       { s.chip with ctxs := [(0, { Context.program with state := .running, det := true })] }
     a.quarterKey == b.quarterKey && (c []).buffers a && (c []).runnable a && (c []).runnable b &&
       [[], [(a.quarterKey, [0], false)], [(a.quarterKey, [1], false)], [(a.quarterKey, [0], true)], [(a.quarterKey, [1], true)]].map
         (fun cs => ((c cs).moves a, (c cs).moves b)) ==
           [(true, false), (true, false), (false, true), (false, true), (true, false)]) = true := by decide +kernel

/-! ### Hypotheses: the outside world -/

/-- A context's state with a bud that its evaluator, itself waiting, keeps open; a strand waits for the cell. -/
def stallState (scanned : List W64) (wdog : Nat) : State :=
  let e := { strand0 with kind := .evaluator 0x3000, status := .waiting .bud, token := 1, load := none, gid := 1 }
  let w : Waiter := { die := 0, ctx := 0, cell := 0x3000, sid := 3, prod := 9, reads := [] }
  let s := twoStrands { openChip with waiters := [w, { w with cell := 0x3010, sid := 2 }] } e { strand0 with status := .waiting .bud, token := 2 }
  { s with chip := { s.chip with ctxs := [(0, { context1 .running with wdog := wdog, scanned := scanned, evq := some { base := 0x50000, logn := 4, head := 0x60040, tail := 0x60000, cnt := 0 } })] } }

theorem test_hyp_InterruptsAndWatchdog :
    (let t := { strand0 with hostInt := true }
     let s := machine chip0 t
     s.chip.halt.isNone && s.chip.strand 2 == some t && t.interruptible && !strand0.interruptible && !t.isHandler &&
       (strandAfter (.hostInterrupt 2) s).map (fun u => (u.status, u.hostInt, u.trapCause.toNat)) == some (.frozen, false, 0x1B) &&
       (after (.hostInterrupt 2) state0).map (fun c => c.strand 2) == some (some strand0) &&
       (strandAfter (.hostintWrite (BitVec.ofNat 64 (strand0.core + strand0.quarter * 2 ^ 16 + strand0.slot * 2 ^ 18 + strand0.ctx * 2 ^ 24))) state0).map (fun u => u.hostInt) == some true &&
       (strandAfter (.hostintWrite (BitVec.ofNat 64 ((strand0.core + strand0.quarter * 2 ^ 16 + strand0.slot * 2 ^ 18 + strand0.ctx * 2 ^ 24) + 2 ^ 16))) state0).map (fun u => u.hostInt) == some false &&
       [(([] : List W64), 1), ([0x3000], 1), ([], 0)].map (fun x =>
         let s := stallState x.1 x.2
         (s.chip.serves 0, s.chip.halt.isNone, (s.chip.openings.map fun o => s.chip.stalled o),
          (after (.budWatchdogScan 0) s).map fun c => (c.halt.isNone, c.openings.map (fun o => o.told), (c.ctx 0).map fun y => y.scanned))) ==
         [(true, true, [true], some (true, [false], some [0x3000])), (true, true, [true], some (true, [true], some [0x3000])),
          (true, true, [true], some (true, [false], some []))]) = true := by decide +kernel

/-- InterruptsAndWatchdog: a load that its owner's resources keep from its end, and one with a lane on its way. -/
theorem test_hyp_InterruptsAndWatchdog_load :
    (([true, false].map fun refused =>
      let p : LoadProg := { instr := .vld { F with d := .v 3, a := .s 4, b := .lane, fs1 := 0x480, et := .b32 }, pc := 0, active := 1, pend := 1,
                            prod := none, faults := [], dests := [3], got := [] }
      let t := { strand0 with load := some p, status := .waiting .bud, hostInt := true }
      let q : CellReq := { id := 9, sid := 2, read := { lane := 0, cell := 0x3000, off := 0, dest := .vec 3 0 4 false }, refused := refused }
      let s := machine { chip0 with cellReqs := [q] } t
      (t.interruptible, s.chip.atBoundary 2 t, s.chip.owesResult 2,
        (after (.hostInterrupt 2) s).map fun c => (c.cellReqs.length, (c.strand 2).map fun u => u.status == .frozen))) ==
    [(true, true, false, some (0, some true)), (true, false, false, some (1, some false))]) = true := by decide +kernel

/-- A cap frame: SEQ 5, THRESH 0, a cap of 600 W for partition 0, and its tag under the key 0, from a KMAC256 written apart from the model. -/
def frame1 : List Byte :=
  leBytes 24 (0x50434841 + 2 ^ 32 + 5 * 2 ^ 64 + 600 * 2 ^ 128) ++
    leBytes 32 0xBC7C9DDCE859DB0FBD70FB16EC8CBFD6CCD1D8D7ECA5B316D223B84A7B61ED13

theorem test_hyp_PowerCaps :
    (HubCtl.reset.frameOk frame1 && decide (frame1.length = 56) && [frame1.take 55, frame1.set 0 0, frame1.set 4 2, frame1.set 7 1, frame1.set 55 0].all (fun p => !HubCtl.reset.frameOk p)) = true ∧
    ((HubCtl.reset.limits 0).isEmpty && (partDies HubCtl.reset.partLayout 0).length == 4) = true ∧
    (let h := { HubCtl.reset with frameCap := [(0, 600)], thermal := [(0, 600)] }
     (leastLimit (h.limits 0), h.effectiveCap 0, ({ h with capHost := 100 } : HubCtl).effectiveCap 0)) = ((3, 600), 600, 450) ∧
    -- a thermal limit of 0 W holds, and a cap of 0 is none
    (let h := ({ HubCtl.reset with frameCap := [(0, 0)], thermal := [(1, 9)] } : HubCtl).limitChange 0 (some 0) none 7
     h.limits 0 == [(3, 0)] && h.effectiveCap 0 == 450 && h.capCause 0 == BitVec.ofNat 64 (3 + 450 * 2 ^ 16) && h.limits 1 == [(3, 9)] &&
       (h.limitChange 0 none (some 5) 7).limits 0 == [(4, 5)]) = true := by decide +kernel

def report1 (n : Nat) : ErrorReport := { die := some 0, kind := 0, part := 0, addr := 7, stamp := n }

theorem test_hyp_ErrorReports :
    (lasting [] [] (report1 0) = [] ∧ lasting [report1 0, report1 1] [] (report1 86400) = [(false, report1 86400)] ∧
      lasting [report1 0, report1 1] [] (report1 86401) = [] ∧
      lasting [report1 0, report1 1] [(false, report1 0)] (report1 2) = [] ∧
      lasting ((List.range 15).map fun n => { report1 0 with addr := n + 100 }) [] (report1 3600) = [(true, report1 3600)] ∧
      lasting ((List.range 15).map fun n => { report1 0 with addr := n + 100 }) [] (report1 3601) = []) ∧
    ((report1 0).die = some 0 ∧ (report1 0).kind < 8 ∧ 3 < Config.dies ∧ Config.dies ≤ 4) ∧
    (state0.chip.ctx 0).map (fun x => x.state) = some .running ∧ (state0.chip.uncorrectable 0 (some 0)).halt = none := by decide +kernel

/-- ErrorReports: the third error of the hub at one address, one of a die, and one of a die that is not there. -/
theorem test_hyp_ErrorReports_counts :
    ([none, some 0, some 4].map fun d : Option Nat =>
      let e : ErrorReport := { die := d, kind := 7, part := 0, addr := 7, stamp := 0 }
      let s : State := { state0 with chip := { state0.chip with errHist := [e, e] } }
      match exec (.correctedError e) s with
      | .next s => (s.chip.errCounts, s.chip.faultLog.length, bit s.hc.status 2)
      | _ => ([], 0, false)) = [([(48, 1)], 1, true), ([(7, 1), (9, 1)], 1, true), ([], 0, false)] := by decide +kernel

/-- A context that CTX_PREEMPT waits for, or that it saves, and one that is only created. -/
def preempting (state : CtxState) (det saving : Bool) (preempt : Option (Nat × Nat)) : State :=
  { state0 with chip := { state0.chip with
    ctxs := [(0, { Context.program with state := state, det := det, saving := saving, preempt := preempt })] } }

theorem test_hyp_ErrorReports_faults :
    ([(preempting .running false false none), preempting .running false false (some (0, 0)), preempting .running true true (some (0, 0)),
      preempting .running true false (some (0, 0)), preempting .created true false none].map fun s =>
      (s.chip.halt.isNone, (after (.uncorrectableError 3 (some 0)) s).map fun c => (c.ctx 0).map fun y => (y.state, y.doomed))) =
    [(true, some (some (.faulted, false))), (true, some (some (.running, true))), (true, some (some (.running, true))),
     (true, some (some (.faulted, false))), (true, some (some (.created, false)))] := by decide +kernel

theorem test_hyp_HubRegisters_writes :
    (let s : State := { chip := hubChip 0, hc := hub0, agenda := [] }
     let d (v : Nat) : State := { s with chip := s.chip.writePhys .host 0x42000 (leBytes 64 (0x50000 + v * 2 ^ 64 + 2 * 2 ^ 72 + 0x60000 * 2 ^ 128 + 0x60040 * 2 ^ 192)) }
     s.chip.halt.isNone && s.chip.noContext && !state0.chip.noContext && (s.chip.queue 0).isNone && hub0.keyIdx < 8 &&
       [3, 4, 16, 17].map (fun v => ((d v).chip.queueDesc 0x42000 2).isSome) == [false, true, true, false] &&
       [0, 1, 2, 3].map (fun v : Nat => decide (v < 3)) == [true, true, true, false] &&
       ([[], [{ n := 0, word := 2, status := none, done := false }]] : List (List EntryState)).all fun es =>
         let s := hubState 0 1 0 0 none []
         let q := { queue1 2 none with ents := es, taken := es.length }
         let s : State := { s with chip := { s.chip with queues := [(0, q)] } }
         s.chip.halt.isNone && s.chip.queue 0 == some q && (after (.ctlqRemove 0) s).map (fun c => ((c.queue 0).isSome, (c.queue (Config.queues + s.chip.nextId)).isSome)) == some (false, !es.isEmpty)) = true := by
  decide +kernel

/-- HubRegisters: the export ranges. -/
theorem test_hyp_HubRegisters_exports :
    ([HubReg.exportBase, .exportLen, .peerExportBase 15, .peerExportLen 0].map fun r => match exec (.registerWrite r 5) state0 with
      | .next s => s.chip.exports
      | _ => []) = [[(16, (5, 0))], [(16, (0, 5))], [(15, (5, 0))], [(0, (0, 5))]] := by decide +kernel

/-- A communicator record: two members, this device of rank 0. -/
def commWords : BitVec 1024 := BitVec.ofNat 1024 (2 ^ 8 + 5 * 2 ^ 64 + 2 ^ 96 + 2 ^ 136 + (1 + 3 * 2 ^ 4 + 2 ^ 8) * 2 ^ 160)

theorem test_hyp_HubRegisters_actions :
    ((commRecord commWords.toNat 0).isSome && (commRecord 0 0).isNone && state0.chip.comms.isEmpty && !HubCtl.reset.start &&
      ({ HubCtl.reset with reportAddr := 0x40 } : HubCtl).reportAddr.toNat % 64 == 0 && ({ HubCtl.reset with reportAddr := 1 } : HubCtl).reportAddr.toNat % 64 != 0 &&
      chip0.mem.wf) = true := by decide +kernel

def linkState0 (st : LinkState) (sends : Sparse Nat) : State :=
  let s := machine (linkChip true) strand0
  { s with chip := { s.chip.setLink 3 { s.chip.link 3 with state := st, sends := sends } with peerRoutes := [(1, 0x13)] } }

theorem test_hyp_LinkStates :
    ([(LinkState.off, []), (.training, []), (.failed, []), (.up, []), (.up, [(4, 6)]), (.up, [(4, 7)])].all fun x =>
      let s := linkState0 x.1 x.2
      s.chip.halt.isNone && (s.chip.link 3).state == x.1 && (s.chip.linkFails 3).halt.isNone &&
        (((s.chip.setLink 3 { s.chip.link 3 with state := .off, sends := [] }).linkLost 3).halt.isNone) &&
        ((s.chip.countError 48).linkFails 3).halt.isNone) = true ∧ (3 < Config.links ∧ 15 < Config.links) ∧
    (([[(4, 6)], [(4, 7)], [(5, 7)]].map fun n => [false, true].map fun b => (after (.flitCheckFail ⟨3, 4, b⟩) (linkState0 .up n)).map fun c =>
        ((c.link 3).state, (c.link 3).replays, c.comms.map fun m => m.2.valid)) ==
      [[some (.up, 1, [true]), some (.up, 0, [true])], [some (.failed, 0, [false]), some (.failed, 0, [false])],
       [some (.up, 1, [true]), some (.up, 0, [true])]]) = true := by decide +kernel

def dataFlit (dst : W64) (n : Nat) (last : Option (W64 × W64)) : Flit :=
  { dev := 0, cid := 5, gen := 1, rank := 1, payload := .data 9 dst (List.replicate n 7) last }

theorem test_hyp_FlitReceipt :
    (let s := linkState0 .up []
     let who := s.chip.hubWho 0
     s.chip.halt.isNone && (s.chip.commOf 5 1).isSome && (s.chip.commOf 5 2).isNone &&
     [(0x1000, 16), (0x100F, 1)].all (fun x : Nat × Nat => decide (1 ≤ x.2) && decide (x.2 ≤ 16 - x.1 % 16) &&
       (match s.chip.translate who .engineWrite 1 (BitVec.ofNat 64 x.1) x.2 with
         | .ok y => !y.down && !y.cell && y.mig.isNone && Place.has y.place y.pa x.2
         | _ => false) &&
       (after (.flitReceive (dataFlit (BitVec.ofNat 64 x.1) x.2 (some (0x1040, 1)))) s).map (fun c => (c.outbox, c.readWord (.near 0) 0x6040)) ==
         some ([.ack 5 1 1 9 x.2 .ok], 1)) &&
     s.hc.device == 0 && s.chip.routeTo 1 == some 3 && (s.chip.routeTo 2).isNone &&
     [1, 2].map (fun d => (after (.flitReceive { dataFlit 0x1000 16 none with dev := d }) s).map fun c => c.outbox) ==
       [some [.data 3 { dataFlit 0x1000 16 none with dev := 1 }], some [.refusal 5 1 1]] &&
     (let s : State := { s with chip := { s.chip with comms := s.chip.comms.map fun x => (x.1, { x.2 with failed := [(1, 9, 0x9000)] }) } }
      (after (.flitReceive (dataFlit 0x1000 16 none)) s).map (fun c => (c.outbox, c.mem == s.chip.mem)) ==
        some ([.ack 5 1 1 9 16 (.fault 0x9000)], true)) &&
     (match s.chip.translate who .engineWrite 1 0x9000 16 with
       | .trap _ => true
       | _ => false) &&
     (match s.chip.translate who .atomic 8 0x1040 8, s.chip.translate who .atomic 8 0x9000 8 with
       | .ok y, .trap _ => (s.chip.hubAtomic y fun old => old + 1).halt.isNone
       | _, _ => false)) = true := by decide +kernel

/-- An LRED of the communicator of `linkChip` in progress on a member of some rank, or an LSEND that has sent bytes. -/
def linkOp (lred : Bool) (rank : Nat) (got : List (Nat × List NodeVal)) : Option EngineOp :=
  match (linkState0 .up []).chip.linkRequest strand0 0x140000000000200 true with
  | .inl (q, m) =>
    let o := (linkState0 .up []).chip.newEngine strand0 0x140000000000100
      (if lred then .lred q m.cid m.gen 0 2 rank (List.replicate 4 (.int 1)) got [] none 0 false else .lsend { q with peer := 1, count := 16 } m.cid m.gen 16 false) 16 false
    some { o with started := true }
  | _ => none

def withOps (os : List EngineOp) (rank : Nat) : State :=
  let s := linkState0 .up []
  { s with chip := { s.chip with engines := os, comms := s.chip.comms.map fun x => (x.1, { x.2 with rank := rank }) } }

/-- PlacementAndEpochs: an epoch whose copy waits for an earlier LSEND, and one whose copies have landed. -/
theorem test_hyp_PlacementAndEpochs_closing :
    (match copyOp, linkOp false 0 [] with
     | some (o, _), some b =>
       let s (os : List EngineOp) : State :=
         let s := detMachine { copyChip 0 with engines := os } { strand0 with status := .waiting .quantum, ended := true }
         { s with chip := { s.chip with ctxs := [(0, { Context.program with state := .running, det := true, closing := some 0 })] } }
       [([{ b with id := 1, kind := match b.kind with
            | .lsend q cid gen _ ended => .lsend { q with src := 0x2000 } cid gen 16 ended
            | k => k }, o], some (0, .waiting .quantum)), ([], some (1, .ready))].all fun x =>
         (s x.1).chip.halt.isNone && !(s x.1).chip.runnable strand0 && ((s x.1).chip.closeEpoch 0 0).halt.isNone &&
           (strandAfter (.epochEnd 0) (s x.1)).map (fun u => (u.epoch, u.status)) == x.2
     | _, _ => false) = true := by decide +kernel

theorem test_hyp_CommunicatorLoss :
    (match linkOp true 0 [], linkOp false 0 [] with
     | some a, some b =>
       let s := withOps [a, { b with id := 9 }] 0
       match Sparse.get? s.chip.comms 0 with
       | some m => s.chip.halt.isNone && m.valid && s.chip.commOf m.cid m.gen == some (0, m) && (s.chip.commOf m.cid (m.gen + 1)).isNone &&
           (s.chip.markInvalid 0).halt.isNone && (s.chip.commOps 0 m).any EngineOp.awaits && !((withOps [b] 0).chip.commOps 0 m).any EngineOp.awaits &&
           b.hasSent && !a.hasSent && b.comm == some (0, m.cid, m.gen) && (s.chip.engines.find? fun y => y.id == a.id) == some a &&
           (s.chip.engines.find? fun y => y.id == 9) == some { b with id := 9 } && decide (b.landed < b.bytes) &&
           [Instr.refusalReceive 0, .abortReceive 5 1, .heartbeatTimeout 0, .ackTimeout 9].all fun i =>
             (after i s).map (fun c => c.comms.map fun x => x.2.valid) == some [false] &&
           -- an operation of an earlier installation of the slot
           (let t := withOps [{ b with id := 9, inst := 1 }] 0
            (after (.ackTimeout 9) t).map (fun c => c.comms.map fun x => x.2.valid) == some [true]) &&
           -- an operation that has left the engines with a flit that may not have been acknowledged
           (let t : State := { s with chip := { s.chip with engines := [], sentOps := [(8, 0, 5, 1)] } }
            (t.chip.markInvalid 0).halt.isNone && (after (.ackTimeout 8) t).map (fun c => (c.comms.map fun x => x.2.valid, c.sentOps)) == some ([false], []))
       | none => false
     | _, _ => false) = true := by decide +kernel

/-- HubRegisters: a communicator installed over one of the same CID and GEN, with an LRED in progress. -/
theorem test_hyp_HubRegisters_reinstall :
    (match linkOp true 0 [] with
     | some a =>
       let s := withOps [a] 0
       let s : State := { s with hc := { HubCtl.reset with commWin := commWords } }
       match Sparse.get? s.chip.comms 0 with
       | some old => s.chip.halt.isNone && a.on 0 old && (s.chip.loseOps (s.chip.commOps 0 old)).halt.isNone &&
           (match exec (.commInstall 0) s with
            | .next t => (t.chip.comms.map fun x => (x.2.inst, x.2.cid, x.2.gen), t.chip.commOps 0 old, t.hc.commStat) == ([(1, 5, 1)], [], 1)
            | _ => false)
       | none => false
     | none => false) = true := by decide +kernel

/-- EngineSteps: of a deterministic context, a copy behind an LSEND that has landed what the epoch end has not counted, and behind one of which
it has. -/
theorem test_hyp_EngineSteps_unsettled :
    (match copyOp, linkOp false 0 [] with
     | some (o, _), some b => [8, 0].all fun n =>
         let k := { b with id := 1, landed := n }
         let s := detMachine { copyChip 0 with engines := [k, { o with started := true }] } strand0
         s.chip.isDet o.ctx && k.id != o.id && k.ctx == o.ctx && k.counted == 0 && k.flags == 0 &&
           ((after (.engineCountDown o.id 12) s).map fun c => c.engines.map fun x => x.counted) == some [0, if n = 0 then 12 else 0]
     | _, _ => false) = true := by decide +kernel

/-- EngineSteps: an LSEND that sends its next eight bytes, one whose source has no page, and an LRED with its result. -/
theorem test_hyp_EngineSteps_links :
    (match linkOp false 0 [], linkOp true 0 [] with
     | some b, some a =>
       match b.kind, a.kind with
       | .lsend q cid gen _ _, .lred r rc rg coll size rank own got order _ next ended =>
         let op (q : LinkReq) : EngineOp := { b with kind := .lsend q cid gen 0 false }
         let res := { a with kind := .lred r rc rg coll size rank own got order (some (List.replicate 4 (.int 9))) next ended }
         let bad := { q with src := 0x8FF8 }
         (Sparse.get? (withOps [] 0).chip.comms q.slot).isSome && decide (b.landed < b.bytes) && decide (a.landed < a.bytes) &&
           [q, bad].map (fun q => let c := (withOps [op q] 0).chip
             (c.readRun (c.engineWho (op q)) 0 9 q.src 8).2) == [(List.replicate 8 0, none), ([], some 0x8FF8)] &&
           [q, bad].map (fun q => (after (.engineCountDown b.id 8) (withOps [op q] 0)).map fun c => (c.halt.isNone, c.outbox.length, c.engines.map fun o => o.landed)) ==
             [some (true, 1, [0]), some (true, 0, [16])] &&
           (after (.engineCountDown a.id 8) (withOps [res] 0)).map (fun c => (c.halt.isNone, c.engines.map fun o => o.landed, c.readWord (.near 0) 0x7000)) ==
             some (true, [8], 0x900000009)
       | _, _ => false
     | _, _ => false) = true := by decide +kernel

/-- LinkProgress: rank 0 and rank 1 of two members, with the contribution that is awaited and without; an LSEND's last bytes. -/
theorem test_hyp_LinkProgress :
    (match linkOp true 0 [], linkOp true 1 [], linkOp false 0 [] with
     | some a, some r, some b =>
       let s := withOps [a] 0
       let t := withOps [b] 0
       let u := withOps [r] 1
       let x : Contribution := { cid := 5, gen := 1, coll := 0, rank := 1, vals := List.replicate 4 (.int 2) }
       (s.chip.commOf 5 1).isSome && (s.chip.commOf 5 2).isNone && a.started && (s.chip.engines.find? fun y => y.id == a.id) == some a &&
         (after (.lredContribution x) s).map (fun c => c.outbox) == some [.root 3 5 1 0 0 (List.replicate 4 (.int 3))] &&
         (match a.kind with
          | .lred q .. => q.takes 2 0 == [1] && q.agrees 2 (List.replicate 4 (.int 1)) [(1, x.vals)] && !q.agrees 2 [] [(1, [])] &&
              q.gather 2 0 (List.replicate 4 (.int 1)) [(1, x.vals)] [1] == List.replicate 4 (.int 3)
          | _ => false) &&
         (after (.lredContribution x) (withOps [{ a with started := false }] 0)).map (fun c => c.outbox.length) == some 0 &&
         (after (.lredContribution x) (withOps [] 0)).map (fun c => c.comms.map fun m => m.2.early.length) == some [1] &&
         -- R262: an LRED of an earlier installation takes neither a contribution nor a root
         (let old := withOps [{ a with inst := 1 }] 0
          let v := withOps [{ r with inst := 1 }] 1
          let v : State := { v with chip := { v.chip with comms := v.chip.comms.map fun m =>
            (m.1, { m.2 with roots := [(0, { rank := 0, vals := List.replicate 4 (.int 3) })] }) } }
          (after (.lredContribution x) old).map (fun c => c.comms.map fun m => m.2.early.length) == some [1] && v.chip.lredKept r.id == v.chip) &&
         (after (.lredContribution { x with gen := 2 }) s).map (fun c => c.outbox) == some [.refusal 5 2 1] &&
         (t.chip.engines.find? fun y => y.id == b.id) == some b && decide (b.landed < b.bytes) &&
         [1, 16].all (fun n => (after (.lsendAck b.id n .ok) t).map (fun c => c.halt.isNone && (c.engines.map fun o => o.landed) == [n]) == some true) &&
         (after (.lsendAck b.id 1 (.fault 0x9000)) t).map (fun c => (c.halt.isNone, c.engines.map fun o => o.landed)) == some (true, [16]) &&
         (let root := Instr.lredRoot 5 1 0 { rank := 0, vals := List.replicate 4 (.int 3) }
          let early := withOps [{ r with started := false }] 1
          (after root u).map (fun c => c.halt.isNone) == some true &&
            -- R265: a root before its LRED has started, or has issued, is kept, and taken at the start
            [withOps [] 1, early].all (fun v => (after root v).map (fun c => c.comms.map fun m => m.2.roots.map fun y => y.1) == some [[0]]) &&
            -- a second one of the collective, and one of a collective that is over
            ((after root early).bind fun c => after root { early with chip := c }).map (fun c => c.comms.map fun m => m.2.roots.length) == some [1] &&
            (let v := withOps [] 1
             let v : State := { v with chip := { v.chip with comms := v.chip.comms.map fun m => (m.1, { m.2 with coll := 1 }) } }
             (after root v).map (fun c => c.comms.map fun m => m.2.roots.length) == some [0]) &&
            ((after root early).bind fun c => after (.engineStart r.id) { early with chip := c }).map (fun c =>
              (c.halt.isNone, c.comms.map fun m => m.2.roots.length, c.readWord (.near 0) 0x7000)) == some (true, [0], 0x300000003))
     | _, _, _ => false) = true := by decide +kernel

/-- Device memory from 0 on, 0x9000 bytes of it exported to peers; a bud cell at 0x8000. -/
def exportState : State :=
  let s := machine budChip strand0
  { s with chip := { s.chip with exports := [(16, (0, 0x9000))] } }

theorem test_hyp_OutsideAccesses :
    (let c := exportState.chip
     let p := Place.near 0
     c.halt.isNone && c.mem.wf && cxlPlace p && [(0x6000, 16), (0x8FF8, 8)].all (fun x => c.exportsHere p x.1 x.2 && !c.touchesCell p x.1 x.2 && Place.has p x.1 x.2) &&
       !c.exportsHere p 0x8FF8 9 && c.touchesCell p 0x8008 8 &&
       (after (.peerWindowRequest 1 (.atomic p 0x7000 .add .i32 1 5)) exportState).map (fun d => (leNat (d.readPhys p 0x7000 4), d.outbox)) ==
         some (5, [.peerReply 1 [0, 0, 0, 0] true]) &&
       [(0 : W64), 1].map (fun x => (after (.peerWindowRequest 1 (.swap p 0x7000 4 x 5)) exportState).map fun d => leNat (d.readPhys p 0x7000 4)) ==
         [some 5, some 0] &&
       (after (.cxlMemAccess (.write p 0x7FFF [1, 2])) exportState).map (fun d => d.readPhys p 0x7FFF 2) == some [1, 0] &&
       -- a peer's write and atomic that meet the cell, and two outside the range
       c.exportsHere p 0x7FFF 2 && c.exportsHere p 0x7FFC 8 &&
       (after (.peerWindowRequest 1 (.write p 0x7FFF [1, 2])) exportState).map (fun d => (d.readPhys p 0x7FFF 2, d.outbox)) ==
         some ([1, 0], [.peerReply 1 [] true]) &&
       (after (.peerWindowRequest 1 (.swap p 0x7FFC 8 0x100000000000 0x700000005)) exportState).map (fun d => leNat (d.readPhys p 0x7FFC 8)) == some 0x100000000005 &&
       !c.exportsHere p 0x8FFC 8 &&
       [PeerRequest.atomic p 0x8FFC .add .i64 1 5, .swap p 0x8FFC 8 0 5].all fun r =>
         (after (.peerWindowRequest 1 r) exportState).map (fun d => d.outbox) == some [.peerReply 1 [] false]) = true := by decide +kernel

theorem test_hyp_MemoryTraffic :
    (let l : L1Line := { ctx := 0, va := 0x1000, data := 0xAABB, dirty := 2, r := true, w := true, x := false, place := .near 0, pa := 0x6000, mig := none }
     let s := { state0 with chip := state0.chip.setCore 0 { state0.chip.core 0 with l1 := [l] } }
     s.chip.halt.isNone && s.chip.mem.wf && s.chip.posted.isEmpty && Place.has l.place l.pa 64 &&
       (s.chip.core 0).l1.filter (fun y => y.meets 0 (lineOf 0x103F) (lineOf 0x103F + 64)) == [l] &&
       (after (.dirtyLineWriteBack 0 0 0x1000 true) s).map (fun c => (c.readPhys (.near 0) 0x6000 2, (c.core 0).l1.length)) == some ([0, 0xAA], 0)) = true ∧
    (let p : Posted := { id := 7, sid := 2, core := 0, ctx := 0, va := 0x1000, place := .near 0, pa := 0x6000, work := .inl [1, 2], mig := none, dest := none }
     let s (ps : List Posted) : State := { state0 with chip := { state0.chip with posted := ps } }
     let older := { p with id := 6, pa := 0x6001 }
     [([p], [1, 2]), ([older, p], [0, 0]), ([{ older with pa := 0x6002 }, p], [1, 2])].all fun x =>
       (s x.1).chip.posted.filter (fun q => q.id == p.id) == [p] && (({ (s x.1).chip with posted := x.1.filter fun q => !(q.id == p.id) } : Chip).perform p).halt.isNone &&
         (after (.ownerAccess 7) (s x.1)).map (fun c => c.readPhys (.near 0) 0x6000 2) == some x.2) = true ∧
    (let c := chip0.writePhys (.near 0) 0x4020 (leBytes 8 (leaf 0x9000 4))
     let c := c.writePhys (.near 0) 0x9000 (leBytes 8 (1 + 2 * 2 ^ 4) ++ leBytes 8 0 ++ leBytes 8 0x3000 ++ leBytes 8 0x7000)
     let s := machine (c.writePhys (.near 0) 0x7000 [9]) strand0
     (s.chip.migrating 0 0x1000).isNone &&
     match s.chip.migrating 0 0x4000 with
     | some m => m.size == 4096 && s.chip.absentLine m 0 64 == some 0 && s.chip.migHeader m.die m.rcd m.size false == some (.near 0, 0x7000, .far 0, 0x3000) &&
         (s.chip.pullLine m 0).halt.isNone && Place.index (.far 0) != m.die &&
         (after (.migrationPull 0 0x4000) s).map (fun c => (c.readPhys (.far 0) 0x3000 1, c.readPhys (.near 0) 0x9040 1)) == some ([9], [1]) &&
         -- R219: writes of the source, the new frame and the map, and one beside them
         s.chip.spoilt (.near 0) 0x7044 1 == [(.near 0, 0x7040), (.far 0, 0x3040)] &&
         s.chip.spoilt (.far 0) 0x2FFF 2 == [(.near 0, 0x7000), (.far 0, 0x3000)] &&
         (s.chip.spoilt (.near 0) 0x9047 2).length == 16 && (s.chip.spoilt (.near 0) 0x8000 64).isEmpty && (s.chip.spoilt .host 0x7000 64).isEmpty
     | none => false) = true := by decide +kernel

/-- The invariants' statements: a step from reset, and from a state with a strand's turn, goes on. -/
theorem test_hyp_CanonicalKept_HubReservedKept :
    ([State.reset, { state0 with agenda := [.strand 2] }].all fun s => match step s with
      | .next _ => true
      | _ => false) = true ∧ State.reset.chip.mem.wf = true ∧ State.reset.chip.tags = [] ∧ State.reset.chip.peerRoutes = [] ∧ chip0.mem.wf = true := by decide +kernel

theorem test_hyp_StrandsKeepHub :
    (let f : Frame := { F with c := .v 0 }
     (Instr.nop f).toOpcode.isSome && (after (.nop f) state0).isSome) = true := by decide +kernel

/-- HubRegisters: a report at an address that is no multiple of 64. -/
theorem test_hyp_HubRegisters_unaligned :
    (let s : State := { state0 with hc := { HubCtl.reset with start := true, reportAddr := 0x48 } }
     match exec .attestReport s with
     | .next s' => !s'.hc.start && s'.chip == s.chip
     | _ => false) = true := by decide +kernel

end Sys2Proof.Tests
end

section
/-! PROOFS. The control registers (01_numbers R22, R23; R332, R411): what a write of a scalar destination in every half does, how an
instruction that stops leaves its record, and the statement O14. -/

namespace Sys2Proof.Machine

/-! ### A scalar result in every half -/

/-- A strand holds its results: `g h` in the scalar destination of each of the halves `hs`. -/
def Strand.putHalves (t : Strand) (d : Operand) (g : Nat → W64) (hs : List Nat) : Strand := hs.foldl (fun u h => putS u h d (g h)) t

theorem putS_frame (t : Strand) (h : Nat) (o : Operand) (v : W64) : ∃ r, putS t h o v = { t with sregs := r } := by
  unfold putS
  split
  · exact ⟨_, rfl⟩
  · exact ⟨t.sregs, rfl⟩

/-- Scalar results change the scalar registers alone. -/
theorem Strand.putHalves_frame (t : Strand) (d : Operand) (g : Nat → W64) (hs : List Nat) :
    ∃ r, t.putHalves d g hs = { t with sregs := r } := by
  refine foldl_keeps (P := fun u : Strand => ∃ r, u = { t with sregs := r }) ?_ hs ⟨t.sregs, rfl⟩
  rintro _ h ⟨q, rfl⟩
  exact putS_frame { t with sregs := q } h d (g h)

theorem halfScalar_inj {h h' n : Nat} (e : halfScalar h n = halfScalar h' n) : h = h' := by
  unfold halfScalar at e
  omega

/-- A register that is the destination in none of the halves stays. -/
theorem Strand.sreg_putHalves_ne (t : Strand) (d : Operand) (g : Nat → W64) (hs : List Nat) {k : Nat}
    (hk : ∀ n h, d = .s n → h ∈ hs → k ≠ halfScalar h n.val) : (t.putHalves d g hs).sreg k = t.sreg k := by
  induction hs generalizing t with
  | nil => rfl
  | cons h hs ih =>
    have hs' : ∀ n i, d = .s n → i ∈ hs → k ≠ halfScalar i n.val := fun n i e m => hk n i e (List.mem_cons_of_mem h m)
    have one : (putS t h d (g h)).sreg k = t.sreg k := by
      unfold putS
      split
      · rw [Strand.sreg_setSreg, if_neg (hk _ h rfl (List.mem_cons_self ..))]
      · rfl
    exact (ih (putS t h d (g h)) hs').trans one

/-- Each half's register holds that half's value. -/
theorem Strand.sreg_putHalves (t : Strand) (n : Fin 64) (g : Nat → W64) {hs : List Nat} (hd : hs.Nodup) {h : Nat} (hh : h ∈ hs) :
    (t.putHalves (.s n) g hs).sreg (halfScalar h n.val) = g h := by
  induction hs generalizing t with
  | nil => cases hh
  | cons i hs ih =>
    obtain ⟨hi, hd⟩ := List.nodup_cons.1 hd
    change ((putS t i (.s n) (g i)).putHalves (.s n) g hs).sreg _ = _
    rcases List.mem_cons.1 hh with rfl | hm
    · rw [Strand.sreg_putHalves_ne]
      · simp [putS]
      · intro m j e hj ek
        cases e
        exact hi (halfScalar_inj ek ▸ hj)
    · exact ih _ hd hm

theorem Strand.halves_nodup (t : Strand) : t.halves.Nodup := by
  unfold Strand.halves
  split <;> decide

/-- A scalar result in every half of a strand writes the destination and nothing else. -/
theorem Strand.putHalves_writesScalar (t : Strand) (f : Frame) (g : Nat → W64) :
    (t.putHalves f.d g t.halves).flags = t.flags ∧ WritesScalar t (t.putHalves f.d g t.halves) f g := by
  have hwrite : ∀ n h, f.d = .s n → h ∈ t.halves → (t.putHalves f.d g t.halves).sreg (halfScalar h n.val) = g h :=
    fun n h e hh => by rw [e]; exact t.sreg_putHalves n g t.halves_nodup hh
  have hkeep : ∀ k, (∀ n h, f.d = .s n → h ∈ t.halves → k ≠ halfScalar h n.val) → (t.putHalves f.d g t.halves).sreg k = t.sreg k :=
    fun k hk => t.sreg_putHalves_ne f.d g t.halves hk
  unfold WritesScalar
  refine ⟨?_, hwrite, hkeep, ?_⟩ <;> obtain ⟨r, er⟩ := t.putHalves_frame f.d g t.halves <;> rw [er]
  exact ⟨fun _ => ⟨rfl, rfl⟩, rfl, rfl, rfl, rfl, rfl, rfl, rfl, rfl⟩

/-! ### An instruction that stops -/

/-- An instruction that issues and stops without effect, in a strand that freezes, takes its trap at the program counter. -/
theorem State.strandInstr_traps {s : State} {t : Strand} {sp : OpSpec} {f : Frame} {tr : Trap} {i : Instr} {body : Chip → Strand → Chip × Out}
    (h : s.Issues t sp f) (hz : s.Freezes t) (hp : tr.cause ≠ .pageFault) (hb : body s.chip t = (s.chip, .stop tr)) :
    s.strandInstr i sp f body = .next (s.traps t tr) := by
  obtain ⟨hwhole, hstrand⟩ := h.1
  obtain ⟨hhandler, howes⟩ := hz
  rw [State.strandInstr_issues h, hb]
  simp only [Chip.finish, hstrand]
  refine State.onChip_whole s ?_
  rw [Chip.takeTrap_strand hstrand hhandler howes hp, Chip.setCore_halt, Chip.setStrand_halt]
  exact hwhole

/-- The same for an instruction that touches nothing but its strand. -/
theorem State.strandOnly_traps {s : State} {t : Strand} {sp : OpSpec} {f : Frame} {tr : Trap} {i : Instr} {body : Strand → Out}
    (h : s.Issues t sp f) (hz : s.Freezes t) (hp : tr.cause ≠ .pageFault) (hb : body t = .stop tr) :
    s.strandOnly i sp f body = .next (s.traps t tr) :=
  State.strandInstr_traps h hz hp (by rw [hb])

/-! ### SRDC and CAPRD -/

/-- The checks of SRDC and of SWRC, as the dispatch of `exec` runs them. -/
def srdcSpec : OpSpec := { OpSpec.base 0x075 with d := .scalar }
def swrcSpec : OpSpec := { OpSpec.base 0x076 with a := FieldSpec.scalar.orZero }

theorem exec_srdc (f : Frame) (s : State) :
    exec (.srdc f) s = s.strandInstr (.srdc f) srdcSpec f fun c t => srdcOut (s.capOf t) f c t := rfl
theorem exec_swrc (f : Frame) (s : State) : exec (.swrc f) s = s.strandOnly (.swrc f) swrcSpec f (swrcOut f) := rfl

@[simp] theorem markRegs_srdcSpec (f : Frame) : markRegs srdcSpec f = [] := markRegs_none rfl rfl rfl
@[simp] theorem markRegs_swrcSpec (f : Frame) : markRegs swrcSpec f = [] := markRegs_none rfl rfl rfl

theorem srdcOut_assigned (cap : W64) {f : Frame} (c : Chip) (t : Strand) (h : selAssigned f.imm.toNat = true) :
    srdcOut cap f c t = ({ c with freeCtr := c.freeCtr + b2n (f.imm == 7) },
      .done (t.putHalves f.d (fun h => c.controlReg t cap (Config.freeWord c.freeCtr) h f.imm.toNat) t.halves) t.nextPc false) := by
  have hc : (f.imm.toNat = 7) = (f.imm = 7) := propext (by rw [← BitVec.toNat_inj]; rfl)
  simp only [srdcOut, h, Bool.not_true, Bool.false_eq_true, if_false, hc, Strand.putHalves]
  by_cases h7 : f.imm = 7
  · rw [if_pos h7, h7]; rfl
  · rw [if_neg h7, beq_eq_false_iff_ne.2 h7]; rfl

theorem srdcOut_unassigned (cap : W64) {f : Frame} (c : Chip) (t : Strand) (h : selAssigned f.imm.toNat = false) :
    srdcOut cap f c t = (c, .stop (Trap.instr .badOperand 10 0)) := by
  simp [srdcOut, h]

theorem exec_srdc_assigned {s : State} {t : Strand} {f : Frame} (hi : s.Issues t srdcSpec f)
    (h : selAssigned f.imm.toNat = true) :
    exec (.srdc f) s = .next (s.withChip ({ s.chip with freeCtr := s.chip.freeCtr + b2n (f.imm == 7) }.retires
      (t.putHalves f.d (fun h => s.chip.controlReg t (s.capOf t) (Config.freeWord s.chip.freeCtr) h f.imm.toNat) t.halves) [] false
      t.nextPc)) := by
  rw [exec_srdc, State.strandInstr_retires (body := fun c t => srdcOut (s.capOf t) f c t) hi (srdcOut_assigned (s.capOf t) s.chip t h)
    hi.1.1, markRegs_srdcSpec]
  rfl

theorem exec_srdc_unassigned {s : State} {t : Strand} {f : Frame} (hi : s.Issues t srdcSpec f) (hz : s.Freezes t)
    (h : selAssigned f.imm.toNat = false) : exec (.srdc f) s = .next (s.traps t (Trap.instr .badOperand 10 0)) := by
  rw [exec_srdc]
  exact State.strandInstr_traps hi hz (by simp [Trap.instr]) (srdcOut_unassigned (s.capOf t) s.chip t h)

theorem exec_caprd {s : State} {t : Strand} {f : Frame}
    (hi : s.Issues t { OpSpec.base 0x2E5 with d := .scalar, a := FieldSpec.number, typed := true, other := f.et == .n32,
                                              imm0 := f.a != .imm } f) :
    exec (.caprd f) s = .next (s.goesOn
      (t.putHalves f.d (fun h => factValue s.chip.facts s.chip.firmware t.compat (word32 t h f.a f.imm)) t.halves)) := by
  change execCaprd f s = _
  unfold execCaprd
  rw [State.strandInstr_retires (body := caprdOut f) hi rfl hi.1.1, markRegs_none rfl rfl rfl]
  rfl

/-! ### SWRC -/

theorem swrcOut_unassigned {f : Frame} (t : Strand) (h : selAssigned f.imm.toNat = false) :
    swrcOut f t = .stop (Trap.instr .badOperand 10 0) := by
  simp [swrcOut, h]

theorem swrcOut_privileged {f : Frame} (t : Strand) (h : selAssigned f.imm.toNat = true) (h2 : 2 ≤ f.imm.toNat) :
    swrcOut f t = .stop (Trap.instr .privilege 10 0) := by
  simp [swrcOut, h, show 1 < f.imm.toNat by omega]

/-- What the copies of SWRC come to, low first: a strand, or none once one of them holds a value that the register may not. -/
def swrcHalves (f : Frame) (t : Strand) : Option Strand := t.halves.foldl (fun u h => u.bind (swrcOne f.imm.toNat (sVal t h f.a))) (some t)

theorem swrcOut_writable {f : Frame} (t : Strand) (h : f.imm.toNat ≤ 1) :
    (∀ u, swrcHalves f t = some u → swrcOut f t = .done u t.nextPc false) ∧
      (swrcHalves f t = none → swrcOut f t = .stop (Trap.instr .badOperand 3 0)) := by
  have hs : selAssigned f.imm.toNat = true := by simp [selAssigned]; omega
  unfold swrcHalves swrcOut
  simp only [hs, show ¬ f.imm.toNat > 1 by omega, Bool.not_true, Bool.false_eq_true, if_false]
  constructor
  · intro u hu
    rw [hu]
  · intro hn
    rw [hn]

/-- MODE takes the last half's value where every half's is one that it may hold; so does FLAGS. -/
theorem swrcHalves_mode {f : Frame} {t : Strand} (hf : f.imm = 0) (h : ∀ h ∈ t.halves, modeOk (sVal t h f.a) = true) :
    swrcHalves f t = some { t with mode := sVal t (if t.paired then 1 else 0) f.a } := by
  unfold swrcHalves
  by_cases hp : t.paired = true <;> simp_all [Strand.halves, swrcOne]

theorem swrcHalves_flags {f : Frame} {t : Strand} (hf : f.imm = 1) (h : ∀ h ∈ t.halves, flagsOk (sVal t h f.a) = true) :
    swrcHalves f t = some { t with flags := sVal t (if t.paired then 1 else 0) f.a } := by
  unfold swrcHalves
  by_cases hp : t.paired = true <;> simp_all [Strand.halves, swrcOne]

/-- A copy that the register may not hold stops the other. -/
theorem swrcHalves_none {f : Frame} {t : Strand} (h : ∃ h ∈ t.halves, ∀ u, swrcOne f.imm.toNat (sVal t h f.a) u = none) :
    swrcHalves f t = none := by
  obtain ⟨k, hk, hn⟩ := h
  unfold swrcHalves
  unfold Strand.halves at *
  split at hk <;> simp only [List.mem_cons, List.not_mem_nil, or_false] at hk
  · rcases hk with rfl | rfl <;> simp [*]
  · simp_all

theorem swrcOne_mode_none {sel : Nat} {v : W64} (hs : sel = 0) (h : modeOk v = false) (u : Strand) : swrcOne sel v u = none := by
  simp [swrcOne, hs, h]
theorem swrcOne_flags_none {sel : Nat} {v : W64} (hs : sel = 1) (h : flagsOk v = false) (u : Strand) : swrcOne sel v u = none := by
  simp [swrcOne, hs, h]

theorem exec_swrc_traps {s : State} {t : Strand} {tr : Trap} {f : Frame} (hi : s.Issues t swrcSpec f) (hz : s.Freezes t)
    (hp : tr.cause ≠ .pageFault) (hb : swrcOut f t = .stop tr) : exec (.swrc f) s = .next (s.traps t tr) := by
  rw [exec_swrc]
  exact State.strandOnly_traps hi hz hp hb

/-- SWRC to MODE or FLAGS with values that the register may hold. -/
theorem exec_swrc_writes {s : State} {t u : Strand} {f : Frame} (hi : s.Issues t swrcSpec f) (h : f.imm.toNat ≤ 1)
    (hu : swrcHalves f t = some u) (hpc : u.nextPc = t.nextPc) : exec (.swrc f) s = .next (s.goesOn u) := by
  rw [exec_swrc, State.strandOnly_retires hi ((swrcOut_writable t h).1 u hu), markRegs_swrcSpec, ← hpc]
  rfl

/-- SWRC to MODE or FLAGS with a value that the register may not hold (R22, R23). -/
theorem exec_swrc_refuses {s : State} {t : Strand} {f : Frame} (hi : s.Issues t swrcSpec f) (hz : s.Freezes t) (h : f.imm.toNat ≤ 1)
    (hn : ∃ h ∈ t.halves, ∀ u, swrcOne f.imm.toNat (sVal t h f.a) u = none) :
    exec (.swrc f) s = .next (s.traps t (Trap.instr .badOperand 3 0)) :=
  exec_swrc_traps hi hz (by simp [Trap.instr]) ((swrcOut_writable t h).2 (swrcHalves_none hn))

/-- Settles O14: each instruction's result is one of the lemmas above, by the selector and the values of the halves. -/
theorem controlRegisters : Obligations.ControlRegisters := by
  unfold Obligations.ControlRegisters
  refine ⟨fun s t f => ⟨fun hi ha => ?_, fun hi hu hz => ?_, fun hi => ?_⟩, fun s t f hi => ?_⟩
  · obtain ⟨hflags, hwrites⟩ :=
      t.putHalves_writesScalar f fun h => s.chip.controlReg t (s.capOf t) (Config.freeWord s.chip.freeCtr) h f.imm.toNat
    exact ⟨_, exec_srdc_assigned hi ha, hflags, hwrites⟩
  · exact exec_srdc_unassigned hi hz hu
  · obtain ⟨hflags, hwrites⟩ :=
      t.putHalves_writesScalar f fun h => factValue s.chip.facts s.chip.firmware t.compat (word32 t h f.a f.imm)
    exact ⟨_, exec_caprd hi, hflags, hwrites⟩
  · have hmode : f.imm = 0 → f.imm.toNat = 0 := fun h => by rw [h]; rfl
    have hflags : f.imm = 1 → f.imm.toNat = 1 := fun h => by rw [h]; rfl
    refine ⟨fun h0 hok => ?_, fun h1 hok => ?_, fun h0 ⟨k, hk, hv⟩ hz => ?_, fun h1 ⟨k, hk, hv⟩ hz => ?_, fun h2 ha hz => ?_,
      fun hu hz => ?_⟩
    · exact exec_swrc_writes hi (Nat.le_succ_of_le (Nat.le_of_eq (hmode h0))) (swrcHalves_mode h0 hok) rfl
    · exact exec_swrc_writes hi (Nat.le_of_eq (hflags h1)) (swrcHalves_flags h1 hok) rfl
    · exact exec_swrc_refuses hi hz (Nat.le_succ_of_le (Nat.le_of_eq (hmode h0))) ⟨k, hk, swrcOne_mode_none (hmode h0) hv⟩
    · exact exec_swrc_refuses hi hz (Nat.le_of_eq (hflags h1)) ⟨k, hk, swrcOne_flags_none (hflags h1) hv⟩
    · exact exec_swrc_traps hi hz (by simp [Trap.instr]) (swrcOut_privileged t ha h2)
    · exact exec_swrc_traps hi hz (by simp [Trap.instr]) (swrcOut_unassigned t hu)

end Sys2Proof.Machine
end

section
/-! PROOFS. The lane record of a format V instruction (R25, R36, R123, R248): lanes of a register and of a mask read back, what the lanes
that complete write and leave, which cause a lane record has, and the statement O18. -/

namespace Sys2Proof.Machine

/-! ### Words: a field read back -/

theorem getLsbD_putBits {n w : Nat} (x : BitVec n) (lo : Nat) (v : BitVec w) (i : Nat) :
    (putBits x lo v).getLsbD i = (decide (i < n) && if lo ≤ i ∧ i < lo + w then v.getLsbD (i - lo) else x.getLsbD i) := by
  by_cases hi : i < n
  · by_cases hlo : lo ≤ i <;> by_cases hw : i < lo + w
    · simp [putBits, hi, hlo, hw, show ¬ i < lo by omega, show i - lo < w by omega]
    · simp [putBits, hi, hlo, hw, show ¬ i < lo by omega, show ¬ i - lo < w by omega, BitVec.getLsbD_of_ge v (i - lo) (by omega)]
    · simp [putBits, hi, hlo, show i < lo by omega]
    · omega
  · simp [hi, BitVec.getLsbD_of_ge _ i (Nat.le_of_not_lt hi)]

theorem getLsbD_bits {n : Nat} (x : BitVec n) (lo w i : Nat) : (bits x lo w).getLsbD i = (decide (i < w) && x.getLsbD (lo + i)) :=
  BitVec.getLsbD_extractLsb' ..

theorem bits_putBits_same {n w : Nat} (x : BitVec n) (lo : Nat) (v : BitVec w) (h : lo + w ≤ n) : bits (putBits x lo v) lo w = v := by
  apply BitVec.eq_of_getLsbD_eq
  intro i hi
  rw [getLsbD_bits, getLsbD_putBits, if_pos ⟨Nat.le_add_right lo i, by omega⟩, Nat.add_sub_cancel_left]
  simp [hi, show lo + i < n by omega]

theorem bits_putBits_disjoint {n w : Nat} (x : BitVec n) (lo lo' : Nat) (v : BitVec w) {u : Nat} (h : lo' + u ≤ lo ∨ lo + w ≤ lo') :
    bits (putBits x lo v) lo' u = bits x lo' u := by
  apply BitVec.eq_of_getLsbD_eq
  intro i hi
  have hout : ¬ (lo ≤ lo' + i ∧ lo' + i < lo + w) := by omega
  rw [getLsbD_bits, getLsbD_bits, getLsbD_putBits, if_neg hout]
  by_cases hn : lo' + i < n
  · simp [hn]
  · rw [BitVec.getLsbD_of_ge x (lo' + i) (Nat.le_of_not_lt hn), Bool.and_false]

/-! ### Lanes of a mask and of a register -/

@[simp] theorem mem_lanesIn (m : W128) (l : Nat) : l ∈ lanesIn m ↔ l < 128 ∧ bit m l = true := by simp [lanesIn]

/-- A list of lanes as a mask names just those lanes. -/
theorem bit_maskOf (ls : List Nat) {l : Nat} (hl : l < 128) : bit (maskOf ls) l = true ↔ l ∈ ls := by
  have gen : ∀ m : W128, bit (ls.foldl (fun m l => m ||| ((1 <<< l : Nat) : W128)) m) l = true ↔ bit m l = true ∨ l ∈ ls := by
    induction ls with
    | nil => simp
    | cons k ls ih =>
      intro m
      have one : bit (m ||| ((1 <<< k : Nat) : W128)) l = true ↔ bit m l = true ∨ l = k := by
        unfold bit
        rw [BitVec.getLsbD_or, BitVec.natCast_eq_ofNat, BitVec.getLsbD_ofNat, Nat.shiftLeft_eq, Nat.one_mul, Nat.testBit_two_pow]
        simp only [hl, decide_true, Bool.true_and, Bool.or_eq_true, decide_eq_true_eq, eq_comm (a := k)]
      rw [List.foldl_cons, ih, one, List.mem_cons, or_assoc]
  simpa [maskOf, bit] using gen 0

/-- Words put into lanes of a register's contents, in their order. -/
def putLanes (x : LaneWord) (ls : List (Nat × W32)) : LaneWord := ls.foldl (fun x y => putLane x y.1 y.2) x

theorem bits_putLanes_ne (ls : List (Nat × W32)) (x : LaneWord) {l : Nat} (hn : l ∉ ls.map Prod.fst) :
    bits (putLanes x ls) (32 * l) 32 = bits x (32 * l) 32 := by
  induction ls generalizing x with
  | nil => rfl
  | cons y ls ih =>
    rw [List.map_cons, List.mem_cons, not_or] at hn
    obtain ⟨hne, hn⟩ := hn
    exact (ih _ hn).trans (bits_putBits_disjoint _ _ _ _ (by omega))

/-- A lane that is named once holds its word. -/
theorem bits_putLanes (ls : List (Nat × W32)) (hd : (ls.map Prod.fst).Nodup) (x : LaneWord) {l : Nat} {v : W32} (hl : l < 128)
    (hv : (l, v) ∈ ls) : bits (putLanes x ls) (32 * l) 32 = v := by
  induction ls generalizing x with
  | nil => cases hv
  | cons y ls ih =>
    rw [List.map_cons, List.nodup_cons] at hd
    obtain ⟨hn, hd⟩ := hd
    rcases List.mem_cons.1 hv with rfl | hm
    · exact (bits_putLanes_ne ls _ hn).trans (bits_putBits_same _ _ _ (by omega))
    · exact ih hd _ hm

/-! ### What the lanes that complete write -/

/-- Results change vector registers and their blocks' dirty bits alone. -/
theorem Strand.writeResults_frame (t : Strand) (d : Nat) (tags : List (ElemType × BitVec 128)) (good : List (Nat × LaneEnd)) :
    ∃ r b, t.writeResults d tags good = { t with vregs := r, dirty := b } := by
  refine foldl_keeps (P := fun u : Strand => ∃ r b, u = { t with vregs := r, dirty := b }) ?_ _ ⟨t.vregs, t.dirty, rfl⟩
  rintro _ x ⟨r, b, rfl⟩
  exact ⟨_, _, rfl⟩

/-- A completed lane counts its exceptions and draws; it changes FLAGS and the stream counters alone. -/
theorem Strand.completeLanes_frame (t : Strand) (d draws : Nat) (good : List (Nat × LaneEnd)) :
    ∃ w a b, t.completeLanes d draws good = { t with flags := w, ctr0 := a, ctr1 := b } := by
  refine foldl_keeps (P := fun u : Strand => ∃ w a b, u = { t with flags := w, ctr0 := a, ctr1 := b }) ?_ good ⟨_, t.ctr0, t.ctr1, rfl⟩
  rintro _ x ⟨w, a, b, rfl⟩
  unfold Strand.advance
  dsimp only
  split
  · exact ⟨w, a, b, rfl⟩
  · split
    · exact ⟨w, _, b, rfl⟩
    · exact ⟨w, a, _, rfl⟩

/-- A lane of a register that `writeLanes` writes. -/
theorem Strand.lane_writeLanes_same (t : Strand) (n : Nat) (ls : List (Nat × W32)) (tag : ElemType) (side : BitVec 128)
    (hd : (ls.map Prod.fst).Nodup) {l : Nat} {v : W32} (hl : l < 128) (hv : (l, v) ∈ ls) :
    ((t.writeLanes n ls tag side).vreg n).lane l = v := by
  unfold Strand.writeLanes
  rw [Strand.vreg_setVreg, if_pos rfl]
  split <;> exact bits_putLanes ls hd _ hl hv

theorem Strand.vreg_writeLanes_ne (t : Strand) {n m : Nat} (h : m ≠ n) (ls : List (Nat × W32)) (tag : ElemType) (side : BitVec 128) :
    (t.writeLanes n ls tag side).vreg m = t.vreg m := by
  unfold Strand.writeLanes
  rw [Strand.vreg_setVreg, if_neg h]

/-- The words that the lanes of `good` give register `j` of a destination. -/
def resultWords (good : List (Nat × LaneEnd)) (j : Nat) : List (Nat × W32) := good.map fun y => (y.1, bits y.2.val (32 * j) 32)

@[simp] theorem resultWords_lanes (good : List (Nat × LaneEnd)) (j : Nat) : (resultWords good j).map Prod.fst = good.map Prod.fst := by
  simp [resultWords, Function.comp_def]

/-- The write of the results' registers from the `k`-th on. -/
def Strand.writeFrom (t : Strand) (d : Nat) (good : List (Nat × LaneEnd)) (tags : List (ElemType × BitVec 128)) (k : Nat) : Strand :=
  (tags.zipIdx k).foldl (fun u x => u.writeLanes (d + x.2) (resultWords good x.2) x.1.1 x.1.2) t

theorem Strand.writeResults_eq (t : Strand) (d : Nat) (tags : List (ElemType × BitVec 128)) (good : List (Nat × LaneEnd)) :
    t.writeResults d tags good = t.writeFrom d good tags 0 := rfl

theorem Strand.vreg_writeFrom_lt (t : Strand) (d : Nat) (good : List (Nat × LaneEnd)) (tags : List (ElemType × BitVec 128)) {j k : Nat}
    (h : j < k) : (t.writeFrom d good tags k).vreg (d + j) = t.vreg (d + j) := by
  induction tags generalizing k t with
  | nil => rfl
  | cons y tags ih => exact (ih _ (Nat.lt_succ_of_lt h)).trans (t.vreg_writeLanes_ne (by omega) _ _ _)

/-- Register `j` of the destination holds, in each lane that completes, that lane's result. -/
theorem Strand.lane_writeFrom (t : Strand) (d : Nat) (good : List (Nat × LaneEnd)) (hd : (good.map Prod.fst).Nodup)
    (tags : List (ElemType × BitVec 128)) {j k l : Nat} {x : LaneEnd} (hk : k ≤ j) (hj : j < k + tags.length) (hl : l < 128)
    (hx : (l, x) ∈ good) : ((t.writeFrom d good tags k).vreg (d + j)).lane l = bits x.val (32 * j) 32 := by
  induction tags generalizing k t with
  | nil => exact absurd hj (by simpa using hk)
  | cons y tags ih =>
    rw [List.length_cons] at hj
    rcases Nat.eq_or_lt_of_le hk with rfl | hlt
    · have hw : (l, bits x.val (32 * k) 32) ∈ resultWords good k := List.mem_map.2 ⟨(l, x), hx, rfl⟩
      refine (congrArg (VReg.lane · l) (Strand.vreg_writeFrom_lt _ d good tags (Nat.lt_succ_self k))).trans ?_
      exact t.lane_writeLanes_same _ _ _ _ (by rw [resultWords_lanes]; exact hd) hl hw
    · exact ih _ hlt (by omega)

/-! ### The lanes of an instruction, computed -/

/-- What a lane comes to: the end of its stream, or its result with the exceptions of its maps. -/
def VecOp.laneEnd (o : VecOp) (e : VEnv) (l : Nat) : LaneEnd :=
  if e.t.drawsOut o.ctr l (o.drawCount e) then .streamEnd else .value (o.lane e l).1 ((o.lane e l).2 ||| e.mapExc l)

theorem VecOp.lanes_eq (o : VecOp) (e : VEnv) : o.lanes e = (lanesIn e.act).map fun l => (l, o.laneEnd e l) := by
  unfold VecOp.lanes VecOp.laneEnd
  refine List.map_congr_left fun l _ => ?_
  split <;> rfl

theorem VecOp.mem_lanes (o : VecOp) (e : VEnv) (l : Nat) (x : LaneEnd) :
    (l, x) ∈ o.lanes e ↔ (l < 128 ∧ bit e.act l = true) ∧ x = o.laneEnd e l := by
  rw [VecOp.lanes_eq, List.mem_map]
  constructor
  · rintro ⟨k, hk, he⟩
    cases he
    exact ⟨(mem_lanesIn _ _).1 hk, rfl⟩
  · rintro ⟨hk, rfl⟩
    exact ⟨l, (mem_lanesIn _ _).2 hk, rfl⟩

theorem VecOp.lanes_nodup (o : VecOp) (e : VEnv) : ((o.lanes e).map Prod.fst).Nodup := by
  rw [VecOp.lanes_eq, List.map_map]
  have hid : (lanesIn e.act).map (Prod.fst ∘ fun l => (l, o.laneEnd e l)) = lanesIn e.act := List.map_id _
  rw [hid]
  exact List.nodup_range.filter _

theorem goodLanes_nodup (mode : W64) {ls : List (Nat × LaneEnd)} (h : (ls.map Prod.fst).Nodup) : ((goodLanes mode ls).map Prod.fst).Nodup :=
  (List.filter_sublist.map Prod.fst).nodup h

/-- A lane whose end is no fault completes with its result. -/
theorem VecOp.laneEnd_val (o : VecOp) (e : VEnv) (l : Nat) {mode : W64} (h : (o.laneEnd e l).fault mode = none) :
    (o.laneEnd e l).val = (o.lane e l).1 := by
  unfold VecOp.laneEnd at *
  split at h
  · cases h
  · rw [if_neg ‹_›]; rfl

/-! ### The lane record -/

theorem excCause_ne_pageFault (e : Exc) : excCause e ≠ .pageFault := by
  unfold excCause
  repeat' split
  all_goals decide

theorem LaneEnd.fault_ne_pageFault (x : LaneEnd) (mode : W64) : x.fault mode ≠ some .pageFault := by
  cases x with
  | streamEnd => simp [LaneEnd.fault]
  | value v e =>
    simp only [LaneEnd.fault]
    split
    · simp
    · simpa using excCause_ne_pageFault _

/-- Lanes that fault leave a lane record that names just them; its cause is not PAGE_FAULT, which the lanes' memory accesses alone have. -/
theorem lanesTrap_some (mode : W64) (ls : List (Nat × LaneEnd)) (h : ∃ y ∈ ls, (y.2.fault mode).isSome = true) :
    ∃ c, c ≠ .pageFault ∧ lanesTrap mode ls =
      some (Trap.lanesAt c 0 (maskOf ((ls.filter fun x => (x.2.fault mode).isSome).map fun y => y.1))) := by
  obtain ⟨y, hy, hf⟩ := h
  have hmem : y ∈ ls.filter fun x => (x.2.fault mode).isSome := List.mem_filter.2 ⟨hy, hf⟩
  unfold lanesTrap
  split
  · rename_i hnil
    rw [hnil] at hmem
    cases hmem
  · rename_i l x rest hcons
    rw [hcons]
    refine ⟨_, ?_, rfl⟩
    split
    · cases hx : x.fault mode with
      | none => simp
      | some c =>
        rintro rfl
        exact x.fault_ne_pageFault mode hx
    · exact excCause_ne_pageFault _

@[simp] theorem Trap.bit_word_lane (tr : Trap) : bit tr.word 8 = tr.lane := by
  unfold Trap.word bit
  rw [BitVec.getLsbD_append, if_neg (by decide), BitVec.getLsbD_append, if_pos (by decide)]
  cases tr.lane <;> rfl

@[simp] theorem bits_epcBits (v : W64) : bits (epcBits v) 4 60 = bits v 4 60 := bits_putBits_disjoint v 0 4 0 (Or.inr (Nat.le_refl 4))

/-! ### The end of a format V instruction whose lanes fault -/

/-- Every row's instruction is executed by `State.vec`. -/
theorem exec_vecRow {row : VecRow} (h : row ∈ vecRows) (f : Frame) (s : State) : exec (row.instr f) s = s.vec (row.instr f) f (row.op f) := by
  unfold vecRows intRows floatRows at h
  repeat' rcases h with _ | ⟨_, h⟩
  all_goals rfl

/-- The strand after its lanes have been computed: the lanes that complete have written, and count their exceptions and draws. -/
def VecOp.completed (o : VecOp) (e : VEnv) : Strand :=
  let good := goodLanes e.t.mode (o.lanes e)
  (e.t.writeResults (vNum e.f.d) (o.tags e) good).completeLanes o.ctr (o.drawCount e) good

theorem VecOp.completed_frame (o : VecOp) (e : VEnv) :
    ∃ r b w x y, o.completed e = { e.t with vregs := r, dirty := b, flags := w, ctr0 := x, ctr1 := y } := by
  unfold VecOp.completed
  dsimp only
  obtain ⟨r, b, hr⟩ := e.t.writeResults_frame (vNum e.f.d) (o.tags e) (goodLanes e.t.mode (o.lanes e))
  rw [hr]
  obtain ⟨w, x, y, hc⟩ := Strand.completeLanes_frame { e.t with vregs := r, dirty := b } o.ctr (o.drawCount e)
    (goodLanes e.t.mode (o.lanes e))
  exact ⟨r, b, w, x, y, hc⟩

/-- A lane that completes stands in the destination registers. -/
theorem VecOp.lane_completed (o : VecOp) (e : VEnv) {j l : Nat} (hj : j < (o.tags e).length) (hl : l < 128) (ha : bit e.act l = true)
    (hg : (o.laneEnd e l).fault e.t.mode = none) :
    ((o.completed e).vreg (vNum e.f.d + j)).lane l = bits (o.lane e l).1 (32 * j) 32 := by
  have hmem : (l, o.laneEnd e l) ∈ goodLanes e.t.mode (o.lanes e) :=
    List.mem_filter.2 ⟨(o.mem_lanes e l _).2 ⟨⟨hl, ha⟩, rfl⟩, by rw [hg]; rfl⟩
  have hw := e.t.lane_writeFrom (vNum e.f.d) _ (goodLanes_nodup _ (o.lanes_nodup e)) (o.tags e) (Nat.zero_le j) (by omega) hl hmem
  rw [← Strand.writeResults_eq] at hw
  unfold VecOp.completed
  dsimp only
  obtain ⟨w, x, y, hc⟩ := (e.t.writeResults (vNum e.f.d) (o.tags e) (goodLanes e.t.mode (o.lanes e))).completeLanes_frame o.ctr
    (o.drawCount e) (goodLanes e.t.mode (o.lanes e))
  rw [hc, ← o.laneEnd_val e l hg]
  exact hw

/-- What an instruction whose lanes run comes to. -/
theorem vecOut_lanes {c : Chip} {t : Strand} {f : Frame} {o : VecOp} (ha : t.lanesOf f ≠ 0)
    (hb : (VEnv.make t f o.sp (t.lanesOf f) (c.seed t)).stageB = none) :
    vecOut c t f o = endLanes (o.completed (VEnv.make t f o.sp (t.lanesOf f) (c.seed t)))
      (lanesTrap t.mode (o.lanes (VEnv.make t f o.sp (t.lanesOf f) (c.seed t)))) := by
  unfold vecOut
  simp only [if_neg ha, hb]
  rfl

/-- An instruction that ends with a lane record freezes its strand with it, in the strand `u` that the completed lanes have made. -/
theorem State.strandInstr_part {s : State} {t u : Strand} {sp : OpSpec} {f : Frame} {tr : Trap} {i : Instr}
    {body : Chip → Strand → Chip × Out} (h : s.Issues t sp f) (hz : s.Freezes t) (hp : tr.cause ≠ .pageFault)
    (hb : body s.chip t = (s.chip, .part u tr [] none)) (hk : u.kind = t.kind) :
    ∃ s' rec, s.strandInstr i sp f body = .next s' ∧ s'.chip.strand s.chip.cur = some (u.trapped tr u.pc rec) ∧
      s'.chip.mem = s.chip.mem := by
  obtain ⟨hhandler, howes⟩ := hz
  have hu : u.isHandler = false := by rw [← hhandler]; unfold Strand.isHandler; rw [hk]
  have hstrand : (s.chip.setStrand s.chip.cur u).strand s.chip.cur = some u := by simp
  rw [State.strandInstr_issues h, hb]
  simp only [Chip.finish]
  rw [Chip.takeTrap_strand hstrand hu howes hp, State.onChip_whole]
  · exact ⟨_, _, rfl, by rw [State.withChip_chip, Chip.strand_setCore, Chip.strand_setStrand, if_pos rfl], by simp⟩
  · simpa [Chip.Whole] using h.1.1

/-- Settles O18: the lanes that fault leave the record, and the strand that freezes with it is the one that the other lanes made. -/
theorem vectorLaneRecord : Obligations.VectorLaneRecord := by
  unfold Obligations.VectorLaneRecord
  intro row hrow s t f hi ha hz o e bad hb hbad
  have hstrand : e.t = t := rfl
  have hact : e.act = t.lanesOf f := rfl
  have hbad_iff : ∀ l, bad l ↔ (l < 128 ∧ bit e.act l = true) ∧ ((o.laneEnd e l).fault t.mode).isSome = true := by
    intro l
    constructor
    · rintro ⟨x, hx, hf⟩
      obtain ⟨hl, rfl⟩ := (o.mem_lanes e l x).1 hx
      exact ⟨hl, hf⟩
    · rintro ⟨hl, hf⟩
      exact ⟨_, (o.mem_lanes e l _).2 ⟨hl, rfl⟩, hf⟩
  obtain ⟨c, hc, htrap⟩ := lanesTrap_some t.mode (o.lanes e) (by obtain ⟨l, x, hx, hf⟩ := hbad; exact ⟨(l, x), hx, hf⟩)
  have hout : vecOut s.chip t f o = .part (o.completed e) (Trap.lanesAt c 0
      (maskOf (((o.lanes e).filter fun x => (x.2.fault t.mode).isSome).map fun y => y.1))) [] none := by
    rw [vecOut_lanes ha hb]
    exact congrArg (endLanes (o.completed e)) htrap
  obtain ⟨hkind, hpc, hret⟩ : (o.completed e).kind = t.kind ∧ (o.completed e).pc = t.pc ∧ (o.completed e).retired = t.retired := by
    obtain ⟨r, b, w, x, y, hframe⟩ := o.completed_frame e
    rw [hframe]
    exact ⟨rfl, rfl, rfl⟩
  obtain ⟨s', rec, hexec, hs, hmem⟩ := State.strandInstr_part (i := row.instr f) (body := fun c t => (c, vecOut c t f o)) hi hz
    (show (Trap.lanesAt c 0 _).cause ≠ .pageFault from hc) (by rw [hout]) hkind
  refine ⟨s', _, (exec_vecRow hrow f s).trans hexec, hs, rfl, fun l hl => ?_, ?_, ?_, hpc, hret, hmem, fun j hj l hl hal hg => ?_⟩
  · change bit (maskOf _) l = true ↔ _
    rw [bit_maskOf _ hl]
    simp [bad, List.mem_filter]
  · exact Trap.bit_word_lane _
  · change bits (epcBits _) 4 60 = _
    rw [bits_epcBits, hpc]
  · refine o.lane_completed e hj hl hal ?_
    have := mt (hbad_iff l).2 hg
    simpa [hl, hact, hal, hstrand] using this

end Sys2Proof.Machine
end

section
/-! PROOFS. Rounding (01_numbers R13, R20, R24, R26, R27): the fields of an encoding, the integer that rounding keeps and its bounds, the
encoding that it gives, and the statement O20. -/

namespace Sys2Proof.Machine

/-! ### Encodings -/

/-- What the seven formats share: a top exponent field above the subnormals' one, a fraction, and E4M3's widths where E4M3's NaN is. -/
structure FFmt.Regular (F : FFmt) : Prop where
  ebits : 2 ≤ F.ebits
  fbits : 1 ≤ F.fbits
  e4m3  : F.spec = .e4m3 → F.ebits = 4 ∧ F.fbits = 3

/-- An encoding by its sign, exponent field and fraction (R13). -/
def FFmt.pack (F : FFmt) (neg : Bool) (field frac : Nat) : Nat := F.signBit neg + (field * 2 ^ F.fbits + frac)

/-- The fields of a finite datum: those up to the largest. -/
def FFmt.Finite (F : FFmt) (field frac : Nat) : Prop :=
  frac < 2 ^ F.fbits ∧ (field < F.topField ∨ field = F.topField ∧ 2 ^ F.fbits + frac ≤ F.maxN)

theorem FFmt.Regular.topField_bounds {F : FFmt} (h : F.Regular) : 1 ≤ F.topField ∧ F.topField < 2 ^ F.ebits := by
  have h4 : 2 ^ 2 ≤ 2 ^ F.ebits := Nat.pow_le_pow_right (by omega) h.ebits
  unfold FFmt.topField
  split <;> omega

theorem FFmt.Regular.maxN_bounds {F : FFmt} (h : F.Regular) : 2 ^ F.fbits ≤ F.maxN ∧ F.maxN < 2 ^ (F.fbits + 1) := by
  have h2 : 2 ^ 1 ≤ 2 ^ F.fbits := Nat.pow_le_pow_right (by omega) h.fbits
  unfold FFmt.maxN
  rw [Nat.pow_succ]
  split <;> omega

theorem FFmt.Finite.field_lt {F : FFmt} (h : F.Regular) {field frac : Nat} (hf : F.Finite field frac) : field < 2 ^ F.ebits := by
  have := h.topField_bounds
  have := hf.2
  omega

/-- The fields of an encoding are read back. -/
theorem FFmt.pack_fields (F : FFmt) (neg : Bool) {field frac : Nat} (hfield : field < 2 ^ F.ebits) (hfrac : frac < 2 ^ F.fbits) :
    (F.pack neg field frac).testBit (F.ebits + F.fbits) = neg ∧ F.pack neg field frac / 2 ^ F.fbits % 2 ^ F.ebits = field ∧
      F.pack neg field frac % 2 ^ F.fbits = frac ∧ F.pack neg field frac < 2 ^ F.width := by
  have hpow : 2 ^ (F.ebits + F.fbits) = 2 ^ F.ebits * 2 ^ F.fbits := Nat.pow_add ..
  have hwidth : 2 ^ F.width = 2 * (2 ^ F.ebits * 2 ^ F.fbits) := by rw [← hpow, FFmt.width, Nat.add_assoc, Nat.pow_add]
  have hbody : field * 2 ^ F.fbits + frac < 2 ^ F.ebits * 2 ^ F.fbits := by
    calc field * 2 ^ F.fbits + frac < (field + 1) * 2 ^ F.fbits := by rw [Nat.add_mul]; omega
      _ ≤ 2 ^ F.ebits * 2 ^ F.fbits := Nat.mul_le_mul_right _ hfield
  have hpack : F.pack neg field frac = (b2n neg * 2 ^ F.ebits + field) * 2 ^ F.fbits + frac := by
    unfold FFmt.pack FFmt.signBit b2n
    rw [hpow]
    cases neg <;> simp [Nat.add_mul, Nat.add_assoc]
  have hdiv : F.pack neg field frac / 2 ^ F.fbits = b2n neg * 2 ^ F.ebits + field := by
    rw [hpack, Nat.mul_comm, Nat.mul_add_div (Nat.two_pow_pos _), Nat.div_eq_of_lt hfrac, Nat.add_zero]
  refine ⟨?_, ?_, ?_, ?_⟩
  · rw [Nat.testBit_eq_decide_div_mod_eq, hpow, Nat.mul_comm, ← Nat.div_div_eq_div_mul, hdiv, Nat.mul_comm,
      Nat.mul_add_div (Nat.two_pow_pos _), Nat.div_eq_of_lt hfield]
    cases neg <;> rfl
  · rw [hdiv, Nat.mul_comm, Nat.mul_add_mod, Nat.mod_eq_of_lt hfield]
  · rw [hpack, Nat.mul_comm, Nat.mul_add_mod, Nat.mod_eq_of_lt hfrac]
  · unfold FFmt.pack FFmt.signBit
    rw [hwidth, hpow]
    split <;> omega

/-- An encoding is made of its fields. -/
theorem FFmt.eq_pack (F : FFmt) {x : Nat} (hx : x < 2 ^ F.width) :
    x = F.pack (x.testBit (F.ebits + F.fbits)) (x / 2 ^ F.fbits % 2 ^ F.ebits) (x % 2 ^ F.fbits) := by
  have hpow : 2 ^ (F.ebits + F.fbits) = 2 ^ F.fbits * 2 ^ F.ebits := by rw [Nat.add_comm, Nat.pow_add]
  have htop : x / 2 ^ F.fbits / 2 ^ F.ebits < 2 := by
    rw [Nat.div_div_eq_div_mul, ← hpow, Nat.div_lt_iff_lt_mul (Nat.two_pow_pos _), ← Nat.pow_succ']
    rwa [show (F.ebits + F.fbits).succ = F.width by unfold FFmt.width; omega]
  have hsign : F.signBit (x.testBit (F.ebits + F.fbits)) = 2 ^ F.fbits * (2 ^ F.ebits * (x / 2 ^ F.fbits / 2 ^ F.ebits)) := by
    rw [Nat.testBit_eq_decide_div_mod_eq, hpow, ← Nat.div_div_eq_div_mul]
    unfold FFmt.signBit
    generalize x / 2 ^ F.fbits / 2 ^ F.ebits = top at htop
    rcases (by omega : top = 0 ∨ top = 1) with rfl | rfl
    · simp
    · simp [hpow]
  unfold FFmt.pack
  rw [hsign, ← Nat.add_assoc, Nat.mul_comm (x / 2 ^ F.fbits % 2 ^ F.ebits), ← Nat.mul_add, Nat.div_add_mod, Nat.div_add_mod]

/-- The datum of finite fields (R13): a subnormal has no hidden bit, and the exponent of field 1. -/
def FFmt.datum (F : FFmt) (neg : Bool) (field frac : Nat) : FVal :=
  .fin neg (if field = 0 then frac else 2 ^ F.fbits + frac) ((max field 1 : Nat) - F.bias - F.fbits)

theorem FFmt.decode_pack {F : FFmt} (h : F.Regular) (neg : Bool) {field frac : Nat} (hf : F.Finite field frac) :
    F.decode (F.pack neg field frac) = F.datum neg field frac := by
  obtain ⟨hneg, hfield, hfrac, -⟩ := F.pack_fields neg (hf.field_lt h) hf.1
  have hvalue : (if field = 0 then FVal.fin neg frac (F.emin - F.fbits)
      else .fin neg (2 ^ F.fbits + frac) ((field : Int) - F.bias - F.fbits)) = F.datum neg field frac := by
    unfold FFmt.datum FFmt.emin
    split
    · simp [*]
    · rw [Nat.max_eq_left (by omega)]
  unfold FFmt.decode
  simp only [hneg, hfield, hfrac, hvalue]
  have hfin := hf.2
  unfold FFmt.topField FFmt.maxN at hfin
  have h4 : 2 ^ 2 ≤ 2 ^ F.ebits := Nat.pow_le_pow_right (by omega) h.ebits
  split
  · rw [if_neg]
    simp only [*] at hfin
    omega
  · obtain ⟨he, hb⟩ := h.e4m3 ‹_›
    rw [if_neg]
    simp only [*] at hfin
    omega
  · rfl

/-- Inversion: a datum that a format holds has finite fields. -/
theorem FFmt.decode_fin {F : FFmt} (h : F.Regular) {x m : Nat} {neg : Bool} {e : Int} (hx : x < 2 ^ F.width)
    (hd : F.decode x = .fin neg m e) :
    ∃ field frac, F.Finite field frac ∧ x = F.pack neg field frac ∧ F.datum neg field frac = .fin neg m e := by
  have hfield : x / 2 ^ F.fbits % 2 ^ F.ebits < 2 ^ F.ebits := Nat.mod_lt _ (Nat.two_pow_pos _)
  have hfrac : x % 2 ^ F.fbits < 2 ^ F.fbits := Nat.mod_lt _ (Nat.two_pow_pos _)
  have hfin : F.Finite (x / 2 ^ F.fbits % 2 ^ F.ebits) (x % 2 ^ F.fbits) := by
    refine ⟨hfrac, ?_⟩
    unfold FFmt.decode at hd
    dsimp only at hd
    unfold FFmt.topField FFmt.maxN
    split at hd
    · split at hd
      · split at hd <;> cases hd
      · simp only [*]
        omega
    · obtain ⟨he, hb⟩ := h.e4m3 ‹_›
      split at hd
      · cases hd
      · simp only [*] at *
        omega
    · simp only [*]
      omega
  have hdatum : F.datum (x.testBit (F.ebits + F.fbits)) (x / 2 ^ F.fbits % 2 ^ F.ebits) (x % 2 ^ F.fbits) = .fin neg m e := by
    rw [← F.decode_pack h _ hfin, ← F.eq_pack hx, hd]
  have hneg : x.testBit (F.ebits + F.fbits) = neg := by
    unfold FFmt.datum at hdatum
    injection hdatum
  exact ⟨_, _, hfin, hneg ▸ F.eq_pack hx, hneg ▸ hdatum⟩

/-! ### The integer that rounding keeps -/

/-- The exponent of the last bit kept of `m × 2^e`. -/
def FFmt.unit (F : FFmt) (m : Nat) (e : Int) : Int := max (e + Nat.log2 m) F.emin - F.fbits

/-- The multiples of `2^q` in `m × 2^e`, and what is left of it, in units of `2^(q - s)` for the `s` bits that are dropped. -/
def keptLow (m : Nat) (e q : Int) : Nat := if q ≤ e then m * 2 ^ (e - q).toNat else m / 2 ^ (q - e).toNat
def keptRest (m : Nat) (e q : Int) : Nat := if q ≤ e then 0 else m % 2 ^ (q - e).toNat

theorem FFmt.keep_eq (F : FFmt) (rm : Nat) (neg : Bool) (z m : Nat) (e : Int) :
    F.keep rm neg z m e false =
      { q := F.unit m e
        n := keptLow m e (F.unit m e) +
          if roundsUp rm neg z (keptLow m e (F.unit m e)) (keptRest m e (F.unit m e)) (F.unit m e - e).toNat false then 1 else 0
        inexact := keptRest m e (F.unit m e) != 0 } := by
  unfold FFmt.keep keptLow keptRest
  change (if F.unit m e ≤ e then _ else _) = _
  split
  · rename_i hle
    rw [Int.toNat_of_nonpos (by omega : F.unit m e - e ≤ 0)]
    rfl
  · simp only [Bool.or_false]
    rfl

/-- The kept integer has at most one bit more than the fraction, and just that many above the subnormals. -/
theorem FFmt.keptLow_bounds (F : FFmt) {m : Nat} (hm : m ≠ 0) (e : Int) :
    keptLow m e (F.unit m e) < 2 ^ (F.fbits + 1) ∧ (F.emin - F.fbits < F.unit m e → 2 ^ F.fbits ≤ keptLow m e (F.unit m e)) := by
  have hlow : 2 ^ m.log2 ≤ m := Nat.log2_self_le hm
  have hhigh : m < 2 ^ (m.log2 + 1) := Nat.lt_log2_self
  have hunit : F.unit m e = max (e + Nat.log2 m) F.emin - F.fbits := rfl
  generalize F.unit m e = q at *
  unfold keptLow
  split
  · have hexp : m.log2 + 1 + (e - q).toNat ≤ F.fbits + 1 := by omega
    constructor
    · calc m * 2 ^ (e - q).toNat < 2 ^ (m.log2 + 1) * 2 ^ (e - q).toNat := Nat.mul_lt_mul_of_pos_right hhigh (Nat.two_pow_pos _)
        _ = 2 ^ (m.log2 + 1 + (e - q).toNat) := (Nat.pow_add ..).symm
        _ ≤ 2 ^ (F.fbits + 1) := Nat.pow_le_pow_right (by omega) hexp
    · intro hq
      calc 2 ^ F.fbits = 2 ^ m.log2 * 2 ^ (e - q).toNat := by rw [← Nat.pow_add]; congr 1; omega
        _ ≤ m * 2 ^ (e - q).toNat := Nat.mul_le_mul_right _ hlow
  · have hexp : m.log2 + 1 ≤ F.fbits + 1 + (q - e).toNat := by omega
    constructor
    · rw [Nat.div_lt_iff_lt_mul (Nat.two_pow_pos _), ← Nat.pow_add]
      exact Nat.lt_of_lt_of_le hhigh (Nat.pow_le_pow_right (by omega) hexp)
    · intro hq
      rw [Nat.le_div_iff_mul_le (Nat.two_pow_pos _), ← Nat.pow_add, show F.fbits + (q - e).toNat = m.log2 by omega]
      exact hlow

/-! ### The direction of rounding -/

/-- Nothing is added where nothing is dropped. -/
theorem roundsUp_exact (rm : Nat) (neg : Bool) {z : Nat} (hz : z < 2 ^ 16) (n s : Nat) : roundsUp rm neg z n 0 s false = false := by
  have hs : 0 < 2 ^ s := Nat.two_pow_pos s
  unfold roundsUp
  dsimp only
  repeat' split
  all_goals simp
  all_goals omega

/-- R20's direction by mode, where bits are dropped. -/
theorem roundsUp_modes (neg : Bool) {z : Nat} (hz : z < 2 ^ 16) {n r s : Nat} (hr : r ≠ 0) :
    (roundsUp 1 neg z n r s false = true ↔ 2 ^ s < 2 * r ∨ 2 * r = 2 ^ s ∧ n % 2 = 1) ∧ roundsUp 2 neg z n r s false = false ∧
      roundsUp 3 neg z n r s false = !neg ∧ roundsUp 4 neg z n r s false = neg ∧
      (roundsUp 5 neg z n r s false = true ↔ 2 ^ s ≤ 2 * r) ∧
      (roundsUp 6 neg z n r s false = true ↔ 65536 * 2 ^ s ≤ 65536 * r + z * 2 ^ s) := by
  have hdraw : 65536 ≤ r * 65536 / 2 ^ s + z ↔ 65536 * 2 ^ s ≤ 65536 * r + z * 2 ^ s := by
    have hsub : (65536 - z) * 2 ^ s ≤ r * 65536 ↔ 65536 - z ≤ r * 65536 / 2 ^ s := (Nat.le_div_iff_mul_le (Nat.two_pow_pos s)).symm
    rw [Nat.sub_mul] at hsub
    omega
  simp [roundsUp, rmRne, rmRna, rmRup, rmRdn, rmSr, hr, hdraw]

/-- The integer kept, by mode, where bits are dropped: the lower of the two about the value, or the upper. -/
theorem kept_modes (neg : Bool) {rm z : Nat} (hz : z < 2 ^ 16) (lo : Nat) {r : Nat} (s : Nat) (hr : r ≠ 0) {n : Nat}
    (hn : n = lo + if roundsUp rm neg z lo r s false then 1 else 0) :
    (rm = 1 → (2 * r < 2 ^ s → n = lo) ∧ (2 ^ s < 2 * r → n = lo + 1) ∧ (2 * r = 2 ^ s → n % 2 = 0 ∧ (n = lo ∨ n = lo + 1))) ∧
      (rm = 2 → n = lo) ∧ (rm = 3 → n = if neg then lo else lo + 1) ∧ (rm = 4 → n = if neg then lo + 1 else lo) ∧
      (rm = 5 → n = if 2 ^ s ≤ 2 * r then lo + 1 else lo) ∧
      (rm = 6 → n = if 65536 * 2 ^ s ≤ 65536 * r + z * 2 ^ s then lo + 1 else lo) := by
  obtain ⟨hrne, hrtz, hrup, hrdn, hrna, hsr⟩ := roundsUp_modes neg hz (n := lo) (s := s) hr
  refine ⟨?_, ?_, ?_, ?_, ?_, ?_⟩ <;> rintro rfl
  · refine ⟨fun hlt => ?_, fun hgt => ?_, fun heq => ?_⟩
    · rw [hn, if_neg (by rw [hrne]; omega)]
      rfl
    · rw [hn, if_pos (hrne.2 (Or.inl hgt))]
    · split at hn <;> rename_i hup <;> rw [hrne] at hup <;> omega
  · simpa [hrtz] using hn
  · cases neg <;> simpa [hrup] using hn
  · cases neg <;> simpa [hrdn] using hn
  · simp only [hrna] at hn
    rw [hn]
    split <;> rfl
  · simp only [hsr] at hn
    rw [hn]
    split <;> rfl

/-! ### What rounding gives -/

/-- A rounded value beyond the largest finite one, by the exponent of its last bit and its integer. -/
def FFmt.Exceeds (F : FFmt) (q : Int) (n : Nat) : Prop := q > F.maxQ ∨ q = F.maxQ ∧ n > F.maxN

/-- What the kept integer and its exponent satisfy: a carry into one more bit, and a full significand above the subnormals. -/
def FFmt.Rounded (F : FFmt) (q : Int) (n : Nat) : Prop :=
  F.emin - F.fbits ≤ q ∧ n ≤ 2 ^ (F.fbits + 1) ∧ (F.emin - F.fbits < q → 2 ^ F.fbits ≤ n)

theorem FFmt.rounded_unit (F : FFmt) {m : Nat} (hm : m ≠ 0) (e : Int) (up : Bool) :
    F.Rounded (F.unit m e) (keptLow m e (F.unit m e) + if up then 1 else 0) := by
  obtain ⟨hlt, hge⟩ := F.keptLow_bounds hm e
  refine ⟨?_, ?_, fun hq => ?_⟩
  · unfold FFmt.unit
    omega
  · split <;> omega
  · exact Nat.le_add_right_of_le (hge hq)

/-- Beyond the largest value, as a comparison of the two values. -/
theorem FFmt.exceeds_iff {F : FFmt} (h : F.Regular) {q : Int} {n : Nat} (hr : F.Rounded q n) :
    F.Exceeds q n ↔ F.maxN * 2 ^ (F.maxQ - q).toNat < n * 2 ^ (q - F.maxQ).toNat := by
  obtain ⟨hq, hn, hnorm⟩ := hr
  obtain ⟨hlow, hhigh⟩ := h.maxN_bounds
  have htop := h.topField_bounds.1
  have hemin : F.emin - F.fbits ≤ F.maxQ := by unfold FFmt.emin FFmt.maxQ; omega
  have htwo : 2 ^ (F.fbits + 1) = 2 ^ F.fbits * 2 := Nat.pow_succ ..
  unfold FFmt.Exceeds
  rcases Int.lt_trichotomy q F.maxQ with hlt | heq | hgt
  · have hpow : 2 ^ 1 ≤ 2 ^ (F.maxQ - q).toNat := Nat.pow_le_pow_right (by omega) (by omega)
    have hle : n ≤ F.maxN * 2 ^ (F.maxQ - q).toNat := by
      calc n ≤ 2 ^ F.fbits * 2 := htwo ▸ hn
        _ ≤ F.maxN * 2 ^ (F.maxQ - q).toNat := Nat.mul_le_mul hlow hpow
    rw [Int.toNat_of_nonpos (by omega : q - F.maxQ ≤ 0), Nat.pow_zero, Nat.mul_one]
    omega
  · simp [heq]
  · have hpow : 2 ^ 1 ≤ 2 ^ (q - F.maxQ).toNat := Nat.pow_le_pow_right (by omega) (by omega)
    have hlt : F.maxN < n * 2 ^ (q - F.maxQ).toNat := by
      calc F.maxN < 2 ^ F.fbits * 2 := htwo ▸ hhigh
        _ ≤ n * 2 ^ (q - F.maxQ).toNat := Nat.mul_le_mul (hnorm (by omega)) hpow
    rw [Int.toNat_of_nonpos (by omega : F.maxQ - q ≤ 0), Nat.pow_zero, Nat.mul_one]
    simp [hgt, hlt]

/-- The encoding of `n × 2^q`: finite fields, whose datum is that value. -/
theorem FFmt.encode_fields {F : FFmt} (h : F.Regular) {q : Int} {n : Nat} (hr : F.Rounded q n) (hmax : ¬ F.Exceeds q n) (neg : Bool) :
    ∃ field frac a b, F.Finite field frac ∧ (q + F.fbits + F.bias - 1).toNat * 2 ^ F.fbits + n = field * 2 ^ F.fbits + frac ∧
      F.datum neg field frac = .fin neg a b ∧ a * 2 ^ (b - q).toNat = n * 2 ^ (q - b).toNat := by
  obtain ⟨hq, hn, hnorm⟩ := hr
  obtain ⟨hlow, hhigh⟩ := h.maxN_bounds
  have htop := h.topField_bounds.1
  have htwo : 2 ^ (F.fbits + 1) = 2 ^ F.fbits * 2 := Nat.pow_succ ..
  have hfield : ((q + F.fbits + F.bias - 1).toNat : Int) = q + F.fbits + F.bias - 1 := by unfold FFmt.emin at hq; omega
  have hmaxQ : F.maxQ = (F.topField : Int) - F.bias - F.fbits := rfl
  have hemin : F.emin = 1 - (F.bias : Int) := rfl
  unfold FFmt.Exceeds at hmax
  generalize (q + F.fbits + F.bias - 1).toNat = field at hfield
  unfold FFmt.Finite FFmt.datum
  by_cases hsub : n < 2 ^ F.fbits
  · -- a subnormal, or a zero
    obtain rfl : field = 0 := by omega
    refine ⟨0, n, n, 1 - F.bias - F.fbits, ⟨hsub, Or.inl htop⟩, rfl, rfl, ?_⟩
    rw [show (1 : Int) - F.bias - F.fbits = q by omega]
  by_cases hcarry : n = 2 ^ (F.fbits + 1)
  · -- a carry into the next binade
    refine ⟨field + 2, 0, 2 ^ F.fbits, q + 1, ⟨Nat.two_pow_pos _, by omega⟩, ?_, ?_, ?_⟩
    · rw [hcarry, htwo, Nat.add_mul, Nat.mul_comm 2, Nat.add_zero]
    · rw [if_neg (by omega), Nat.max_eq_left (by omega), Nat.add_zero]
      congr 1
      push_cast
      omega
    · rw [hcarry, show q + 1 - q = 1 by omega, show q - (q + 1) = -1 by omega, htwo]
      exact (Nat.mul_one _).symm
  · -- a normal
    refine ⟨field + 1, n - 2 ^ F.fbits, n, q, ⟨by omega, by omega⟩, ?_, ?_, rfl⟩
    · rw [Nat.add_mul]
      omega
    · rw [if_neg (by omega), Nat.max_eq_left (by omega), Nat.add_sub_of_le (by omega)]
      congr 1
      push_cast
      omega

/-- R20 and R27 on a value that is not zero, of which `n × 2^q` is kept. -/
theorem FFmt.round_num {F : FFmt} {rm z m n : Nat} {neg inexact : Bool} {e q : Int} (hm : m ≠ 0)
    (hk : F.keep rm neg z m e false = { q := q, n := n, inexact := inexact }) (sat ftz : Bool) :
    ((ftz = true ∧ e + Nat.log2 m < F.emin ∧ F.flush = true) →
      F.round rm sat ftz z (.num neg m e false) = (F.signBit neg, excUnderflow ||| excInexact)) ∧
    (¬ (ftz = true ∧ e + Nat.log2 m < F.emin ∧ F.flush = true) →
      (F.Exceeds q n → F.round rm sat ftz z (.num neg m e false) =
        (F.overflow rm neg sat, excOverflow ||| excInexact ||| F.satFlag rm neg sat)) ∧
      (¬ F.Exceeds q n → F.round rm sat ftz z (.num neg m e false) =
        (F.signBit neg + ((q + F.fbits + F.bias - 1).toNat * 2 ^ F.fbits + n),
          if inexact then (if e + Nat.log2 m < F.emin then excInexact ||| excUnderflow else excInexact) else 0))) := by
  have hzero : ¬ (decide (m = 0) && !false) = true := by simp [hm]
  have htiny : (decide (m = 0) || decide (e + Nat.log2 m < F.emin)) = decide (e + Nat.log2 m < F.emin) := by
    rw [decide_eq_false hm, Bool.false_or]
  have hflush : (decide (e + Nat.log2 m < F.emin) && ftz && F.flush) = true ↔ ftz = true ∧ e + Nat.log2 m < F.emin ∧ F.flush = true := by
    rw [Bool.and_eq_true, Bool.and_eq_true, decide_eq_true_iff]
    exact ⟨fun ⟨⟨ht, hz⟩, hf⟩ => ⟨hz, ht, hf⟩, fun ⟨hz, ht, hf⟩ => ⟨⟨ht, hz⟩, hf⟩⟩
  unfold FFmt.Exceeds FFmt.round
  dsimp only
  rw [if_neg hzero, htiny, hk]
  refine ⟨fun hf => if_pos (hflush.2 hf), fun hf => ?_⟩
  rw [if_neg (mt hflush.1 hf)]
  refine ⟨fun hx => if_pos hx, fun hx => (if_neg hx).trans ?_⟩
  simp only [decide_eq_true_iff]

/-! ### Data that a format holds -/

/-- The significand and exponent of finite fields are kept whole. -/
theorem FFmt.Finite.kept {F : FFmt} (h : F.Regular) {neg : Bool} {field frac m : Nat} {e : Int} (hf : F.Finite field frac)
    (hd : F.datum neg field frac = .fin neg m e) (hm : m ≠ 0) :
    F.unit m e = e ∧ ¬ F.Exceeds e m ∧ (e + F.fbits + F.bias - 1).toNat * 2 ^ F.fbits + m = field * 2 ^ F.fbits + frac := by
  obtain ⟨hfrac, hfin⟩ := hf
  obtain ⟨hlow, hhigh⟩ := h.maxN_bounds
  have htop := h.topField_bounds.1
  unfold FFmt.datum at hd
  injection hd with _ hm' he'
  unfold FFmt.unit FFmt.Exceeds FFmt.emin FFmt.maxQ
  by_cases h0 : field = 0
  · subst h0
    rw [if_pos rfl] at hm'
    subst hm'
    have hlog : frac.log2 < F.fbits := (Nat.log2_lt hm).2 hfrac
    have he : e = 1 - F.bias - F.fbits := he'.symm
    rw [show (e + F.fbits + F.bias - 1).toNat = 0 by omega]
    exact ⟨by omega, by omega, rfl⟩
  · rw [if_neg h0] at hm'
    rw [Nat.max_eq_left (by omega)] at he'
    have hlog : m.log2 = F.fbits := by
      rw [Nat.log2_eq_iff hm, Nat.pow_succ]
      omega
    have hfield : (e + F.fbits + F.bias - 1).toNat = field - 1 := by omega
    refine ⟨by omega, by omega, ?_⟩
    rw [hfield, ← hm', Nat.sub_mul, Nat.one_mul]
    have : 1 * 2 ^ F.fbits ≤ field * 2 ^ F.fbits := Nat.mul_le_mul_right _ (by omega)
    omega

/-- A datum that a format holds rounds to its own encoding, in every mode and with no exception (R20, R26). -/
theorem FFmt.round_decode {F : FFmt} (h : F.Regular) {x rm z m : Nat} {sat neg : Bool} {e : Int} (hx : x < 2 ^ F.width) (hz : z < 2 ^ 16)
    (hd : F.decode x = .fin neg m e) : F.round rm sat false z (.num neg m e false) = (x, 0) := by
  obtain ⟨field, frac, hfin, rfl, hdatum⟩ := FFmt.decode_fin h hx hd
  by_cases hm : m = 0
  · have hzero : field = 0 ∧ frac = 0 := by
      unfold FFmt.datum at hdatum
      injection hdatum with _ hm'
      have := Nat.two_pow_pos F.fbits
      split at hm' <;> omega
    simp [FFmt.round, hm, FFmt.pack, hzero]
  · obtain ⟨hunit, hmax, hcode⟩ := hfin.kept h hdatum hm
    have hkeep : F.keep rm neg z m e false = { q := e, n := m, inexact := false } := by
      rw [F.keep_eq, hunit]
      simp [keptLow, keptRest, roundsUp_exact rm neg hz]
    rw [((FFmt.round_num hm hkeep sat false).2 (by simp)).2 hmax, hcode]
    rfl

/-! ### The rows of R13 -/

/-- A row of R13's table says of its format what the model computes from the format's fields. -/
structure FormatRow.Describes (R : FormatRow) : Prop where
  regular : R.fmt.Regular
  frac    : (R.frac : Int) = R.fmt.fbits
  emin    : R.emin = R.fmt.emin
  maxN    : R.maxN = R.fmt.maxN
  maxQ    : R.maxQ = R.fmt.maxQ
  sign    : R.sign = R.fmt.signBit true
  max     : R.max = R.fmt.maxBits false
  outer   : ∀ neg, R.fmt.overflow rmRne neg false = R.fmt.signBit neg + R.outer
  flush   : R.flush = R.fmt.flush

theorem formatRows_describe : ∀ R ∈ formatRows, R.Describes := by
  intro R hR
  unfold formatRows at hR
  repeat' rcases hR with _ | ⟨_, hR⟩
  all_goals
    exact { regular := ⟨by decide, by decide, by decide⟩, frac := rfl, emin := by decide, maxN := by decide, maxQ := by decide,
            sign := by decide, max := by decide, outer := by decide, flush := rfl }

theorem FFmt.maxBits_eq (F : FFmt) (neg : Bool) : F.maxBits neg = F.signBit neg + F.maxBits false := by
  simp [FFmt.maxBits, FFmt.signBit]

/-- The largest finite value is a datum of its format (R13). -/
theorem FFmt.decode_maxBits {F : FFmt} (h : F.Regular) (neg : Bool) : F.decode (F.maxBits neg) = .fin neg F.maxN F.maxQ := by
  obtain ⟨hlow, hhigh⟩ := h.maxN_bounds
  have htop := h.topField_bounds.1
  rw [Nat.pow_succ] at hhigh
  have hfin : F.Finite F.topField (F.maxN - 2 ^ F.fbits) := ⟨by omega, Or.inr ⟨rfl, by omega⟩⟩
  refine (F.decode_pack h neg hfin).trans ?_
  unfold FFmt.datum FFmt.maxQ
  rw [if_neg (by omega), Nat.max_eq_left htop, Nat.add_sub_of_le hlow]

/-- Where overflow holds at the largest finite value: under SAT, and toward zero (R20). -/
theorem FFmt.overflow_eq (F : FFmt) (rm : Nat) (neg sat : Bool) :
    F.overflow rm neg sat =
      if sat = true ∨ rm = 2 ∨ (rm = 4 ∧ neg = false) ∨ (rm = 3 ∧ neg = true) then F.maxBits neg else F.overflow rmRne neg false := by
  unfold FFmt.overflow
  by_cases hc : sat = true ∨ rm = 2 ∨ (rm = 4 ∧ neg = false) ∨ (rm = 3 ∧ neg = true)
  · rw [if_pos hc, if_pos]
    simpa [rmRtz, rmRdn, rmRup, or_assoc] using hc
  · rw [if_neg hc, if_neg, if_neg]
    · simp [rmRne, rmRtz, rmRdn, rmRup]
    · simpa [rmRtz, rmRdn, rmRup, or_assoc] using hc

/-- What an overflow gives beside the sign (R20), by SAT. -/
def FormatRow.beyond (R : FormatRow) (rm : Nat) (neg sat : Bool) : Nat :=
  if sat = true ∨ rm = 2 ∨ (rm = 4 ∧ neg = false) ∨ (rm = 3 ∧ neg = true) then R.max else R.outer

theorem FormatRow.Describes.overflow {R : FormatRow} (h : R.Describes) (rm : Nat) (neg sat : Bool) :
    R.fmt.overflow rm neg sat = R.fmt.signBit neg + R.beyond rm neg sat := by
  rw [FFmt.overflow_eq, FormatRow.beyond, FFmt.maxBits_eq, ← h.max, h.outer]
  split <;> rfl

/-- SATD is raised where SAT changes what the overflow gives (R24). -/
theorem FormatRow.Describes.satFlag {R : FormatRow} (h : R.Describes) (rm : Nat) (neg sat : Bool) :
    R.fmt.satFlag rm neg sat = if R.beyond rm neg sat = R.beyond rm neg false then 0 else excSat := by
  unfold FFmt.satFlag
  cases sat with
  | false => simp
  | true =>
    rw [h.overflow, h.overflow]
    by_cases he : R.beyond rm neg true = R.beyond rm neg false <;> simp [he]

/-- Settles O20: the data that a format holds by their fields, and every other value by the bounds of what rounding keeps. -/
theorem floatExact : Obligations.FloatExact := by
  unfold Obligations.FloatExact
  have hregular : ∀ F ∈ [FFmt.f64, FFmt.f32, FFmt.f16, FFmt.bf16, FFmt.e4m3, FFmt.e5m2, FFmt.e2m1], F.Regular := by
    intro F hF
    obtain ⟨R, hR, rfl⟩ := List.mem_map.1 (show F ∈ formatRows.map FormatRow.fmt from hF)
    exact (formatRows_describe R hR).regular
  refine ⟨fun F hF x rm z sat neg m e hx _ _ hz hd => FFmt.round_decode (hregular F hF) hx hz hd,
    fun R hR rm z sat ftz neg m e hm _ _ hz => ?_⟩
  have hrow := formatRows_describe R hR
  rw [hrow.emin, hrow.frac, hrow.maxN, hrow.maxQ, hrow.flush]
  intro sign q s lo r tiny got beyond
  have hsign : sign = R.fmt.signBit neg := by
    change (if neg then R.sign else 0) = _
    rw [hrow.sign]
    cases neg <;> rfl
  have hexact : r = 0 → roundsUp rm neg z lo r s false = false := fun hr => by rw [hr]; exact roundsUp_exact rm neg hz lo s
  have hkeep : R.fmt.keep rm neg z m e false =
      { q := q, n := lo + if roundsUp rm neg z lo r s false then 1 else 0, inexact := r != 0 } := R.fmt.keep_eq rm neg z m e
  have hrounded : R.fmt.Rounded q (lo + if roundsUp rm neg z lo r s false then 1 else 0) := R.fmt.rounded_unit hm e _
  obtain ⟨hflush, hnum⟩ := FFmt.round_num hm hkeep sat ftz
  refine ⟨fun h1 h2 h3 => ?_, fun hno => ⟨lo + if roundsUp rm neg z lo r s false then 1 else 0, fun hr => ?_, fun hr => ?_, ?_⟩, ?_⟩
  · rw [hsign]
    exact hflush ⟨h1, h2, h3⟩
  · rw [hexact hr]
    rfl
  · exact kept_modes neg hz lo s hr rfl
  · obtain ⟨hover, hfin⟩ := hnum hno
    intro exceeds
    have hexceeds : exceeds ↔ _ := (FFmt.exceeds_iff hrow.regular hrounded).symm
    refine ⟨fun hx => ?_, fun hx => ?_⟩
    · have hgot : got = _ := hover (hexceeds.1 hx)
      rw [hgot, hrow.overflow, hrow.satFlag, hsign]
      rfl
    · have hgot : got = _ := hfin (mt hexceeds.2 hx)
      obtain ⟨field, frac, a, b, hfields, hcode, hdatum, hvalue⟩ := FFmt.encode_fields hrow.regular hrounded (mt hexceeds.2 hx) neg
      have hpack : got.1 = R.fmt.pack neg field frac := by
        rw [hgot, FFmt.pack, ← hcode]
      refine ⟨?_, ⟨a, b, ?_, hvalue⟩, ?_⟩
      · rw [hpack]
        exact (R.fmt.pack_fields neg (hfields.field_lt hrow.regular) hfields.1).2.2.2
      · rw [hpack, FFmt.decode_pack hrow.regular neg hfields, hdatum]
      · rw [hgot]
        by_cases hr : r = 0 <;> simp [hr, tiny]
  · rw [hsign, hrow.max, ← FFmt.maxBits_eq]
    exact FFmt.decode_maxBits hrow.regular neg

end Sys2Proof.Machine
end

section
/-! PROOFS. Link operations (13_link R37, R262 to R267, 24_program_multichip_dot R436): what sending and replacing an operation in flight do,
each arrival in its cases, and the statement O54. -/

namespace Sys2Proof.Machine

/-! ### What leaves the device -/

@[simp] theorem Chip.send_halt (c : Chip) (m : OutMsg) : (c.send m).halt = c.halt := rfl

/-- Sending to members of a communicator adds their messages to the outbox and changes nothing else. -/
theorem Chip.sendTo_eq {c : Chip} {slot : Nat} {m : Comm} (h : Sparse.get? c.comms slot = some m) (ranks : List Nat)
    (mk : Comm → Nat → OutMsg) :
    c.sendTo slot ranks mk = { c with outbox := c.outbox ++ ranks.map fun r => mk m (m.linkTo r) } := by
  have gen : ∀ (ranks : List Nat) (c : Chip), ranks.foldl (fun c r => c.send (mk m (m.linkTo r))) c =
      { c with outbox := c.outbox ++ ranks.map fun r => mk m (m.linkTo r) } := by
    intro ranks
    induction ranks with
    | nil => intro c; simp
    | cons r ranks ih => intro c; rw [List.foldl_cons, ih]; simp [Chip.send]
  unfold Chip.sendTo
  rw [h]
  exact gen ranks c

/-! ### Operations in flight -/

/-- The operation that has been put in another's place is found by its number. -/
theorem Chip.find_setEngine {c : Chip} {o o' : EngineOp} (h : o ∈ c.engines) (hid : o'.id = o.id) :
    (c.setEngine o').engines.find? (fun y => y.id == o.id) = some o' := by
  unfold Chip.setEngine
  rw [List.find?_map]
  have hsome : (c.engines.find? ((fun y => y.id == o.id) ∘ fun x => if x.id = o'.id then o' else x)).isSome = true := by
    rw [List.find?_isSome]
    exact ⟨o, h, by simp [hid]⟩
  obtain ⟨x, hx⟩ := Option.isSome_iff_exists.1 hsome
  have hpred := List.find?_some hx
  rw [hx, Option.map_some]
  by_cases hxo : x.id = o'.id
  · rw [if_pos hxo]
  · simp [hxo, ← hid] at hpred

/-- An operation put in its own place again stands there alone. -/
theorem Chip.setEngine_again (c : Chip) {o o' : EngineOp} (hid : o'.id = o.id) :
    ((c.setEngine o).setEngine o').engines = (c.setEngine o').engines := by
  unfold Chip.setEngine
  rw [List.map_map]
  refine List.map_congr_left fun x _ => ?_
  by_cases h : x.id = o.id <;> simp [h, hid]

/-! ### The steps -/

theorem exec_lsendAck (op n : Nat) (r : AckResult) (s : State) : exec (.lsendAck op n r) s = s.onChip (s.chip.lsendAck op n r) := rfl
theorem exec_lredContribution (x : Contribution) (s : State) : exec (.lredContribution x) s = s.onChip (s.chip.lredContribution x) := rfl
theorem exec_lredRoot (cid gen : BitVec 32) (coll : Nat) (x : RootFlit) (s : State) :
    exec (.lredRoot cid gen coll x) s = s.onChip (s.chip.lredRoot cid gen coll x) := rfl

theorem EngineOp.isColl_iff (o : EngineOp) (slot : Nat) (m : Comm) (coll : Nat) : o.isColl slot m coll = true ↔ o.inst = m.inst ∧
    ∃ q size rank own got order res next ended, q.slot = slot ∧
      o.kind = .lred q m.cid m.gen coll size rank own got order res next ended := by
  unfold EngineOp.isColl EngineOp.on EngineOp.comm
  cases o.kind with
  | copy => simp
  | lsend => simp
  | lred q cid gen k size rank own got order res next ended =>
    simp only [Bool.and_eq_true, beq_iff_eq, Option.some.injEq, Prod.mk.injEq, EngineKind.lred.injEq]
    constructor
    · rintro ⟨⟨⟨hslot, hcid, hgen⟩, hinst⟩, hcoll⟩
      exact ⟨hinst, q, size, rank, own, got, order, res, next, ended, hslot, rfl, hcid, hgen, hcoll, rfl, rfl, rfl, rfl, rfl, rfl, rfl, rfl⟩
    · rintro ⟨hinst, q', _, _, _, _, _, _, _, _, hslot, rfl, hcid, hgen, hcoll, -⟩
      exact ⟨⟨⟨hslot, hcid, hgen⟩, hinst⟩, hcoll⟩

/-! ### LSEND_ACK -/

/-- Bytes that the receiver has performed are counted (R266). -/
theorem Chip.lsendAck_ok {c : Chip} {o : EngineOp} {q : LinkReq} {cid gen : BitVec 32} {sent n : Nat} {ended : Bool}
    (ho : c.engines.find? (fun y => y.id == o.id) = some o) (hk : o.kind = .lsend q cid gen sent ended) (hl : o.landed < o.bytes)
    (h1 : 1 ≤ n) (hn : n + (if ended then 0 else q.count - sent) ≤ o.bytes - o.landed) : c.lsendAck o.id n .ok = c.linkLand o n 0 0 := by
  unfold Chip.lsendAck
  simp only [ho, hk]
  rw [if_neg (by omega), Nat.min_eq_left (by omega), if_neg (by omega)]

/-- A failure at the receiver ends the operation: all its bytes are counted, with FAULT (R266). -/
theorem Chip.lsendAck_fault {c : Chip} {o : EngineOp} {q : LinkReq} {cid gen : BitVec 32} {sent : Nat} {ended : Bool}
    (ho : c.engines.find? (fun y => y.id == o.id) = some o) (hk : o.kind = .lsend q cid gen sent ended) (hl : o.landed < o.bytes)
    (n : Nat) (va : W64) : c.lsendAck o.id n (.fault va) =
      c.linkLand { o with kind := .lsend q cid gen sent true } o.bytes statusFault va (min q.count (va.toNat - q.dst.toNat)) := by
  unfold Chip.lsendAck
  simp only [ho, hk]
  rw [if_neg (by omega)]

/-! ### Contributions and roots that no operation takes -/

theorem Chip.lredContribution_refused {c : Chip} {x : Contribution} (h : c.commOf x.cid x.gen = none) :
    c.lredContribution x = c.send (.refusal x.cid x.gen x.rank) := by
  simp only [Chip.lredContribution, h]

/-- A contribution without an operation is kept for a collective to come, if it is the first of its member. -/
theorem Chip.lredContribution_early {c : Chip} {x : Contribution} {slot : Nat} {m : Comm} (h : c.commOf x.cid x.gen = some (slot, m))
    (hn : c.engines.find? (fun y => y.isColl slot m x.coll) = none) : c.lredContribution x =
      if m.coll ≤ x.coll ∧ ∀ y ∈ m.early, ¬ (y.coll = x.coll ∧ y.rank = x.rank) then
        { c with comms := Sparse.set c.comms slot { m with early := m.early ++ [x] } }
      else c := by
  simp only [Chip.lredContribution, h, hn]
  simp

theorem Chip.lredRoot_refused {c : Chip} {cid gen : BitVec 32} (h : c.commOf cid gen = none) (coll : Nat) (x : RootFlit) :
    c.lredRoot cid gen coll x = c.send (.refusal cid gen x.rank) := by
  simp only [Chip.lredRoot, h]

theorem Chip.keepRoot_eq (c : Chip) (slot : Nat) (m : Comm) (coll : Nat) (x : RootFlit) : c.keepRoot slot m coll x =
    if ∃ y ∈ m.roots, y.1 = coll then c
    else { c with comms := Sparse.set c.comms slot { m with roots := m.roots ++ [(coll, x)] } } := by
  unfold Chip.keepRoot
  have hany : (m.roots.any fun y => y.1 == coll) = true ↔ ∃ y ∈ m.roots, y.1 = coll := by simp
  by_cases h : ∃ y ∈ m.roots, y.1 = coll
  · rw [if_pos h, if_pos (hany.2 h)]
  · rw [if_neg h, if_neg (mt hany.1 h)]

/-- The root of a collective whose LRED has not started here is kept for it; that of a collective that has passed is not. -/
theorem Chip.lredRoot_early {c : Chip} {cid gen : BitVec 32} {slot : Nat} {m : Comm} (h : c.commOf cid gen = some (slot, m)) {coll : Nat}
    (hf : c.engines.find? (fun y => y.isColl slot m coll) = none) (x : RootFlit) :
    c.lredRoot cid gen coll x = if m.coll ≤ coll then c.keepRoot slot m coll x else c := by
  simp only [Chip.lredRoot, h, hf]

theorem Chip.lredRoot_found {c : Chip} {cid gen : BitVec 32} {slot : Nat} {m : Comm} (h : c.commOf cid gen = some (slot, m)) {coll : Nat}
    {o : EngineOp} (hf : c.engines.find? (fun y => y.isColl slot m coll) = some o) (x : RootFlit) :
    c.lredRoot cid gen coll x = if o.started then c.lredTake o x else c.keepRoot slot m coll x := by
  simp only [Chip.lredRoot, h, hf]

theorem Chip.keepRoot_halt (c : Chip) (slot : Nat) (m : Comm) (coll : Nat) (x : RootFlit) : (c.keepRoot slot m coll x).halt = c.halt := by
  unfold Chip.keepRoot
  split <;> rfl

/-! ### The root at a member that waits for it -/

/-- A member that is not rank 0 takes the root's bits, sends them on, and counts them down (R267). -/
theorem Chip.lredTake_member {o : EngineOp} {q : LinkReq} {cid gen : BitVec 32} {coll size rank : Nat} {own : List NodeVal}
    {got : List (Nat × List NodeVal)} {order : List Nat} {next : Nat} {ended : Bool}
    (hk : o.kind = .lred q cid gen coll size rank own got order none next ended) (hr : rank ≠ 0) (c : Chip) (x : RootFlit) :
    c.lredTake o x =
      let bits := q.taken c.freeCtr x.vals
      let o' := { o with kind := .lred q cid gen coll size rank own got order (some bits) next ended }
      ((({ c with freeCtr := c.freeCtr + q.count } : Chip).setEngine o').sendTo q.slot (q.below size rank)
        fun m l => .root l cid gen coll m.rank bits).lredLand o' o.bytes := by
  simp only [Chip.lredTake, hk, if_neg hr]

/-- What an operation that has started does with a root that came before it did. -/
theorem Chip.lredKept_eq {c : Chip} {o : EngineOp} {q : LinkReq} {cid gen : BitVec 32} {coll size rank : Nat} {own : List NodeVal}
    {got : List (Nat × List NodeVal)} {order : List Nat} {res : Option (List NodeVal)} {next : Nat} {ended : Bool} {slot : Nat} {m : Comm}
    {x : RootFlit} (ho : c.engines.find? (fun y => y.id == o.id) = some o)
    (hk : o.kind = .lred q cid gen coll size rank own got order res next ended) (hm : c.commOf cid gen = some (slot, m))
    (hx : m.roots.find? (fun y => y.1 == coll) = some (coll, x)) :
    c.lredKept o.id = if o.isColl slot m coll then
      ({ c with comms := Sparse.set c.comms slot { m with roots := m.roots.filter fun z => z.1 != coll } } : Chip).lredTake o x
      else c := by
  unfold Chip.lredKept
  simp only [ho, hk, hm]
  cases o.isColl slot m coll with
  | false => 
    have hnone : (m.roots.find? fun y => y.1 == coll && false) = none := by simp
    rw [hnone]
    rfl
  | true => simp only [Bool.and_true, hx, if_true]

/-! ### A member that has what it takes -/

/-- Whether a member has started and holds what it takes. -/
def EngineOp.hasAll (o : EngineOp) (q : LinkReq) (size rank : Nat) (got : List (Nat × List NodeVal)) : Prop :=
  o.started = true ∧ ∀ k ∈ q.takes size rank, ∃ g ∈ got, g.1 = k

section
variable {c : Chip} {o : EngineOp} {q : LinkReq} {cid gen : BitVec 32} {coll size rank : Nat} {own : List NodeVal}
  {got : List (Nat × List NodeVal)} {order : List Nat} {next : Nat} {ended : Bool} {m : Comm}

theorem Chip.lredAdvance_waits (ho : c.engines.find? (fun y => y.id == o.id) = some o)
    (hk : o.kind = .lred q cid gen coll size rank own got order none next ended) (hn : ¬ o.hasAll q size rank got) :
    c.lredAdvance o.id = c := by
  unfold Chip.lredAdvance
  simp only [ho, hk]
  rw [if_pos]
  unfold EngineOp.hasAll at hn
  simpa [Decidable.imp_iff_not_or] using hn

/-- The guard of a member that has what it takes does not hold it back. -/
theorem EngineOp.hasAll.ready (h : o.hasAll q size rank got) :
    ¬ (!o.started || !(q.takes size rank).all fun r => got.any fun g => g.1 == r) = true := by
  obtain ⟨hs, hg⟩ := h
  simpa [hs] using hg

/-- What a member sends with its node: the node, and an empty contribution to the rank that would wait for it. -/
def nodeMessages (q : LinkReq) (m : Comm) (cid gen : BitVec 32) (coll rank : Nat) (node : List NodeVal) : List OutMsg :=
  .contribution (m.linkTo (q.parent rank)) { cid := cid, gen := gen, coll := coll, rank := m.rank, vals := node } ::
    (q.also rank).map fun k => .contribution (m.linkTo k) { cid := cid, gen := gen, coll := coll, rank := m.rank, vals := [] }

/-- A member that is not rank 0 sends its node to its parent, and an empty contribution to the rank that would wait for it (R267, R265). -/
theorem Chip.lredAdvance_node (ho : c.engines.find? (fun y => y.id == o.id) = some o)
    (hk : o.kind = .lred q cid gen coll size rank own got order none next ended) (hd : o.hasAll q size rank got) (hr : rank ≠ 0)
    (hm : Sparse.get? c.comms q.slot = some m) :
    c.lredAdvance o.id = { c with outbox := c.outbox ++ nodeMessages q m cid gen coll rank (q.gather size rank own got order) } := by
  unfold Chip.lredAdvance
  simp only [ho, hk]
  rw [if_neg hd.ready, if_neg hr, Chip.sendTo_eq (m := m), Chip.sendTo_eq hm]
  · simp [nodeMessages]
  · rw [Chip.sendTo_eq hm]
    exact hm

/-- The root of rank 0's node: converted once, or free values where the members disagree (R265, R267). -/
def LinkReq.formRoot (q : LinkReq) (agree : Bool) (ctr : Nat) (node : List NodeVal) : List NodeVal :=
  node.mapIdx fun e v => if agree then q.root v else .int ((Config.freeWord (ctr + e)).toNat % 2 ^ q.fmt.width : Nat)

@[simp] theorem LinkReq.formRoot_length (q : LinkReq) (agree : Bool) (ctr : Nat) (node : List NodeVal) :
    (q.formRoot agree ctr node).length = node.length := List.length_mapIdx ..

theorem LinkReq.formRoot_agree (q : LinkReq) (ctr : Nat) (node : List NodeVal) : q.formRoot true ctr node = node.map q.root := by
  apply List.ext_getElem <;> simp [LinkReq.formRoot]

@[simp] theorem LinkReq.gather_length (q : LinkReq) (size rank : Nat) (own : List NodeVal) (got : List (Nat × List NodeVal))
    (order : List Nat) : (q.gather size rank own got order).length = q.count := by
  simp [LinkReq.gather]

/-- Rank 0 forms the root, and sends it to the members below it (R267). -/
theorem Chip.lredAdvance_root (ho : c.engines.find? (fun y => y.id == o.id) = some o)
    (hk : o.kind = .lred q cid gen coll size 0 own got order none next ended) (hd : o.hasAll q size 0 got)
    (hm : Sparse.get? c.comms q.slot = some m) :
    let root := q.formRoot (q.agrees size own got) c.freeCtr (q.gather size 0 own got order)
    c.lredAdvance o.id = { c with
      freeCtr := c.freeCtr + q.count
      engines := (c.setEngine { o with kind := .lred q cid gen coll size 0 own got order (some root) next ended }).engines
      outbox := c.outbox ++ (q.below size 0).map fun k => .root (m.linkTo k) cid gen coll m.rank root } := by
  unfold Chip.lredAdvance
  simp only [ho, hk]
  rw [if_neg hd.ready, if_pos trivial, Chip.sendTo_eq (m := m)]
  · rfl
  · exact hm

/-- The operation with a contribution of rank `r` taken. -/
def EngineOp.taking (o : EngineOp) (q : LinkReq) (cid gen : BitVec 32) (coll size rank : Nat) (own : List NodeVal)
    (got : List (Nat × List NodeVal)) (order : List Nat) (next : Nat) (ended : Bool) (r : Nat) (vals : List NodeVal) : EngineOp :=
  { o with kind := .lred q cid gen coll size rank own (got ++ [(r, vals)]) (order ++ [r]) none next ended }

/-- A contribution that its collective waits for is taken, and the member goes on with what it has (R267). -/
theorem Chip.lredContribution_taken {slot r : Nat} {vals : List NodeVal} (hm : c.commOf cid gen = some (slot, m))
    (hf : c.engines.find? (fun y => y.isColl slot m coll) = some o)
    (hk : o.kind = .lred q cid gen coll size rank own got order none next ended) (hr : r ∈ q.takes size rank) (hg : ∀ g ∈ got, g.1 ≠ r) :
    c.lredContribution { cid := cid, gen := gen, coll := coll, rank := r, vals := vals } =
      (c.setEngine (o.taking q cid gen coll size rank own got order next ended r vals)).lredAdvance o.id := by
  unfold Chip.lredContribution
  simp only [hm, hf, hk]
  rw [if_pos (by simpa using ⟨hr, fun a b h => hg (a, b) h⟩)]
  rfl

/-- A member that has taken `r`'s contribution has what it takes if it has started and holds the others'. -/
theorem EngineOp.hasAll_append {o' : EngineOp} (hs : o'.started = o.started) (r : Nat) (vals : List NodeVal) :
    o'.hasAll q size rank (got ++ [(r, vals)]) ↔ o.started = true ∧ ∀ k ∈ q.takes size rank, k = r ∨ ∃ g ∈ got, g.1 = k := by
  unfold EngineOp.hasAll
  rw [hs]
  refine and_congr_right fun _ => forall₂_congr fun k _ => ?_
  constructor
  · rintro ⟨g, hg, rfl⟩
    rcases List.mem_append.1 hg with hg | hg
    · exact Or.inr ⟨g, hg, rfl⟩
    · exact Or.inl (by rw [List.mem_singleton.1 hg])
  · rintro (rfl | ⟨g, hg, rfl⟩)
    · exact ⟨_, List.mem_append_right _ (List.mem_singleton_self _), rfl⟩
    · exact ⟨g, List.mem_append_left _ hg, rfl⟩

end

/-- Settles O54: each arrival in its cases, by the lemmas above. -/
theorem linkProgress : Obligations.LinkProgress := by
  unfold Obligations.LinkProgress
  intro s o hw
  refine ⟨o.isColl_iff, fun ho q cid gen sent ended hk hl => ⟨fun n h1 hn hd => ?_, fun n va => ?_⟩, fun cid gen coll x hm => ?_,
    fun x hm => ?_, fun x slot m hm hf => ?_, fun slot m cid gen coll x hm => ⟨fun hf hc => ?_, fun hf hc => ?_, fun hf hs => ?_⟩,
    fun q cid gen coll size rank own got order res next ended c vals hk hc => ?_,
    fun slot m q cid gen coll size rank own got order next ended x ho hk hr hm hx => ⟨fun hi => ?_, fun hi => ?_⟩,
    fun slot m q cid gen coll size rank own got order next ended hm hf hnd hslot hk => ⟨fun r vals hr hg => ?_, fun x hs hr => ?_⟩⟩
  · rw [exec_lsendAck, Chip.lsendAck_ok ho hk hl h1 hn, State.onChip_whole s hd]
  · intro d hd
    rw [exec_lsendAck, Chip.lsendAck_fault ho hk hl, State.onChip_whole s hd]
  · rw [exec_lredRoot, Chip.lredRoot_refused hm, State.onChip_whole s ((Chip.send_halt ..).trans hw)]
  · rw [exec_lredContribution, Chip.lredContribution_refused hm, State.onChip_whole s ((Chip.send_halt ..).trans hw)]
  · rw [exec_lredContribution, Chip.lredContribution_early hm hf, State.onChip_whole]
    split <;> exact hw
  · rw [exec_lredRoot, Chip.lredRoot_early hm hf, if_pos hc, State.onChip_whole s ((Chip.keepRoot_halt ..).trans hw), Chip.keepRoot_eq]
  · rw [exec_lredRoot, Chip.lredRoot_early hm hf, if_neg (by omega), State.onChip_whole s hw]
    rfl
  · rw [exec_lredRoot, Chip.lredRoot_found hm hf, hs, if_neg (by simp), State.onChip_whole s ((Chip.keepRoot_halt ..).trans hw),
      Chip.keepRoot_eq]
  · simp only [Chip.lredStart, hc, hk]
  · rw [Chip.lredKept_eq ho hk hm hx, hi]
    rfl
  · rw [Chip.lredKept_eq ho hk hm hx, if_pos hi, Chip.lredTake_member hk hr]
  · intro o' node done
    have hmem : o ∈ s.chip.engines := List.mem_of_find?_eq_some hf
    have ho' : (s.chip.setEngine o').engines.find? (fun y => y.id == o'.id) = some o' := Chip.find_setEngine (o := o) hmem rfl
    have hdone : o'.hasAll q size rank (got ++ [(r, vals)]) ↔ done := EngineOp.hasAll_append rfl r vals
    have hslot' : Sparse.get? (s.chip.setEngine o').comms q.slot = some m := hslot
    have hexec : ∀ c : Chip, (s.chip.setEngine o').lredAdvance o'.id = c → c.halt = none →
        exec (.lredContribution { cid := cid, gen := gen, coll := coll, rank := r, vals := vals }) s = .next (s.withChip c) := by
      intro c hc hh
      rw [exec_lredContribution, Chip.lredContribution_taken hm hf hk hr hg]
      exact (congrArg s.onChip hc).trans (State.onChip_whole s hh)
    by_cases hd : done
    · by_cases hr0 : rank = 0
      · subst hr0
        have hroot := Chip.lredAdvance_root ho' rfl (hdone.2 hd) hslot'
        refine ⟨_, hexec _ hroot hw, fun hn => absurd hd hn, fun _ h => absurd rfl h, fun _ _ => ⟨_, by simp, fun ha => ?_, ?_, rfl⟩⟩
        · rw [ha]
          exact q.formRoot_agree _ _
        · exact Chip.setEngine_again _ rfl
      · have hnode := Chip.lredAdvance_node ho' rfl (hdone.2 hd) hr0 hslot'
        exact ⟨_, hexec _ hnode hw, fun hn => absurd hd hn, fun _ _ => ⟨rfl, LinkReq.gather_length .., rfl⟩, fun _ h => absurd h hr0⟩
    · have hwait := Chip.lredAdvance_waits ho' rfl (mt hdone.1 hd)
      exact ⟨_, hexec _ hwait hw, fun _ => ⟨rfl, rfl⟩, fun h => absurd h hd, fun h => absurd h hd⟩
  · intro bits c o' d hd
    rw [exec_lredRoot, Chip.lredRoot_found hm hf, if_pos hs, Chip.lredTake_member hk hr, State.onChip_whole s hd]

end Sys2Proof.Machine
end

section
/-! PROOFS. What the movement of data leaves as it was (10_page R218, 11_ordering R225 to R228): write-backs, drains and the reads and releases
made of them change memory, tags, caches, posted accesses and the registers of strands, and neither a context nor anything else of a strand. -/

namespace Sys2Proof.Machine

/-! ### Strands that differ in registers -/

/-- Two strands are alike but for their vector and scalar registers, with the dirty bits of the vector registers' blocks. -/
def Strand.Alike (t u : Strand) : Prop := ∃ v r d, u = { t with vregs := v, sregs := r, dirty := d }

theorem Strand.Alike.refl (t : Strand) : t.Alike t := ⟨t.vregs, t.sregs, t.dirty, rfl⟩

theorem Strand.Alike.trans {t u v : Strand} (h : t.Alike u) (k : u.Alike v) : t.Alike v := by
  obtain ⟨_, _, _, rfl⟩ := h
  obtain ⟨a, b, d, rfl⟩ := k
  exact ⟨a, b, d, rfl⟩

/-- Loaded bytes land in registers alone. -/
theorem Strand.alike_land (t : Strand) (d : LoadDest) (bs : List Byte) : t.Alike (t.land d bs) := by
  cases d with
  | vec reg lane _ signed => exact foldl_keeps (P := t.Alike) (fun _ _ h => h.trans ⟨_, _, _, rfl⟩) _ (.refl t)
  | scalar reg _ signed => exact ⟨_, _, _, rfl⟩

/-! ### Chips that differ in data -/

/-- The chip `d` is `c` after data has moved: its contexts are the same, and its strands but for their registers. -/
structure Chip.Moved (c d : Chip) : Prop where
  ctxs : d.ctxs = c.ctxs
  strand : ∀ sid t, c.strand sid = some t → ∃ u, d.strand sid = some u ∧ t.Alike u

namespace Chip.Moved

theorem refl (c : Chip) : c.Moved c := ⟨rfl, fun _ t h => ⟨t, h, .refl t⟩⟩

theorem trans {c d e : Chip} (h : c.Moved d) (k : d.Moved e) : c.Moved e where
  ctxs := k.ctxs.trans h.ctxs
  strand sid t ht := by
    obtain ⟨u, hu, tu⟩ := h.strand sid t ht
    obtain ⟨v, hv, uv⟩ := k.strand sid u hu
    exact ⟨v, hv, tu.trans uv⟩

/-- A change that touches neither contexts nor strands. -/
theorem of_eq {c d : Chip} (hc : d.ctxs = c.ctxs) (hs : d.strands = c.strands) : c.Moved d :=
  ⟨hc, fun _ t h => ⟨t, by rwa [Chip.strand, hs], .refl t⟩⟩

theorem foldl {α : Type} {f : Chip → α → Chip} (hf : ∀ (c : Chip) a, c.Moved (f c a)) (ls : List α) (c : Chip) : c.Moved (ls.foldl f c) :=
  foldl_keeps (P := c.Moved) (fun d a h => h.trans (hf d a)) ls (.refl c)

theorem isDet {c d : Chip} (h : c.Moved d) (ctx : Nat) : d.isDet ctx = c.isDet ctx := by
  simp only [Chip.isDet, Chip.ctx, h.ctxs]

theorem buffers {c d : Chip} (h : c.Moved d) (t : Strand) : d.buffers t = c.buffers t := by
  simp only [Chip.buffers, h.isDet]

/-! ### The operations that move data -/

theorem writePhys (c : Chip) (p : Place) (pa : Nat) (bs : List Byte) : c.Moved (c.writePhys p pa bs) := by
  obtain ⟨m, x, e, -⟩ := c.writePhys_frame p pa bs
  rw [e]
  exact of_eq rfl rfl

theorem setTag (c : Chip) (p : Place) (pa : Nat) (t : BitVec 2) : c.Moved (c.setTag p pa t) := of_eq rfl rfl

theorem copyTags (c : Chip) (sp : Place) (src : Nat) (np : Place) (new : Nat) : c.Moved (c.copyTags sp src np new) := by
  unfold Chip.copyTags
  split
  · exact refl c
  · exact foldl (fun c _ => setTag c ..) _ c

theorem migDone (c : Chip) (m : Mig) : c.Moved (c.migDone m) := by
  unfold Chip.migDone
  dsimp only
  split
  · exact writePhys ..
  · exact refl c

theorem pullLine (c : Chip) (m : Mig) (line : Nat) : c.Moved (c.pullLine m line) := by
  unfold Chip.pullLine
  split
  · exact refl c
  · dsimp only
    split
    · exact refl c
    · exact (((writePhys ..).trans (copyTags ..)).trans (writePhys ..)).trans (migDone ..)

theorem pull (c : Chip) (m : Option Mig) (n : Nat) : c.Moved (c.pull m n) := by
  unfold Chip.pull
  split
  · exact refl c
  · exact foldl (fun c _ => pullLine c ..) _ c

theorem writeBack (c : Chip) (l : L1Line) : c.Moved (c.writeBack l) := by
  unfold Chip.writeBack
  split
  · exact refl c
  · exact (pull ..).trans (writePhys ..)

/-- The old value of an atomic lands in its strand's registers. -/
theorem deliverOld (c : Chip) (p : Posted) (n : Nat) (old : W64) : c.Moved (c.deliverOld p n old) := by
  unfold Chip.deliverOld
  split
  · exact refl c
  · next d _ =>
    refine ⟨rfl, fun sid t ht => ?_⟩
    simp only [Chip.strand, Sparse.update] at ht ⊢
    split
    · exact ⟨t, ht, .refl t⟩
    · next u hu =>
      rw [Sparse.get?_set]
      split
      · next e =>
        obtain rfl : u = t := Option.some.inj (hu.symm.trans (e ▸ ht))
        exact ⟨_, rfl, u.alike_land ..⟩
      · exact ⟨t, ht, .refl t⟩

theorem perform (c : Chip) (p : Posted) : c.Moved (c.perform p) := by
  unfold Chip.perform
  split
  · exact (pull ..).trans (writePhys ..)
  · exact ((pull ..).trans (writePhys ..)).trans (deliverOld ..)

theorem drainIf (c : Chip) (sel : Posted → Bool) : c.Moved (c.drainIf sel) := by
  unfold Chip.drainIf
  split
  · exact refl c
  · exact trans (d := { c with posted := c.posted.filter fun p => !sel p }) (of_eq rfl rfl) (foldl perform ..)

theorem drainFor (c : Chip) (core : Nat) (p : Place) (pa n : Nat) : c.Moved (c.drainFor core p pa n) := by
  unfold Chip.drainFor
  split
  · exact drainIf ..
  · exact refl c

theorem flushLines (c : Chip) (core : Nat) (sel : L1Line → Bool) (drop : Bool) : c.Moved (c.flushLines core sel drop) := by
  have hlines := foldl (f := fun c l => if l.dirty = 0 then c else (c.drainFor core l.place l.pa 64).writeBack l)
    (fun c l => by
      split
      · exact refl c
      · exact (drainFor ..).trans (writeBack ..)) ((c.core core).l1.filter sel) c
  unfold Chip.flushLines
  dsimp only
  split
  · exact hlines
  · exact hlines.trans (of_eq rfl rfl)

theorem acquireL1 (c : Chip) (core ctx : Nat) : c.Moved (c.acquireL1 core ctx) := flushLines ..

theorem release (c : Chip) (sid core ctx scope : Nat) : c.Moved (c.release sid core ctx scope) := by
  unfold Chip.release
  split
  · exact (drainIf ..).trans (flushLines ..)
  · exact refl c

theorem readOwner (c : Chip) (t : Strand) (r : Reach) : c.Moved (c.readOwner t r).1 := by
  unfold Chip.readOwner
  split
  · exact refl c
  · refine trans ?_ ((drainFor ..).trans (pull ..))
    split
    · exact refl c
    · exact flushLines ..

end Chip.Moved

end Sys2Proof.Machine
end

section
/-! PROOFS. Task instructions (19_isa_sync_engine_system R405 to R408; 05_group_strand R113, R114; 03_queue R76): tokens, creation and
graph nodes, the three instructions of an unpaired strand in their cases, and the statement O39. -/

namespace Sys2Proof.Machine

/-! ### The least free number -/

theorem leastFree_ge (used : List Nat) (fuel lo : Nat) : lo ≤ leastFree used lo fuel := by
  induction fuel generalizing lo with
  | zero => exact Nat.le_refl lo
  | succ fuel ih =>
    unfold leastFree
    split
    · exact Nat.le_of_succ_le (ih (lo + 1))
    · exact Nat.le_refl lo

/-- Every number below it is used. -/
theorem mem_of_lt_leastFree (used : List Nat) {fuel lo k : Nat} (h : lo ≤ k) (hk : k < leastFree used lo fuel) : k ∈ used := by
  induction fuel generalizing lo with
  | zero => exact absurd hk (Nat.not_lt.2 h)
  | succ fuel ih =>
    unfold leastFree at hk
    split at hk
    · next hu =>
      rcases Nat.eq_or_lt_of_le h with rfl | hlt
      · exact List.contains_iff_mem.1 hu
      · exact ih hlt hk
    · exact absurd hk (Nat.not_lt.2 h)

/-- With more tries than used numbers from `lo` up, a free one is found: each try that fails leaves one used number fewer. -/
theorem leastFree_not_mem_of_lt (used : List Nat) {fuel lo : Nat} (h : (used.filter fun k => decide (lo ≤ k)).length < fuel) :
    leastFree used lo fuel ∉ used := by
  induction fuel generalizing lo with
  | zero => exact absurd h (Nat.not_lt_zero _)
  | succ fuel ih =>
    unfold leastFree
    split
    · next hu =>
      have hlo : lo ∈ used.filter fun k => decide (lo ≤ k) := List.mem_filter.2 ⟨List.contains_iff_mem.1 hu, by simp⟩
      have hrest : (used.filter fun k => decide (lo + 1 ≤ k)) = (used.filter fun k => decide (lo ≤ k)).filter fun k => decide (lo + 1 ≤ k) := by
        rw [List.filter_filter]
        refine List.filter_congr fun k _ => Bool.eq_iff_iff.2 ?_
        rw [Bool.and_eq_true, decide_eq_true_eq, decide_eq_true_eq]
        omega
      have hfewer : (used.filter fun k => decide (lo + 1 ≤ k)).length < (used.filter fun k => decide (lo ≤ k)).length := by
        rw [hrest]
        exact List.length_filter_lt_length_iff_exists.2 ⟨lo, hlo, by simp⟩
      exact ih (by omega)
    · next hu => exact fun hm => hu (List.contains_iff_mem.2 hm)

theorem leastFree_not_mem (used : List Nat) (lo : Nat) : leastFree used lo (used.length + 1) ∉ used :=
  leastFree_not_mem_of_lt used (Nat.lt_succ_of_le (List.length_filter_le ..))

/-! ### Creation -/

theorem Chip.poolOf_setPool (c : Chip) (die : Nat) (xs : List NewStrand) : (c.setPool die xs).poolOf die = xs := by
  simp [Chip.poolOf, Chip.setPool]

/-- In a normal context a strand enters its die's pool at the end. -/
theorem Chip.poolOf_enterPool {c : Chip} {n : NewStrand} (h : c.isDet n.ctx = false) :
    (c.enterPool n).poolOf n.die = c.poolOf n.die ++ [n] := by
  simp [Chip.enterPool, h, Chip.poolOf_setPool]

/-- The chip `d` is `c` with the strand `n` last in its die's pool, under the lowest free token of its context. -/
def Chip.Creates (c d : Chip) (n : NewStrand) : Prop :=
  ∃ e, d.poolOf n.die = c.poolOf n.die ++ [e] ∧ e = { n with token := e.token, chain := n.chain ++ [e.token] } ∧ e.token ∉ c.tokens n.ctx ∧
    1 ≤ e.token ∧ ∀ k, 1 ≤ k → k < e.token → k ∈ c.tokens n.ctx

theorem Chip.creates_createStrand {c : Chip} {n : NewStrand} (h : c.isDet n.ctx = false) : c.Creates (c.createStrand n) n :=
  ⟨_, Chip.poolOf_enterPool (n := { n with token := c.freshToken n.ctx, chain := n.chain ++ [c.freshToken n.ctx] }) h, rfl,
    leastFree_not_mem _ 1, leastFree_ge _ _ 1, fun _ h1 hk => mem_of_lt_leastFree _ h1 hk⟩

/-! ### Graph nodes -/

/-- The handle of a node names it. -/
theorem Chip.nodeOf_nodeHandle {c : Chip} {ctx gen index : Nat} {m : Node} (hctx : ctx < 64) (hindex : index < 2 ^ 18)
    (hm : Sparse.get? c.nodes (nodeKey ctx index) = some m) (hgen : m.gen = gen % 2 ^ 16) :
    c.nodeOf ctx (nodeHandle ctx gen index) = some (nodeKey ctx index, m) := by
  have hv : (nodeHandle ctx gen index).toNat = ctx * 2 ^ 34 + gen % 2 ^ 16 * 2 ^ 18 + index := by
    rw [nodeHandle, BitVec.toNat_ofNat]
    omega
  have hfield : ∀ lo w, (bits (nodeHandle ctx gen index) lo w).toNat = (ctx * 2 ^ 34 + gen % 2 ^ 16 * 2 ^ 18 + index) / 2 ^ lo % 2 ^ w :=
    fun lo w => by rw [bits, BitVec.extractLsb'_toNat, hv, Nat.shiftRight_eq_div_pow]
  have htop : bits (nodeHandle ctx gen index) 40 24 = (0 : BitVec 24) := BitVec.eq_of_toNat_eq ((hfield 40 24).trans (by simp; omega))
  have hc : (bits (nodeHandle ctx gen index) 34 6).toNat = ctx := by rw [hfield]; omega
  have hi : (bits (nodeHandle ctx gen index) 0 18).toNat = index := by rw [hfield]; omega
  have hg : (bits (nodeHandle ctx gen index) 18 16).toNat = gen % 2 ^ 16 := by rw [hfield]; omega
  simp only [Chip.nodeOf, htop, hc, hi, hg, hm, hgen]
  simp

theorem Chip.freshNode_lt (c : Chip) (ctx : Nat) : c.freshNode ctx < 2 ^ 18 := Nat.mod_lt _ (by decide)

/-- With count 0 a node is at once a spawned strand. -/
theorem Chip.createNode_zero {c : Chip} {n : NewStrand} (h : c.isDet n.ctx = false) (hint : Nat) {count : Nat} (h0 : count = 0) :
    c.Creates (c.createNode n hint count).1 n ∧ (c.createNode n hint count).1.nodes = c.nodes := by
  subst h0
  exact ⟨Chip.creates_createStrand (c := { c with nodeUses := _ }) h, rfl⟩

/-- With a greater count its handle names it, and the other nodes stay. -/
theorem Chip.createNode_pos (c : Chip) (n : NewStrand) (hint : Nat) {count : Nat} (h : count ≠ 0) (hctx : n.ctx < 64) :
    let d := c.createNode n hint count
    d.1.pools = c.pools ∧ ∃ k m, d.1.nodeOf n.ctx d.2 = some (k, m) ∧ m.count = count ∧ m.strand = n ∧
      ∀ j, j ≠ k → Sparse.get? d.1.nodes j = Sparse.get? c.nodes j := by
  simp only [Chip.createNode, if_neg h]
  exact ⟨trivial, _, _, Chip.nodeOf_nodeHandle hctx (c.freshNode_lt n.ctx) (Sparse.get?_set_self ..) rfl, rfl, rfl,
    fun j hj => Sparse.get?_set_ne _ _ hj⟩

/-- A node that SIGNAL does not bring to zero counts down. -/
theorem Chip.signalNode_counts (c : Chip) (key : Nat) {n : Node} (h : 2 ≤ n.count) :
    c.signalNode key n = { c with nodes := Sparse.set c.nodes key { n with count := n.count - 1 } } := by
  rw [Chip.signalNode, if_neg (by omega)]

/-- A node that SIGNAL brings to zero goes, and its strand is created. -/
theorem Chip.signalNode_creates {c : Chip} (key : Nat) {n : Node} (h : n.count ≤ 1) (hd : c.isDet n.strand.ctx = false) :
    (c.signalNode key n).nodes = Sparse.erase c.nodes key ∧ c.Creates (c.signalNode key n) n.strand := by
  rw [Chip.signalNode, if_pos h]
  exact ⟨rfl, Chip.creates_createStrand (c := { c with nodes := _ }) hd⟩

/-! ### Spawn records -/

/-- The checks of a spawn record read memory, and no handler passes them. -/
theorem Chip.spawnRecord_inl {c d : Chip} {t : Strand} {va : W64} {count : Option W64} {bs : List Byte}
    (h : c.spawnRecord t va count = (d, .inl bs)) : t.isHandler = false ∧ c.Moved d := by
  unfold Chip.spawnRecord at h
  split at h
  · cases h
  · next hh =>
    refine ⟨by simpa using hh, ?_⟩
    split at h
    · cases h
    · cases h
    · next x _ =>
      dsimp only at h
      split at h
      · cases h
      split at h
      · cases h
      split at h
      · cases h
      split at h
      · cases h
      cases h
      exact .readOwner ..

/-- A strand whose work is not buffered, and which passes those checks, is of a normal context. -/
theorem Chip.spawnRecord_normal {c d : Chip} {t : Strand} {va : W64} {count : Option W64} {bs : List Byte}
    (h : c.spawnRecord t va count = (d, .inl bs)) (hb : c.buffers t = false) : d.isDet t.ctx = false := by
  obtain ⟨hh, hmoved⟩ := Chip.spawnRecord_inl h
  rw [hmoved.isDet]
  simpa [Chip.buffers, hh] using hb

/-! ### An instruction of an unpaired strand that waits for older loads -/

section
variable {s : State} {t : Strand} {sp : OpSpec} {f : Frame} {i : Instr} {half : Nat → Chip → Strand → Chip × Out}

/-- An instruction that waits leaves its strand waiting. -/
theorem State.strandInstr_waits {body : Chip → Strand → Chip × Out} {w : WaitCause} (hi : s.Issues t sp f)
    (hb : body s.chip t = (s.chip, .wait t w)) :
    s.strandInstr i sp f body = .next (s.withChip (s.chip.setStrand s.chip.cur { t with status := .waiting w })) := by
  rw [State.strandInstr_issues hi, hb]
  exact State.onChip_whole s hi.1.1

/-- An instruction that does not issue leaves its strand ready at it. -/
theorem State.strandInstr_stalls {body : Chip → Strand → Chip × Out} (hi : s.Issues t sp f) (hb : body s.chip t = (s.chip, .stall)) :
    s.strandInstr i sp f body = .next (s.withChip (s.chip.setStrand s.chip.cur { t with status := .ready })) := by
  have hstrand : Sparse.get? s.chip.strands s.chip.cur = some t := hi.1.2
  rw [State.strandInstr_issues hi, hb]
  simp only [Chip.finish, Chip.updStrand, Sparse.update, hstrand]
  exact State.onChip_whole s hi.1.1

/-- What a task instruction does in a strand. -/
def taskBody (half : Nat → Chip → Strand → Chip × Out) : Chip → Strand → Chip × Out :=
  afterLoads fun c t => wholeHalves t.halves half c t

theorem taskBody_owes {c : Chip} (h : c.owesLoads t = true) : taskBody half c t = (c, .wait t .bud) := by
  rw [taskBody, afterLoads, if_pos h]

/-- Once older loads have landed, an unpaired strand executes its one half. -/
theorem taskBody_half {c d : Chip} {o : Out} (h : c.owesLoads t = false) (hp : t.paired = false) (hh : half 0 c t = (d, o)) :
    taskBody half c t = (if o = .stall then c else d, o) := by
  have hs : t.halves = [0] := by simp [Strand.halves, hp]
  rw [taskBody, afterLoads, h, if_neg (by simp), hs, wholeHalves, eachHalf, hh]
  cases o <;> simp

/-- A task instruction whose half retires. -/
theorem State.task_retires {d : Chip} {u : Strand} {pc : W64} (hi : s.Issues t sp f) (ho : s.chip.owesLoads t = false) (hp : t.paired = false)
    (hm : markRegs sp f = []) (hh : half 0 s.chip t = (d, .done u pc false)) (hw : d.Whole) :
    s.strandInstr i sp f (taskBody half) = .next (s.withChip (d.setStrand s.chip.cur (u.retired' (d.quantumOf u) [] false pc))) := by
  have hbody : taskBody half s.chip t = (d, .done u pc false) := by rw [taskBody_half ho hp hh, if_neg (by simp)]
  rw [State.strandInstr_retires hi hbody hw, hm]

/-- A task instruction whose half does not issue: what the half has read has no effect. -/
theorem State.task_stalls {d : Chip} (hi : s.Issues t sp f) (ho : s.chip.owesLoads t = false) (hp : t.paired = false)
    (hh : half 0 s.chip t = (d, .stall)) :
    s.strandInstr i sp f (taskBody half) = .next (s.withChip (s.chip.setStrand s.chip.cur { t with status := .ready })) :=
  State.strandInstr_stalls hi (taskBody_half ho hp hh)

/-- A task instruction whose half stops before it has changed anything. -/
theorem State.task_traps {tr : Trap} (hi : s.Issues t sp f) (ho : s.chip.owesLoads t = false) (hp : t.paired = false) (hz : s.Freezes t)
    (hc : tr.cause ≠ .pageFault) (hh : half 0 s.chip t = (s.chip, .stop tr)) :
    s.strandInstr i sp f (taskBody half) = .next (s.traps t tr) :=
  State.strandInstr_traps hi hz hc (by rw [taskBody_half ho hp hh, if_neg (by simp)])

end

/-! ### SPAWN, SPAWND and SIGNAL -/

/-- The checks of the three instructions, as the dispatch of `exec` runs them. -/
def spawnSpec : OpSpec := { taskSpec 0x2E0 with a := .scalar }
def spawndSpec : OpSpec := { taskSpec 0x2E1 with d := .scalar, a := .scalar, b := FieldSpec.scalar.orZero }
def signalSpec : OpSpec := { taskSpec 0x2E2 with a := .scalar }

theorem exec_spawn (f : Frame) (s : State) : exec (.spawn f) s = s.strandInstr (.spawn f) spawnSpec f (taskBody (spawnHalf f)) := rfl
theorem exec_spawnd (f : Frame) (s : State) : exec (.spawnd f) s = s.strandInstr (.spawnd f) spawndSpec f (taskBody (spawndHalf f)) := rfl
theorem exec_signal (f : Frame) (s : State) : exec (.signal f) s = s.strandInstr (.signal f) signalSpec f (taskBody (signalHalf f)) := rfl

@[simp] theorem markRegs_spawnSpec (f : Frame) : markRegs spawnSpec f = [] := markRegs_none rfl rfl rfl
@[simp] theorem markRegs_spawndSpec (f : Frame) : markRegs spawndSpec f = [] := markRegs_none rfl rfl rfl
@[simp] theorem markRegs_signalSpec (f : Frame) : markRegs signalSpec f = [] := markRegs_none rfl rfl rfl

section
variable {c d : Chip} {t : Strand} {f : Frame} {bs : List Byte}

theorem spawnHalf_stalls (hr : c.spawnRecord t (sVal t 0 f.a) none = (d, .inl bs))
    (h : d.atSpawnQ t.ctx = true ∨ d.poolRoom (t.child bs).die = false) : spawnHalf f 0 c t = (d, .stall) := by
  simp only [spawnHalf, hr]
  exact if_pos (by simpa using h)

theorem spawnHalf_creates (hr : c.spawnRecord t (sVal t 0 f.a) none = (d, .inl bs)) (hb : c.buffers t = false)
    (hq : d.atSpawnQ t.ctx = false) (hp : d.poolRoom (t.child bs).die = true) :
    spawnHalf f 0 c t = ((d.release d.cur t.core t.ctx 3).createStrand (t.child bs), retires { t with ordinal := t.ordinal + 1 }) := by
  have hb' : (d.release d.cur t.core t.ctx 3).buffers t = false := by
    rw [(Chip.Moved.release ..).buffers, (Chip.spawnRecord_inl hr).2.buffers, hb]
  simp [spawnHalf, hr, hq, hp, hb']

theorem spawndHalf_stalls (hr : c.spawnRecord t (sVal t 0 f.a) (some (sVal t 0 f.b)) = (d, .inl bs))
    (h : d.atSpawnQ t.ctx = true ∨ d.poolRoom (t.child bs).die = false ∨ (sVal t 0 f.b ≠ 0 ∧ d.nodeRoom = false)) :
    spawndHalf f 0 c t = (d, .stall) := by
  simp only [spawndHalf, hr]
  exact if_pos (by simpa [or_assoc] using h)

theorem putS_nextPc (t : Strand) (h : Nat) (o : Operand) (v : W64) : (putS t h o v).nextPc = t.nextPc := by
  obtain ⟨r, e⟩ := putS_frame t h o v
  rw [e]
  rfl

theorem spawndHalf_creates (hr : c.spawnRecord t (sVal t 0 f.a) (some (sVal t 0 f.b)) = (d, .inl bs)) (hb : c.buffers t = false)
    (hq : d.atSpawnQ t.ctx = false) (hp : d.poolRoom (t.child bs).die = true) (hn : sVal t 0 f.b ≠ 0 → d.nodeRoom = true) :
    let r := (d.release d.cur t.core t.ctx 3).createNode (t.child bs) (hintOf bs) (sVal t 0 f.b).toNat
    spawndHalf f 0 c t = (r.1, .done (putS { t with ordinal := t.ordinal + 1 } 0 f.d r.2) t.nextPc false) := by
  have hb' : (d.release d.cur t.core t.ctx 3).buffers t = false := by
    rw [(Chip.Moved.release ..).buffers, (Chip.spawnRecord_inl hr).2.buffers, hb]
  have hroom : (sVal t 0 f.b != 0 && !d.nodeRoom) = false := by
    by_cases h0 : sVal t 0 f.b = 0
    · simp [h0]
    · simp [hn h0]
  simp only [spawndHalf, hr, hq, hp, hb', hroom, Bool.not_true, Bool.or_self, Bool.false_eq_true, if_false, retires, putS_nextPc]
  rfl

theorem signalHalf_absent (hb : c.buffers t = false) (hn : c.nodeOf t.ctx (sVal t 0 f.a) = none) :
    signalHalf f 0 c t = (c, .stop (Trap.instr .badOperand 3 0)) := by
  simp [signalHalf, hb, hn]

theorem signalHalf_stalls {k : Nat} {n : Node} (hb : c.buffers t = false) (hn : c.nodeOf t.ctx (sVal t 0 f.a) = some (k, n))
    (h1 : n.count ≤ 1) (hp : c.poolRoom n.strand.die = false) : signalHalf f 0 c t = (c, .stall) := by
  simp [signalHalf, hb, hn, h1, hp]

theorem signalHalf_counts {k : Nat} {n : Node} (hb : c.buffers t = false) (hn : c.nodeOf t.ctx (sVal t 0 f.a) = some (k, n))
    (h : 2 ≤ n.count ∨ c.poolRoom n.strand.die = true) :
    signalHalf f 0 c t = ((c.release c.cur t.core t.ctx 3).signalNode k n, retires t) := by
  have hroom : (decide (n.count ≤ 1) && !c.poolRoom n.strand.die) = false := by
    rcases h with h | h
    · simp [show ¬ n.count ≤ 1 by omega]
    · simp [h]
  simp only [signalHalf, hb, hn, hroom, Bool.false_eq_true, if_false]

end

/-- Settles O39: each of the three instructions is its one half's work after older loads, and each half has the cases above. -/
theorem tasks : Obligations.Tasks := by
  unfold Obligations.Tasks
  intro s t f hp hb done stalls created spawn spawnd signal
  refine ⟨fun ho => ?_, fun ho => ⟨fun c bs hi hr => ?_, fun c bs hi hr => ?_, fun hi => ⟨fun k n hn => ?_, fun hn hz => ?_⟩⟩⟩
  · exact ⟨fun hi => State.strandInstr_waits hi (taskBody_owes ho), fun hi => State.strandInstr_waits hi (taskBody_owes ho),
      fun hi => State.strandInstr_waits hi (taskBody_owes ho)⟩
  · intro n r d
    have hdet : r.isDet n.ctx = false := ((Chip.Moved.release ..).isDet _).trans (Chip.spawnRecord_normal hr hb)
    refine ⟨⟨rfl, rfl, rfl, rfl, rfl, rfl, rfl, rfl⟩, fun hq hroom hw => ⟨?_, Chip.creates_createStrand hdet⟩, fun h => ?_⟩
    · exact State.task_retires hi ho hp (markRegs_spawnSpec f) (spawnHalf_creates hr hb hq hroom) hw
    · exact State.task_stalls hi ho hp (spawnHalf_stalls hr h)
  · intro n count r d
    have hdet : r.isDet n.ctx = false := ((Chip.Moved.release ..).isDet _).trans (Chip.spawnRecord_normal hr hb)
    refine ⟨fun hq hroom hnode hw => ⟨?_, fun h0 => ?_, fun h0 hctx => ?_⟩, fun h => ?_⟩
    · exact State.task_retires hi ho hp (markRegs_spawndSpec f) (spawndHalf_creates hr hb hq hroom hnode) hw
    · exact Chip.createNode_zero hdet (hintOf bs) (by rw [h0]; rfl)
    · exact r.createNode_pos n (hintOf bs) (fun e => h0 (BitVec.eq_of_toNat_eq e)) hctx
    · exact State.task_stalls hi ho hp (spawndHalf_stalls hr h)
  · intro r d
    refine ⟨fun hroom hw => ⟨?_, fun h2 => r.signalNode_counts k h2, fun h1 hdet => ?_⟩, fun h1 hroom => ?_⟩
    · exact State.task_retires hi ho hp (markRegs_signalSpec f) (signalHalf_counts hb hn hroom) hw
    · exact Chip.signalNode_creates k h1 (((Chip.Moved.release ..).isDet _).trans hdet)
    · exact State.task_stalls hi ho hp (signalHalf_stalls hb hn h1 hroom)
  · exact State.task_traps hi ho hp hz (by simp [Trap.instr]) (signalHalf_absent hb hn)

end Sys2Proof.Machine
end

section
/-! PROOFS. Placement, completion, epochs and coroutines (05_group_strand R98, R104, R116, R117, R120; 03_queue R69, R76; 02_context R52,
R53): where a group and a pool entry start, when an epoch ends and how a quantum begins, which strand of a deterministic quarter issues, and
the statement O46. -/

namespace Sys2Proof.Machine

theorem exec_groupPlace (n : Nat) (s : State) : exec (.groupPlace n) s = s.onChip (s.chip.groupPlace n) := rfl
theorem exec_poolPlace (die : Nat) (s : State) : exec (.poolPlace die) s = s.onChip (s.chip.poolPlace die) := rfl
theorem exec_launchComplete (key : Nat) (s : State) : exec (.launchComplete key) s = s.onChip (s.chip.launchComplete key) := rfl
theorem exec_epochEnd (n : Nat) (s : State) : exec (.epochEnd n) s = s.onChip (s.chip.epochEnd n) := rfl

/-! ### Groups -/

/-- Hardware strand `i` of a launch's next group enters a core. -/
def Chip.placeStrand (key : Nat) (l : Launch) (gid core F : Nat) (c : Chip) (i : Nat) : Chip :=
  let q := (F + i) % 4
  let t := { l.strand gid core q (c.freeSlot core q) l.next i (c.freshToken l.ctx) with launch := some key }
  { c with strands := Sparse.set c.strands c.nextId t, nextId := c.nextId + 1 }

/-- The strands of a group take the next numbers in turn, each with its place. -/
theorem Chip.foldl_placeStrand (key : Nat) (l : Launch) (gid core F n : Nat) (c : Chip) :
    ((List.range n).foldl (Chip.placeStrand key l gid core F) c).nextId = c.nextId + n ∧
      ∀ i, i < n → ∃ slot token, ((List.range n).foldl (Chip.placeStrand key l gid core F) c).strand (c.nextId + i) =
        some { l.strand gid core ((F + i) % 4) slot l.next i token with launch := some key } := by
  induction n with
  | zero => exact ⟨rfl, fun i hi => absurd hi (Nat.not_lt_zero i)⟩
  | succ n ih =>
    obtain ⟨hnext, hstrand⟩ := ih
    rw [List.range_succ, List.foldl_append, List.foldl_cons, List.foldl_nil]
    refine ⟨congrArg (· + 1) hnext, fun i hi => ?_⟩
    simp only [Chip.placeStrand, Chip.strand, hnext]
    rcases Nat.lt_succ_iff_lt_or_eq.1 hi with hlt | rfl
    · obtain ⟨slot, token, h⟩ := hstrand i hlt
      exact ⟨slot, token, (Sparse.get?_set_ne _ _ (by omega)).trans h⟩
    · exact ⟨_, _, Sparse.get?_set_self ..⟩

theorem Chip.placeGroup_halt (c : Chip) (key : Nat) (l : Launch) (core F first : Nat) : (c.placeGroup key l core F first).halt = c.halt :=
  foldl_keeps (P := fun d : Chip => d.halt = c.halt) (f := Chip.placeStrand key l c.nextId core F) (fun _ _ h => h) (List.range _) rfl

/-- The strands of a group that has been placed. -/
theorem Chip.strand_placeGroup (c : Chip) (key : Nat) (l : Launch) (core F first : Nat) {i : Nat}
    (hi : i < hardwareCount l.header l.roleMap l.lanes) :
    ∃ slot token, (c.placeGroup key l core F first).strand (c.nextId + 1 + i) =
      some { l.strand c.nextId core ((F + i) % 4) slot l.next i token with launch := some key } :=
  (Chip.foldl_placeStrand key l c.nextId core F _ { c with groups := _, nextId := c.nextId + 1, launches := _ }).2 i hi

/-- The next group of a context's launch goes where it fits. -/
theorem Chip.groupPlace_fits {c : Chip} {n key core F first : Nat} {x : Context} {l : Launch} (hx : c.ctx n = some x)
    (hp : c.places n x = true) (hd : x.det = false) (hl : c.pendingLaunch n = some (key, l))
    (hq : c.quotaRoom l.ctx (hardwareCount l.header l.roleMap l.lanes) = true)
    (hf : c.firstFit (hardwareCount l.header l.roleMap l.lanes) (Foot.ofWord l.header)
      ((if l.holding then l.cores else l.order).filter fun j => (l.coresFor l.next).contains j) = some (core, F, first)) :
    c.groupPlace n = c.placeGroup key l core F first := by
  simp only [Chip.groupPlace, hx, hl, hp, hd, Chip.tryGroup, hq, hf, Bool.not_true, Bool.or_self, Bool.false_eq_true, if_false, Option.map_some]

/-! ### Ready pools -/

/-- The first entry of a pool that may be placed, and fits, leaves it. -/
theorem Chip.poolPlace_first {c : Chip} {die core F first : Nat} {n : NewStrand} {rest : List NewStrand} {x : Context}
    (hn : Sparse.getD c.pools die [] = n :: rest) (hx : c.ctx n.ctx = some x) (hp : c.places n.ctx x = true) (hd : x.det = false)
    (hf : c.newFit n = some (core, F, first)) :
    c.poolPlace die = (c.placeNew n core F first).setPool die (rest ++ Sparse.getD c.overflows die []) := by
  simp [Chip.poolPlace, Chip.poolStep, hn, Chip.poolPass, hx, hp, hd, hf]

/-- A created strand as it has been placed: what reaches its core's memory before it starts may change its registers alone. -/
theorem Chip.strand_placeNew (c : Chip) (n : NewStrand) (core F first : Nat) :
    ∃ t, (c.placeNew n core F first).strand (c.nextId + 1) = some t ∧ (n.strand c.nextId core F (c.freeSlot core F)).Alike t := by
  have hstart : ∀ d : Chip, d.strand (c.nextId + 1) = some (n.strand c.nextId core F (c.freeSlot core F)) →
      ∃ t, (if n.kind = .spawned then d.acquireL1 core n.ctx else d).strand (c.nextId + 1) = some t ∧
        (n.strand c.nextId core F (c.freeSlot core F)).Alike t := by
    intro d hd
    split
    · exact (Chip.Moved.acquireL1 ..).strand _ _ hd
    · exact ⟨_, hd, .refl _⟩
  unfold Chip.placeNew
  dsimp only
  split
  · split
    · exact hstart _ (Sparse.get?_set_self ..)
    · exact hstart _ (Sparse.get?_set_self ..)
  · exact hstart _ (Sparse.get?_set_self ..)

/-! ### Completion -/

/-- A launch whose strands have gone ends, also while its context is pre-empted. -/
theorem Chip.launchComplete_over {c : Chip} {key : Nat} {l : Launch} {x : Context} (hl : Sparse.get? c.launches key = some l)
    (hx : c.ctx l.ctx = some x) (hs : x.state = .loaded ∨ x.state = .running ∨ x.state = .preempted) (ho : c.launchOver key l = true)
    (hd : x.det = true → c.domainHolds l.ctx = false) : c.launchComplete key = c.endLaunch key l := by
  have hdom : (x.det && c.domainHolds l.ctx) = false := by
    cases hdet : x.det with
    | false => rfl
    | true => simp [hd hdet]
  have hstate : (x.state == .loaded || x.state == .running || x.state == .preempted) = true := by
    rcases hs with h | h | h <;> simp [h]
  simp only [Chip.launchComplete, hl, hx, hstate, ho, hdom, Bool.not_false, Bool.and_self, if_true]

/-! ### Epochs -/

theorem Chip.epochEnd_opens {c : Chip} {n : Nat} {x : Context} (hx : c.ctx n = some x) (h : x.closing = none) :
    c.epochEnd n = if c.epochReady n x then c.endEpoch n else c := by
  simp [Chip.epochEnd, hx, h]

theorem Chip.epochEnd_closes {c : Chip} {n k : Nat} {x : Context} (hx : c.ctx n = some x) (h : x.closing = some k) :
    c.epochEnd n = c.closeEpoch n k := by
  simp [Chip.epochEnd, hx, h]

theorem Chip.epochReady_closing {c : Chip} {n : Nat} {x : Context} (h : c.epochReady n x = true) : x.closing = none := by
  simp only [Chip.epochReady, Bool.and_eq_true, Option.isNone_iff_eq_none] at h
  obtain ⟨⟨⟨⟨⟨-, hclosing⟩, -⟩, -⟩, -⟩, -⟩ := h
  exact hclosing

/-- At the end of an epoch every strand of the domain stands at the end of its quantum. -/
theorem Chip.epochReady_atEpoch {c : Chip} {n : Nat} {x : Context} (h : c.epochReady n x = true) {y : Nat × Strand} (hy : y ∈ c.strands)
    (hc : y.2.ctx = n) (hh : y.2.isHandler = false) : c.atEpoch y.2 x.preempt.isSome = true := by
  rw [Chip.epochReady, Bool.and_eq_true, List.all_eq_true] at h
  simpa [hc, hh] using h.2 y hy

theorem Chip.atEpoch_ready {c : Chip} {t : Strand} {preempt : Bool} (h : c.atEpoch t preempt = true) (hr : t.status = .ready) :
    t.exited = true := by
  simpa [Chip.atEpoch, hr] using h

/-- While engine operations end an epoch, the strands of its domain stand. -/
theorem Chip.runnable_closing {c : Chip} {t : Strand} {x : Context} (hx : c.ctx t.ctx = some x) (hc : x.closing.isSome = true)
    (hh : t.isHandler = false) : c.runnable t = false := by
  have hnone : x.closing.isNone = false := by simp [hc]
  simp [Chip.runnable, hx, hnone, hh]

theorem Chip.mem_newQuanta {c : Chip} {n : Nat} {y : Nat × Strand} (hy : y ∈ c.strands) (hc : y.2.ctx = n) (hh : y.2.isHandler = false) :
    (y.1, y.2.newQuantum) ∈ (c.newQuanta n).strands :=
  List.mem_map.2 ⟨y, hy, if_pos ⟨hc, by simp [hh]⟩⟩

theorem Strand.newQuantum_status {t : Strand} (h : t.status = .waiting .quantum) :
    t.newQuantum.status = if t.buffer.any (fun e => e.back) then .waiting .quantum else if t.gbar then .waiting .barrier else .ready := by
  simp [Strand.newQuantum, h]

/-- A strand whose bud reads Commit has answered looks again, unless it stands past its GBAR. -/
theorem Strand.newQuantum_fresh {t : Strand} (h : ∀ e ∈ t.buffer, e.back = false) : t.newQuantum.ended = false ∧
    (t.status = .waiting .quantum → t.newQuantum.status = if t.gbar then .waiting .barrier else .ready) := by
  have hany : t.buffer.any (fun e => e.back) = false := by simpa using h
  exact ⟨hany, fun hq => by rw [Strand.newQuantum_status hq, hany, if_neg (by simp)]⟩

/-- A strand with a bud read that Commit could not answer stays at it. -/
theorem Strand.newQuantum_back {t : Strand} (h : ∃ e ∈ t.buffer, e.back = true) : t.newQuantum.ended = true ∧
    (t.status = .waiting .quantum → t.newQuantum.status = .waiting .quantum) := by
  have hany : t.buffer.any (fun e => e.back) = true := List.any_eq_true.2 h
  exact ⟨hany, fun hq => by rw [Strand.newQuantum_status hq, if_pos hany]⟩

theorem Strand.newQuantum_frozen {t : Strand} (h : t.status = .frozen) : t.newQuantum.status = .frozen := by
  simp only [Strand.newQuantum, h]

/-! ### Coroutines -/

theorem identLt_self (a : List Nat) : identLt a a = false := by
  induction a with
  | nil => rfl
  | cons x a ih => simp [identLt, ih]

/-- Identifiers are ordered: two that neither is below the other are the same. -/
theorem eq_of_not_identLt {a b : List Nat} (h : identLt a b = false) (k : identLt b a = false) : a = b := by
  induction a generalizing b with
  | nil => cases b with
    | nil => rfl
    | cons y b => cases h
  | cons x a ih => cases b with
    | nil => cases k
    | cons y b =>
      simp only [identLt] at h k
      rcases Nat.lt_trichotomy x y with hlt | rfl | hlt
      · simp [hlt] at h
      · simp only [Nat.lt_irrefl, if_false] at h k
        rw [ih h k]
      · simp [hlt] at k

/-- The strands of a quarter of which the least issues: those of the identifier that issued last until it has switched away, then those after
it, or all of them. -/
def Chip.candidates (c : Chip) (t : Strand) : List Strand :=
  match Sparse.get? c.coros t.quarterKey with
  | none => c.mates t
  | some (last, away) =>
    if !away && (c.mates t).any (fun u => u.ident == last && !c.atEpoch u false) then (c.mates t).filter fun u => u.ident == last
    else if ((c.mates t).filter fun u => identLt last u.ident).isEmpty then c.mates t
    else (c.mates t).filter fun u => identLt last u.ident

theorem Chip.mates_congr (c : Chip) {t u : Strand} (h : t.quarterKey = u.quarterKey) : c.mates t = c.mates u := by
  rw [Chip.mates, Chip.mates, h]

theorem Chip.candidates_congr (c : Chip) {t u : Strand} (h : t.quarterKey = u.quarterKey) : c.candidates t = c.candidates u := by
  rw [Chip.candidates, Chip.candidates, h, c.mates_congr h]

theorem Chip.mem_mates {c : Chip} {x : Nat × Strand} {t : Strand} (hx : x ∈ c.strands) (hk : x.2.quarterKey = t.quarterKey)
    (hb : c.buffers x.2 = true) (hr : c.runnable x.2 = true) : x.2 ∈ c.mates t := by
  have hh : x.2.isHandler = false := by
    simp only [Chip.buffers, Bool.and_eq_true, Bool.not_eq_true'] at hb
    exact hb.2
  exact List.mem_map.2 ⟨x, List.mem_filter.2 ⟨hx, by simp [hk, hh, hr]⟩, rfl⟩

/-- A strand from which its quarter issues is a least one of the candidates. -/
theorem Chip.issuesFrom_least {c : Chip} {t : Strand} (hm : t ∈ c.mates t) (h : c.issuesFrom t = true) :
    t ∈ c.candidates t ∧ ∀ u ∈ c.candidates t, identLt u.ident t.ident = false := by
  have least : ∀ {us : List Strand}, t.leads us = true → ∀ u ∈ us, identLt u.ident t.ident = false :=
    fun hl u hu => by simpa using List.all_eq_true.1 hl u hu
  unfold Chip.issuesFrom at h
  unfold Chip.candidates
  dsimp only at h
  split
  · next hc =>
    rw [hc] at h
    exact ⟨hm, least h⟩
  · next last away hc =>
    rw [hc] at h
    dsimp only at h
    split at h
    · next hstay =>
      rw [if_pos hstay]
      refine ⟨List.mem_filter.2 ⟨hm, h⟩, fun u hu => ?_⟩
      rw [eq_of_beq (List.mem_filter.1 hu).2, eq_of_beq h]
      exact identLt_self last
    · next hstay =>
      rw [if_neg hstay]
      split at h
      · next hwrap =>
        rw [if_pos hwrap]
        exact ⟨hm, least h⟩
      · next hwrap =>
        rw [if_neg hwrap]
        obtain ⟨hlater, hleads⟩ := Bool.and_eq_true_iff.1 h
        exact ⟨List.mem_filter.2 ⟨hm, hlater⟩, least hleads⟩

/-- A strand of a deterministic context that moves is a least candidate of its quarter. -/
theorem Chip.moves_least {c : Chip} {x : Nat × Strand} (hx : x ∈ c.strands) (hb : c.buffers x.2 = true) (hm : c.moves x.2 = true) :
    x.2 ∈ c.candidates x.2 ∧ ∀ u ∈ c.candidates x.2, identLt u.ident x.2.ident = false := by
  obtain ⟨hr, hi⟩ : c.runnable x.2 = true ∧ c.issuesFrom x.2 = true := by simpa [Chip.moves, hb] using hm
  exact Chip.issuesFrom_least (Chip.mem_mates hx rfl hb hr) hi

theorem Chip.candidates_first {c : Chip} {t : Strand} (h : Sparse.get? c.coros t.quarterKey = none) : c.candidates t = c.mates t := by
  simp only [Chip.candidates, h]

theorem Chip.candidates_stays {c : Chip} {t u : Strand} {last : List Nat} (h : Sparse.get? c.coros t.quarterKey = some (last, false))
    (hu : u ∈ c.mates t) (hl : u.ident = last) (he : c.atEpoch u false = false) :
    c.candidates t = (c.mates t).filter fun u => u.ident == last := by
  have hstay : (c.mates t).any (fun u => u.ident == last && !c.atEpoch u false) = true :=
    List.any_eq_true.2 ⟨u, hu, by simp [hl, he]⟩
  simp only [Chip.candidates, h, hstay, Bool.not_false, Bool.and_self, if_true]

theorem Chip.candidates_later {c : Chip} {t u : Strand} {last : List Nat} (h : Sparse.get? c.coros t.quarterKey = some (last, true))
    (hu : u ∈ c.mates t) (hl : identLt last u.ident = true) :
    c.candidates t = (c.mates t).filter fun u => identLt last u.ident := by
  have hsome : ((c.mates t).filter fun u => identLt last u.ident).isEmpty = false :=
    List.isEmpty_eq_false_iff.2 (List.ne_nil_of_mem (List.mem_filter.2 ⟨hu, hl⟩))
  simp only [Chip.candidates, h, hsome, Bool.not_true, Bool.false_and, Bool.false_eq_true, if_false]

/-- Settles O46: each step of the hub is one of the equations above; of two strands from which one quarter issues each is least. -/
theorem placementAndEpochs : Obligations.PlacementAndEpochs := by
  unfold Obligations.PlacementAndEpochs
  refine ⟨fun s hw => ⟨fun n x key l core F first hx hp hd hl => ?_, fun die n rest core F first x hn hx hp hd hf hplaced => ⟨?_, ?_⟩,
      fun key l x hl hx hs ho hd hended => ?_⟩,
    fun s n x hw hx => ⟨fun hr hended => ?_, fun hc hr => ?_, fun k hc hended => ?_, fun k hc y hy hn hh => ?_, fun hr y hy hn hh => ?_,
      fun y hy hn hh => ?_⟩,
    fun c x y hx hy hbx hby hk hmx hry => ?_⟩
  · intro k cores hq hf
    refine ⟨?_, fun i hi => ?_⟩
    · rw [exec_groupPlace, Chip.groupPlace_fits hx hp hd hl hq hf, State.onChip_whole s ((Chip.placeGroup_halt ..).trans hw)]
    · obtain ⟨slot, token, ht⟩ := s.chip.strand_placeGroup key l core F first hi
      exact ⟨_, ht, rfl, rfl, rfl, rfl, rfl, rfl, rfl⟩
  · rw [exec_poolPlace, Chip.poolPlace_first hn hx hp hd hf]
    exact State.onChip_whole s hplaced
  · obtain ⟨t, ht, v, r, d, rfl⟩ := s.chip.strand_placeNew n core F first
    exact ⟨_, ht, rfl, rfl, rfl, rfl, rfl, rfl⟩
  · rw [exec_launchComplete, Chip.launchComplete_over hl hx hs ho hd, State.onChip_whole s hended]
  · rw [exec_epochEnd, Chip.epochEnd_opens hx (Chip.epochReady_closing hr), if_pos hr, State.onChip_whole s hended]
  · rw [exec_epochEnd, Chip.epochEnd_opens hx hc, hr, if_neg (by simp), State.onChip_whole s hw]
    rfl
  · rw [exec_epochEnd, Chip.epochEnd_closes hx hc, State.onChip_whole s hended]
  · exact Chip.runnable_closing (hn ▸ hx) (by simp [hc]) hh
  · by_cases hready : y.2.status = .ready
    · exact .inr (Chip.atEpoch_ready (Chip.epochReady_atEpoch hr hy hn hh) hready)
    · exact .inl hready
  · exact ⟨_, Chip.mem_newQuanta hy hn hh, rfl, rfl, rfl, rfl, rfl, Strand.newQuantum_fresh, Strand.newQuantum_back, Strand.newQuantum_frozen⟩
  · obtain ⟨hmem, hleast⟩ := Chip.moves_least hx hbx hmx
    have hyx : y.2 ∈ c.mates x.2 := Chip.mem_mates hy hk.symm hby hry
    refine ⟨fun hmy => ?_, fun hnone => ?_, fun last away hcoro => ⟨fun haway hlast hepoch => ?_, fun haway hlater => ?_⟩⟩
    · obtain ⟨hmem', hleast'⟩ := Chip.moves_least hy hby hmy
      rw [← c.candidates_congr hk] at hmem' hleast'
      exact eq_of_not_identLt (hleast' _ hmem) (hleast _ hmem')
    · exact hleast _ (Chip.candidates_first hnone ▸ hyx)
    · subst haway
      rw [Chip.candidates_stays hcoro hyx hlast hepoch] at hmem
      exact eq_of_beq (List.mem_filter.1 hmem).2
    · subst haway
      rw [Chip.candidates_later hcoro hyx hlater] at hmem hleast
      exact ⟨(List.mem_filter.1 hmem).2, hleast _ (List.mem_filter.2 ⟨hyx, hlater⟩)⟩

end Sys2Proof.Machine
end

section
/-! PROOFS. Branches (16_isa_control_scalar R315 to R319; 04_kernel R94): what the halves of a strand that take part come to, where CALL, RET
and JMPI go, and the statement O11. -/

namespace Sys2Proof.Machine

/-! ### An instruction that goes on at an address of its own -/

/-- An instruction that touches nothing but its strand, empties no register and goes on at `pc`. -/
theorem State.strandOnly_goesTo {s : State} {t u : Strand} {sp : OpSpec} {f : Frame} {pc : W64} {i : Instr} {body : Strand → Out}
    (hi : s.Issues t sp f) (hm : markRegs sp f = []) (hb : body t = .done u pc false) :
    s.strandOnly i sp f body = .next (s.goesTo u pc) := by
  rw [State.strandOnly_retires hi hb, hm]
  rfl

/-- The relative target counts instructions of 16 bytes. -/
theorem relTarget_eq (t : Strand) (f : Frame) : relTarget t f = t.pc + 16 * f.imm.signExtend 64 := by
  have hshift : f.imm.signExtend 64 <<< 4 = 16 * f.imm.signExtend 64 :=
    BitVec.eq_of_toNat_eq (by simp [Nat.shiftLeft_eq, Nat.mul_comm])
  rw [relTarget, hshift]

/-! ### The halves of a branch -/

/-- The low half takes part in every branch. -/
theorem branchHalves_cons (t : Strand) : ∃ rest, branchHalves t = 0 :: rest := by
  unfold branchHalves Strand.halves
  split <;> exact ⟨_, rfl⟩

theorem branchOut_agree {t : Strand} {test : Nat → Bool} {taken : Bool} (h : ∀ h ∈ branchHalves t, test h = taken) (after : Strand)
    (target : W64) : branchOut t test after target = .done after (if taken then target else t.nextPc) false := by
  obtain ⟨rest, hr⟩ := branchHalves_cons t
  rw [hr] at h
  have hlow : test 0 = taken := h 0 (List.mem_cons_self ..)
  have hrest : (rest.map test).all (· == taken) = true := by
    simpa [Function.comp_def] using fun k hk => h k (List.mem_cons_of_mem 0 hk)
  simp only [branchOut, hr, List.map_cons, hlow, hrest, if_true]

theorem branchOut_differ {t : Strand} {test : Nat → Bool} (h : ∃ h ∈ branchHalves t, test h ≠ test 0) (after : Strand) (target : W64) :
    branchOut t test after target = .stop (divergence t) := by
  obtain ⟨rest, hr⟩ := branchHalves_cons t
  obtain ⟨k, hk, hne⟩ := h
  have hmem : k ∈ rest := by
    rcases List.mem_cons.1 (hr ▸ hk) with rfl | hmem
    · exact absurd rfl hne
    · exact hmem
  have hrest : (rest.map test).all (· == test 0) = false :=
    List.all_eq_false.2 ⟨test k, List.mem_map_of_mem hmem, by simpa using hne⟩
  simp only [branchOut, hr, List.map_cons, hrest, Bool.false_eq_true, if_false]

theorem divergence_cause (t : Strand) : (divergence t).cause ≠ .pageFault := by
  simp [divergence, Trap.instr]

section
variable {s : State} {t after : Strand} {sp : OpSpec} {f : Frame} {i : Instr} {body : Strand → Out} {test : Nat → Bool}

/-- A branch whose halves agree goes on at its target or at the next word. -/
theorem State.branch_agree {taken : Bool} (hi : s.Issues t sp f) (hm : markRegs sp f = []) (hb : body t = branchOut t test after (relTarget t f))
    (h : ∀ h ∈ branchHalves t, test h = taken) :
    s.strandOnly i sp f body = .next (s.goesTo after (if taken then t.pc + 16 * f.imm.signExtend 64 else t.nextPc)) := by
  rw [← relTarget_eq]
  exact State.strandOnly_goesTo hi hm (hb.trans (branchOut_agree h after _))

/-- A branch whose halves differ traps (R94). -/
theorem State.branch_differ (hi : s.Issues t sp f) (hz : s.Freezes t) (hb : body t = branchOut t test after (relTarget t f))
    (h : ∃ h ∈ branchHalves t, test h ≠ test 0) : s.strandOnly i sp f body = .next (s.traps t (divergence t)) :=
  State.strandOnly_traps hi hz (divergence_cause t) (hb.trans (branchOut_differ h after _))

end

/-! ### BRA, BRS and BRK -/

/-- The checks of the three branches, as the dispatch of `exec` runs them. -/
def braSpec (f : Frame) : OpSpec := { OpSpec.base 0x001 with a := condField 0 3 false f, other := f.cond ≤ 3 }
def brsSpec (f : Frame) : OpSpec := { OpSpec.base 0x002 with a := condField 4 9 true f, other := 4 ≤ f.cond && f.cond ≤ 9 }
def brkSpec (f : Frame) : OpSpec :=
  { OpSpec.base 0x003 with d := .mask, a := condField 1 3 false f, other := 1 ≤ f.cond && f.cond ≤ 3 }

theorem exec_bra (f : Frame) (s : State) : exec (.bra f) s = s.strandOnly (.bra f) (braSpec f) f (braOut f) := rfl
theorem exec_brs (f : Frame) (s : State) : exec (.brs f) s = s.strandOnly (.brs f) (brsSpec f) f (brsOut f) := rfl
theorem exec_brk (f : Frame) (s : State) : exec (.brk f) s = s.strandOnly (.brk f) (brkSpec f) f (brkOut f) := rfl

/-- A tested field names no vector register. -/
theorem condField_v (lo hi : Nat) (scalar : Bool) (f : Frame) : (condField lo hi scalar f).v = 0 := by
  unfold condField
  dsimp only
  repeat' split
  all_goals rfl

@[simp] theorem markRegs_braSpec (f : Frame) : markRegs (braSpec f) f = [] := markRegs_none (condField_v ..) rfl rfl
@[simp] theorem markRegs_brsSpec (f : Frame) : markRegs (brsSpec f) f = [] := markRegs_none (condField_v ..) rfl rfl
@[simp] theorem markRegs_brkSpec (f : Frame) : markRegs (brkSpec f) f = [] := markRegs_none (condField_v ..) rfl rfl

/-! ### CALL, RET and JMPI -/

/-- CALL leaves the next word's address in every half's D. -/
theorem callOut_eq (f : Frame) (t : Strand) :
    callOut f t = .done (t.putHalves f.d (fun _ => t.nextPc) t.halves) (t.pc + 16 * f.imm.signExtend 64) false := by
  rw [← relTarget_eq]
  rfl

/-- Halves that agree jump where they say if an instruction can stand there. -/
theorem jumpOut_agree {t : Strand} {f : Frame} {x : W64} (h : ∀ h ∈ branchHalves t, sVal t h f.a = x) :
    jumpOut f t = if bits x 0 4 = (0 : BitVec 4) then .done t x false else .stop (Trap.instr .misaligned 3 x) := by
  obtain ⟨rest, hr⟩ := branchHalves_cons t
  have hlow : sVal t 0 f.a = x := h 0 (by simp [hr])
  have hany : ((branchHalves t).any fun h => sVal t h f.a != x) = false := by simpa using h
  simp only [jumpOut, hlow, hany, Bool.false_eq_true, if_false]
  by_cases ha : bits x 0 4 = (0 : BitVec 4) <;> simp [ha]

theorem jumpOut_differ {t : Strand} {f : Frame} (h : ∃ h ∈ branchHalves t, sVal t h f.a ≠ sVal t 0 f.a) :
    jumpOut f t = .stop (divergence t) := by
  have hany : ((branchHalves t).any fun h => sVal t h f.a != sVal t 0 f.a) = true := by simpa using h
  simp only [jumpOut, hany, if_true]

/-- The checks of the three, as the dispatch of `exec` runs them. -/
def callSpec (f : Frame) : OpSpec := { controlSpec 0x004 f false with d := .scalar }
def retSpec (f : Frame) : OpSpec := { controlSpec 0x005 f true with a := .scalar }
def jmpiSpec (f : Frame) : OpSpec := { controlSpec 0x006 f true with a := .scalar }

theorem exec_call (f : Frame) (s : State) : exec (.call f) s = s.strandOnly (.call f) (callSpec f) f (callOut f) := rfl
theorem exec_ret (f : Frame) (s : State) : exec (.ret f) s = s.strandOnly (.ret f) (retSpec f) f (jumpOut f) := rfl
theorem exec_jmpi (f : Frame) (s : State) : exec (.jmpi f) s = s.strandOnly (.jmpi f) (jmpiSpec f) f (jumpOut f) := rfl

@[simp] theorem markRegs_callSpec (f : Frame) : markRegs (callSpec f) f = [] := markRegs_none rfl rfl rfl
@[simp] theorem markRegs_retSpec (f : Frame) : markRegs (retSpec f) f = [] := markRegs_none rfl rfl rfl
@[simp] theorem markRegs_jmpiSpec (f : Frame) : markRegs (jmpiSpec f) f = [] := markRegs_none rfl rfl rfl

section
variable {s : State} {t : Strand} {sp : OpSpec} {f : Frame} {i : Instr}

/-- A jump whose halves agree on the address of an instruction goes there. -/
theorem State.jump_aligned {x : W64} (hi : s.Issues t sp f) (hm : markRegs sp f = []) (h : ∀ h ∈ branchHalves t, sVal t h f.a = x)
    (ha : bits x 0 4 = (0 : BitVec 4)) : s.strandOnly i sp f (jumpOut f) = .next (s.goesTo t x) :=
  State.strandOnly_goesTo hi hm ((jumpOut_agree h).trans (if_pos ha))

theorem State.jump_misaligned {x : W64} (hi : s.Issues t sp f) (hz : s.Freezes t) (h : ∀ h ∈ branchHalves t, sVal t h f.a = x)
    (ha : bits x 0 4 ≠ (0 : BitVec 4)) : s.strandOnly i sp f (jumpOut f) = .next (s.traps t (Trap.instr .misaligned 3 x)) :=
  State.strandOnly_traps hi hz (by simp [Trap.instr]) ((jumpOut_agree h).trans (if_neg ha))

theorem State.jump_differ (hi : s.Issues t sp f) (hz : s.Freezes t) (h : ∃ h ∈ branchHalves t, sVal t h f.a ≠ sVal t 0 f.a) :
    s.strandOnly i sp f (jumpOut f) = .next (s.traps t (divergence t)) :=
  State.strandOnly_traps hi hz (divergence_cause t) (jumpOut_differ h)

end

/-- Settles O11: a branch and a jump each have the cases above, by whether the halves that take part agree. -/
theorem branches : Obligations.Branches := by
  unfold Obligations.Branches
  refine ⟨fun s t f taken => ⟨fun hi => ⟨fun h => ?_, fun h hz => ?_⟩, fun hi => ⟨fun h => ?_, fun h hz => ?_⟩,
      fun hi => ⟨fun h => ?_, fun h hz => ?_⟩⟩,
    fun s t f => ⟨fun hi => ?_, fun x h => ⟨fun ha => ⟨fun hi => ?_, fun hi => ?_⟩, fun ha hz => ⟨fun hi => ?_, fun hi => ?_⟩⟩,
      fun h hz => ⟨fun hi => ?_, fun hi => ?_⟩⟩⟩
  · exact (exec_bra f s).trans (State.branch_agree hi (markRegs_braSpec f) rfl h)
  · exact (exec_bra f s).trans (State.branch_differ hi hz rfl h)
  · exact (exec_brs f s).trans (State.branch_agree hi (markRegs_brsSpec f) rfl h)
  · exact (exec_brs f s).trans (State.branch_differ hi hz rfl h)
  · exact (exec_brk f s).trans (State.branch_agree hi (markRegs_brkSpec f) rfl h)
  · exact (exec_brk f s).trans (State.branch_differ hi hz rfl h)
  · obtain ⟨hflags, hwrite, hkeep, hregs, hmode, -⟩ := t.putHalves_writesScalar f fun _ => t.nextPc
    exact ⟨_, (exec_call f s).trans (State.strandOnly_goesTo hi (markRegs_callSpec f) (callOut_eq f t)), hwrite, hkeep, hregs, hmode, hflags⟩
  · exact (exec_ret f s).trans (State.jump_aligned hi (markRegs_retSpec f) h ha)
  · exact (exec_jmpi f s).trans (State.jump_aligned hi (markRegs_jmpiSpec f) h ha)
  · exact (exec_ret f s).trans (State.jump_misaligned hi hz h ha)
  · exact (exec_jmpi f s).trans (State.jump_misaligned hi hz h ha)
  · exact (exec_ret f s).trans (State.jump_differ hi hz h)
  · exact (exec_jmpi f s).trans (State.jump_differ hi hz h)

end Sys2Proof.Machine
end

section
/-! PROOFS. Execution by halves (04_kernel R93; 19_isa_sync_engine_system R392): what the barrier, binder and task instructions of a strand come to,
half by half, and the statement O34. -/

namespace Sys2Proof.Machine

/-! ### One half and the other -/

section
variable {one : Nat → Chip → Strand → Chip × Out} {c d e : Chip} {t u v : Strand} {pc pd : W64} {e1 e2 : Bool} {tr : Trap}

theorem eachHalf_unpaired (hp : t.paired = false) : eachHalf t.halves one c t = one 0 c t := by
  simp [Strand.halves, hp, eachHalf]

/-- The high half executes in what the low half leaves; the quantum ends if one of them ends it. -/
theorem eachHalf_both (hp : t.paired = true) (h0 : one 0 c t = (d, .done u pc e1))
    (h1 : one 1 (d.setStrand d.cur u) u = (e, .done v pd e2)) : eachHalf t.halves one c t = (e, .done v pd (e1 || e2)) := by
  cases e1 <;> simp [Strand.halves, hp, eachHalf, h0, h1]

theorem eachHalf_high_stops (hp : t.paired = true) (h0 : one 0 c t = (d, .done u pc e1))
    (h1 : one 1 (d.setStrand d.cur u) u = (e, .stop tr)) : eachHalf t.halves one c t = (e, .stop tr) := by
  cases e1 <;> simp [Strand.halves, hp, eachHalf, h0, h1]

/-- A low half that stops keeps the high one from executing. -/
theorem eachHalf_low_stops (h0 : one 0 c t = (d, .stop tr)) : eachHalf t.halves one c t = (d, .stop tr) := by
  cases hp : t.paired <;> simp [Strand.halves, hp, eachHalf, h0]

end

/-! ### The rows -/

/-- The body `body` executes the row's instruction: it marks no register, waits for older loads where the row says so, and then comes to what the
halves come to, unless they do not issue. -/
structure HalfRow.RunBy (row : HalfRow) (f : Frame) (body : Chip → Strand → Chip × Out) : Prop where
  exec_eq : ∀ s, exec (row.instr f) s = s.strandInstr (row.instr f) (row.spec f) f body
  marks : markRegs (row.spec f) f = []
  waits : row.after = true → ∀ c t, c.owesLoads t = true → body c t = (c, .wait t .bud)
  halves : ∀ {c d t o}, (row.after = true → c.owesLoads t = false) → eachHalf t.halves (row.half f) c t = (d, o) → o ≠ .stall → body c t = (d, o)

section
variable {row : HalfRow} {f : Frame}

theorem HalfRow.runBy_eachHalf (ha : row.after = false) (hm : markRegs (row.spec f) f = [])
    (he : ∀ s, exec (row.instr f) s = s.strandInstr (row.instr f) (row.spec f) f fun c t => eachHalf t.halves (row.half f) c t) :
    ∃ body, row.RunBy f body :=
  ⟨_, he, hm, fun h => absurd (ha.symm.trans h) (by simp), fun _ h _ => h⟩

/-- A body that starts after older loads. -/
theorem HalfRow.runBy_afterLoads {body : Chip → Strand → Chip × Out} (ha : row.after = true) (hm : markRegs (row.spec f) f = [])
    (he : ∀ s, exec (row.instr f) s = s.strandInstr (row.instr f) (row.spec f) f (afterLoads body))
    (hb : ∀ {c d t o}, eachHalf t.halves (row.half f) c t = (d, o) → o ≠ .stall → body c t = (d, o)) : ∃ body, row.RunBy f body := by
  refine ⟨afterLoads body, he, hm, fun _ c t ho => ?_, fun ho hh hs => ?_⟩
  · rw [afterLoads, if_pos ho]
  · rw [afterLoads, if_neg (by simp [ho ha])]
    exact hb hh hs

/-- Halves one of which does not issue have no effect; any other outcome is theirs. -/
theorem wholeHalves_eq {hs : List Nat} {one : Nat → Chip → Strand → Chip × Out} {c d : Chip} {t : Strand} {o : Out}
    (h : eachHalf hs one c t = (d, o)) (ho : o ≠ .stall) : wholeHalves hs one c t = (d, o) := by
  unfold wholeHalves
  rw [h]
  split
  · next e => exact absurd (congrArg Prod.snd e) ho
  · rfl

end

/-- Every row's instruction executes by halves. -/
theorem halfRows_runBy {row : HalfRow} (h : row ∈ halfRows) (f : Frame) : ∃ body, row.RunBy f body := by
  unfold halfRows at h
  simp only [List.mem_cons, List.not_mem_nil, or_false] at h
  rcases h with rfl | rfl | rfl | rfl | rfl | rfl | rfl | rfl | rfl | rfl | rfl | rfl
  iterate 7 exact HalfRow.runBy_eachHalf rfl (markRegs_none rfl rfl rfl) fun _ => rfl
  iterate 2 exact HalfRow.runBy_afterLoads rfl (markRegs_none rfl rfl rfl) (fun _ => rfl) fun h _ => h
  iterate 3 exact HalfRow.runBy_afterLoads rfl (markRegs_none rfl rfl rfl) (fun _ => rfl) wholeHalves_eq

/-- An instruction that stops in the strand `u`, which its low half has left, freezes it at its program counter. -/
theorem State.strandInstr_traps_over {s : State} {t u : Strand} {sp : OpSpec} {f : Frame} {tr : Trap} {d : Chip} {i : Instr}
    {body : Chip → Strand → Chip × Out} (hi : s.Issues t sp f) (hb : body s.chip t = (d, .stop tr)) (hw : d.Whole)
    (hu : d.strand s.chip.cur = some u) (hh : u.isHandler = false) (ho : d.owesResult s.chip.cur = false) (hp : tr.cause ≠ .pageFault) :
    s.strandInstr i sp f body = .next (s.withChip (d.takeTrap s.chip.cur tr u.pc none)) := by
  rw [State.strandInstr_issues hi, hb]
  simp only [Chip.finish, hu]
  refine State.onChip_whole s ?_
  rw [Chip.takeTrap_strand hu hh ho hp, Chip.setCore_halt, Chip.setStrand_halt]
  exact hw

/-- Settles O34: an instruction of a row comes to what its halves come to, after older loads where the row says so. -/
theorem halves : Obligations.Halves := by
  unfold Obligations.Halves
  intro row hrow s t f hi
  obtain ⟨body, hrun⟩ := halfRows_runBy hrow f
  rw [hrun.exec_eq]
  refine ⟨fun ha ho => ?_, fun ho => ⟨fun c u pc ends hp h0 hw => ?_, fun c d u v pc pd e1 e2 hp h0 h1 hw => ?_,
    fun c d u pc e1 tr hp h0 h1 hw hu hh hr hc => ?_, fun tr h0 hz hc => ?_⟩⟩
  · exact State.strandInstr_waits hi (hrun.waits ha s.chip t ho)
  · rw [State.strandInstr_retires hi (hrun.halves ho ((eachHalf_unpaired hp).trans h0) (by simp)) hw, hrun.marks]
  · rw [State.strandInstr_retires hi (hrun.halves ho (eachHalf_both hp h0 h1) (by simp)) hw, hrun.marks]
  · exact State.strandInstr_traps_over hi (hrun.halves ho (eachHalf_high_stops hp h0 h1) (by simp)) hw hu hh hr hc
  · exact State.strandInstr_traps hi hz hc (hrun.halves ho (eachHalf_low_stops h0) (by simp))

end Sys2Proof.Machine
end

section
/-! PROOFS. The text of a patch (04_kernel R96): what the copy of a text in one page writes, that with memory in its canonical form it holds the
source's bytes and changes no other, and the refutation of the statement O42, which does not ask for that form. -/

namespace Sys2Proof.Machine

/-! ### A text in one page -/

/-- A range that lies in one page is one piece. -/
theorem pagePieces_onePage (fuel : Nat) {va : W64} {n : Nat} (hn : 1 ≤ n) (h : va.toNat % 4096 + n ≤ 4096) :
    pagePieces (fuel + 1) va n = [(va, n)] := by
  have hmin : min n (4096 - va.toNat % 4096) = n := by omega
  have hrest : ∀ k w, pagePieces k w 0 = [] := fun k w => by cases k <;> simp [pagePieces]
  simp only [pagePieces, hmin, Nat.sub_self, hrest, show n ≠ 0 by omega, if_false]

section
variable {c : Chip} {p : Patch} {y z : Xl}

/-- The copy is one write, of the bytes read at the source. -/
theorem Chip.patchText_onePage (hn : 1 ≤ p.count) (ht : p.target.toNat % 4096 + 16 * p.count ≤ 4096)
    (hs : p.source.toNat % 4096 + 16 * p.count ≤ 4096)
    (hy : c.translate (c.patchWho p) .fetch 1 p.target (16 * p.count) = .ok y) (hym : y.mig = none) (hyd : y.down = false)
    (hz : c.translate (c.patchWho p) .load 1 p.source (16 * p.count) = .ok z) (hzm : z.mig = none) (hzd : z.down = false) :
    c.patchText p = c.writePhys y.place y.pa (c.readPhys z.place z.pa (16 * p.count)) := by
  have hpieces : textPieces p.target p.count = [(p.target, 16 * p.count)] := by
    rw [textPieces, Nat.mul_comm]
    exact pagePieces_onePage _ (by omega) ht
  have hsource : pagePieces 2 (p.source + (p.target - p.target)) (16 * p.count) = [(p.source, 16 * p.count)] := by
    rw [BitVec.sub_self, BitVec.add_zero]
    exact pagePieces_onePage 1 (by omega) hs
  simp only [Chip.patchText, hpieces, hsource, List.foldl_cons, List.foldl_nil, hy, hyd, hz, hzd, Chip.readXl, Chip.writeXl, hym, hzm, Chip.pull,
    Bool.false_eq_true, if_false, List.nil_append]

/-- Where memory is in its canonical form, the text holds the source's bytes and no other byte has changed. -/
theorem Chip.patchText_copies (hm : c.mem.wf = true) (hn : 1 ≤ p.count) (ht : p.target.toNat % 4096 + 16 * p.count ≤ 4096)
    (hs : p.source.toNat % 4096 + 16 * p.count ≤ 4096)
    (hy : c.translate (c.patchWho p) .fetch 1 p.target (16 * p.count) = .ok y) (hym : y.mig = none) (hyd : y.down = false)
    (hz : c.translate (c.patchWho p) .load 1 p.source (16 * p.count) = .ok z) (hzm : z.mig = none) (hzd : z.down = false)
    (hh : Place.has y.place y.pa (16 * p.count) = true) :
    (c.patchText p).readPhys y.place y.pa (16 * p.count) = c.readPhys z.place z.pa (16 * p.count) ∧
      ∀ k, (k < physKey y.place y.pa ∨ physKey y.place y.pa + 16 * p.count ≤ k) → (c.patchText p).mem.byte k = c.mem.byte k := by
  have hlen : (c.readPhys z.place z.pa (16 * p.count)).length = 16 * p.count := by simp [Chip.readPhys, Memory.read_eq hm]
  rw [Chip.patchText_onePage hn ht hs hy hym hyd hz hzm hzd, Chip.writePhys_has (by rwa [hlen])]
  refine ⟨?_, fun k hk => ?_⟩
  · have hread := Memory.read_write hm (physKey y.place y.pa) (c.readPhys z.place z.pa (16 * p.count))
    rwa [hlen] at hread
  · rw [Memory.byte_write hm, if_neg (by omega)]

end

/-! ### A memory out of order -/

/-- A chip whose memory is not in its canonical form: a program's page at physical address 0x5000, and behind its text an entry for address 0. -/
def scrambledChip : Chip :=
  { Chip.reset.programMemory 1 with
    mem := (Chip.reset.programMemory 1).mem ++ [(0, 2)]
    ctxs := [(0, Context.program)] }

/-- A patch of the page's first instruction, from the middle of the page. -/
def scrambledPatch : Patch := { id := 1, ctx := 0, target := 0, source := 0x800, count := 1, done := 0, core := 0, gid := 0 }

/-- The translation of an address of that page. -/
def programXl (va : W64) : Xl :=
  { va := va, owner := 0, place := .near 0, pa := 0x5000 + va.toNat, pol := 0, ord := false, cell := false, r := true, w := true, x := true,
    mig := none, down := false }

theorem scrambledPatch_target :
    scrambledChip.translate (scrambledChip.patchWho scrambledPatch) .fetch 1 scrambledPatch.target 16 = .ok (programXl 0) := by decide
theorem scrambledPatch_source :
    scrambledChip.translate (scrambledChip.patchWho scrambledPatch) .load 1 scrambledPatch.source 16 = .ok (programXl 0x800) := by decide

/-- The write at 0x5000 drops the entry behind the text: address 0 holds 2 before the copy and reads 0 after it. -/
theorem scrambledPatch_loses : scrambledChip.mem.byte 0 = 2 ∧ (scrambledChip.patchText scrambledPatch).mem.byte 0 = 0 := by decide

/-- Refutes O42: it quantifies over memories out of their canonical form, on which the copy loses a byte outside the text. By
`Chip.patchText_copies` the clause holds of a memory in that form. -/
theorem not_patches : ¬ Obligations.Patches := by
  unfold Obligations.Patches
  intro h
  obtain ⟨-, -, hcopy⟩ := h { State.reset with chip := scrambledChip } Strand.blank Strand.blank Frame.unused 0
  obtain ⟨-, hframe, -⟩ := hcopy scrambledPatch (programXl 0) (programXl 0x800) (by decide) (by decide) (by decide) scrambledPatch_target rfl rfl
    scrambledPatch_source rfl rfl (by decide)
  obtain ⟨hbefore, hafter⟩ := scrambledPatch_loses
  have hkept : (scrambledChip.patchText scrambledPatch).mem.byte 0 = scrambledChip.mem.byte 0 := hframe 0 (Or.inl (by decide))
  rw [hbefore, hafter] at hkept
  exact absurd hkept (by decide)

end Sys2Proof.Machine
end

section
/-! PROOFS. Empty active sets (05_group_strand R100; 12_traps R250): what each instruction's body comes to where it executes for no lane, how a
memory instruction then ends, also where its strand's earlier executions have ended the quantum, and the statement O17. -/

namespace Sys2Proof.Machine

/-! ### How a memory instruction ends -/

section
variable {s : State} {t u : Strand} {sp : OpSpec} {f : Frame} {c : Chip} {pc : W64} {ends : Bool} {i : Instr}
  {body : Chip → Strand → Chip × Out}

/-- A memory instruction retires at once where nothing of it waits for Commit: its strand's work is not buffered, it does not end the quantum, or
it has buffered nothing. -/
theorem State.memInstr_retires_now (h : s.IssuesMem t sp f) (hb : body s.chip t = (c, .done u pc ends)) (hc : c.Whole)
    (hm : s.chip.buffers t = false ∨ (ends || u.metEnd) = false ∨ u.loose = []) : s.memInstr i sp f body =
      .next (s.withChip (c.setStrand s.chip.cur (u.retired' (c.quantumOf u) (markRegs sp f) ends pc))) := by
  obtain ⟨⟨⟨-, hstrand⟩, hstage, hacq⟩, hrel⟩ := h
  have hnow : ¬ (s.chip.buffers t && (ends || u.metEnd) && !u.loose.isEmpty) = true := by
    rcases hm with hm | hm | hm <;> simp [hm]
  simp only [State.memInstr, hstrand, hstage, hacq, hrel, hb, Bool.or_self, Bool.false_eq_true, if_false]
  rw [if_neg hnow]
  exact State.onChip_whole s hc

/-- One that ends its quantum with entries in the buffer leaves its marks to Commit (R125, R169). -/
theorem State.memInstr_retires_marked (h : s.IssuesMem t sp f) (hb : body s.chip t = (c, .done u pc ends)) (hc : c.Whole)
    (hbuf : s.chip.buffers t = true) (hend : (ends || u.metEnd) = true) (hl : u.loose ≠ []) : s.memInstr i sp f body =
      .next (s.withChip (c.setStrand s.chip.cur (({ u with buffer := markLast (markRegs sp f) u.buffer } : Strand).retired'
        (c.quantumOf u) [] ends pc))) := by
  obtain ⟨⟨⟨-, hstrand⟩, hstage, hacq⟩, hrel⟩ := h
  simp only [State.memInstr, hstrand, hstage, hacq, hrel, hb, Bool.or_self, Bool.false_eq_true, if_false]
  rw [if_pos (by simp [hbuf, hend, hl])]
  exact State.onChip_whole s hc

end

/-! ### The end of a quantum -/

/-- Marks change no other part of the buffered entries. -/
theorem endsQuantum_markLast (ms : List Nat) (es : List CommitEntry) :
    (markLast ms es).map CommitEntry.endsQuantum = es.map CommitEntry.endsQuantum := by
  induction es with
  | nil => rfl
  | cons e es ih =>
    cases es with
    | nil => rfl
    | cons e' es => exact congrArg (e.endsQuantum :: ·) ih

theorem Strand.metEnd_markLast (t : Strand) (ms : List Nat) : ({ t with buffer := markLast ms t.buffer } : Strand).metEnd = t.metEnd := by
  have hany : ∀ es : List CommitEntry, (es.drop t.solid).any CommitEntry.endsQuantum = ((es.map CommitEntry.endsQuantum).drop t.solid).any id :=
    fun es => by rw [← List.map_drop, List.any_map]; rfl
  unfold Strand.metEnd Strand.loose
  rw [hany, hany, endsQuantum_markLast]

/-- A strand whose work is buffered has a quantum. -/
theorem Chip.quantumOf_of_buffers {c : Chip} {t : Strand} (h : c.buffers t = true) : ∃ q, c.quantumOf t = some q := by
  unfold Chip.quantumOf
  rw [if_pos h]
  cases hx : c.ctx t.ctx with
  | none => simp [Chip.buffers, Chip.isDet, hx] at h
  | some x => exact ⟨_, rfl⟩

/-- A strand that has met what ends its quantum ends it as it retires. -/
theorem Strand.ended_retired' {t : Strand} (h : t.metEnd = true) (q : Nat) (ms : List Nat) (e : Bool) (pc : W64) :
    (t.retired' (some q) ms e pc).ended = true := by
  simp [Strand.retired', h]

/-! ### No lane to execute for -/

@[simp] theorem bit_zero {n : Nat} (l : Nat) : bit (0#n) l = false := BitVec.getLsbD_zero

section
variable {c : Chip} {t : Strand} {f : Frame} (h : t.lanesOf f = 0)
include h

theorem vecOut_empty (o : VecOp) : vecOut c t f o = .done t t.nextPc false := by
  simp [vecOut, h]

theorem vecMaskOut_empty (o : VecOp) :
    vecMaskOut c t f o = .done (if t.replay.isSome then t else t.setKreg f.d.kNum 0) t.nextPc false := by
  simp [vecMaskOut, h]

/-- VLANE reads no lane and gives 0 in each half (R362). -/
theorem vlaneOut_empty : vlaneOut f t = .done (t.putHalves f.d (fun _ => 0) t.halves) t.nextPc false := by
  have hvalue : ∀ k, vlaneValue t f 0#128 k = 0 := fun k => by simp [vlaneValue]
  simp [vlaneOut, hvalue, h, Strand.putHalves]

theorem vputlOut_empty : vputlOut f t = .done t t.nextPc false := by
  simp [vputlOut, h]

theorem bloomOut_empty : bloomOut f c t = (c, .done t t.nextPc true) := by
  simp [bloomOut, h]

/-- VMCAST reads its list of destinations all the same, among its first checks (R385). -/
theorem vmcastOut_empty {d : Chip} {bases : List CastBases} (hr : t.replay = none) (hl : c.vmcastLists t f = (d, .inl bases)) :
    vmcastOut f c t = (d, retires t) := by
  have hact : t.active f = 0 := by simpa [Strand.lanesOf, hr] using h
  simp [vmcastOut, Chip.castLists, hr, hl, hact]

end

/-- A replay of no destination reads no list again (R246, R385). -/
theorem vmcastOut_replay_none {t : Strand} (hr : t.replay = some 0) (f : Frame) (c : Chip) : vmcastOut f c t = (c, retires t) := by
  simp [vmcastOut, hr]

/-! ### Instructions of one shape -/

/-- Both compares are executed by `State.vecMask`. -/
theorem exec_compareRow {row : VecRow} (h : row ∈ compareRows) (f : Frame) (s : State) :
    exec (row.instr f) s = s.vecMask (row.instr f) f (row.op f) := by
  unfold compareRows at h
  repeat' rcases h with _ | ⟨_, h⟩
  all_goals rfl

/-- The vector memory instructions but VMCAST, with their checks. -/
def memoryRows (f : Frame) : List (Instr × OpSpec) :=
  [(.vld f, (vldForm f).sp), (.vldb f, (vldbForm f).sp), (.vlda f, (vldaForm f).sp), (.vst f, (vstForm f).sp), (.vstb f, (vstbForm f).sp),
   (.vatom f, (vatomForm f).sp), (.vatomr f, (vatomrForm f).sp), (.vcas f, (vcasForm f).sp), (.budst f, budstSpec f), (.budq f, budqSpec f)]

section
variable {c : Chip} {t : Strand}

theorem LoadForm.out_empty {o : LoadForm} (h : t.lanesOf o.f = 0) : o.out c t = (c, retires t) := by
  unfold LoadForm.out
  exact if_pos h

theorem StoreForm.out_empty {o : StoreForm} (h : t.lanesOf o.f = 0) : o.out c t = (c, retires t) := by
  unfold StoreForm.out
  exact if_pos h

theorem AtomForm.out_empty {o : AtomForm} (h : t.lanesOf o.f = 0) : o.out c t = (c, retires t) := by
  unfold AtomForm.out
  exact if_pos h

theorem budstOut_empty {f : Frame} (h : t.lanesOf f = 0) : budstOut f c t = (c, retires t) := if_pos h

theorem budqOut_empty {f : Frame} (h : t.lanesOf f = 0) : budqOut f c t = (c, retires t) := if_pos h

end

/-- Each of them is a memory instruction whose body retires and does nothing else where it has no lane. -/
theorem memoryRows_empty {f : Frame} {x : Instr × OpSpec} (h : x ∈ memoryRows f) :
    ∃ body, (∀ s, exec x.1 s = s.memInstr x.1 x.2 f body) ∧ ∀ c t, t.lanesOf f = 0 → body c t = (c, retires t) := by
  unfold memoryRows at h
  simp only [List.mem_cons, List.not_mem_nil, or_false] at h
  rcases h with rfl | rfl | rfl | rfl | rfl | rfl | rfl | rfl | rfl | rfl
  iterate 3 exact ⟨_, fun _ => rfl, fun _ _ h => LoadForm.out_empty h⟩
  iterate 2 exact ⟨_, fun _ => rfl, fun _ _ h => StoreForm.out_empty h⟩
  iterate 3 exact ⟨_, fun _ => rfl, fun _ _ h => AtomForm.out_empty h⟩
  · exact ⟨_, fun _ => rfl, fun _ _ h => budstOut_empty h⟩
  · exact ⟨_, fun _ => rfl, fun _ _ h => budqOut_empty h⟩

theorem exec_bloom (f : Frame) (s : State) : exec (.bloom f) s = s.memInstr (.bloom f) (bloomSpec f) f fun c t => bloomOut f c t := rfl
theorem exec_vmcast (f : Frame) (s : State) : exec (.vmcast f) s = s.memInstr (.vmcast f) (vmcastSpec f) f fun c t => vmcastOut f c t := rfl
theorem exec_vlane (f : Frame) (s : State) : exec (.vlane f) s = s.strandOnly (.vlane f) (vlaneSpec f) f (vlaneOut f) := rfl
theorem exec_vputl (f : Frame) (s : State) : exec (.vputl f) s = s.strandOnly (.vputl f) (vputlSpec f) f (vputlOut f) := rfl

@[simp] theorem markRegs_bloomSpec (f : Frame) : markRegs (bloomSpec f) f = [] := markRegs_none rfl rfl rfl
@[simp] theorem markRegs_vputlSpec (f : Frame) : markRegs (vputlSpec f) f = [] := markRegs_none rfl rfl rfl

/-- Settles O17: each instruction retires by what its body comes to where it executes for no lane. -/
theorem emptyActiveSet : Obligations.EmptyActiveSet := by
  unfold Obligations.EmptyActiveSet
  refine ⟨fun s t f h => ⟨fun row hrow hi => ?_, fun row hrow hi => ?_, fun hi => ?_, fun hi => ?_⟩,
    fun s t f h => ⟨fun hi hnow => ?_, fun hi hnow => ⟨fun c bases hr hl hc => ?_, fun hr => ?_⟩,
      fun x hx hi => ⟨fun hnow => ?_, fun hbuf hend hl => ?_⟩⟩⟩
  · rw [exec_vecRow hrow]
    exact State.strandOnly_retires hi (vecOut_empty h (row.op f))
  · rw [exec_compareRow hrow]
    exact State.strandOnly_retires hi (vecMaskOut_empty h (row.op f))
  · obtain ⟨hflags, hwrites⟩ := t.putHalves_writesScalar f fun _ => 0
    exact ⟨_, (exec_vlane f s).trans (State.strandOnly_retires hi (vlaneOut_empty h)), hflags, hwrites⟩
  · rw [exec_vputl, State.strandOnly_retires hi (vputlOut_empty h), markRegs_vputlSpec]
    rfl
  · rw [exec_bloom, State.memInstr_retires_now hi (bloomOut_empty h) hi.1.1.1 (hnow.symm.imp_right Or.inr), markRegs_bloomSpec]
    rfl
  · rw [exec_vmcast]
    exact State.memInstr_retires_now hi (vmcastOut_empty h hr hl) hc hnow
  · rw [exec_vmcast]
    exact State.memInstr_retires_now hi (vmcastOut_replay_none hr f s.chip) hi.1.1.1 hnow
  · obtain ⟨body, hexec, hbody⟩ := memoryRows_empty hx
    rw [hexec]
    exact State.memInstr_retires_now hi (hbody _ _ h) hi.1.1.1 hnow
  · obtain ⟨body, hexec, hbody⟩ := memoryRows_empty hx
    obtain ⟨q, hq⟩ := Chip.quantumOf_of_buffers hbuf
    rw [hexec, State.memInstr_retires_marked hi (hbody _ _ h) hi.1.1.1 hbuf hend hl, hq]
    exact ⟨_, _, rfl, (Chip.strand_setStrand ..).trans (if_pos rfl),
      Strand.ended_retired' ((t.metEnd_markLast _).trans hend) q [] false _, rfl, rfl, rfl, fun _ => rfl, rfl⟩

end Sys2Proof.Machine
end

section
/-! PROOFS. Loads into a map slot (05_group_strand R122; 06_map_slot R134, R147; 18_isa_map_memory_cell R369): what MLOAD and MSIDE
come to when their rows pass the checks, what the landing of a load leaves in its slot, and the statement O23. -/

namespace Sys2Proof.Machine

/-! ### The load issues -/

theorem slotTrap_claimed {t : Strand} {slot : Nat} {m : MapSlot} (hl : slot < t.mapLimit) (hm : Sparse.get? t.slots slot = some m) :
    slotTrap t slot true = none := by
  simp [slotTrap, unclaimedTrap, hm, hl]

/-- A map instruction on a claimed slot that retires with the strand `u` over the chip `c`. -/
theorem State.mapOwn_retires {s : State} {t u : Strand} {sp : OpSpec} {f : Frame} {m : MapSlot} {c : Chip} {pc : W64} {i : Instr}
    {body : MapSlot → Chip → Strand → Chip × Out} (h : s.Issues t sp f) (hl : f.slot < t.mapLimit)
    (hm : Sparse.get? t.slots f.slot = some m) (hb : body m s.chip t = (c, .done u pc false)) (hc : c.Whole) :
    s.mapOwn i sp f body =
      .next (s.withChip (c.setStrand s.chip.cur (u.retired' (c.quantumOf u) (markRegs sp f) false pc))) := by
  unfold State.mapOwn
  refine State.strandInstr_retires h ?_ hc
  simp only [slotTrap_claimed hl hm, hm, hb]

theorem firstField_none {l : List (Bool × Nat)} (h : firstField l = none) : ∀ x ∈ l, x.1 = false := by
  induction l with
  | nil => simp
  | cons x rest ih =>
    obtain ⟨b, n⟩ := x
    cases b with
    | true => simp [firstField] at h
    | false => simpa using ih h

theorem operandField_of_stageA {t : Strand} {sp : OpSpec} {f : Frame} (h : stageA t sp f = none) : operandField t sp f = none := by
  cases ho : operandField t sp f with
  | none => rfl
  | some n =>
    simp only [stageA, ho] at h
    repeat' split at h
    all_goals cases h

/-- Stage A has checked field B's code. -/
theorem codeOk_of_stageA {t : Strand} {sp : OpSpec} {f : Frame} (h : stageA t sp f = none) : codeOk t sp.b false f.b = true := by
  simpa using firstField_none (operandField_of_stageA h) (!codeOk t sp.b false f.b, 4) (by simp)

/-- Where an s code or 511 may stand, one of them does. -/
theorem codeOk_scalar_orNone {t : Strand} {o : Operand} (h : codeOk t FieldSpec.scalar.orNone false o = true) : o = .none ∨ ∃ n, o = .s n := by
  cases o with
  | none => exact Or.inl rfl
  | s n => exact Or.inr ⟨n, rfl⟩
  | _ => simp [codeOk, FieldSpec.orNone, FieldSpec.scalar, FieldSpec.unused] at h

/-- The bytes from a row of a slot load to the next (R369). -/
def slotPitch (t : Strand) (f : Frame) (side : Bool) : W64 := if side then 16 else if f.b = .none then 128 else sVal t 0 f.b

/-- The checks of MLOAD and MSIDE, as the dispatch of `exec` runs them. -/
def slotLoadSpec (side : Bool) : OpSpec :=
  if side then { mapSpec 0x1E4 0x3FF with a := .scalar } else { mapSpec 0x1E3 0x3FF with a := .scalar, b := FieldSpec.scalar.orNone }

theorem markRegs_slotLoadSpec (side : Bool) (f : Frame) : markRegs (slotLoadSpec side) f = [] := by
  cases side <;> exact markRegs_none rfl rfl rfl

theorem exec_slotLoad (side : Bool) (f : Frame) (s : State) : exec (if side then .mside f else .mload f) s =
    s.mapOwn (if side then .mside f else .mload f) (slotLoadSpec side) f (slotLoadOut f side) := by
  cases side <;> rfl

/-- The chip in which a slot load of the executing strand has read its bytes and is outstanding. -/
def Chip.slotLoadSent (c : Chip) (f : Frame) (side : Bool) (bs : List Byte) : Chip :=
  { c with
    nextId := c.nextId + 1
    slotLoads := c.slotLoads ++
      [{ id := c.nextId, sid := c.cur, slot := f.slot, side := side, first := f.first * (if side then 16 else 128), bytes := bs }] }

/-- A slot load whose rows pass their checks reads them at their owners, and leaves a load outstanding in its slot. -/
theorem slotLoadOut_reads {f : Frame} {side : Bool} {m : MapSlot} {c d : Chip} {t : Strand} {rs : List Reach}
    (hf : side = false → f.b = .none ∨ ∃ n, f.b = .s n) (hrows : f.first + f.rows 5 ≤ 32) (ho : c.ownerTrap t 3 (sVal t 0 f.a) = none)
    (hbase : (sVal t 0 f.a).toNat % 16 = 0) (hpitch : (slotPitch t f side).toNat % 16 = 0)
    (hk : c.checkBytes (c.who t) t.core (c.localGid t) .load false
      (slotRows (sVal t 0 f.a) (slotPitch t f side) (f.rows 5) (if side then 16 else 128)) = (d, .ok rs)) :
    slotLoadOut f side m c t = ((d.readOwners t rs).1.slotLoadSent f side (d.readOwners t rs).2,
      .done (t.setSlot f.slot { m with loads := m.loads ++ [(d.readOwners t rs).1.nextId] }) t.nextPc false) := by
  have hrows' : ¬ f.first + f.rows 5 > 32 := by omega
  have hown : ¬ (c.ownerTrap t 3 (sVal t 0 f.a)).isSome = true := by simp [ho]
  generalize hb : f.b = b at hf
  have hside : side = true ∨ (side = false ∧ b = .none) ∨ ∃ n, side = false ∧ b = .s n := by
    cases side with
    | true => exact Or.inl rfl
    | false => simpa using hf rfl
  rcases hside with rfl | ⟨rfl, rfl⟩ | ⟨n, rfl, rfl⟩
  all_goals
    unfold slotLoadOut
    simp only [slotPitch, hb, if_true, if_false, reduceCtorEq, Bool.false_eq_true] at hk hpitch ⊢
    rw [if_neg hrows', if_neg hown, if_neg (by simp [hbase]), if_neg (by simp [hpitch]), hk]
    rfl

/-! ### The load lands -/

theorem exec_slotLoadLand (op : Nat) (s : State) : exec (.slotLoadLand op) s = s.onChip (s.chip.slotLoadLand op) := rfl

theorem Sparse.get?_map {α : Type} (m : Sparse α) (g : α → α) (i : Nat) :
    Sparse.get? (m.map fun x => (x.1, g x.2)) i = (Sparse.get? m i).map g := by
  induction m with
  | nil => rfl
  | cons x rest ih =>
    simp only [List.map_cons, Sparse.get?, ih]
    split
    · rfl
    · split <;> rfl

theorem Chip.updStrand_absent {c : Chip} {sid : Nat} (h : c.strand sid = none) (g : Strand → Strand) : c.updStrand sid g = c := by
  unfold Chip.updStrand
  rw [Sparse.update_none g h]

theorem Chip.strand_updStrand {c : Chip} {sid : Nat} {t : Strand} (h : c.strand sid = some t) (g : Strand → Strand) :
    (c.updStrand sid g).strand sid = some (g t) := by
  have hs : Sparse.get? c.strands sid = some t := h
  simp [Chip.updStrand, Chip.strand, Sparse.get?_update_self, hs]

/-- A returned physical slot changes only what a placement looks at. -/
theorem Chip.slotReturned_frame (c : Chip) (x : SlotLoad) : ∃ fr, c.slotReturned x = { c with freed := fr } := by
  unfold Chip.slotReturned
  split
  · exact ⟨_, rfl⟩
  · exact ⟨c.freed, rfl⟩

/-- The chip in which a load is no longer outstanding. -/
def Chip.withoutSlotLoad (c : Chip) (x : SlotLoad) : Chip := { c with slotLoads := c.slotLoads.filter fun y => y.id != x.id }

theorem Chip.not_mem_withoutSlotLoad (c : Chip) (x : SlotLoad) : x ∉ (c.withoutSlotLoad x).slotLoads := by
  simp [Chip.withoutSlotLoad]

/-- The oldest outstanding load of its strand lands. -/
theorem Chip.slotLoadLand_oldest {c : Chip} {x : SlotLoad} (hx : c.slotLoads.find? (fun y => y.id == x.id) = some x)
    (ho : c.slotLoads.find? (fun y => y.sid == x.sid) = some x) :
    c.slotLoadLand x.id = ((c.withoutSlotLoad x).slotReturned x).updStrand x.sid fun t => t.slotLanded x := by
  simp only [Chip.slotLoadLand, hx, ho]
  rfl

/-- A slot that waits for a load has its bytes once the load has landed; the others stay. -/
theorem Strand.slot_slotLanded {t : Strand} {x : SlotLoad} {n : Nat} {m : MapSlot} (hm : Sparse.get? t.slots n = some m)
    (hl : x.id ∈ m.loads) : Sparse.get? (t.slotLanded x).slots n = some (m.landed x) := by
  have hslots : (t.slotLanded x).slots = t.slots.map fun y => (y.1, if y.2.loads.contains x.id then y.2.landed x else y.2) := by
    refine List.map_congr_left fun y _ => ?_
    split <;> rfl
  rw [hslots, Sparse.get?_map t.slots fun y => if y.loads.contains x.id then y.landed x else y, hm]
  simp [hl]

section
variable (m : MapSlot) (x : SlotLoad)

@[simp] theorem MapSlot.landed_loads : (m.landed x).loads = m.loads.filter (· != x.id) := by
  unfold MapSlot.landed
  dsimp only
  split <;> rfl

/-- With its last load a slot becomes valid and dirty. -/
theorem MapSlot.landed_bits : (m.landed x).v = (m.v || (m.landed x).loads.isEmpty) ∧ (m.landed x).d = (m.d || (m.landed x).loads.isEmpty) ∧
    (m.landed x).desc = m.desc := by
  rw [MapSlot.landed_loads]
  unfold MapSlot.landed
  dsimp only
  split <;> exact ⟨rfl, rfl, rfl⟩

theorem MapSlot.landed_image (h : x.side = false) : (m.landed x).image =
    putBits m.image (8 * x.first) (BitVec.ofNat (8 * x.bytes.length) (leNat x.bytes)) ∧ (m.landed x).side = m.side := by
  simp [MapSlot.landed, h]

theorem MapSlot.landed_side (h : x.side = true) : (m.landed x).side =
    putBits m.side (8 * x.first) (BitVec.ofNat (8 * x.bytes.length) (leNat x.bytes)) ∧ (m.landed x).image = m.image := by
  simp [MapSlot.landed, h]

end

/-- Settles O23: a load issues by what its body comes to, and lands in the slot that waits for it, or into nothing. -/
theorem slotLoads : Obligations.SlotLoads := by
  unfold Obligations.SlotLoads
  refine ⟨fun s t f m c rs side hl hm => ?_, fun s x hw hx ho => ⟨fun h hh hn => ?_, fun t n m ht hm hid => ?_⟩⟩
  · intro sp size base pitch hi hrows hown hbase hpitch hk y hy
    have hsp : sp = slotLoadSpec side := rfl
    have hb : side = false → f.b = .none ∨ ∃ n, f.b = .s n := by
      rintro rfl
      exact codeOk_scalar_orNone (codeOk_of_stageA hi.2.1)
    rw [exec_slotLoad, State.mapOwn_retires (hsp ▸ hi) hl hm (slotLoadOut_reads hb hrows hown hbase hpitch hk) hy, markRegs_slotLoadSpec]
    rfl
  · have hret : (s.chip.withoutSlotLoad x).slotReturned x = (s.chip.withoutSlotLoad x).noteFreed (h.core / Config.coresPerDie) := by
      simp only [Chip.slotReturned, hh]
    rw [exec_slotLoadLand, Chip.slotLoadLand_oldest hx ho, hret, Chip.updStrand_absent (c := (s.chip.withoutSlotLoad x).noteFreed _) hn]
    exact State.onChip_whole s hw
  · obtain ⟨fr, hret⟩ := (s.chip.withoutSlotLoad x).slotReturned_frame x
    obtain ⟨hv, hd, hdesc⟩ := m.landed_bits x
    rw [exec_slotLoadLand, Chip.slotLoadLand_oldest hx ho, hret]
    exact ⟨_, t.slotLanded x, m.landed x, State.onChip_whole s hw, Chip.strand_updStrand ht _, Strand.slot_slotLanded hm hid,
      m.landed_loads x, hv, hd, hdesc, m.landed_image x, m.landed_side x, rfl, s.chip.not_mem_withoutSlotLoad x⟩

end Sys2Proof.Machine
end

section
/-! PROOFS. A vector load over a migrating page (10_page R217, R218; 07_cell R153, R169): the lines that its older lanes pull bring cell tags
along, so that a younger lane, whose cell held a value when the lanes were checked, meets a bud; and the refutation of the statement O25. -/

namespace Sys2Proof.Machine

/-! ### A page that migrates into the frame of a CELL page -/

/-- A leaf of 4 KiB with R and W: its state, and the address of its frame or of its migration record (R208). -/
def dataLeaf (pa state : Nat) : Nat := pa + state + 8 + 2 ^ 53 + 2 ^ 54

/-- A chip with two pages of one context on one frame: the page at 0x3000 is a CELL page on the frame 0x8000, and the page at 0x4000
migrates from the frame 0x9000 to it, by the record at 0xA000 of which no line is valid yet. The source's cell at 0x9010 holds a bud. -/
def aliasChip : Chip :=
  let c := (Chip.reset.programMemory 0).writePhys (.near 0) 0x4018
    (leBytes 8 (dataLeaf 0x8000 1 + 2 ^ 56) ++ leBytes 8 (dataLeaf 0xA000 5))
  let c := c.writePhys (.near 0) 0xA000 (leBytes 32 (0x11 + 0x8000 * 2 ^ 128 + 0x9000 * 2 ^ 192))
  { c.setTag (.near 0) 0x9010 tagBud with
    ctxs := [(0, { Context.program with state := .running, det := true })]
    groups := [(1, Group.program)]
    cur := 2, nextId := 3 }

/-- A strand of that context with the lanes 0 and 1, whose addresses 0x4010 and 0x3010 are s1 and an offset in v2. -/
def aliasStrand : Strand :=
  { Strand.program 1 with
    kregs := [(0, 3)]
    sregs := [(1, 0x3000)]
    vregs := [(2, { VReg.start with lanes := 0x1010 + 0x10 * 2 ^ 32 })] }

/-- The state in which that strand executes. -/
def aliasState : State := { State.reset with chip := { aliasChip with strands := [(2, aliasStrand)] } }

/-- `vld v3, [s1 + v2]`: four bytes in each active lane. -/
def aliasFrame : Frame := { Frame.unused with d := .v 3, a := .s 1, b := .v 2, fs1 := 0x400, et := .b32 }

/-- Stage A finds nothing wrong, both lanes are active, and v2 is full. -/
theorem aliasState_issues : aliasState.Issues aliasStrand (vldForm aliasFrame).sp aliasFrame := by
  unfold State.Issues State.Executes Chip.Whole
  decide +kernel

theorem aliasStrand_sources :
    aliasStrand.lanesOf aliasFrame ≠ 0 ∧ sourcesState aliasStrand (vldForm aliasFrame).sp aliasFrame = .ok := by decide +kernel

/-- What the checks of the two lanes come to. -/
def aliasCheck : Chip × List LaneFault × List (Nat × Reach × LoadDest) :=
  (vldForm aliasFrame).check aliasState.chip aliasStrand (lanesIn (aliasStrand.lanesOf aliasFrame))

/-- When the lanes are checked neither faults, and lane 1's cell holds a value, which the load reads without the cell's owner. -/
theorem aliasCheck_passes : aliasCheck.2.1 = [] ∧
    ∀ w ∈ aliasCheck.2.2, aliasCheck.1.needsCell (aliasState.chip.buffers aliasStrand) w.2.1 = false := by decide +kernel

/-- Lane 0 has the line at 0x9000 pulled to 0x8000, with its tags. -/
theorem aliasCheck_reads_bud :
    (aliasCheck.1.tagAt (.near 0) 0x8010 = tagValue ∧
      (aliasCheck.1.readLanes (aliasState.chip.buffers aliasStrand) aliasStrand aliasFrame.scope aliasCheck.2.2).1.tagAt (.near 0) 0x8010 = tagBud) ∧
    (aliasCheck.1.readLanes (aliasState.chip.buffers aliasStrand) aliasStrand aliasFrame.scope aliasCheck.2.2).1.Whole := by
  unfold Chip.Whole
  decide +kernel

/-- So lane 1 meets the bud: the load retires with v3 in flight. -/
theorem aliasState_inflight : ∃ s' u, exec (.vld aliasFrame) aliasState = .next s' ∧ s'.chip.strand 2 = some u ∧
    (u.vreg 3).fill = .inflight .bud 3 := by
  have hrun : (match exec (.vld aliasFrame) aliasState with
      | .next s' => (s'.chip.strand 2).map fun u : Strand => (u.vreg 3).fill
      | _ => none) = some (.inflight .bud 3) := by decide +kernel
  split at hrun
  · next s' he =>
    obtain ⟨u, hu, hfill⟩ := Option.map_eq_some_iff.1 hrun
    exact ⟨s', u, he, hu, hfill⟩
  · cases hrun

/-- Refutes O25: it asks that no lane needs a cell when the lanes are checked, and not when each is read. In a deterministic context the page that
lane 0 reads migrates into the frame of lane 1's cell and brings a bud there, so that v3 is not full when the load has retired. In a normal context
a lane of a CELL page always needs its cell (`Chip.needsCell`), whatever its tag. -/
theorem not_vectorLoads : ¬ Obligations.VectorLoads := by
  unfold Obligations.VectorLoads
  intro h
  obtain ⟨hact, hsrc⟩ := aliasStrand_sources
  obtain ⟨hfaults, hcells⟩ := aliasCheck_passes
  have hcheck : aliasCheck = (aliasCheck.1, [], aliasCheck.2.2) := by rw [← hfaults]
  obtain ⟨v, hexec, -, hdests, -⟩ := h aliasState aliasStrand aliasFrame aliasCheck.1 aliasCheck.2.2 (vldForm aliasFrame) (List.mem_cons_self ..)
    aliasState_issues hact hsrc hcheck hcells rfl rfl aliasCheck_reads_bud.2
  obtain ⟨hfull, -⟩ := hdests 3 (by decide)
  obtain ⟨s', u, he, hu, hfill⟩ := aliasState_inflight
  obtain rfl : aliasState.withChip _ = s' := Host.Outcome.next.inj (hexec.symm.trans he)
  rw [State.withChip_chip, show (2 : Nat) = aliasState.chip.cur from rfl, Chip.strand_setStrand, if_pos rfl] at hu
  obtain rfl := Option.some.inj hu
  rw [Strand.retired'_vreg _ _ _ _ (by decide), hfull] at hfill
  cases hfill

end Sys2Proof.Machine
end

section
/-! PROOFS. Numbers written as bytes (R9) and as sums of fields of one width: the bytes of a number read back, and a field of such a sum. -/

namespace Sys2Proof.Machine

/-! ### Bytes of a number -/

@[simp] theorem length_leBytes (n x : Nat) : (leBytes n x).length = n := by
  induction n generalizing x with
  | zero => rfl
  | succ n ih => exact congrArg (· + 1) (ih (x / 256))

/-- The bytes of a number hold it, as far as there are bytes for it. -/
theorem leNat_leBytes (n x : Nat) : leNat (leBytes n x) = x % 2 ^ (8 * n) := by
  induction n generalizing x with
  | zero => simp [leBytes, leNat, Nat.mod_one]
  | succ n ih =>
    have hpow : 2 ^ (8 * (n + 1)) = 256 * 2 ^ (8 * n) := by
      rw [Nat.mul_succ, Nat.pow_add, Nat.mul_comm, show 2 ^ 8 = 256 from rfl]
    rw [leBytes, leNat, ih, BitVec.toNat_ofNat, hpow, Nat.mod_mul]

/-- The bytes of a word hold it. -/
theorem leNat_leBytes_toNat {n : Nat} (x : BitVec (8 * n)) : leNat (leBytes n x.toNat) = x.toNat := by
  rw [leNat_leBytes, Nat.mod_eq_of_lt x.isLt]

/-! ### Fields of one width -/

/-- The number whose field `k` of `w` bits is `a k`, for `n` fields. -/
def fieldSum (w n : Nat) (a : Nat → Nat) : Nat := ((List.range n).map fun k => a k * 2 ^ (w * k)).sum

theorem fieldSum_succ (w n : Nat) (a : Nat → Nat) : fieldSum w (n + 1) a = fieldSum w n a + a n * 2 ^ (w * n) := by
  simp only [fieldSum, List.range_succ, List.map_append, List.sum_append, List.map_cons, List.map_nil, List.sum_cons, List.sum_nil,
    Nat.add_zero]

/-- Fields that are each within their width carry into no other. -/
theorem fieldSum_lt {w n : Nat} {a : Nat → Nat} (h : ∀ k, k < n → a k < 2 ^ w) : fieldSum w n a < 2 ^ (w * n) := by
  induction n with
  | zero => exact Nat.two_pow_pos _
  | succ n ih =>
    have hlow : fieldSum w n a < 2 ^ (w * n) := ih fun k hk => h k (Nat.lt_succ_of_lt hk)
    calc fieldSum w (n + 1) a = fieldSum w n a + a n * 2 ^ (w * n) := fieldSum_succ w n a
      _ < 2 ^ (w * n) + a n * 2 ^ (w * n) := Nat.add_lt_add_right hlow _
      _ = (a n + 1) * 2 ^ (w * n) := by rw [Nat.succ_mul, Nat.add_comm]
      _ ≤ 2 ^ w * 2 ^ (w * n) := Nat.mul_le_mul_right _ (h n (Nat.lt_succ_self n))
      _ = 2 ^ (w * (n + 1)) := by rw [← Nat.pow_add, Nat.mul_succ, Nat.add_comm]

theorem fieldSum_lt_of_le {w n m : Nat} {a : Nat → Nat} (h : ∀ k, k < n → a k < 2 ^ w) (hm : w * n ≤ m) : fieldSum w n a < 2 ^ m :=
  Nat.lt_of_lt_of_le (fieldSum_lt h) (Nat.pow_le_pow_right (by decide) hm)

/-- A field above adds nothing to the ones below it. -/
theorem add_higher_field (x y w : Nat) {k n : Nat} (hk : k < n) :
    (x + y * 2 ^ (w * n)) / 2 ^ (w * k) % 2 ^ w = x / 2 ^ (w * k) % 2 ^ w := by
  obtain ⟨d, rfl⟩ := Nat.exists_eq_add_of_lt hk
  have hpow : y * 2 ^ (w * (k + d + 1)) = 2 ^ (w * k) * (2 ^ w * (y * 2 ^ (w * d))) := by
    simp only [Nat.mul_add, Nat.mul_one, Nat.pow_add]
    ac_rfl
  rw [hpow, Nat.add_mul_div_left _ _ (Nat.two_pow_pos _), Nat.add_mul_mod_self_left]

section
variable {w n : Nat} {a : Nat → Nat} (h : ∀ k, k < n → a k < 2 ^ w)
include h

/-- Each field of the sum is the one put there. -/
theorem fieldSum_field {k : Nat} (hk : k < n) : fieldSum w n a / 2 ^ (w * k) % 2 ^ w = a k := by
  induction n with
  | zero => cases hk
  | succ n ih =>
    have hlow : ∀ k, k < n → a k < 2 ^ w := fun k hk => h k (Nat.lt_succ_of_lt hk)
    rw [fieldSum_succ]
    rcases Nat.lt_succ_iff_lt_or_eq.1 hk with hlt | rfl
    · rw [add_higher_field _ _ w hlt]
      exact ih hlow hlt
    · rw [Nat.add_mul_div_right _ _ (Nat.two_pow_pos _), Nat.div_eq_of_lt (fieldSum_lt hlow), Nat.zero_add, Nat.mod_eq_of_lt (h k hk)]

theorem bits_fieldSum {m k : Nat} (hk : k < n) (hm : w * k + w ≤ m) :
    bits (BitVec.ofNat m (fieldSum w n a)) (w * k) w = BitVec.ofNat w (a k) := by
  obtain ⟨u, rfl⟩ : ∃ u, m = w * k + u := ⟨m - w * k, by omega⟩
  apply BitVec.eq_of_toNat_eq
  rw [bits, BitVec.extractLsb'_toNat, BitVec.toNat_ofNat, Nat.shiftRight_eq_div_pow, Nat.pow_add, Nat.mod_mul_right_div_self,
    Nat.mod_mod_of_dvd _ (Nat.pow_dvd_pow 2 (by omega)), fieldSum_field h hk, BitVec.toNat_ofNat, Nat.mod_eq_of_lt (h k hk)]

end

/-- A field of a field. -/
theorem bits_bits {n : Nat} (x : BitVec n) (lo lo' : Nat) {w w' : Nat} (h : lo' + w' ≤ w) :
    bits (bits x lo w) lo' w' = bits x (lo + lo') w' := by
  apply BitVec.eq_of_getLsbD_eq
  intro i hi
  simp only [getLsbD_bits, hi, show lo' + i < w by omega, decide_true, Bool.true_and, Nat.add_assoc]

end Sys2Proof.Machine
end

section
/-! PROOFS. MDRAIN (06_map_slot R145; 12_traps R251; 18_isa_map_memory_cell R372): the bytes that it writes, its checks, what it comes to when
they pass, and the statement O24. -/

namespace Sys2Proof.Machine

/-! ### The bytes of a slot -/

section
variable {m : MapSlot}

/-- The slot word and the zeros after the image and the side memory. -/
def MapSlot.drainedTail (m : MapSlot) : List Byte := leBytes 8 m.word.toNat ++ List.replicate 56 0

theorem MapSlot.drained_valid (h : m.v = true) :
    m.drained = leBytes 4096 m.image.toNat ++ (leBytes 512 m.side.toNat ++ m.drainedTail) := by
  rw [MapSlot.drained, if_pos h, List.append_assoc, List.append_assoc]
  rfl

theorem MapSlot.drained_invalid (h : m.v = false) : m.drained = List.replicate 4608 0 ++ m.drainedTail := by
  rw [MapSlot.drained, if_neg (by simp [h]), List.append_assoc]
  rfl

theorem MapSlot.drained_split (m : MapSlot) : ∃ data : List Byte, data.length = 4608 ∧ m.drained = data ++ m.drainedTail := by
  cases h : m.v with
  | true => exact ⟨_, by rw [List.length_append, length_leBytes, length_leBytes], (m.drained_valid h).trans (List.append_assoc ..).symm⟩
  | false => exact ⟨_, List.length_replicate, m.drained_invalid h⟩

theorem MapSlot.length_drained (m : MapSlot) : m.drained.length = 4672 := by
  obtain ⟨data, hlen, hm⟩ := m.drained_split
  rw [hm, List.length_append, hlen, drainedTail, List.length_append, length_leBytes, List.length_replicate]

theorem MapSlot.wordAt_drained (m : MapSlot) : wordAt m.drained 576 = m.word := by
  obtain ⟨data, hlen, hm⟩ := m.drained_split
  have hword : (m.drained.drop (8 * 576)).take 8 = leBytes 8 m.word.toNat := by
    rw [hm, List.drop_left' hlen, drainedTail, List.take_left' (length_leBytes ..)]
  rw [wordAt, hword, leNat_leBytes_toNat (n := 8), BitVec.ofNat_toNat, BitVec.setWidth_eq]

theorem MapSlot.leNat_drained (h : m.v = true) :
    leNat (m.drained.take 4096) = m.image.toNat ∧ leNat ((m.drained.drop 4096).take 512) = m.side.toNat := by
  rw [m.drained_valid h, List.take_left' (length_leBytes ..), List.drop_left' (length_leBytes ..), List.take_left' (length_leBytes ..)]
  exact ⟨leNat_leBytes_toNat (n := 4096) m.image, leNat_leBytes_toNat (n := 512) m.side⟩

theorem MapSlot.take_drained_invalid (h : m.v = false) : m.drained.take 4608 = List.replicate 4608 0 := by
  rw [m.drained_invalid h, List.take_left' List.length_replicate]

end

/-! ### The checks and the stores -/

/-- Checks that pass leave the chip as it is: only an absent frame stops the machine. -/
theorem Chip.checkDrain_ok {c d : Chip} {who : Who} {core gid : Nat} {ps : List (W64 × Nat)} {rs : List Reach}
    (h : c.checkDrain who core gid ps = (d, .ok rs)) : d = c := by
  induction ps generalizing rs with
  | nil => cases h; rfl
  | cons p ps ih =>
    obtain ⟨va, n⟩ := p
    unfold Chip.checkDrain at h
    split at h
    · cases h
    · cases h
    · split at h
      · cases h
      · split at h
        · cases h
        · split at h
          · cases h
          · next hrest => cases h; exact ih hrest
          · next hne => exact absurd h (hne d _)

/-- The bytes of a slot with the addresses they go to, in pieces of 64 bytes. -/
def drainData (m : MapSlot) (rs : List Reach) : List (Reach × List Byte) := rs.zip (chunks 64 73 m.drained)

/-- The pieces stored one after another. -/
def Chip.drainStores (c : Chip) (t : Strand) (data : List (Reach × List Byte)) : Chip :=
  data.foldl (fun c x => c.storeBytes c.cur t.core t.ctx 0 x.1 x.2) c

/-- The strand that leaves the pieces to Commit. -/
def Strand.buffersDrain (t : Strand) (f : Frame) (data : List (Reach × List Byte)) : Strand :=
  { t with buffer := t.buffer ++ [{ pc := t.pc, instr := .mdrain f, active := t.k0,
                                    op := .store (data.map fun x => { lane := 0, va := x.1.va, bytes := x.2 }) }] }

section
variable {f : Frame} {m : MapSlot} {c : Chip} {t : Strand} {rs : List Reach} (ho : c.ownerTrap t 3 (sVal t 0 f.a) = none)
  (hbase : (sVal t 0 f.a).toNat % 64 = 0)
  (hk : c.checkDrain (c.who t) t.core (c.localGid t) (pieces (sVal t 0 f.a) 4672 64) = (c, .ok rs))
include ho hbase hk

theorem mdrainOut_stores (hb : c.buffers t = false) :
    mdrainOut f m c t = (c.drainStores t (drainData m rs), .done t t.nextPc false) := by
  simp only [mdrainOut, ho, hbase, hk, hb, Option.isSome_none, Bool.false_eq_true, bne_self_eq_false, if_false]
  rfl

theorem mdrainOut_buffers (hb : c.buffers t = true) :
    mdrainOut f m c t = (c, .done (t.buffersDrain f (drainData m rs)) t.nextPc false) := by
  simp only [mdrainOut, ho, hbase, hk, hb, Option.isSome_none, Bool.false_eq_true, bne_self_eq_false, if_false, if_true]
  rfl

end

/-- The checks of MDRAIN, as the dispatch of `exec` runs them. -/
def mdrainSpec : OpSpec := { mapSpec 0x1E7 0 with a := .scalar }

theorem markRegs_mdrainSpec (f : Frame) : markRegs mdrainSpec f = [] := markRegs_none rfl rfl rfl

/-- An MDRAIN on a claimed slot that is not loading, in the subject's slots or below MAPLIMIT, comes to its checks and stores. -/
theorem exec_mdrain {s : State} {t u : Strand} {f : Frame} {m : MapSlot} {d : Chip} (hi : s.Issues t mdrainSpec f)
    (hl : t.isHandler = true ∨ f.slot < (s.chip.slotOwner t).mapLimit) (hm : Sparse.get? (s.chip.slotOwner t).slots f.slot = some m)
    (hload : m.loads = []) (hb : mdrainOut f m s.chip t = (d, .done u t.nextPc false)) (hd : d.Whole) :
    exec (.mdrain f) s = .next (s.withChip (d.setStrand s.chip.cur (u.retired' (d.quantumOf u) [] false t.nextPc))) := by
  have hslot : (if t.isHandler then unclaimedTrap (s.chip.slotOwner t) f.slot else slotTrap (s.chip.slotOwner t) f.slot true) = none := by
    split
    · simp [unclaimedTrap, hm]
    · next hh => exact slotTrap_claimed (hl.resolve_left hh) hm
  change execMdrain f s = _
  rw [← markRegs_mdrainSpec f]
  refine State.strandInstr_retires (sp := mdrainSpec) hi ?_ hd
  simp only [hslot, hm, MapSlot.whenLanded, hload, List.isEmpty_nil, if_true, hb]

/-- Settles O24: with its checks passed the chip is the one before them, and the stores are made or buffered. -/
theorem slotDrains : Obligations.SlotDrains := by
  unfold Obligations.SlotDrains
  intro s t f m c rs hi o base hl hm hload ho hbase hk data
  obtain rfl := Chip.checkDrain_ok hk
  exact ⟨fun hb hd => exec_mdrain hi hl hm hload (mdrainOut_stores ho hbase hk hb) hd,
    fun hb hw => ⟨_, exec_mdrain hi hl hm hload (mdrainOut_buffers ho hbase hk hb) hw, _, rfl, rfl⟩,
    m.length_drained, m.wordAt_drained, m.leNat_drained, m.take_drained_invalid⟩

end Sys2Proof.Machine
end

section
/-! PROOFS. The life of a map slot and the fills of its image (06_map_slot R130, R131, R134, R135, R147, R150; 18_isa_map_memory_cell R365,
R367, R368, R370, R371, R389): what the instructions come to on a claimed slot, on an unclaimed one and past MAPLIMIT, what MFILL and MGEN leave in an
image, and the statement O22. -/

namespace Sys2Proof.Machine

/-! ### An instruction that touches nothing but its strand -/

section
variable {s : State} {t u : Strand} {sp : OpSpec} {f : Frame} {i : Instr} {body : Strand → Out}

theorem State.strandOnly_goesOn (h : s.Issues t sp f) (hb : body t = retires u) (hk : markRegs sp f = []) :
    s.strandOnly i sp f body = .next (s.goesOn u) := by
  rw [State.strandOnly_retires h hb, hk]
  rfl

theorem State.strandOnly_waits {w : WaitCause} (h : s.Issues t sp f) (hb : body t = .wait t w) :
    s.strandOnly i sp f body = .next (s.withChip (s.chip.setStrand s.chip.cur { t with status := .waiting w })) :=
  State.strandInstr_waits h (by rw [hb])

end

/-! ### A map instruction on the executing strand's own slots -/

section
variable {s : State} {t u : Strand} {sp : OpSpec} {f : Frame} {m : MapSlot} {i : Instr} {body : MapSlot → Chip → Strand → Chip × Out}

theorem slotTrap_past {slot : Nat} {claimed : Bool} (h : t.mapLimit ≤ slot) : slotTrap t slot claimed = some (Trap.instr .badOperand 10 0) :=
  if_pos h

theorem slotTrap_unclaimed {slot : Nat} (hl : slot < t.mapLimit) (hm : Sparse.get? t.slots slot = none) :
    slotTrap t slot true = some (Trap.instr .mapUnclaimed 10 0) := by
  rw [slotTrap, if_neg (Nat.not_le.2 hl), if_pos rfl, unclaimedTrap, hm]
  rfl

theorem slotTrap_below {slot : Nat} (hl : slot < t.mapLimit) : slotTrap t slot false = none := by
  rw [slotTrap, if_neg (Nat.not_le.2 hl), if_neg Bool.false_ne_true]

theorem State.mapOwn_goesOn (h : s.Issues t sp f) (hl : f.slot < t.mapLimit) (hm : Sparse.get? t.slots f.slot = some m)
    (hb : body m s.chip t = (s.chip, retires u)) (hk : markRegs sp f = []) : s.mapOwn i sp f body = .next (s.goesOn u) := by
  rw [State.mapOwn_retires h hl hm hb h.1.1, hk]
  rfl

/-- A map instruction whose body stops takes that trap. -/
theorem State.mapOwn_traps {tr : Trap} (h : s.Issues t sp f) (hz : s.Freezes t) (hl : f.slot < t.mapLimit)
    (hm : Sparse.get? t.slots f.slot = some m) (hp : tr.cause ≠ .pageFault) (hb : body m s.chip t = (s.chip, .stop tr)) :
    s.mapOwn i sp f body = .next (s.traps t tr) :=
  State.strandInstr_traps h hz hp (by simp only [slotTrap_claimed hl hm, hm, hb])

theorem State.mapOwn_waits (h : s.Issues t sp f) (hl : f.slot < t.mapLimit) (hm : Sparse.get? t.slots f.slot = some m) {w : WaitCause}
    (hb : body m s.chip t = (s.chip, .wait t w)) :
    s.mapOwn i sp f body = .next (s.withChip (s.chip.setStrand s.chip.cur { t with status := .waiting w })) :=
  State.strandInstr_waits h (by simp only [slotTrap_claimed hl hm, hm, hb])

/-- Whatever its body, it traps on a slot that its strand has not claimed, and on one past MAPLIMIT (R365). -/
theorem State.mapOwn_unclaimed (h : s.Issues t sp f) (hz : s.Freezes t) (hl : f.slot < t.mapLimit) (hm : Sparse.get? t.slots f.slot = none) :
    s.mapOwn i sp f body = .next (s.traps t (Trap.instr .mapUnclaimed 10 0)) :=
  State.strandInstr_traps h hz (by simp [Trap.instr]) (by simp only [slotTrap_unclaimed hl hm])

theorem State.mapOwn_past (h : s.Issues t sp f) (hz : s.Freezes t) (hl : t.mapLimit ≤ f.slot) :
    s.mapOwn i sp f body = .next (s.traps t (Trap.instr .badOperand 10 0)) :=
  State.strandInstr_traps h hz (by simp [Trap.instr]) (by simp only [slotTrap_past hl])

end

/-! ### MCLAIM -/

section
variable {s : State} {t : Strand} {f : Frame} {m : MapSlot}

theorem mclaimOut_claimed (hm : Sparse.get? t.slots f.slot = some m) : mclaimOut f t = .stop (Trap.instr .badOperand 10 0) :=
  if_pos (by rw [hm]; rfl)

/-- The physical slot freed last, if any, has no load outstanding: it is taken. -/
theorem mclaimOut_takes (hm : Sparse.get? t.slots f.slot = none) (hd : ∀ ls, t.draining.getLast? = some ls → ls = []) :
    mclaimOut f t = retires ({ t with draining := t.draining.dropLast }.setSlot f.slot MapSlot.claimed) := by
  unfold mclaimOut
  rw [hm, if_neg (by simp)]
  split
  · next l ls hlast => cases hd (l :: ls) hlast
  · rfl

theorem mclaimOut_waits (hm : Sparse.get? t.slots f.slot = none) (hd : ∃ ls, t.draining.getLast? = some ls ∧ ls ≠ []) :
    mclaimOut f t = .wait t .mapSlot := by
  obtain ⟨ls, hlast, hne⟩ := hd
  obtain ⟨l, ls, rfl⟩ := List.exists_cons_of_ne_nil hne
  simp [mclaimOut, hm, hlast]

section
variable (hi : s.Issues t (mapSpec 0x1E0 0) f) (hl : f.slot < t.mapLimit)
include hi hl

theorem exec_mclaim_takes (hm : Sparse.get? t.slots f.slot = none) (hd : ∀ ls, t.draining.getLast? = some ls → ls = []) :
    exec (.mclaim f) s = .next (s.goesOn ({ t with draining := t.draining.dropLast }.setSlot f.slot MapSlot.claimed)) := by
  change execMclaim f s = _
  exact State.strandOnly_goesOn hi (by simp only [slotTrap_below hl, mclaimOut_takes hm hd]) (markRegs_none rfl rfl rfl)

theorem exec_mclaim_waits (hm : Sparse.get? t.slots f.slot = none) (hd : ∃ ls, t.draining.getLast? = some ls ∧ ls ≠ []) :
    exec (.mclaim f) s = .next (s.withChip (s.chip.setStrand s.chip.cur { t with status := .waiting .mapSlot })) := by
  change execMclaim f s = _
  exact State.strandOnly_waits hi (by simp only [slotTrap_below hl, mclaimOut_waits hm hd])

theorem exec_mclaim_claimed (hz : s.Freezes t) (hm : Sparse.get? t.slots f.slot = some m) :
    exec (.mclaim f) s = .next (s.traps t (Trap.instr .badOperand 10 0)) := by
  change execMclaim f s = _
  exact State.strandOnly_traps hi hz (by simp [Trap.instr]) (by simp only [slotTrap_below hl, mclaimOut_claimed hm])

end

theorem exec_mclaim_past (hi : s.Issues t (mapSpec 0x1E0 0) f) (hz : s.Freezes t) (hl : t.mapLimit ≤ f.slot) :
    exec (.mclaim f) s = .next (s.traps t (Trap.instr .badOperand 10 0)) := by
  change execMclaim f s = _
  exact State.strandOnly_traps hi hz (by simp [Trap.instr]) (by simp only [slotTrap_past hl])

end

/-! ### The instructions on a claimed slot -/

/-- The checks of MBIND, MQUERY, MFILL and MGEN, as the dispatch of `exec` runs them. -/
def mbindSpec : OpSpec := { mapSpec 0x1E2 0 with a := FieldSpec.scalar.orZero }
def mquerySpec : OpSpec := { mapSpec 0x1E8 0 with d := .scalar }
abbrev mfillSpec : OpSpec := { mapSpec 0x1E5 0x7F with a := FieldSpec.vec 1 }
def mgenSpec (f : Frame) : OpSpec := { mapSpec 0x1E6 0x1FF with extra := f.pat == 7 }

/-- The seven instructions that ask for a claimed slot of the executing strand, with their checks. -/
def claimedRows (f : Frame) : List (Instr × OpSpec) :=
  [(.mfree f, mapSpec 0x1E1 0), (.mbind f, mbindSpec), (.mquery f, mquerySpec), (.mfill f, mfillSpec), (.mgen f, mgenSpec f),
   (.mload f, slotLoadSpec false), (.mside f, slotLoadSpec true)]

theorem exec_claimedRow {f : Frame} {x : Instr × OpSpec} (h : x ∈ claimedRows f) : ∃ body, ∀ s, exec x.1 s = s.mapOwn x.1 x.2 f body := by
  unfold claimedRows at h
  simp only [List.mem_cons, List.not_mem_nil, or_false] at h
  rcases h with rfl | rfl | rfl | rfl | rfl | rfl | rfl
  · exact ⟨_, fun s => show execMfree f s = _ from rfl⟩
  · exact ⟨_, fun s => show execMbind f s = _ from rfl⟩
  · exact ⟨_, fun s => show execMquery f s = _ from rfl⟩
  · exact ⟨_, fun s => show execMfill f s = _ from rfl⟩
  · exact ⟨_, fun s => show execMgen f s = _ from rfl⟩
  · exact ⟨_, fun s => show execMload f s = _ from rfl⟩
  · exact ⟨_, fun s => show execMside f s = _ from rfl⟩

theorem exec_claimedRow_unclaimed {s : State} {t : Strand} {f : Frame} {x : Instr × OpSpec} (h : x ∈ claimedRows f) (hi : s.Issues t x.2 f)
    (hz : s.Freezes t) (hl : f.slot < t.mapLimit) (hm : Sparse.get? t.slots f.slot = none) :
    exec x.1 s = .next (s.traps t (Trap.instr .mapUnclaimed 10 0)) := by
  obtain ⟨body, hexec⟩ := exec_claimedRow h
  rw [hexec, State.mapOwn_unclaimed hi hz hl hm]

theorem exec_claimedRow_past {s : State} {t : Strand} {f : Frame} {x : Instr × OpSpec} (h : x ∈ claimedRows f) (hi : s.Issues t x.2 f)
    (hz : s.Freezes t) (hl : t.mapLimit ≤ f.slot) : exec x.1 s = .next (s.traps t (Trap.instr .badOperand 10 0)) := by
  obtain ⟨body, hexec⟩ := exec_claimedRow h
  rw [hexec, State.mapOwn_past hi hz hl]

section
variable {s : State} {t : Strand} {f : Frame} {m : MapSlot} (hl : f.slot < t.mapLimit) (hm : Sparse.get? t.slots f.slot = some m)
include hl hm

theorem exec_mfree_frees (hi : s.Issues t (mapSpec 0x1E1 0) f) : exec (.mfree f) s = .next (s.goesOn (t.freeSlot f.slot m)) := by
  change execMfree f s = _
  exact State.mapOwn_goesOn hi hl hm rfl (markRegs_none rfl rfl rfl)

theorem exec_mquery_answers (hi : s.Issues t mquerySpec f) : exec (.mquery f) s = .next (s.goesOn (putS t 0 f.d m.word)) := by
  change execMquery f s = _
  exact State.mapOwn_goesOn hi hl hm rfl (markRegs_none rfl rfl rfl)

theorem exec_mbind_accepts (hi : s.Issues t mbindSpec f) (hb : bindOk t f.slot (sVal t 0 f.a) = true) :
    exec (.mbind f) s = .next (s.goesOn (t.setSlot f.slot { m with desc := descBits (sVal t 0 f.a) })) := by
  change execMbind f s = _
  exact State.mapOwn_goesOn hi hl hm (if_pos hb) (markRegs_none rfl rfl rfl)

theorem exec_mbind_refuses (hi : s.Issues t mbindSpec f) (hz : s.Freezes t) (hb : bindOk t f.slot (sVal t 0 f.a) = false) :
    exec (.mbind f) s = .next (s.traps t (Trap.instr .badOperand 3 0)) := by
  change execMbind f s = _
  exact State.mapOwn_traps hi hz hl hm (by simp [Trap.instr]) (if_neg (by simp [hb]))

end

/-! ### MFILL and MGEN -/

/-- Registers that are all full stop nothing (R121). -/
theorem emptyOut_ok {t : Strand} {x : SrcState} (h : x = .ok) : emptyOut t x = none := by
  rw [h]
  rfl

section
variable {m : MapSlot} {k : Chip × Out}

theorem MapSlot.whenLanded_empty (h : m.loads = []) (c : Chip) (t : Strand) : m.whenLanded c t k = k :=
  if_pos (by rw [h]; rfl)

theorem MapSlot.whenLanded_loading (h : m.loads ≠ []) (c : Chip) (t : Strand) : m.whenLanded c t k = (c, .wait t .mapSlot) :=
  if_neg (by simpa using h)

end

/-- A slot whose image has `n` rows of a vector register from row `first` on (R370). -/
def MapSlot.filled (m : MapSlot) (first n : Nat) (x : LaneWord) : MapSlot :=
  { m with image := putBits m.image (1024 * first) (bits x 0 (1024 * n)), v := true, d := true }

/-- The image after MFILL: the rows filled hold the register's, the first lowest, and the others stay. -/
theorem MapSlot.bit_filled (m : MapSlot) (first n : Nat) (x : LaneWord) {i k : Nat} (hi : i < 32) (hk : k < 1024) :
    bit (m.filled first n x).image (1024 * i + k) =
      if first ≤ i ∧ i < first + n then bit x (1024 * (i - first) + k) else bit m.image (1024 * i + k) := by
  have hin : 1024 * i + k < 32768 := by omega
  have hrow : (1024 * first ≤ 1024 * i + k ∧ 1024 * i + k < 1024 * first + 1024 * n) ↔ first ≤ i ∧ i < first + n := by omega
  simp only [filled, bit, getLsbD_putBits, hin, hrow, decide_true, Bool.true_and, getLsbD_bits, Nat.zero_add]
  split
  · next h =>
    have hbit : 1024 * i + k - 1024 * first = 1024 * (i - first) + k := by omega
    rw [hbit, decide_eq_true (by omega), Bool.true_and]
  · rfl

section
variable {s : State} {t : Strand} {f : Frame} {m : MapSlot} (hl : f.slot < t.mapLimit) (hm : Sparse.get? t.slots f.slot = some m)
include hl hm

section
variable (hi : s.Issues t mfillSpec f)
include hi

theorem exec_mfill_fills (hrows : f.first + f.rows 2 ≤ 32) (hs : sourcesState t mfillSpec f = .ok) (hload : m.loads = []) :
    exec (.mfill f) s = .next (s.withChip (s.chip.retires (t.setSlot f.slot (m.filled f.first (f.rows 2) (t.vreg (vNum f.a)).lanes))
      (markRegs mfillSpec f) false t.nextPc)) := by
  have hrows' : ¬ f.first + f.rows 2 > 32 := Nat.not_lt.2 hrows
  change execMfill f s = _
  exact State.mapOwn_retires hi hl hm ((if_neg hrows').trans (by rw [emptyOut_ok hs]; exact m.whenLanded_empty hload ..)) hi.1.1

theorem exec_mfill_waits (hrows : f.first + f.rows 2 ≤ 32) (hs : sourcesState t mfillSpec f = .ok) (hload : m.loads ≠ []) :
    exec (.mfill f) s = .next (s.withChip (s.chip.setStrand s.chip.cur { t with status := .waiting .mapSlot })) := by
  have hrows' : ¬ f.first + f.rows 2 > 32 := Nat.not_lt.2 hrows
  change execMfill f s = _
  exact State.mapOwn_waits hi hl hm ((if_neg hrows').trans (by rw [emptyOut_ok hs]; exact m.whenLanded_loading hload ..))

theorem exec_mfill_past (hz : s.Freezes t) (hrows : 32 < f.first + f.rows 2) :
    exec (.mfill f) s = .next (s.traps t (Trap.instr .badOperand 10 0)) := by
  change execMfill f s = _
  exact State.mapOwn_traps hi hz hl hm (by simp [Trap.instr]) (if_pos hrows)

end

section
variable (hi : s.Issues t (mgenSpec f) f)
include hi

theorem exec_mgen_fills (hload : m.loads = []) (hsparse : m.sparse = false) (hpat : patOk f.pat f.patParam m.span = true) :
    exec (.mgen f) s = .next (s.goesOn (t.setSlot f.slot
      { m with image := patImage f.pat f.patParam m.span m.fm, v := true, d := true })) := by
  change execMgen f s = _
  exact State.mapOwn_goesOn hi hl hm ((m.whenLanded_empty hload ..).trans (if_neg (by simp [hsparse, hpat]))) (markRegs_none rfl rfl rfl)

theorem exec_mgen_waits (hload : m.loads ≠ []) :
    exec (.mgen f) s = .next (s.withChip (s.chip.setStrand s.chip.cur { t with status := .waiting .mapSlot })) := by
  change execMgen f s = _
  exact State.mapOwn_waits hi hl hm (m.whenLanded_loading hload ..)

theorem exec_mgen_refuses (hz : s.Freezes t) (hload : m.loads = []) (hbad : m.sparse = true ∨ patOk f.pat f.patParam m.span = false) :
    exec (.mgen f) s = .next (s.traps t (Trap.instr .badOperand 10 0)) := by
  change execMgen f s = _
  exact State.mapOwn_traps hi hz hl hm (by simp [Trap.instr]) ((m.whenLanded_empty hload ..).trans (if_pos (by simpa using hbad)))

end

end

/-! ### The image of a pattern -/

theorem laneOnes_lt {fm : ElemType} (h : fm.width ≤ 32) : laneOnes fm < 2 ^ 32 := by
  cases fm <;> revert h <;> decide

/-- A pattern's image is its rows, and a row its lanes. -/
theorem patImage_eq_fieldSum (pat : Nat) (p : Int) (span : Nat) (fm : ElemType) :
    patImage pat p span fm =
      BitVec.ofNat 32768 (fieldSum 1024 span fun i => fieldSum 32 span fun k => if patBit pat p span i k then laneOnes fm else 0) := by
  have hlane : ∀ i k, (if patBit pat p span i k then laneOnes fm else 0) * 2 ^ (32 * k) =
      if patBit pat p span i k then laneOnes fm * 2 ^ (32 * k) else 0 := fun i k => by
    split
    · rfl
    · exact Nat.zero_mul _
  simp only [patImage, fieldSum, hlane]

/-- A lane of a pattern's image is of ones where its weight is 1 (R150, R371). -/
theorem bits_patImage (pat : Nat) (p : Int) {span i k : Nat} {fm : ElemType} (hw : fm.width ≤ 32) (hspan : span ≤ 32) (hi : i < span)
    (hk : k < span) :
    (bits (patImage pat p span fm) (1024 * i + 32 * k) 32 : W32) = if patBit pat p span i k then BitVec.ofNat 32 (laneOnes fm) else 0 := by
  have hlane : ∀ i k, k < span → (if patBit pat p span i k then laneOnes fm else 0) < 2 ^ 32 := fun i k _ => by
    split
    · exact laneOnes_lt hw
    · exact Nat.two_pow_pos 32
  have hrow : ∀ i, i < span → fieldSum 32 span (fun k => if patBit pat p span i k then laneOnes fm else 0) < 2 ^ 1024 := fun i _ =>
    fieldSum_lt_of_le (m := 1024) (hlane i) (by omega)
  rw [patImage_eq_fieldSum, ← bits_bits (w := 1024) _ _ _ (by omega), bits_fieldSum hrow hi (by omega), bits_fieldSum (hlane i) hk (by omega)]
  split <;> rfl

/-- Settles O22: each instruction comes to one of the cases above, by its slot, and the image of a pattern is its rows of lanes. -/
theorem slotLifeAndFills : Obligations.SlotLifeAndFills := by
  unfold Obligations.SlotLifeAndFills
  refine ⟨fun s t f m => ⟨exec_mclaim_takes, fun hi hl hm => exec_mfree_frees hl hm hi, fun hi hl hm => exec_mbind_accepts hl hm hi,
      fun hi hl hm => exec_mquery_answers hl hm hi, exec_mclaim_waits,
      fun hz hl hm => ⟨fun hi => exec_mclaim_claimed hi hl hz hm, fun hi => exec_mbind_refuses hl hm hi hz⟩,
      fun hz x hx hi => ⟨exec_claimedRow_unclaimed hx hi hz, exec_claimedRow_past hx hi hz⟩, fun hz hl hi => exec_mclaim_past hi hz hl⟩,
    fun s t f m hl hm => ⟨fun hi hrows hs => ⟨fun hload => ?_, exec_mfill_waits hl hm hi hrows hs⟩, exec_mgen_fills hl hm,
      fun hi => ⟨exec_mgen_waits hl hm hi, fun hload hbad hz => exec_mgen_refuses hl hm hi hz hload hbad⟩,
      fun hi hrows hz => exec_mfill_past hl hm hi hz hrows, fun pat p _ _ _ _ => bits_patImage pat p⟩⟩
  exact ⟨_, _, exec_mfill_fills hl hm hi hrows hs hload, rfl, rfl, rfl, rfl, rfl, fun _ _ hi hk => m.bit_filled _ _ _ hi hk⟩

end Sys2Proof.Machine
end

section
/-! PROOFS. The step of a fetch that fails (10_page R220, R223; 12_traps R247 step 1): what a trap of the executing strand at its program
counter comes to, and the statement O7. -/

namespace Sys2Proof.Machine

section
variable {s : State} {t : Strand} {tr : Trap}

/-- A strand that can trap meets no absent frame in doing so. -/
theorem State.CanTrap.whole (hc : s.CanTrap t tr) (hx : s.Executes t) : (s.traps t tr).chip.Whole := by
  obtain ⟨hwhole, hstrand⟩ := hx
  rcases hc with ⟨⟨hhandler, howes⟩, hcause⟩ | hw
  · unfold State.traps Chip.Whole
    rw [State.withChip_chip, Chip.takeTrap_strand hstrand hhandler howes hcause, Chip.setCore_halt, Chip.setStrand_halt]
    exact hwhole
  · exact hw

/-- A step that only stops the executing strand is its trap at the program counter. -/
theorem State.stopStrand_traps (hx : s.Executes t) (hc : s.CanTrap t tr) (i : Instr) : s.stopStrand i tr = .next (s.traps t tr) := by
  simp only [State.stopStrand, Chip.finish, hx.2]
  exact State.onChip_whole s (hc.whole hx)

end

section
variable {s : State} {t : Strand} {x : Cause}

theorem exec_instructionFetchFault_trap (hx : s.Executes t) (h : s.chip.translate (s.chip.who t) .fetch 16 t.pc 16 = .trap x) :
    exec .instructionFetchFault s = s.stopStrand .instructionFetchFault (Trap.instr x 0 t.pc) := by
  change execInstructionFetchFault s = _
  simp only [execInstructionFetchFault, hx.2, h]

/-- R223: the page is a peer's, and the route to it is down. -/
theorem exec_instructionFetchFault_down (hx : s.Executes t) {y : Xl} (h : s.chip.translate (s.chip.who t) .fetch 16 t.pc 16 = .ok y)
    (hd : y.down = true) : exec .instructionFetchFault s = s.stopStrand .instructionFetchFault (Trap.instr .linkDown 0 t.pc) := by
  change execInstructionFetchFault s = _
  simp only [execInstructionFetchFault, hx.2, h, hd, if_true]

end

/-- Settles O7: both failures stop the strand with their cause, and a stop is the trap at the program counter. -/
theorem fetchFaultTraps : Obligations.FetchFaultTraps := by
  unfold Obligations.FetchFaultTraps
  intro s t x hx hfail hc
  rcases hfail with htrap | ⟨y, hok, hdown, rfl⟩
  · rw [exec_instructionFetchFault_trap hx htrap, State.stopStrand_traps hx hc]
  · rw [exec_instructionFetchFault_down hx hok hdown, State.stopStrand_traps hx hc]

end Sys2Proof.Machine
end

section
/-! PROOFS. The traffic of memory as steps of their own (10_page R217, R218; 11_ordering R225, R226): what a physical write leaves in and
outside its bytes, the write-back of one dirty line, the arrival of a posted access at its owner, the pull of a line of a migrating page, and
the statement O56. -/

namespace Sys2Proof.Machine

theorem State.onChip_self {s : State} (h : s.chip.Whole) : s.onChip s.chip = .next s := State.onChip_whole s h

/-! ### Keys of bytes -/

theorem physKey_add (p : Place) (pa i : Nat) : physKey p (pa + i) = physKey p pa + i := (Nat.add_assoc ..).symm

/-- Every memory's bytes fit the region that `physKey` gives it. -/
theorem Place.size_le (p : Place) : Place.size p ≤ 2 ^ 64 := by
  cases p with
  | near d | far d | store d | core d =>
    simp only [Place.size]
    split <;> decide
  | host => exact Nat.le_refl _
  | peer n => exact Nat.pow_le_pow_right (by decide) (by decide : 52 ≤ 64)

/-- Bytes of two memories do not meet. -/
theorem physKey_apart {p q : Place} {a n b k : Nat} (hne : Place.index p ≠ Place.index q) (hp : Place.has p a n = true)
    (hq : Place.has q b k = true) : physKey p a + n ≤ physKey q b ∨ physKey q b + k ≤ physKey p a := by
  have hps := Place.size_le p
  have hqs := Place.size_le q
  simp only [Place.has, decide_eq_true_eq] at hp hq
  unfold physKey
  omega

/-! ### Physical writes -/

theorem Memory.read_write_apart {m : Memory} (h : m.wf = true) {a b n : Nat} {bs : List Byte} (hd : b + n ≤ a ∨ a + bs.length ≤ b) :
    (m.write a bs).read b n = m.read b n := by
  rw [Memory.read_eq (Memory.write_wf h a bs), Memory.read_eq h]
  refine List.map_congr_left fun i hi => ?_
  have hin := List.mem_range.1 hi
  rw [Memory.byte_write h, if_neg (by omega)]

section
variable {c : Chip} {p q : Place} {pa qa n : Nat} {bs : List Byte}

/-- A chip that is whole after a physical write was so before, and the bytes are the device's. -/
theorem Chip.writePhys_whole (h : (c.writePhys p pa bs).Whole) : c.Whole ∧ Place.has p pa bs.length = true := by
  unfold Chip.writePhys at h
  split at h
  · next hh => exact ⟨h, hh⟩
  · unfold Chip.Whole Chip.absent at h
    dsimp only at h
    split at h <;> cases h

variable (hm : c.mem.wf = true)
include hm

theorem Chip.length_readPhys : (c.readPhys p pa n).length = n := by
  rw [Chip.readPhys, Memory.read_eq hm, List.length_map, List.length_range]

theorem Chip.readPhys_writePhys_same (hh : Place.has p pa bs.length = true) (hn : bs.length = n) :
    (c.writePhys p pa bs).readPhys p pa n = bs := by
  subst hn
  rw [Chip.writePhys_has hh]
  exact Memory.read_write hm ..

/-- A read that meets no byte of a write. A write outside the device's memory writes nothing. -/
theorem Chip.readPhys_writePhys_apart
    (hd : Place.has p pa bs.length = true → physKey q qa + n ≤ physKey p pa ∨ physKey p pa + bs.length ≤ physKey q qa) :
    (c.writePhys p pa bs).readPhys q qa n = c.readPhys q qa n := by
  unfold Chip.writePhys
  split
  · next hh => exact Memory.read_write_apart hm (hd hh)
  · rfl

end

/-! ### The write-back of a dirty line -/

theorem getD_mergeDirty (l : L1Line) {old : List Byte} {i : Nat} (hi : i < old.length) (b : Byte) :
    (mergeDirty l old).getD i b = if bit l.dirty i then bits l.data (8 * i) 8 else old[i] := by
  simp [mergeDirty, hi]

/-- A core after its lines that a test selects have been written back: clean, or dropped. -/
def Core.flushed (x : Core) (sel : L1Line → Bool) (drop : Bool) : Core :=
  { x with l1 := if drop then x.l1.filter (fun l => !sel l) else x.l1.map fun l => if sel l then { l with dirty := 0 } else l }

/-- Selected lines that remain are the selected ones of before, clean. -/
theorem Core.mem_flushed {x : Core} {sel : L1Line → Bool} {drop : Bool} {y : L1Line} (hy : y ∈ (x.flushed sel drop).l1) (hs : sel y = true) :
    drop = false ∧ ∃ z ∈ x.l1.filter sel, y = { z with dirty := 0 } := by
  cases drop with
  | true => simp [flushed, hs] at hy
  | false =>
    obtain ⟨z, hz, rfl⟩ := List.mem_map.1 hy
    refine ⟨rfl, z, ?_⟩
    cases hsel : sel z with
    | true => exact ⟨List.mem_filter.2 ⟨hz, hsel⟩, if_pos rfl⟩
    | false => simp [hsel] at hs

section
variable {c : Chip} {l : L1Line}

theorem Chip.writeBack_eq (hg : l.mig = none) (hd : l.dirty ≠ 0) :
    c.writeBack l = c.writePhys l.place l.pa (mergeDirty l (c.readPhys l.place l.pa 64)) := by
  simp only [Chip.writeBack, if_neg hd, hg, Chip.pull]

/-- With nothing posted, a flush that selects one line, a dirty one, writes it back. -/
theorem Chip.flushLines_oneLine {core : Nat} {sel : L1Line → Bool} {drop : Bool} (hp : c.posted = []) (hd : l.dirty ≠ 0)
    (hs : (c.core core).l1.filter sel = [l]) :
    c.flushLines core sel drop = (c.writeBack l).setCore core ((c.core core).flushed sel drop) := by
  have hmem : l ∈ (c.core core).l1 := (List.mem_filter.1 (hs ▸ List.mem_singleton_self l)).1
  have hsome : (c.core core).l1.isEmpty = false := List.isEmpty_eq_false_iff_exists_mem.2 ⟨l, hmem⟩
  simp only [Chip.flushLines, hs, List.foldl_cons, List.foldl_nil, if_neg hd, hsome, Chip.drainFor, hp, List.any_nil, Bool.false_eq_true, if_false]
  rfl

section
variable (hm : c.mem.wf = true) (hg : l.mig = none) (hd : l.dirty ≠ 0) (hh : Place.has l.place l.pa 64 = true)
include hm hg hd hh

theorem Chip.writeBack_writes : c.writeBack l =
    { c with mem := c.mem.write (physKey l.place l.pa) (mergeDirty l (c.readPhys l.place l.pa 64)) } ∧
    (mergeDirty l (c.readPhys l.place l.pa 64)).length = 64 := by
  have hlen : (mergeDirty l (c.readPhys l.place l.pa 64)).length = 64 := by rw [mergeDirty, List.length_mapIdx, Chip.length_readPhys hm]
  exact ⟨by rw [Chip.writeBack_eq hg hd, Chip.writePhys_has (by rwa [hlen])], hlen⟩

/-- R225: in the line's 64 bytes, the dirty ones are the line's and the others stay. -/
theorem Chip.byte_writeBack_line {i : Nat} (hi : i < 64) : (c.writeBack l).mem.byte (physKey l.place (l.pa + i)) =
    if bit l.dirty i then bits l.data (8 * i) 8 else c.mem.byte (physKey l.place (l.pa + i)) := by
  obtain ⟨hw, hlen⟩ := Chip.writeBack_writes hm hg hd hh
  have hread : c.readPhys l.place l.pa 64 = (List.range 64).map fun i => c.mem.byte (physKey l.place l.pa + i) := Memory.read_eq hm ..
  have hold : i < (c.readPhys l.place l.pa 64).length := by rwa [Chip.length_readPhys hm]
  rw [hw, physKey_add, Memory.byte_write hm, hlen, if_pos (by omega), Nat.add_sub_cancel_left, getD_mergeDirty l hold]
  simp only [hread, List.getElem_map, List.getElem_range]

theorem Chip.byte_writeBack_outside {a : Nat} (ha : a < physKey l.place l.pa ∨ physKey l.place l.pa + 64 ≤ a) :
    (c.writeBack l).mem.byte a = c.mem.byte a := by
  obtain ⟨hw, hlen⟩ := Chip.writeBack_writes hm hg hd hh
  rw [hw, Memory.byte_write hm, hlen, if_neg (by omega)]

end

end

/-- The write-back of the one line of a context that meets a line's addresses. -/
theorem exec_dirtyLineWriteBack {s : State} {core ctx : Nat} {va : W64} {evict : Bool} {l : L1Line} (hw : s.chip.Whole)
    (hm : s.chip.mem.wf = true) (hp : s.chip.posted = []) (hg : l.mig = none) (hd : l.dirty ≠ 0) (hh : Place.has l.place l.pa 64 = true)
    (hs : (s.chip.core core).l1.filter (fun y => y.meets ctx (lineOf va) (lineOf va + 64)) = [l]) :
    exec (.dirtyLineWriteBack core ctx va evict) s = .next (s.withChip ((s.chip.writeBack l).setCore core
      ((s.chip.core core).flushed (fun y => y.meets ctx (lineOf va) (lineOf va + 64)) evict))) := by
  change s.onChip (s.chip.flushRange core ctx (lineOf va) (lineOf va + 64) evict) = _
  rw [Chip.flushRange, Chip.flushLines_oneLine hp hd hs]
  refine State.onChip_whole s ?_
  rw [Chip.setCore_halt, (Chip.writeBack_writes hm hg hd hh).1]
  exact hw

/-! ### A posted access at its owner -/

theorem exec_ownerAccess (n : Nat) (s : State) : exec (.ownerAccess n) s = s.onChip (s.chip.ownerAccess n) := rfl

section
variable {c : Chip} {p : Posted}

/-- The chip from which a posted access has been taken. -/
def Chip.unposted (c : Chip) (n : Nat) : Chip := { c with posted := c.posted.filter fun q => !(q.id == n) }

section
variable (hp : c.posted.filter (fun q => q.id == p.id) = [p])
include hp

theorem Chip.find_posted : c.posted.find? (fun q => q.id == p.id) = some p := by
  rw [← List.head?_filter, hp]
  rfl

/-- No older access of its core meets it. -/
theorem Chip.ownerAccess_performs (hold : ∀ q ∈ c.posted, q.id < p.id → q.core = p.core → q.meets p.place p.pa p.len = false) :
    c.ownerAccess p.id = (c.unposted p.id).perform p := by
  have hmem : p ∈ c.posted := (List.mem_filter.1 (hp ▸ List.mem_singleton_self p)).1
  have hsome : c.posted.isEmpty = false := List.isEmpty_eq_false_iff_exists_mem.2 ⟨p, hmem⟩
  have hnone : c.posted.any (fun q => decide (q.id < p.id) && q.core == p.core && q.meets p.place p.pa p.len) = false := by
    refine List.any_eq_false.2 fun q hq hmeets => ?_
    simp only [Bool.and_eq_true, decide_eq_true_eq, beq_iff_eq] at hmeets
    obtain ⟨⟨hlt, hcore⟩, hmeets⟩ := hmeets
    simp [hold q hq hlt hcore] at hmeets
  simp only [Chip.ownerAccess, Chip.find_posted hp, hnone, Chip.drainIf, hsome, hp, List.foldl_cons, List.foldl_nil, Bool.false_eq_true, if_false]
  rfl

/-- R226: it does not overtake an older access of its core to a byte. -/
theorem Chip.ownerAccess_stays (hold : ∃ q ∈ c.posted, q.id < p.id ∧ q.core = p.core ∧ q.meets p.place p.pa p.len = true) :
    c.ownerAccess p.id = c := by
  obtain ⟨q, hq, hlt, hcore, hmeets⟩ := hold
  have hsome : c.posted.any (fun q => decide (q.id < p.id) && q.core == p.core && q.meets p.place p.pa p.len) = true :=
    List.any_eq_true.2 ⟨q, hq, by simp [hlt, hcore, hmeets]⟩
  simp only [Chip.ownerAccess, Chip.find_posted hp, hsome, if_true]

end

theorem Chip.perform_write {bs : List Byte} (hb : p.work = .inl bs) (hg : p.mig = none) : c.perform p = c.writePhys p.place p.pa bs := by
  simp only [Chip.perform, hb, hg, Chip.pull]

/-- A posted write leaves its bytes at the place and address that its checks gave. -/
theorem Chip.perform_write_reads {bs : List Byte} (hw : c.Whole) (hm : c.mem.wf = true) (hb : p.work = .inl bs) (hg : p.mig = none)
    (hh : Place.has p.place p.pa bs.length = true) :
    (c.perform p).Whole ∧ (c.perform p).readPhys p.place p.pa bs.length = bs := by
  rw [Chip.perform_write hb hg]
  refine ⟨?_, Chip.readPhys_writePhys_same hm hh rfl⟩
  rw [Chip.writePhys_has hh]
  exact hw

end

/-! ### The pull of a line of a migrating page -/

@[simp] theorem Chip.readPhys_copyTags (c : Chip) (sp : Place) (src : Nat) (np : Place) (new : Nat) (p : Place) (pa n : Nat) :
    (c.copyTags sp src np new).readPhys p pa n = c.readPhys p pa n := by
  simp [Chip.readPhys]

@[simp] theorem Chip.copyTags_halt (c : Chip) (sp : Place) (src : Nat) (np : Place) (new : Nat) :
    (c.copyTags sp src np new).halt = c.halt := by
  unfold Chip.copyTags
  split
  · rfl
  · refine foldl_keeps (P := fun d : Chip => d.halt = c.halt) (fun d i h => ?_) _ rfl
    exact h

/-- Whether every bit of a migration record's map is 1 (R217). -/
def Chip.mapFull (c : Chip) (m : Mig) : Bool :=
  Memory.allOnes (m.size / 512) (physKey (.near m.die) (m.rcd + 64)) (Memory.from (physKey (.near m.die) (m.rcd + 64)) c.mem)

/-- The first byte of a migration record; bit 7 is DONE. -/
def Chip.migFlags (c : Chip) (m : Mig) : Byte := (c.readPhys (.near m.die) m.rcd 1).headD 0

/-- The byte of a migration record's map that holds a line's bit (R217). -/
def Chip.mapByte (c : Chip) (m : Mig) (i : Nat) : Byte := (c.readPhys (.near m.die) (m.rcd + 64 + i / 8) 1).headD 0

section
variable {c : Chip} {m : Mig}

theorem Chip.migDone_full (h : c.mapFull m = true) : c.migDone m = c.writePhys (.near m.die) m.rcd [c.migFlags m ||| 0x80] := if_pos h
theorem Chip.migDone_missing (h : c.mapFull m = false) : c.migDone m = c := if_neg (ne_true_of_eq_false h)

theorem Chip.whole_of_migDone (hw : (c.migDone m).Whole) : c.Whole := by
  cases h : c.mapFull m with
  | true => exact (Chip.writePhys_whole (Chip.migDone_full h ▸ hw)).1
  | false => exact Chip.migDone_missing h ▸ hw

/-- The owner writes the record's first byte at most. -/
theorem Chip.readPhys_migDone (hm : c.mem.wf = true) {p : Place} {pa n : Nat} (hd : Place.has (.near m.die) m.rcd 1 = true →
      physKey p pa + n ≤ physKey (.near m.die) m.rcd ∨ physKey (.near m.die) m.rcd + 1 ≤ physKey p pa) :
    (c.migDone m).readPhys p pa n = c.readPhys p pa n := by
  cases h : c.mapFull m with
  | true => rw [Chip.migDone_full h, Chip.readPhys_writePhys_apart hm hd]
  | false => rw [Chip.migDone_missing h]

/-- R217: DONE is set where the map is full, and stays otherwise. -/
theorem Chip.done_migDone (hm : c.mem.wf = true) (hw : (c.migDone m).Whole) :
    bit ((c.migDone m).migFlags m) 7 = (bit (c.migFlags m) 7 || c.mapFull m) := by
  cases h : c.mapFull m with
  | true =>
    rw [Chip.migDone_full h] at hw ⊢
    rw [Chip.migFlags, Chip.readPhys_writePhys_same hm (Chip.writePhys_whole hw).2 (List.length_singleton ..)]
    simp [bit]
  | false => rw [Chip.migDone_missing h, Bool.or_false]

/-- The first absent line's bit is 0. -/
theorem Chip.absentLine_absent {fuel j i : Nat} (h : c.absentLine m j fuel = some i) : bit (c.mapByte m i) (i % 8) = false := by
  induction fuel generalizing j with
  | zero => cases h
  | succ fuel ih =>
    unfold Chip.absentLine at h
    split at h
    · exact ih h
    · next hbit =>
      cases h
      exact eq_false_of_ne_true hbit

theorem bit_or_one_shiftLeft (b : Byte) {k : Nat} (hk : k < 8) : bit (b ||| ((1 <<< k : Nat) : Byte)) k = true := by
  have hone : ((1 <<< k : Nat) : Byte).getLsbD k = true := by
    rw [BitVec.natCast_eq_ofNat, BitVec.getLsbD_ofNat, Nat.one_shiftLeft, Nat.testBit_two_pow_self, decide_eq_true hk, Bool.true_and]
  rw [bit, BitVec.getLsbD_or, hone, Bool.or_true]

section
variable {i src new : Nat} {sp np : Place}

/-- The chip in which a line's bytes and tags have been copied and its bit of the map set; DONE is still as it was. -/
def Chip.lineCopied (c : Chip) (m : Mig) (sp : Place) (src : Nat) (np : Place) (new i : Nat) : Chip :=
  ((c.writePhys np (new + 64 * i) (c.readPhys sp (src + 64 * i) 64)).copyTags sp (src + 64 * i) np (new + 64 * i)).writePhys (.near m.die)
    (m.rcd + 64 + i / 8) [c.mapByte m i ||| 1 <<< (i % 8)]

theorem Chip.pullLine_absent (hh : c.migHeader m.die m.rcd m.size false = some (sp, src, np, new))
    (ha : bit (c.mapByte m i) (i % 8) = false) : c.pullLine m i = (c.lineCopied m sp src np new i).migDone m := by
  unfold Chip.mapByte at ha
  simp only [Chip.pullLine, hh, ha, Bool.false_eq_true, if_false]
  rfl

variable (hm : c.mem.wf = true)
include hm

theorem Chip.lineCopied_wf : (c.lineCopied m sp src np new i).mem.wf = true := by
  unfold Chip.lineCopied
  exact Chip.writePhys_wf (by rw [Chip.copyTags_mem]; exact Chip.writePhys_wf hm ..) ..

/-- A line that is copied without an absent frame lies in the device's memory, and so does its bit of the map. -/
theorem Chip.lineCopied_whole (hw : (c.lineCopied m sp src np new i).Whole) :
    Place.has np (new + 64 * i) 64 = true ∧ Place.has (.near m.die) (m.rcd + 64 + i / 8) 1 = true := by
  unfold Chip.lineCopied at hw
  obtain ⟨htags, hmap⟩ := Chip.writePhys_whole hw
  rw [Chip.Whole, Chip.copyTags_halt] at htags
  have hline := (Chip.writePhys_whole htags).2
  rw [Chip.length_readPhys hm] at hline
  exact ⟨hline, hmap⟩

/-- R218: with the new frame in another memory than the record, the pull leaves the source's bytes there and the line's bit set. -/
theorem Chip.pullLine_pulls (hh : c.migHeader m.die m.rcd m.size false = some (sp, src, np, new))
    (ha : bit (c.mapByte m i) (i % 8) = false) (hne : Place.index np ≠ m.die) (hw : (c.pullLine m i).Whole) :
    (c.pullLine m i).readPhys np (new + 64 * i) 64 = c.readPhys sp (src + 64 * i) 64 ∧ bit ((c.pullLine m i).mapByte m i) (i % 8) = true := by
  rw [Chip.pullLine_absent hh ha] at hw ⊢
  obtain ⟨hline, hmap⟩ := Chip.lineCopied_whole hm (Chip.whole_of_migDone hw)
  have hcopied := Chip.lineCopied_wf (m := m) (sp := sp) (src := src) (np := np) (new := new) (i := i) hm
  have hlen : (c.readPhys sp (src + 64 * i) 64).length = 64 := Chip.length_readPhys hm
  have hmoved := Chip.writePhys_wf hm np (new + 64 * i) (c.readPhys sp (src + 64 * i) 64)
  constructor
  · rw [Chip.readPhys_migDone hcopied (physKey_apart hne hline), Chip.lineCopied,
      Chip.readPhys_writePhys_apart (by rwa [Chip.copyTags_mem]) (physKey_apart hne hline), Chip.readPhys_copyTags,
      Chip.readPhys_writePhys_same hm (by rwa [hlen]) hlen]
  · have hbehind : physKey (.near m.die) m.rcd + 1 ≤ physKey (.near m.die) (m.rcd + 64 + i / 8) := by
      unfold physKey
      omega
    rw [Chip.mapByte, Chip.readPhys_migDone hcopied fun _ => Or.inr hbehind, Chip.lineCopied,
      Chip.readPhys_writePhys_same (by rwa [Chip.copyTags_mem]) hmap (List.length_singleton ..)]
    exact bit_or_one_shiftLeft _ (Nat.mod_lt _ (by decide))

end

end

theorem exec_migrationPull (ctx : Nat) (va : W64) (s : State) : exec (.migrationPull ctx va) s = s.onChip (s.chip.migrationPull ctx va) := rfl

section
variable {c : Chip} {ctx i : Nat} {va : W64} {m : Mig}

theorem Chip.migrationPull_none (h : c.migrating ctx va = none) : c.migrationPull ctx va = c := by
  simp only [Chip.migrationPull, h]

theorem Chip.migrationPull_done (h : c.migrating ctx va = some m) (ha : c.absentLine m 0 (m.size / 64) = none) :
    c.migrationPull ctx va = c.migDone m := by
  simp only [Chip.migrationPull, h, ha]

theorem Chip.migrationPull_line (h : c.migrating ctx va = some m) (ha : c.absentLine m 0 (m.size / 64) = some i) :
    c.migrationPull ctx va = c.pullLine m i := by
  simp only [Chip.migrationPull, h, ha]

end

/-- Settles O56: each step is its operation on the chip, by the cases above. -/
theorem memoryTraffic : Obligations.MemoryTraffic := by
  unfold Obligations.MemoryTraffic
  intro s hw hm
  refine ⟨fun core ctx va evict l hp hg hd hh hs => ⟨_, exec_dirtyLineWriteBack hw hm hp hg hd hh hs,
      fun i hi => Chip.byte_writeBack_line hm hg hd hh hi, fun a ha => Chip.byte_writeBack_outside hm hg hd hh ha, fun y hy hmeets => ?_⟩,
    fun p hp => ⟨fun hold => ⟨fun hd => ?_, fun bs hb hg hh => Chip.perform_write_reads (c := s.chip.unposted p.id) hw hm hb hg hh⟩,
      fun hold => ?_⟩,
    fun ctx va => ⟨fun hnone => ?_, fun m hmig ha hd => ⟨?_, Chip.done_migDone hm hd⟩,
      fun m i sp src np new hmig ha _ hh hne hd => ⟨?_, ?_⟩⟩⟩
  · rw [State.withChip_chip, Chip.core_setCore, if_pos rfl] at hy
    obtain ⟨hevict, z, hz, rfl⟩ := Core.mem_flushed hy hmeets
    rw [hs, List.mem_singleton] at hz
    exact ⟨hevict, by rw [hz]⟩
  · rw [exec_ownerAccess, Chip.ownerAccess_performs hp hold]
    exact State.onChip_whole s hd
  · rw [exec_ownerAccess, Chip.ownerAccess_stays hp hold, State.onChip_self hw]
  · rw [exec_migrationPull, Chip.migrationPull_none hnone, State.onChip_self hw]
  · rw [exec_migrationPull, Chip.migrationPull_done hmig ha, State.onChip_whole s hd]
  · rw [exec_migrationPull, Chip.migrationPull_line hmig ha, State.onChip_whole s hd]
  · exact Chip.pullLine_pulls hm hh (Chip.absentLine_absent ha) hne hd

end Sys2Proof.Machine
end
